-- ==== Sys2Proof/Word.lean ====
section
/-! DEFINITION. The word types of the block and the two tagged polynomial types (00_scope.md R10, R16; 10_state.md R32). -/

namespace Sys2Proof

/-- A byte: an unsigned 8-bit integer (00_scope.md R16). -/
abbrev Byte := BitVec 8

/-- An operation word (30_encoding.md R90). -/
abbrev Word16 := BitVec 16

/-- One element of a polynomial register, or one field-element wire: 12 bits (00_scope.md R10). -/
abbrev Elem := BitVec 12

/-- 256 elements of 12 bits, without a domain (10_state.md R32). -/
abbrev Coeffs := Vector Elem 256

/-- A byte string of fixed length (00_scope.md R16). -/
abbrev Bytes (n : Nat) := Vector Byte n

/-- The modulus (00_scope.md R10). -/
abbrev q : Nat := 3329

/-- A polynomial in the normal domain: element i is the coefficient of X^i (10_state.md R32). -/
structure NPoly where
  c : Coeffs
deriving DecidableEq, Repr, Inhabited

/-- A polynomial in the NTT domain: element i is position i of the transformed sequence (10_state.md R32).
A type of its own, so that the domains cannot be mixed (10_state.md R35). -/
structure HPoly where
  c : Coeffs
deriving DecidableEq, Repr, Inhabited

/-- The zero polynomial of the normal domain (10_state.md R52). -/
def NPoly.zero : NPoly := { c := Vector.replicate 256 0 }

/-- The zero polynomial of the NTT domain (10_state.md R52). -/
def HPoly.zero : HPoly := { c := Vector.replicate 256 0 }

/-- The rank k of a parameter set (00_scope.md R11). -/
inductive Rank where
  | k2
  | k3
  | k4
deriving DecidableEq, Repr, Inhabited

/-- The noise width eta (00_scope.md R11). -/
inductive Eta where
  | two
  | three
deriving DecidableEq, Repr, Inhabited

end Sys2Proof
end

