-- ==== Sys2Proof/Syntax.lean ====
section
/-! DEFINITION. The operations: one constructor per row of the opcode map (30_encoding.md R92), in its order.
An argument is the ARG nibble as it stands in the word (30_encoding.md R93); which values are legal is said in WellFormed. -/

namespace Sys2Proof

/-- The twenty-one operations (30_encoding.md R92). Operands other than ARG are wired, not encoded (R93). -/
inductive Instr where
  /-- `ADD` of `modular_adder_q3329` (40_field_arith.md R121). -/
  | add
  /-- `SUB` of `modular_adder_q3329` (40_field_arith.md R122). -/
  | sub
  /-- `MUL` of `modular_multiplier_q3329` (40_field_arith.md R123). -/
  | mul
  /-- `NTT` of `ntt_forward_engine` (41_ntt.md R144). -/
  | ntt
  /-- `INTT` of `ntt_inverse_engine` (41_ntt.md R145). -/
  | intt
  /-- `PWM` of `pointwise_mult_ntt` (41_ntt.md R146). -/
  | pwm
  /-- `SAMPLENTT` of `rejection_sampler` (42_sampling.md R161). -/
  | samplentt
  /-- `CBD eta` of `cbd_sampler` (42_sampling.md R166). -/
  | cbd (eta : BitVec 4)
  /-- `COMPRESS d` of `compress_decompress_unit` (43_compress_encode.md R181). -/
  | compress (d : BitVec 4)
  /-- `DECOMPRESS d` of `compress_decompress_unit` (43_compress_encode.md R182). -/
  | decompress (d : BitVec 4)
  /-- `BYTEENC d` of `compress_decompress_unit` (43_compress_encode.md R185). -/
  | byteenc (d : BitVec 4)
  /-- `BYTEDEC d` of `compress_decompress_unit` (43_compress_encode.md R186). -/
  | bytedec (d : BitVec 4)
  /-- `KPKE_ENC k` of `k_pke_encryptor` (44_kpke.md R204). -/
  | kpkeEnc (k : BitVec 4)
  /-- `KPKE_DEC k` of `k_pke_decryptor` (44_kpke.md R205). -/
  | kpkeDec (k : BitVec 4)
  /-- `KEYGEN k` of `ml_kem_wrapper_fsm` (45_mlkem_fsm.md R234). -/
  | keygen (k : BitVec 4)
  /-- `KEYGEN_DET k` of `ml_kem_wrapper_fsm` (45_mlkem_fsm.md R235). -/
  | keygenDet (k : BitVec 4)
  /-- `ENCAPS k` of `ml_kem_wrapper_fsm` (45_mlkem_fsm.md R236). -/
  | encaps (k : BitVec 4)
  /-- `ENCAPS_DET k` of `ml_kem_wrapper_fsm` (45_mlkem_fsm.md R237). -/
  | encapsDet (k : BitVec 4)
  /-- `DECAPS k` of `ml_kem_wrapper_fsm` (45_mlkem_fsm.md R238). -/
  | decaps (k : BitVec 4)
  /-- `CLEAR mask` of `ml_kem_wrapper_fsm` (45_mlkem_fsm.md R239). -/
  | clear (mask : BitVec 4)
  /-- `KPKE_KEYGEN k`, a sub-sequence of `ml_kem_wrapper_fsm` (44_kpke.md R203). -/
  | kpkeKeygen (k : BitVec 4)
deriving DecidableEq, Repr, Inhabited

end Sys2Proof
end

