-- ==== Sys2Proof/WellFormed.lean ====
section
/-! DEFINITION. Which operations exist: the legal values of ARG (30_encoding.md R93). -/

namespace Sys2Proof

/-- A legal rank: 2, 3 or 4 (30_encoding.md R93). -/
def legalRank (k : BitVec 4) : Bool := k == 2#4 || k == 3#4 || k == 4#4

/-- A legal noise width: 2 or 3 (30_encoding.md R93). -/
def legalEta (eta : BitVec 4) : Bool := eta == 2#4 || eta == 3#4

/-- A legal width of `COMPRESS` and `DECOMPRESS`: 1 to 11 (30_encoding.md R93). -/
def legalCompressWidth (d : BitVec 4) : Bool := 1 ≤ d.toNat && d.toNat ≤ 11

/-- A legal width of `BYTEENC` and `BYTEDEC`: 1 to 12 (30_encoding.md R93). -/
def legalByteWidth (d : BitVec 4) : Bool := 1 ≤ d.toNat && d.toNat ≤ 12

/-- The operation exists: its ARG is legal (30_encoding.md R93). Every mask of `CLEAR` is legal. -/
def Instr.wellFormed : Instr → Bool
  | .add => true
  | .sub => true
  | .mul => true
  | .ntt => true
  | .intt => true
  | .pwm => true
  | .samplentt => true
  | .cbd eta => legalEta eta
  | .compress d => legalCompressWidth d
  | .decompress d => legalCompressWidth d
  | .byteenc d => legalByteWidth d
  | .bytedec d => legalByteWidth d
  | .kpkeEnc k => legalRank k
  | .kpkeDec k => legalRank k
  | .keygen k => legalRank k
  | .keygenDet k => legalRank k
  | .encaps k => legalRank k
  | .encapsDet k => legalRank k
  | .decaps k => legalRank k
  | .clear _ => true
  | .kpkeKeygen k => legalRank k

end Sys2Proof
end

