-- ==== Sys2Proof/Decode.lean ====
section
/-! DEFINITION. The one format OPW16 (30_encoding.md R90): the unit decoder on all 65536 words, the host decoder (R95),
and the encoder, written from the same map (R92). -/

namespace Sys2Proof

/-- Why a word is no operation (30_encoding.md R94 to R97, R101). -/
inductive DecodeError where
  /-- Bits 15:12 are not zero (R96). -/
  | zeroField
  /-- UNIT is 0 or 0xC to 0xF (R91). -/
  | noSuchUnit
  /-- The unit has no operation with this FUNC (R92). -/
  | noSuchFunc
  /-- ARG is not legal for the operation (R93). -/
  | illegalArg
  /-- The host may not issue words of this unit or FUNC (R94). -/
  | notHostIssuable
  /-- A deterministic word in a build without `DET_API` (R101). -/
  | detApiOff
deriving DecidableEq, Repr, Inhabited

/-- Bits 15:12 (30_encoding.md R90). -/
def zeroField (w : Word16) : BitVec 4 := w.extractLsb' 12 4

/-- Bits 11:8, which unit (30_encoding.md R90, R91). -/
def unitField (w : Word16) : BitVec 4 := w.extractLsb' 8 4

/-- Bits 7:4, which of the unit's operations (30_encoding.md R90, R92). -/
def funcField (w : Word16) : BitVec 4 := w.extractLsb' 4 4

/-- Bits 3:0, the parameter (30_encoding.md R90, R93). -/
def argField (w : Word16) : BitVec 4 := w.extractLsb' 0 4

/-- An operation with no parameter: ARG must be 0 (30_encoding.md R93). -/
def withNoArg (arg : BitVec 4) (i : Instr) : Except DecodeError Instr :=
  if arg = 0#4 then .ok i else .error .illegalArg

/-- An operation with a parameter: ARG must be legal for it (30_encoding.md R93). -/
def withLegalArg (i : Instr) : Except DecodeError Instr :=
  if i.wellFormed then .ok i else .error .illegalArg

/-- The opcode map: the operation a UNIT, FUNC and ARG name (30_encoding.md R91, R92, R93). -/
def decodeFields (unit func arg : BitVec 4) : Except DecodeError Instr :=
  match unit.toNat with
  | 0x1 =>
    match func.toNat with
    | 0 => withNoArg arg .add
    | 1 => withNoArg arg .sub
    | _ => .error .noSuchFunc
  | 0x2 => if func = 0#4 then withNoArg arg .mul else .error .noSuchFunc
  | 0x3 => if func = 0#4 then withNoArg arg .ntt else .error .noSuchFunc
  | 0x4 => if func = 0#4 then withNoArg arg .intt else .error .noSuchFunc
  | 0x5 => if func = 0#4 then withNoArg arg .pwm else .error .noSuchFunc
  | 0x6 => if func = 0#4 then withNoArg arg .samplentt else .error .noSuchFunc
  | 0x7 => if func = 0#4 then withLegalArg (.cbd arg) else .error .noSuchFunc
  | 0x8 =>
    match func.toNat with
    | 0 => withLegalArg (.compress arg)
    | 1 => withLegalArg (.decompress arg)
    | 2 => withLegalArg (.byteenc arg)
    | 3 => withLegalArg (.bytedec arg)
    | _ => .error .noSuchFunc
  | 0x9 => if func = 0#4 then withLegalArg (.kpkeEnc arg) else .error .noSuchFunc
  | 0xA => if func = 0#4 then withLegalArg (.kpkeDec arg) else .error .noSuchFunc
  | 0xB =>
    match func.toNat with
    | 0 => withLegalArg (.keygen arg)
    | 1 => withLegalArg (.keygenDet arg)
    | 2 => withLegalArg (.encaps arg)
    | 3 => withLegalArg (.encapsDet arg)
    | 4 => withLegalArg (.decaps arg)
    | 5 => withLegalArg (.clear arg)
    | 6 => withLegalArg (.kpkeKeygen arg)
    | _ => .error .noSuchFunc
  | _ => .error .noSuchUnit

/-- The unit decoders taken together: total on all 65536 words, accepting exactly the 95 words of the opcode map
(30_encoding.md R92, R94). -/
def decode (w : Word16) : Except DecodeError Instr :=
  if zeroField w = 0#4 then decodeFields (unitField w) (funcField w) (argField w) else .error .zeroField

/-- The host decoder, line by line as 30_encoding.md R95 has it; `det` is the build-time parameter `DET_API`. -/
def decodeHost (det : Bool) (w : Word16) : Except DecodeError Instr :=
  if zeroField w ≠ 0#4 then .error .zeroField
  else if unitField w ≠ 0xB#4 then .error .notHostIssuable
  else if 5 < (funcField w).toNat then .error .notHostIssuable
  else if funcField w = 5#4 then .ok (.clear (argField w))
  else if !legalRank (argField w) then .error .illegalArg
  else if (funcField w = 1#4 ∨ funcField w = 3#4) ∧ det = false then .error .detApiOff
  else
    match (funcField w).toNat with
    | 0 => .ok (.keygen (argField w))
    | 1 => .ok (.keygenDet (argField w))
    | 2 => .ok (.encaps (argField w))
    | 3 => .ok (.encapsDet (argField w))
    | _ => .ok (.decaps (argField w))

/-- The UNIT code of an operation (30_encoding.md R92). -/
def Instr.unit : Instr → BitVec 4
  | .add => 0x1#4
  | .sub => 0x1#4
  | .mul => 0x2#4
  | .ntt => 0x3#4
  | .intt => 0x4#4
  | .pwm => 0x5#4
  | .samplentt => 0x6#4
  | .cbd _ => 0x7#4
  | .compress _ => 0x8#4
  | .decompress _ => 0x8#4
  | .byteenc _ => 0x8#4
  | .bytedec _ => 0x8#4
  | .kpkeEnc _ => 0x9#4
  | .kpkeDec _ => 0xA#4
  | .keygen _ => 0xB#4
  | .keygenDet _ => 0xB#4
  | .encaps _ => 0xB#4
  | .encapsDet _ => 0xB#4
  | .decaps _ => 0xB#4
  | .clear _ => 0xB#4
  | .kpkeKeygen _ => 0xB#4

/-- The FUNC code of an operation (30_encoding.md R92). -/
def Instr.func : Instr → BitVec 4
  | .add => 0#4
  | .sub => 1#4
  | .mul => 0#4
  | .ntt => 0#4
  | .intt => 0#4
  | .pwm => 0#4
  | .samplentt => 0#4
  | .cbd _ => 0#4
  | .compress _ => 0#4
  | .decompress _ => 1#4
  | .byteenc _ => 2#4
  | .bytedec _ => 3#4
  | .kpkeEnc _ => 0#4
  | .kpkeDec _ => 0#4
  | .keygen _ => 0#4
  | .keygenDet _ => 1#4
  | .encaps _ => 2#4
  | .encapsDet _ => 3#4
  | .decaps _ => 4#4
  | .clear _ => 5#4
  | .kpkeKeygen _ => 6#4

/-- The ARG nibble of an operation; 0 where it has no parameter (30_encoding.md R93). -/
def Instr.arg : Instr → BitVec 4
  | .add => 0#4
  | .sub => 0#4
  | .mul => 0#4
  | .ntt => 0#4
  | .intt => 0#4
  | .pwm => 0#4
  | .samplentt => 0#4
  | .cbd eta => eta
  | .compress d => d
  | .decompress d => d
  | .byteenc d => d
  | .bytedec d => d
  | .kpkeEnc k => k
  | .kpkeDec k => k
  | .keygen k => k
  | .keygenDet k => k
  | .encaps k => k
  | .encapsDet k => k
  | .decaps k => k
  | .clear mask => mask
  | .kpkeKeygen k => k

/-- The operation word: ZERO, UNIT, FUNC, ARG from bit 15 down (30_encoding.md R90). -/
def encode (i : Instr) : Word16 := 0#4 ++ i.unit ++ i.func ++ i.arg

/-- The operation the decoder reads from a word numbered as the opcode table numbers it; the format has 16 bits, so a
number that needs more is no word. -/
def decodeTableWord (nbits w : Nat) : Option Instr :=
  if nbits ≤ 16 ∧ w < 2 ^ 16 then (decode (BitVec.ofNat 16 w)).toOption else none

end Sys2Proof
end

