-- ==== Sys2Proof/Machine/State.lean ====
section
/-! DEFINITION. The state of the block as plain data (10_state.md), the state after reset (10_state.md R52), and the reasons a
step can stop. -/

namespace Sys2Proof.Machine

open Sys2Proof

/-- The state register FSM of the sequencer: fifteen named states and the unused code 15 (10_state.md R27). -/
inductive Fsm where
  | idle
  | check
  | fetchRnd
  | kpkeKg
  | hashEk
  | assembleDk
  | derive
  | encrypt
  | decrypt
  | rejKey
  | compare
  | select
  | fail
  | wipe
  | clr
  /-- Code 15: never entered (10_state.md R27). -/
  | unused
deriving DecidableEq, Repr, Inhabited

/-- The completion codes of 60_exceptions.md R270. -/
inductive Err where
  | none
  | length
  | rng
  | cmd
deriving DecidableEq, Repr, Inhabited

/-- The STATUS register by its fields; bits 15:5 hold nothing (10_state.md R21). DEDUCED (entry 18), safe. -/
structure Status where
  busy : Bool
  done : Bool
  err : Err
deriving DecidableEq, Repr, Inhabited

/-- One buffer: (index, byte) pairs, indexes strictly rising, no byte 0x00; an index not listed reads 0x00, the contents
after reset (10_state.md R52; 20_memory.md R60, R61). DEDUCED (entry 1), safe. -/
abbrev Memory := List Host.Cell

/-- An input buffer with its fill counter (10_state.md R22). -/
structure InBuf where
  mem : Memory
  cnt : Nat
deriving DecidableEq, Repr, Inhabited

/-- An output buffer with its length register (10_state.md R24). -/
structure OutBuf where
  mem : Memory
  len : Nat
deriving DecidableEq, Repr, Inhabited

/-- The names of the input buffers (10_state.md R22). -/
inductive InName where
  | key
  | ct
  | seed
deriving DecidableEq, Repr, Inhabited

/-- The names of the output buffers (10_state.md R24). -/
inductive OutName where
  | eko
  | dko
  | cto
  | sso
deriving DecidableEq, Repr, Inhabited

/-- The names of the normal-domain polynomial registers (10_state.md R32). -/
inductive NReg where
  | sn (i : Fin 4)
  | en (i : Fin 4)
  | un (i : Fin 4)
  | e2n
  | mun
  | vn
  | wn
deriving DecidableEq, Repr, Inhabited

/-- The names of the NTT-domain polynomial registers (10_state.md R32). -/
inductive HReg where
  | aij
  | sh (i : Fin 4)
  | eh (i : Fin 4)
  | th (i : Fin 4)
  | acch
  | prodh
  | uh
deriving DecidableEq, Repr, Inhabited

/-- The working registers (10_state.md R30, R32, R33, R39). -/
structure Work where
  dseed : Bytes 32
  zseed : Bytes 32
  msg : Bytes 32
  hek : Bytes 32
  rho : Bytes 32
  sigma : Bytes 32
  kr : Bytes 64
  kbar : Bytes 32
  nctr : Byte
  prfbuf : Bytes 192
  xofin : Bytes 34
  aij : HPoly
  sh : Vector HPoly 4
  eh : Vector HPoly 4
  th : Vector HPoly 4
  acch : HPoly
  prodh : HPoly
  uh : HPoly
  sn : Vector NPoly 4
  en : Vector NPoly 4
  un : Vector NPoly 4
  e2n : NPoly
  mun : NPoly
  vn : NPoly
  wn : NPoly
  cz : Coeffs
  ct2 : Memory
  diff : Byte
  mask : Byte
  xofcur : Nat
deriving DecidableEq, Repr, Inhabited

/-- The ports of the ten units below the wrapper: what stands on each unit's operand and result wires (10_state.md R31, R44).
DESIGN CHOICE (entry 8): the wires keep their last value until a transaction or a WIPE changes it. Byte operands whose
length depends on ARG are held at their largest length, of which the operation uses the first bytes. -/
structure Ports where
  addFn : BitVec 1
  addA : Elem
  addB : Elem
  addR : Elem
  mulA : Elem
  mulB : Elem
  mulR : Elem
  nttIn : NPoly
  nttOut : HPoly
  inttIn : HPoly
  inttOut : NPoly
  pwmF : HPoly
  pwmG : HPoly
  pwmOut : HPoly
  smpIn : Bytes 34
  smpOut : HPoly
  /-- The count j of accepted elements of the running `SAMPLENTT` (42_sampling.md R161). -/
  smpCnt : Nat
  cbdIn : Bytes 192
  cbdOut : NPoly
  cmpIn : NPoly
  cmpOut : Coeffs
  dcmIn : Coeffs
  dcmOut : NPoly
  bencIn : Coeffs
  bencOut : Bytes 384
  bdecIn : Bytes 384
  bdecOut : Coeffs
  encEk : Bytes 1568
  encM : Bytes 32
  encR : Bytes 32
  encC : Bytes 1568
  decDkp : Bytes 1536
  decC : Bytes 1568
  decM : Bytes 32
deriving DecidableEq, Repr, Inhabited

/-- One transaction of a sequencer: a unit transaction with its wiring, a provider request, or a register transfer. A sequence
of them is a rule's pseudocode line by line: two lines together where the second only decodes or packs what the first leaves in
CZ, one line in parts where it makes more than one request. DESIGN CHOICE (entry 16), safe (10_state.md R43;
44_kpke.md R200 to R205; 45_mlkem_fsm.md R232 to R241). -/
inductive Txn where
  /-- The CHECK step (45_mlkem_fsm.md R232). -/
  | check (op : Instr)
  /-- One randomness draw of FETCH_RND (45_mlkem_fsm.md R233). -/
  | draw (op : Instr) (i : Nat)
  /-- An operation word presented to its unit, operands and results at the unit's ports (10_state.md R43; 30_encoding.md R100). -/
  | op (w : Word16)
  /-- `HEK <- H(EKO)` (45_mlkem_fsm.md R234). -/
  | hashEko (k : Rank)
  /-- `HEK <- H(KEY)` (45_mlkem_fsm.md R236). -/
  | hashKey (k : Rank)
  /-- ASSEMBLE_DK (45_mlkem_fsm.md R234). -/
  | assembleDk (k : Rank)
  /-- `KR <- G(MSG, HEK)` (45_mlkem_fsm.md R236). -/
  | derive
  /-- `KBAR <- J(ZSEED, CT)` (45_mlkem_fsm.md R238). -/
  | rejKey (k : Rank)
  /-- The operands of `KPKE_ENC k` onto its ports in an encapsulation (45_mlkem_fsm.md R236). -/
  | encapsIn (k : Rank)
  /-- The result of `KPKE_ENC k` and K into the output buffers (45_mlkem_fsm.md R236). -/
  | encapsOut (k : Rank)
  /-- The operands of `KPKE_DEC k` onto its ports (45_mlkem_fsm.md R238). -/
  | decryptIn (k : Rank)
  /-- The result of `KPKE_DEC k` into MSG (45_mlkem_fsm.md R238). -/
  | decryptOut
  /-- The operands of `KPKE_ENC k` onto its ports in a decapsulation (45_mlkem_fsm.md R238). -/
  | reencIn (k : Rank)
  /-- The result of `KPKE_ENC k` into CT2 (45_mlkem_fsm.md R238). -/
  | reencOut (k : Rank)
  /-- COMPARE (45_mlkem_fsm.md R238). -/
  | compare (k : Rank)
  /-- SELECT (45_mlkem_fsm.md R238). -/
  | select
  /-- FAIL (60_exceptions.md R277). -/
  | discard
  /-- WIPE (45_mlkem_fsm.md R241). -/
  | wipe (op : Instr)
  /-- CLR (45_mlkem_fsm.md R239). -/
  | clr (mask : BitVec 4)
  /-- `KR <- G(DSEED, byte(k))` (44_kpke.md R203). -/
  | seedG (k : Rank)
  /-- `RHO <- KR[0:32] ; SIGMA <- KR[32:64] ; NCTR <- 0` (44_kpke.md R203). -/
  | splitSeeds
  /-- `RHO <- ek[384k : 384k + 32] ; SIGMA <- r ; NCTR <- 0` (44_kpke.md R204). -/
  | encSeeds (k : Rank)
  /-- `PRFBUF[0 : 64 eta] <- PRF(eta, SIGMA, byte(NCTR))` (44_kpke.md R201). -/
  | prf (eta : Eta)
  /-- `CBD eta` of PRFBUF into a register, and `NCTR <- NCTR + 1` (44_kpke.md R201). -/
  | cbd (eta : Eta) (dst : NReg)
  /-- `NTT` from a normal-domain register to an NTT-domain one (41_ntt.md R144). -/
  | ntt (src : NReg) (dst : HReg)
  /-- `INTT` from an NTT-domain register to a normal-domain one (41_ntt.md R145). -/
  | intt (src : HReg) (dst : NReg)
  /-- `XOFIN <- RHO, byte(col), byte(row)` (44_kpke.md R200). -/
  | xofin (row col : Fin 4)
  /-- The start of `SAMPLENTT(XOFIN)`: the XOF request, the cursor and the count at 0 (42_sampling.md R160, R161). -/
  | sampleStart
  /-- The loop of `SAMPLENTT` (42_sampling.md R161), at most `patience` + 1 groups of it a turn. -/
  | sampleLoop
  /-- The result of `SAMPLENTT` into AIJ (44_kpke.md R200). -/
  | sampleTake
  /-- `ACCH <- 0` (44_kpke.md R202). -/
  | clearAcc
  /-- `PRODH <- PWM(a, b)` (44_kpke.md R202). -/
  | pwm (a b : HReg)
  /-- `PolyAdd` of two NTT-domain registers (40_field_arith.md R126). -/
  | addH (a b dst : HReg)
  /-- `PolyAdd` of two normal-domain registers (40_field_arith.md R126). -/
  | addN (a b dst : NReg)
  /-- `PolySub` of two normal-domain registers (40_field_arith.md R127). -/
  | subN (a b dst : NReg)
  /-- `MemWrite(EKO, 384 i, 384, BYTEENC(12, TH[i]))` (44_kpke.md R203). -/
  | encodeT (i : Fin 4)
  /-- `MemWrite(EKO, 384 k, 32, RHO)` (44_kpke.md R203). -/
  | writeRho (k : Rank)
  /-- `MemWrite(DKO, 384 i, 384, BYTEENC(12, SH[i]))` (44_kpke.md R203). -/
  | encodeS (i : Fin 4)
  /-- `TH[i] <- BYTEDEC(12, ek[384 i : 384 (i+1)])` (44_kpke.md R204). -/
  | decodeT (i : Fin 4)
  /-- `CZ <- BYTEDEC(1, m)` and `MUN <- DECOMPRESS(1, CZ)` (44_kpke.md R204). -/
  | message
  /-- `CZ <- COMPRESS(du, UN[i]) ; c[32 du i : 32 du (i+1)] <- BYTEENC(du, CZ)` (44_kpke.md R204). -/
  | packU (k : Rank) (i : Fin 4)
  /-- `CZ <- COMPRESS(dv, VN) ; c[32 du k : 32 (du k + dv)] <- BYTEENC(dv, CZ)` (44_kpke.md R204). -/
  | packV (k : Rank)
  /-- `CZ <- BYTEDEC(du, c[32 du i : 32 du (i+1)]) ; UN[i] <- DECOMPRESS(du, CZ)` (44_kpke.md R205). -/
  | unpackU (k : Rank) (i : Fin 4)
  /-- `CZ <- BYTEDEC(dv, c[32 du k : 32 (du k + dv)]) ; VN <- DECOMPRESS(dv, CZ)` (44_kpke.md R205). -/
  | unpackV (k : Rank)
  /-- `SH[i] <- BYTEDEC(12, dkp[384 i : 384 (i+1)])` (44_kpke.md R205). -/
  | decodeS (i : Fin 4)
  /-- `CZ <- COMPRESS(1, WN)` and `m <- BYTEENC(1, CZ)` (44_kpke.md R205). -/
  | recover
deriving DecidableEq, Repr, Inhabited

/-- The host actions (10_state.md R26). -/
inductive HostAction where
  /-- `HostReset()` (70_reset_and_hazards.md R310). -/
  | reset
  /-- `HostCmd(w)` (10_state.md R20). -/
  | cmd (w : Word16)
  /-- `HostPush(b, v)` (10_state.md R23). -/
  | push (b : InName) (v : Byte)
  /-- `HostRead(b, i)` (10_state.md R25). -/
  | read (b : OutName) (i : Nat)
  /-- `HostStatus()` (10_state.md R21, R22, R24). -/
  | status
deriving DecidableEq, Repr, Inhabited

/-- What happens next, as the world outside the block has it (20_memory.md R74): a host action, or a turn of the block. -/
inductive Event where
  | host (a : HostAction)
  | block
deriving DecidableEq, Repr, Inhabited

/-- What a host action returned (10_state.md R21, R22, R24, R25). -/
inductive Reply where
  | none
  | byte (b : Byte)
  | status (word keyCnt ctCnt seedCnt ekoLen dkoLen ctoLen ssoLen : Word16)
deriving DecidableEq, Repr, Inhabited

/-- One item of the trace of a word (70_reset_and_hazards.md R318): a state of FSM, a unit transaction by its operation word
(with how many lanes of it), a provider request by its function and the length of its input, a randomness draw, and the
number of stream bytes a finished `SAMPLENTT` has read. -/
inductive TraceItem where
  | state (f : Fsm)
  | unit (w : Word16) (times : Nat)
  | reqH (len : Nat)
  | reqG (len : Nat)
  | reqJ (len : Nat)
  | reqPrf (eta : Eta) (len : Nat)
  | reqXof (len : Nat)
  | draw
  | stream (bytes : Nat)
deriving DecidableEq, Repr, Inhabited

/-- The state of the machine. -/
structure State where
  /-- STATUS (10_state.md R21). -/
  status : Status
  /-- KEY and KEY_CNT (10_state.md R22). -/
  key : InBuf
  /-- CT and CT_CNT (10_state.md R22). -/
  ct : InBuf
  /-- SEED and SEED_CNT (10_state.md R22). -/
  seed : InBuf
  /-- EKO and EKO_LEN (10_state.md R24). -/
  eko : OutBuf
  /-- DKO and DKO_LEN (10_state.md R24). -/
  dko : OutBuf
  /-- CTO and CTO_LEN (10_state.md R24). -/
  cto : OutBuf
  /-- SSO and SSO_LEN (10_state.md R24). -/
  sso : OutBuf
  /-- FSM (10_state.md R27). -/
  fsm : Fsm
  /-- OPW (10_state.md R41). -/
  opw : Word16
  /-- ECODE (10_state.md R41). -/
  ecode : Err
  /-- The working registers (10_state.md R30, R32, R33, R39). -/
  work : Work
  /-- The unit ports (10_state.md R31, R44). -/
  ports : Ports
  /-- The model's own: the transactions of the present FSM step still to be made (10_state.md R27; entry 3). -/
  todo : List Txn
  /-- The model's own: the events still to come (entry 2). -/
  agenda : List Event
  /-- The model's own: the answers the randomness provider gives next, `none` being fail (00_scope.md R14; entry 5). -/
  rng : List (Option Byte)
  /-- The model's own: how many randomness requests were made, the index of the next free answer (entry 5). -/
  draws : Nat
  /-- The model's own: the most transactions a turn of the block makes (70_reset_and_hazards.md R320; entry 4). -/
  burst : Nat
  /-- The model's own: how many 3-byte groups beyond the first `SAMPLENTT` reads in one turn (70_reset_and_hazards.md R320; entry 4). -/
  patience : Nat
  /-- The model's own: what the last `HostRead` or `HostStatus` returned (entry 6). -/
  reply : Reply
  /-- The model's own: the trace of the present or last word, newest item first (70_reset_and_hazards.md R318; entry 7). -/
  trace : List TraceItem
deriving DecidableEq, Repr, Inhabited

/-- Every working register all-zero (10_state.md R36, R52). -/
def Work.zero : Work :=
  { dseed := Vector.replicate 32 0
    zseed := Vector.replicate 32 0
    msg := Vector.replicate 32 0
    hek := Vector.replicate 32 0
    rho := Vector.replicate 32 0
    sigma := Vector.replicate 32 0
    kr := Vector.replicate 64 0
    kbar := Vector.replicate 32 0
    nctr := 0
    prfbuf := Vector.replicate 192 0
    xofin := Vector.replicate 34 0
    aij := HPoly.zero
    sh := Vector.replicate 4 HPoly.zero
    eh := Vector.replicate 4 HPoly.zero
    th := Vector.replicate 4 HPoly.zero
    acch := HPoly.zero
    prodh := HPoly.zero
    uh := HPoly.zero
    sn := Vector.replicate 4 NPoly.zero
    en := Vector.replicate 4 NPoly.zero
    un := Vector.replicate 4 NPoly.zero
    e2n := NPoly.zero
    mun := NPoly.zero
    vn := NPoly.zero
    wn := NPoly.zero
    cz := Vector.replicate 256 0
    ct2 := []
    diff := 0
    mask := 0
    xofcur := 0 }

/-- Nothing on any port. DESIGN CHOICE (entry 8): the spec gives the wires no reset value. -/
def Ports.zero : Ports :=
  { addFn := 0
    addA := 0
    addB := 0
    addR := 0
    mulA := 0
    mulB := 0
    mulR := 0
    nttIn := NPoly.zero
    nttOut := HPoly.zero
    inttIn := HPoly.zero
    inttOut := NPoly.zero
    pwmF := HPoly.zero
    pwmG := HPoly.zero
    pwmOut := HPoly.zero
    smpIn := Vector.replicate 34 0
    smpOut := HPoly.zero
    smpCnt := 0
    cbdIn := Vector.replicate 192 0
    cbdOut := NPoly.zero
    cmpIn := NPoly.zero
    cmpOut := Vector.replicate 256 0
    dcmIn := Vector.replicate 256 0
    dcmOut := NPoly.zero
    bencIn := Vector.replicate 256 0
    bencOut := Vector.replicate 384 0
    bdecIn := Vector.replicate 384 0
    bdecOut := Vector.replicate 256 0
    encEk := Vector.replicate 1568 0
    encM := Vector.replicate 32 0
    encR := Vector.replicate 32 0
    encC := Vector.replicate 1568 0
    decDkp := Vector.replicate 1536 0
    decC := Vector.replicate 1568 0
    decM := Vector.replicate 32 0 }

/-- The state after `HostReset()` (10_state.md R52; 70_reset_and_hazards.md R310). The fields the spec does not name hold
DESIGN CHOICE values: nothing pending, `burst` and `patience` large enough for a whole word in one turn (entries 2 to 8). -/
def State.reset : State :=
  { status := { busy := false, done := false, err := .none }
    key := { mem := [], cnt := 0 }
    ct := { mem := [], cnt := 0 }
    seed := { mem := [], cnt := 0 }
    eko := { mem := [], len := 0 }
    dko := { mem := [], len := 0 }
    cto := { mem := [], len := 0 }
    sso := { mem := [], len := 0 }
    fsm := .idle
    opw := 0
    ecode := .none
    work := Work.zero
    ports := Ports.zero
    todo := []
    agenda := []
    rng := []
    draws := 0
    burst := 128
    patience := 1024
    reply := .none
    trace := [] }

/-- The faults. -/
inductive Fault where
  /-- Raised by a turn of the block that finds FSM = 15, which 10_state.md R27 calls a fault of the model; no step enters that
  state. DEDUCED (entry 13), safe. -/
  | fsmUnused
deriving DecidableEq, Repr, Inhabited

/-- The refusals. -/
inductive Refusal where
  /-- Raised by an arm of `exec` for an instruction without a meaning; no arm does. Safe. -/
  | notModelled (mnemonic : String)
  /-- Raised by a step that finds at the head of a sequencer's transactions a word that is no operation of any unit
  (93_implementation_defined.md U6); the block's own sequencers present legal words only.
  DEDUCED (entry 13), safe. -/
  | notAnOperation (w : Word16)
  /-- Raised by the meaning of an operation whose ARG is not legal (93_implementation_defined.md U6); no decoder yields such an
  operation. DEDUCED (entry 13), safe. -/
  | illegalArg
deriving DecidableEq, Repr, Inhabited

end Sys2Proof.Machine
end

