-- ==== Sys2Proof/Machine/Flags.lean ====
section
/-! DEFINITION. The flags: STATUS and its fields (10_state.md R21; 60_exceptions.md R270, R275), the code of FSM
(10_state.md R27), and DIFF and MASK of the comparison (10_state.md R33; 45_mlkem_fsm.md R238). -/

namespace Sys2Proof.Machine

open Sys2Proof

/-- The three bits of a completion code (60_exceptions.md R270). -/
def errCode : Err → BitVec 3
  | .none => 0#3
  | .length => 1#3
  | .rng => 2#3
  | .cmd => 3#3

/-- One flag as a bit. -/
def flagBit (b : Bool) : BitVec 1 := if b then 1#1 else 0#1

/-- STATUS as the host reads it: BUSY in bit 0, DONE in bit 1, ERR in bits 4:2, zero above (10_state.md R21). -/
def statusWord (st : Status) : Word16 := 0#11 ++ errCode st.err ++ flagBit st.done ++ flagBit st.busy

/-- The `irq` wire: STATUS.DONE at all times (60_exceptions.md R275). -/
def irq (s : State) : Bool := s.status.done

/-- The code of a state of FSM (10_state.md R27). -/
def fsmCode : Fsm → BitVec 4
  | .idle => 0#4
  | .check => 1#4
  | .fetchRnd => 2#4
  | .kpkeKg => 3#4
  | .hashEk => 4#4
  | .assembleDk => 5#4
  | .derive => 6#4
  | .encrypt => 7#4
  | .decrypt => 8#4
  | .rejKey => 9#4
  | .compare => 10#4
  | .select => 11#4
  | .fail => 12#4
  | .wipe => 13#4
  | .clr => 14#4
  | .unused => 15#4

/-- STATUS when a legal word is taken (45_mlkem_fsm.md R230): DONE and ERR cleared, BUSY set. -/
def statusTaken : Status := { busy := true, done := false, err := .none }

/-- STATUS when a word completes with a code (45_mlkem_fsm.md R230, R239, R241): ERR written, BUSY cleared, DONE set. -/
def statusDone (e : Err) : Status := { busy := false, done := true, err := e }

/-- DIFF of COMPARE over the first n byte pairs: `DIFF <- 0`, then `DIFF <- DIFF or (a[i] xor b[i])` for each i in turn, with
no exit at a difference (45_mlkem_fsm.md R238, R242). -/
def diffBytes (a b : Nat → Byte) : Nat → Byte
  | 0 => 0
  | n + 1 => diffBytes a b n ||| (a n ^^^ b n)

/-- MASK of COMPARE: `t <- (zext_9(DIFF) + 255) >> 8 ; MASK <- (0 - t) mod 256` (45_mlkem_fsm.md R238). -/
def maskOf (diff : Byte) : Byte := 0#8 - (((diff.zeroExtend 9 + 255#9) >>> 8).truncate 8)

/-- One byte of SELECT: `(KR[i] and (MASK xor 0xFF)) or (KBAR[i] and MASK)` (45_mlkem_fsm.md R238). -/
def selectByte (mask a b : Byte) : Byte := (a &&& (mask ^^^ 0xFF#8)) ||| (b &&& mask)

end Sys2Proof.Machine
end

