-- ==== Sys2Proof/Config.lean ====
section
/-! DEFINITION. What an instance fixes and what the spec leaves open: the parameters P1 to P3 (92_eei_decisions.md) and the
free values of U1 to U3 (93_implementation_defined.md). None has a body that a proof could see. -/

namespace Sys2Proof

/-- The noise width as a number (00_scope.md R11). -/
def Eta.val : Eta → Nat
  | .two => 2
  | .three => 3

/-- P1, the build-time parameter `DET_API` (00_scope.md R15). UNVERIFIED, safe: left open. -/
opaque Config.detApi : Bool

/-- P2, the hash function H (00_scope.md R13). -/
opaque Config.hashH : List Byte → Bytes 32

/-- P2, the hash function G (00_scope.md R13). -/
opaque Config.hashG : List Byte → Bytes 64

/-- P2, the hash function J (00_scope.md R13). -/
opaque Config.hashJ : List Byte → Bytes 32

/-- P2, the pseudorandom function PRF (00_scope.md R13). -/
opaque Config.prf : (eta : Eta) → Bytes 32 → Byte → Bytes (64 * eta.val)

/-- P2, the extendable-output stream XOF (00_scope.md R13). -/
opaque Config.xof : Bytes 34 → Nat → Byte

/-- The hash provider: five total pure functions, fixed for the life of an instance (00_scope.md R13). UNVERIFIED (entry 15), safe: left
open. Definitions take it
as an argument, so that they can also be run on a concrete provider. -/
structure Provider where
  H : List Byte → Bytes 32
  G : List Byte → Bytes 64
  J : List Byte → Bytes 32
  PRF : (eta : Eta) → Bytes 32 → Byte → Bytes (64 * eta.val)
  XOF : Bytes 34 → Nat → Byte

/-- The hash provider of the machine: the open parameters P2. -/
def Config.provider : Provider :=
  { H := Config.hashH, G := Config.hashG, J := Config.hashJ, PRF := Config.prf, XOF := Config.xof }

/-- P3, the answer of the randomness provider to its n-th request when none is scripted: a byte or fail (`none`), a free
value (00_scope.md R14). -/
opaque Config.rngAnswer : Nat → Option Byte

/-- U1: the result of the field operation with this word on operands of which one is not below q, a free value
(40_field_arith.md R130). -/
opaque Config.freeElem : Word16 → Elem → Elem → Elem

/-- U2, U3: the result polynomial or array of the operation with this word on an operand outside its type, a free value
(10_state.md R34; 43_compress_encode.md R182). -/
opaque Config.freeCoeffs : Word16 → Coeffs → Coeffs → Coeffs

/-- U2, U3: the result bytes of `BYTEENC d` on an operand outside its type, a free value (43_compress_encode.md R185). -/
opaque Config.freeBytes : Word16 → Coeffs → Bytes 384

end Sys2Proof
end

