-- ==== Sys2Proof/Machine/Operands.lean ====
section
/-! DEFINITION. Parameter sets and byte lengths (00_scope.md R11, R12), byte strings and the order of bits in them
(00_scope.md R16; 20_memory.md R61, R62), and elements of a polynomial by index (00_scope.md R17). -/

namespace Sys2Proof.Machine

open Sys2Proof

/-- The rank as a number (00_scope.md R11). -/
def rankVal : Rank → Nat
  | .k2 => 2
  | .k3 => 3
  | .k4 => 4

/-- The rank as the ARG nibble of a word (30_encoding.md R93). -/
def rankArg : Rank → BitVec 4
  | .k2 => 2#4
  | .k3 => 3#4
  | .k4 => 4#4

/-- The rank an ARG nibble names, if it names one (30_encoding.md R93). -/
def rankOfArg (arg : BitVec 4) : Option Rank :=
  if arg = 2#4 then some .k2 else if arg = 3#4 then some .k3 else if arg = 4#4 then some .k4 else none

/-- The noise width an ARG nibble names, if it names one (30_encoding.md R93). -/
def etaOfArg (arg : BitVec 4) : Option Eta :=
  if arg = 2#4 then some .two else if arg = 3#4 then some .three else none

/-- The noise width as the ARG nibble of a word (30_encoding.md R93). -/
def etaArg : Eta → BitVec 4
  | .two => 2#4
  | .three => 3#4

/-- eta1 of a parameter set (00_scope.md R11). -/
def eta1 : Rank → Eta
  | .k2 => .three
  | .k3 => .two
  | .k4 => .two

/-- eta2 of a parameter set (00_scope.md R11). -/
def eta2 : Rank → Eta
  | .k2 => .two
  | .k3 => .two
  | .k4 => .two

/-- du of a parameter set (00_scope.md R11). -/
def du : Rank → Nat
  | .k2 => 10
  | .k3 => 10
  | .k4 => 11

/-- dv of a parameter set (00_scope.md R11). -/
def dv : Rank → Nat
  | .k2 => 4
  | .k3 => 4
  | .k4 => 5

/-- EKLEN(k) (00_scope.md R12). -/
def ekLen (k : Rank) : Nat := 384 * rankVal k + 32

/-- DKLEN(k) (00_scope.md R12). -/
def dkLen (k : Rank) : Nat := 768 * rankVal k + 96

/-- CTLEN(k) (00_scope.md R12). -/
def ctLen (k : Rank) : Nat := 32 * (du k * rankVal k + dv k)

/-- DKPLEN(k) (00_scope.md R12). -/
def dkpLen (k : Rank) : Nat := 384 * rankVal k

/-- The indices 0 to k - 1 of a four-entry group, in order (10_state.md R32). -/
def rankIdx : Rank → List (Fin 4)
  | .k2 => [0, 1]
  | .k3 => [0, 1, 2]
  | .k4 => [0, 1, 2, 3]

/-- `B[off : off + n]` of a byte string (00_scope.md R16). -/
def slice (B : List Byte) (off n : Nat) : List Byte := (B.drop off).take n

/-- A byte string as the contents of a register of n bytes; a string is as long as its register wherever a rule writes one. -/
def bytesOfList (n : Nat) (B : List Byte) : Bytes n := Vector.ofFn fun i => B.getD i.val 0

/-- `v[off : off + B.length] <- B`, the other bytes kept (00_scope.md R17). -/
def writeField {n : Nat} (v : Bytes n) (off : Nat) (B : List Byte) : Bytes n :=
  Vector.ofFn fun i =>
    if off ≤ i.val ∧ i.val < off + B.length then B.getD (i.val - off) 0 else v[i]

/-- Bit m of a byte string: bit (m mod 8) of byte floor(m / 8) (00_scope.md R16; `BytesToBits`, 42_sampling.md R165). -/
def bitAt (B : List Byte) (m : Nat) : Bool := (B.getD (m / 8) 0).getLsbD (m % 8)

/-- The number whose bit j is `b j`, for j below n: the sum of `b[j] * 2^j` (43_compress_encode.md R185, R186). -/
def bitsToNat (b : Nat → Bool) : Nat → Nat
  | 0 => 0
  | n + 1 => bitsToNat b n + if b n then 2 ^ n else 0

/-- The number of set bits among `b 0` to `b (n-1)` (42_sampling.md R166). -/
def countBits (b : Nat → Bool) : Nat → Nat
  | 0 => 0
  | n + 1 => countBits b n + if b n then 1 else 0

/-- The polynomial whose element i is `f i` (00_scope.md R17). -/
def tabulate (f : Nat → Elem) : Coeffs := Vector.ofFn fun i => f i.val

/-- `f[i]` (00_scope.md R17); every rule uses indices below 256. -/
def coeff (f : Coeffs) (i : Nat) : Elem := f[i]?.getD 0

/-- `f[i] <- v` (00_scope.md R17); every rule uses indices below 256. -/
def setCoeff (f : Coeffs) (i : Nat) (v : Elem) : Coeffs := f.setIfInBounds i v

/-- Every element is in [0, q): canonical form (10_state.md R34). -/
def canonical (f : Coeffs) : Bool := f.toList.all fun x => decide (x.toNat < q)

/-- Every element is a d-bit value, in [0, 2^d) (43_compress_encode.md R182, R185). -/
def fitsBits (d : Nat) (f : Coeffs) : Bool := f.toList.all fun x => decide (x.toNat < 2 ^ d)

end Sys2Proof.Machine
end

