-- ==== Sys2Proof/Machine/Ops.lean ====
section
/-! DEFINITION. The named operations over buffers, counters, registers and ports, and the two ends of an error completion:
`raise Error(code)` and WIPE (60_exceptions.md R277; 45_mlkem_fsm.md R241). -/

namespace Sys2Proof.Machine

open Sys2Proof

/-! ### Buffers -/

/-- What an index no entry lists reads as: 0x00, the contents after reset (10_state.md R52). -/
def Memory.unlisted : Byte := 0

/-- One byte of a buffer (20_memory.md R61). -/
def Memory.read : Memory → Nat → Byte
  | [], _ => Memory.unlisted
  | c :: m, a => if a = c.1 then c.2 else Memory.read m a

/-- One byte into a buffer, in canonical form: writing the value an unlisted index reads as removes the entry. -/
def Memory.write : Memory → Nat → Byte → Memory
  | [], a, v => if v = Memory.unlisted then [] else [(a, v)]
  | c :: m, a, v =>
    if a < c.1 then (if v = Memory.unlisted then c :: m else (a, v) :: c :: m)
    else if a = c.1 then (if v = Memory.unlisted then m else (a, v) :: m)
    else c :: Memory.write m a v

/-- `MemRead(buf, off, n)` (00_scope.md R17; 20_memory.md R61). -/
def Memory.readBytes (m : Memory) (off n : Nat) : List Byte := (List.range n).map fun i => m.read (off + i)

/-- `MemWrite(buf, off, n, v)`, n being the length of the string (00_scope.md R17). -/
def Memory.writeBytes (m : Memory) (off : Nat) : List Byte → Memory
  | [] => m
  | v :: B => Memory.writeBytes (m.write off v) (off + 1) B

/-- The canonical form of a buffer of the given capacity: indexes strictly rising and below the capacity, no entry equal to
what an unlisted index reads as. -/
abbrev Memory.wf (cap : Nat) (m : Memory) : Prop :=
  m.Pairwise (fun x y => x.1 < y.1) ∧ ∀ c ∈ m, c.2 ≠ Memory.unlisted ∧ c.1 < cap

/-- The capacity of an input buffer (10_state.md R22). -/
def inCap : InName → Nat
  | .key => 3168
  | .ct => 1568
  | .seed => 64

/-- The capacity of an output buffer (10_state.md R24). -/
def outCap : OutName → Nat
  | .eko => 1568
  | .dko => 3168
  | .cto => 1568
  | .sso => 32

/-- An empty input buffer (45_mlkem_fsm.md R239). -/
def InBuf.empty : InBuf := { mem := [], cnt := 0 }

/-- An output buffer that holds no result (10_state.md R24). -/
def OutBuf.empty : OutBuf := { mem := [], len := 0 }

/-- `HostPush` on one buffer: append, or drop the byte and saturate the counter (10_state.md R23). -/
def InBuf.push (cap : Nat) (b : InBuf) (v : Byte) : InBuf :=
  if b.cnt < cap then { mem := b.mem.write b.cnt v, cnt := b.cnt + 1 } else { b with cnt := cap + 1 }

/-- The input buffer with a name. -/
def State.inBuf (s : State) : InName → InBuf
  | .key => s.key
  | .ct => s.ct
  | .seed => s.seed

/-- The state with one input buffer replaced. -/
def State.setInBuf (s : State) (n : InName) (b : InBuf) : State :=
  match n with
  | .key => { s with key := b }
  | .ct => { s with ct := b }
  | .seed => { s with seed := b }

/-- The output buffer with a name. -/
def State.outBuf (s : State) : OutName → OutBuf
  | .eko => s.eko
  | .dko => s.dko
  | .cto => s.cto
  | .sso => s.sso

/-- The state with one output buffer replaced. -/
def State.setOutBuf (s : State) (n : OutName) (b : OutBuf) : State :=
  match n with
  | .eko => { s with eko := b }
  | .dko => { s with dko := b }
  | .cto => { s with cto := b }
  | .sso => { s with sso := b }

/-- `EKO, DKO, CTO, SSO <- all bytes 0x00` and their length registers 0 (45_mlkem_fsm.md R232, R239; 60_exceptions.md R277). -/
def State.clearOutputs (s : State) : State :=
  { s with eko := OutBuf.empty, dko := OutBuf.empty, cto := OutBuf.empty, sso := OutBuf.empty }

/-! ### Polynomial registers -/

/-- A normal-domain register (10_state.md R32). -/
def Work.getN (w : Work) : NReg → NPoly
  | .sn i => w.sn[i]
  | .en i => w.en[i]
  | .un i => w.un[i]
  | .e2n => w.e2n
  | .mun => w.mun
  | .vn => w.vn
  | .wn => w.wn

/-- A normal-domain register written whole (10_state.md R32). -/
def Work.setN (w : Work) (r : NReg) (f : NPoly) : Work :=
  match r with
  | .sn i => { w with sn := w.sn.set i f }
  | .en i => { w with en := w.en.set i f }
  | .un i => { w with un := w.un.set i f }
  | .e2n => { w with e2n := f }
  | .mun => { w with mun := f }
  | .vn => { w with vn := f }
  | .wn => { w with wn := f }

/-- An NTT-domain register (10_state.md R32). -/
def Work.getH (w : Work) : HReg → HPoly
  | .aij => w.aij
  | .sh i => w.sh[i]
  | .eh i => w.eh[i]
  | .th i => w.th[i]
  | .acch => w.acch
  | .prodh => w.prodh
  | .uh => w.uh

/-- An NTT-domain register written whole (10_state.md R32). -/
def Work.setH (w : Work) (r : HReg) (f : HPoly) : Work :=
  match r with
  | .aij => { w with aij := f }
  | .sh i => { w with sh := w.sh.set i f }
  | .eh i => { w with eh := w.eh.set i f }
  | .th i => { w with th := w.th.set i f }
  | .acch => { w with acch := f }
  | .prodh => { w with prodh := f }
  | .uh => { w with uh := f }

/-- The state with its working registers replaced. -/
def State.setWork (s : State) (w : Work) : State := { s with work := w }

/-- The state with its unit ports replaced. -/
def State.setPorts (s : State) (p : Ports) : State := { s with ports := p }

/-- A normal-domain register of the state written whole. -/
def State.setN (s : State) (r : NReg) (f : NPoly) : State := s.setWork (s.work.setN r f)

/-- An NTT-domain register of the state written whole. -/
def State.setH (s : State) (r : HReg) (f : HPoly) : State := s.setWork (s.work.setH r f)

/-! ### The trace and the provider of randomness -/

/-- One item of the trace is seen (70_reset_and_hazards.md R318). -/
def State.log (s : State) (t : TraceItem) : State := { s with trace := t :: s.trace }

/-- `RngByte()`: the next scripted answer, or a free value when none is scripted (00_scope.md R14). `none` is fail. -/
def State.rngByte (s : State) : Option Byte :=
  match s.rng with
  | a :: _ => a
  | [] => Config.rngAnswer s.draws

/-- The state after one randomness request (00_scope.md R14): the answer is used up and the request is seen. -/
def State.drawn (s : State) : State :=
  { s with rng := s.rng.tail, draws := s.draws + 1, trace := .draw :: s.trace }

/-! ### The schedule -/

/-- The state with other transactions still to be made (entry 3). -/
def State.setTodo (s : State) (ts : List Txn) : State := { s with todo := ts }

/-- The state with other events still to come (entry 2). -/
def State.setAgenda (s : State) (es : List Event) : State := { s with agenda := es }

/-! ### States of the sequencer, errors and completion -/

/-- `pc <- S`, with the transactions of the step of S still to be made (10_state.md R27). They replace what was left to
do: at the end of a step that is nothing, in an error it is the rest of the step (60_exceptions.md R277), and in an idle block
it can only be an unfinished transaction placed there (93_implementation_defined.md U7), which is dropped: DESIGN CHOICE (entry
19), unsafe. -/
def State.enter (s : State) (f : Fsm) (ts : List Txn) : State :=
  { s with fsm := f, todo := ts, trace := .state f :: s.trace }

/-- `raise Error(code)`: `ECODE <- code ; pc <- FAIL`, the rest of the step abandoned (60_exceptions.md R277). The one way
into an error completion; nothing is saved. -/
def State.raiseError (s : State) (code : Err) : State := { s with ecode := code }.enter .fail [.discard]

/-- Whether WIPE clears SEED: the deterministic words (45_mlkem_fsm.md R241). -/
def wipesSeed : Instr → Bool
  | .keygenDet _ => true
  | .encapsDet _ => true
  | _ => false

/-- WIPE: zeroize the working registers, report ECODE, return to IDLE (45_mlkem_fsm.md R241). -/
def State.wipe (s : State) (op : Instr) : State :=
  { s with
    work := Work.zero
    seed := if wipesSeed op then InBuf.empty else s.seed
    status := statusDone s.ecode
    ecode := .none
    opw := 0
    fsm := .idle
    todo := []
    trace := .state .idle :: s.trace }

/-- CLR: `CLEAR mask` and its completion (45_mlkem_fsm.md R239). -/
def State.clear (s : State) (mask : BitVec 4) : State :=
  { s with
    key := if mask.getLsbD 0 then InBuf.empty else s.key
    ct := if mask.getLsbD 1 then InBuf.empty else s.ct
    seed := if mask.getLsbD 2 then InBuf.empty else s.seed
    eko := if mask.getLsbD 3 then OutBuf.empty else s.eko
    dko := if mask.getLsbD 3 then OutBuf.empty else s.dko
    cto := if mask.getLsbD 3 then OutBuf.empty else s.cto
    sso := if mask.getLsbD 3 then OutBuf.empty else s.sso
    status := statusDone .none
    opw := 0
    fsm := .idle
    todo := []
    trace := .state .idle :: s.trace }

end Sys2Proof.Machine
end

