-- ==== Sys2Proof/Machine/Field.lean ====
section
/-! DEFINITION. The field units `modular_adder_q3329` and `modular_multiplier_q3329` (40_field_arith.md): `ADD`, `SUB`, `MUL`,
and the polynomial forms a sequencer builds from them. -/

namespace Sys2Proof.Machine

open Sys2Proof

/-- `(a + b) mod q` by the adder's select: t or t - q (40_field_arith.md R121). -/
def addq (a b : Elem) : Elem :=
  let t := a.toNat + b.toNat
  BitVec.ofNat 12 (if q ≤ t then t - q else t)

/-- `(a - b) mod q` by the adder's select: t or t + q (40_field_arith.md R122). -/
def subq (a b : Elem) : Elem :=
  BitVec.ofNat 12 (if a.toNat < b.toNat then a.toNat + q - b.toNat else a.toNat - b.toNat)

/-- `(a * b) mod q`, of the full product (40_field_arith.md R123). -/
def mulq (a b : Elem) : Elem := BitVec.ofNat 12 (a.toNat * b.toNat % q)

/-- The precondition of the field units: both operands canonical (40_field_arith.md R120). -/
def bothCanonical (a b : Elem) : Bool := decide (a.toNat < q) && decide (b.toNat < q)

/-- `ADD` on 12-bit wires; its result on a non-canonical operand is a free value (40_field_arith.md R121, R130).
DESIGN CHOICE (entry 9), safe. -/
def addElem (a b : Elem) : Elem := if bothCanonical a b then addq a b else Config.freeElem (encode .add) a b

/-- `SUB` on 12-bit wires; its result on a non-canonical operand is a free value (40_field_arith.md R122, R130).
DESIGN CHOICE (entry 9), safe. -/
def subElem (a b : Elem) : Elem := if bothCanonical a b then subq a b else Config.freeElem (encode .sub) a b

/-- `MUL` on 12-bit wires; its result on a non-canonical operand is a free value (40_field_arith.md R123, R130).
DESIGN CHOICE (entry 9), safe. -/
def mulElem (a b : Elem) : Elem := if bothCanonical a b then mulq a b else Config.freeElem (encode .mul) a b

/-- `PolyAdd` lane by lane, in either domain (40_field_arith.md R126). -/
def addCoeffs (f g : Coeffs) : Coeffs := tabulate fun i => addElem (coeff f i) (coeff g i)

/-- `PolySub` lane by lane, in either domain (40_field_arith.md R127). -/
def subCoeffs (f g : Coeffs) : Coeffs := tabulate fun i => subElem (coeff f i) (coeff g i)

/-- `PolyAdd` in the normal domain (40_field_arith.md R126). -/
def polyAddN (f g : NPoly) : NPoly := { c := addCoeffs f.c g.c }

/-- `PolyAdd` in the NTT domain (40_field_arith.md R126). -/
def polyAddH (f g : HPoly) : HPoly := { c := addCoeffs f.c g.c }

/-- `PolySub` in the normal domain (40_field_arith.md R127). -/
def polySubN (f g : NPoly) : NPoly := { c := subCoeffs f.c g.c }

/-- One transaction of the adder with function input 0 (10_state.md R31, R43). -/
def addUnit (s : State) : State :=
  s.setPorts { s.ports with addFn := 0, addR := addElem s.ports.addA s.ports.addB }

/-- One transaction of the adder with function input 1 (10_state.md R31, R43). -/
def subUnit (s : State) : State :=
  s.setPorts { s.ports with addFn := 1, addR := subElem s.ports.addA s.ports.addB }

/-- One transaction of the multiplier (10_state.md R31, R43). -/
def mulUnit (s : State) : State := s.setPorts { s.ports with mulR := mulElem s.ports.mulA s.ports.mulB }

/-- `ADD` (40_field_arith.md R121). -/
def execAdd (s : State) : Host.Outcome State Fault Refusal := .next (addUnit s)

/-- `SUB` (40_field_arith.md R122). -/
def execSub (s : State) : Host.Outcome State Fault Refusal := .next (subUnit s)

/-- `MUL` (40_field_arith.md R123). -/
def execMul (s : State) : Host.Outcome State Fault Refusal := .next (mulUnit s)

end Sys2Proof.Machine
end

