-- ==== Sys2Proof/Machine/Compress.lean ====
section
/-! DEFINITION. `compress_decompress_unit` (43_compress_encode.md): `COMPRESS d`, `DECOMPRESS d`, `BYTEENC d`, `BYTEDEC d`. -/

namespace Sys2Proof.Machine

open Sys2Proof

/-- `round(a / b)` with ties up: `floor((2a + b) / (2b))` (43_compress_encode.md R180). -/
def roundDiv (a b : Nat) : Nat := (2 * a + b) / (2 * b)

/-- One lane of `COMPRESS d`: `round(x * 2^d / q) mod 2^d` (43_compress_encode.md R181). -/
def compressElem (d : Nat) (x : Elem) : Elem := BitVec.ofNat 12 (roundDiv (x.toNat * 2 ^ d) q % 2 ^ d)

/-- One lane of `DECOMPRESS d`: `round(y * q / 2^d)` (43_compress_encode.md R182). -/
def decompressElem (d : Nat) (y : Elem) : Elem := BitVec.ofNat 12 (roundDiv (y.toNat * q) (2 ^ d))

/-- `COMPRESS d`; its result on a non-canonical operand is a free value (43_compress_encode.md R181; U3).
DESIGN CHOICE (entry 9), safe. -/
def compress (d : Nat) (f : NPoly) : Coeffs :=
  if canonical f.c then tabulate fun i => compressElem d (coeff f.c i)
  else Config.freeCoeffs (encode (.compress (BitVec.ofNat 4 d))) f.c f.c

/-- `DECOMPRESS d`; its result on an element at or above 2^d is a free value (43_compress_encode.md R182; U2).
DESIGN CHOICE (entry 9), safe. -/
def decompress (d : Nat) (y : Coeffs) : NPoly :=
  { c :=
      if fitsBits d y then tabulate fun i => decompressElem d (coeff y i)
      else Config.freeCoeffs (encode (.decompress (BitVec.ofNat 4 d))) y y }

/-- The operand of `BYTEENC d` is of its type: d-bit values for d below 12, field elements for d = 12
(43_compress_encode.md R185). -/
def encodable (d : Nat) (F : Coeffs) : Bool := if d = 12 then canonical F else fitsBits d F

/-- Byte t of `BYTEENC d`: bit m of the bit sequence is bit (m mod d) of element floor(m / d), and byte t holds bits 8t to
8t + 7 (43_compress_encode.md R185). -/
def encodedByte (d : Nat) (F : Coeffs) (t : Nat) : Byte :=
  BitVec.ofNat 8 (bitsToNat (fun j => (coeff F ((8 * t + j) / d)).getLsbD ((8 * t + j) % d)) 8)

/-- `BYTEENC d`: 32 d bytes; its result on an operand outside its type is a free value (43_compress_encode.md R185; U2, U3).
DESIGN CHOICE (entry 9), safe. -/
def byteEncode (d : Nat) (F : Coeffs) : List Byte :=
  if encodable d F then (List.range (32 * d)).map (encodedByte d F)
  else slice (Config.freeBytes (encode (.byteenc (BitVec.ofNat 4 d))) F).toList 0 (32 * d)

/-- Element i of `BYTEDEC d` before any reduction: the d bits from bit i d on (43_compress_encode.md R186). -/
def decodedValue (d : Nat) (B : List Byte) (i : Nat) : Nat := bitsToNat (fun j => bitAt B (i * d + j)) d

/-- `BYTEDEC d`: 256 values of d bits, for d = 12 reduced mod q (43_compress_encode.md R186). -/
def byteDecode (d : Nat) (B : List Byte) : Coeffs :=
  tabulate fun i => BitVec.ofNat 12 (if d = 12 then decodedValue d B i % q else decodedValue d B i)

/-- One transaction of `compress_decompress_unit`, `COMPRESS d` (10_state.md R43, R44). -/
def compressUnit (d : Nat) (s : State) : State := s.setPorts { s.ports with cmpOut := compress d s.ports.cmpIn }

/-- One transaction of `compress_decompress_unit`, `DECOMPRESS d` (10_state.md R43, R44). -/
def decompressUnit (d : Nat) (s : State) : State := s.setPorts { s.ports with dcmOut := decompress d s.ports.dcmIn }

/-- One transaction of `compress_decompress_unit`, `BYTEENC d`; the result fills the first 32 d bytes of the port
(10_state.md R43, R44). -/
def byteencUnit (d : Nat) (s : State) : State :=
  s.setPorts { s.ports with bencOut := writeField s.ports.bencOut 0 (byteEncode d s.ports.bencIn) }

/-- One transaction of `compress_decompress_unit`, `BYTEDEC d`, on the first 32 d bytes of the port (10_state.md R43, R44). -/
def bytedecUnit (d : Nat) (s : State) : State :=
  s.setPorts { s.ports with bdecOut := byteDecode d (slice s.ports.bdecIn.toList 0 (32 * d)) }

/-- `COMPRESS d` (43_compress_encode.md R181, R188). -/
def execCompress (d : BitVec 4) (s : State) : Host.Outcome State Fault Refusal :=
  if legalCompressWidth d then .next (compressUnit d.toNat s) else .refused .illegalArg

/-- `DECOMPRESS d` (43_compress_encode.md R182, R188). -/
def execDecompress (d : BitVec 4) (s : State) : Host.Outcome State Fault Refusal :=
  if legalCompressWidth d then .next (decompressUnit d.toNat s) else .refused .illegalArg

/-- `BYTEENC d` (43_compress_encode.md R185, R188). -/
def execByteenc (d : BitVec 4) (s : State) : Host.Outcome State Fault Refusal :=
  if legalByteWidth d then .next (byteencUnit d.toNat s) else .refused .illegalArg

/-- `BYTEDEC d` (43_compress_encode.md R186, R188). -/
def execBytedec (d : BitVec 4) (s : State) : Host.Outcome State Fault Refusal :=
  if legalByteWidth d then .next (bytedecUnit d.toNat s) else .refused .illegalArg

end Sys2Proof.Machine
end

