-- ==== Sys2Proof/Machine/Ntt.lean ====
section
/-! DEFINITION. The NTT units `ntt_forward_engine`, `ntt_inverse_engine`, `pointwise_mult_ntt` (41_ntt.md): the constants,
`NTT`, `INTT` and `PWM`. Every addition, subtraction and product is one of the field units' (41_ntt.md R150). -/

namespace Sys2Proof.Machine

open Sys2Proof

/-- The entries of `ZETA`, row by row as printed (41_ntt.md R140). -/
def zetaTable : List Nat :=
  [1, 1729, 2580, 3289, 2642, 630, 1897, 848]
  ++ [1062, 1919, 193, 797, 2786, 3260, 569, 1746]
  ++ [296, 2447, 1339, 1476, 3046, 56, 2240, 1333]
  ++ [1426, 2094, 535, 2882, 2393, 2879, 1974, 821]
  ++ [289, 331, 3253, 1756, 1197, 2304, 2277, 2055]
  ++ [650, 1977, 2513, 632, 2865, 33, 1320, 1915]
  ++ [2319, 1435, 807, 452, 1438, 2868, 1534, 2402]
  ++ [2647, 2617, 1481, 648, 2474, 3110, 1227, 910]
  ++ [17, 2761, 583, 2649, 1637, 723, 2288, 1100]
  ++ [1409, 2662, 3281, 233, 756, 2156, 3015, 3050]
  ++ [1703, 1651, 2789, 1789, 1847, 952, 1461, 2687]
  ++ [939, 2308, 2437, 2388, 733, 2337, 268, 641]
  ++ [1584, 2298, 2037, 3220, 375, 2549, 2090, 1645]
  ++ [1063, 319, 2773, 757, 2099, 561, 2466, 2594]
  ++ [2804, 1092, 403, 1026, 1143, 2150, 2775, 886]
  ++ [1722, 1212, 1874, 1029, 2110, 2935, 885, 2154]

/-- The entries of `GAMMA`, row by row as printed (41_ntt.md R141). -/
def gammaTable : List Nat :=
  [17, 3312, 2761, 568, 583, 2746, 2649, 680]
  ++ [1637, 1692, 723, 2606, 2288, 1041, 1100, 2229]
  ++ [1409, 1920, 2662, 667, 3281, 48, 233, 3096]
  ++ [756, 2573, 2156, 1173, 3015, 314, 3050, 279]
  ++ [1703, 1626, 1651, 1678, 2789, 540, 1789, 1540]
  ++ [1847, 1482, 952, 2377, 1461, 1868, 2687, 642]
  ++ [939, 2390, 2308, 1021, 2437, 892, 2388, 941]
  ++ [733, 2596, 2337, 992, 268, 3061, 641, 2688]
  ++ [1584, 1745, 2298, 1031, 2037, 1292, 3220, 109]
  ++ [375, 2954, 2549, 780, 2090, 1239, 1645, 1684]
  ++ [1063, 2266, 319, 3010, 2773, 556, 757, 2572]
  ++ [2099, 1230, 561, 2768, 2466, 863, 2594, 735]
  ++ [2804, 525, 1092, 2237, 403, 2926, 1026, 2303]
  ++ [1143, 2186, 2150, 1179, 2775, 554, 886, 2443]
  ++ [1722, 1607, 1212, 2117, 1874, 1455, 1029, 2300]
  ++ [2110, 1219, 2935, 394, 885, 2444, 2154, 1175]

/-- `ZETA[i]` (41_ntt.md R140). -/
def zeta (i : Nat) : Elem := BitVec.ofNat 12 (zetaTable.getD i 0)

/-- `GAMMA[i]` (41_ntt.md R141). -/
def gamma (i : Nat) : Elem := BitVec.ofNat 12 (gammaTable.getD i 0)

/-- `NINV`, the inverse of 128 (41_ntt.md R142). -/
def ninv : Elem := 3303#12

/-- One butterfly of `NTT`: both updates read the old `fh[j]` (41_ntt.md R144). -/
def butterfly (z : Elem) (len : Nat) (f : Coeffs) (j : Nat) : Coeffs :=
  let t := mulq z (coeff f (j + len))
  let u := coeff f j
  setCoeff (setCoeff f (j + len) (subq u t)) j (addq u t)

/-- One butterfly of `INTT`: `f[j+len]` minus the old `f[j]` (41_ntt.md R145). -/
def inverseButterfly (z : Elem) (len : Nat) (f : Coeffs) (j : Nat) : Coeffs :=
  let t := coeff f j
  let u := coeff f (j + len)
  setCoeff (setCoeff f j (addq t u)) (j + len) (mulq z (subq u t))

/-- The butterflies `j` in `start .. start + len - 1` of one block (41_ntt.md R144, R145). -/
def block (bf : Elem → Nat → Coeffs → Nat → Coeffs) (z : Elem) (len start : Nat) (f : Coeffs) : Coeffs :=
  (List.range len).foldl (fun f t => bf z len f (start + t)) f

/-- One layer of `NTT`: the blocks at `0, 2 len, 4 len, ...`, block b with `ZETA[i0 + b]` (41_ntt.md R144). The layer with
`len` has 128/len blocks and starts at i0 = 128/len. -/
def nttLayer (f : Coeffs) (len : Nat) : Coeffs :=
  (List.range (128 / len)).foldl (fun f b => block butterfly (zeta (128 / len + b)) len (2 * len * b) f) f

/-- One layer of `INTT`: the blocks in rising order, block b with `ZETA[i0 - b]` (41_ntt.md R145). The layer with `len` has
128/len blocks and starts at i0 = 256/len - 1. -/
def inverseLayer (f : Coeffs) (len : Nat) : Coeffs :=
  (List.range (128 / len)).foldl (fun f b => block inverseButterfly (zeta (256 / len - 1 - b)) len (2 * len * b) f) f

/-- The seven layers of `NTT` on canonical elements (41_ntt.md R144). -/
def nttCore (f : Coeffs) : Coeffs := [128, 64, 32, 16, 8, 4, 2].foldl nttLayer f

/-- The seven layers of `INTT` and the final scaling, on canonical elements (41_ntt.md R145). -/
def inttCore (f : Coeffs) : Coeffs :=
  let g := [2, 4, 8, 16, 32, 64, 128].foldl inverseLayer f
  tabulate fun j => mulq (coeff g j) ninv

/-- The first component of `BaseMul` (41_ntt.md R147). -/
def baseMul0 (a0 a1 b0 b1 g : Elem) : Elem := addq (mulq a0 b0) (mulq (mulq a1 b1) g)

/-- The second component of `BaseMul` (41_ntt.md R147). -/
def baseMul1 (a0 a1 b0 b1 : Elem) : Elem := addq (mulq a0 b1) (mulq a1 b0)

/-- The 128 pair products of `PWM` on canonical elements (41_ntt.md R146). -/
def pwmCore (f g : Coeffs) : Coeffs :=
  tabulate fun j =>
    let i := j / 2
    if j % 2 = 0 then
      baseMul0 (coeff f (2 * i)) (coeff f (2 * i + 1)) (coeff g (2 * i)) (coeff g (2 * i + 1)) (gamma i)
    else
      baseMul1 (coeff f (2 * i)) (coeff f (2 * i + 1)) (coeff g (2 * i)) (coeff g (2 * i + 1))

/-- `NTT`; its result on a non-canonical operand is a free value (41_ntt.md R144; U3). DESIGN CHOICE (entry 9), safe. -/
def ntt (f : NPoly) : HPoly :=
  { c := if canonical f.c then nttCore f.c else Config.freeCoeffs (encode .ntt) f.c f.c }

/-- `INTT`; its result on a non-canonical operand is a free value (41_ntt.md R145; U3). DESIGN CHOICE (entry 9), safe. -/
def intt (f : HPoly) : NPoly :=
  { c := if canonical f.c then inttCore f.c else Config.freeCoeffs (encode .intt) f.c f.c }

/-- `PWM`; its result on a non-canonical operand is a free value (41_ntt.md R146; U3). DESIGN CHOICE (entry 9), safe. -/
def pwm (f g : HPoly) : HPoly :=
  { c := if canonical f.c && canonical g.c then pwmCore f.c g.c else Config.freeCoeffs (encode .pwm) f.c g.c }

/-- One transaction of `ntt_forward_engine` (10_state.md R43, R44). -/
def nttUnit (s : State) : State := s.setPorts { s.ports with nttOut := ntt s.ports.nttIn }

/-- One transaction of `ntt_inverse_engine` (10_state.md R43, R44). -/
def inttUnit (s : State) : State := s.setPorts { s.ports with inttOut := intt s.ports.inttIn }

/-- One transaction of `pointwise_mult_ntt` (10_state.md R43, R44). -/
def pwmUnit (s : State) : State := s.setPorts { s.ports with pwmOut := pwm s.ports.pwmF s.ports.pwmG }

/-- `NTT` (41_ntt.md R144). -/
def execNtt (s : State) : Host.Outcome State Fault Refusal := .next (nttUnit s)

/-- `INTT` (41_ntt.md R145). -/
def execIntt (s : State) : Host.Outcome State Fault Refusal := .next (inttUnit s)

/-- `PWM` (41_ntt.md R146). -/
def execPwm (s : State) : Host.Outcome State Fault Refusal := .next (pwmUnit s)

end Sys2Proof.Machine
end

