-- ==== Sys2Proof/Machine/Sampling.lean ====
section
/-! DEFINITION. The sampling units `rejection_sampler` and `cbd_sampler` (42_sampling.md): `SAMPLENTT` and `CBD eta`. -/

namespace Sys2Proof.Machine

open Sys2Proof

/-- A `SAMPLENTT` under way: the cursor XOFCUR, the count j of accepted elements, and the elements (42_sampling.md R161). -/
structure Sampler where
  cur : Nat
  cnt : Nat
  a : Coeffs
deriving DecidableEq, Repr, Inhabited

/-- `XOFCUR <- 0 ; j <- 0` (42_sampling.md R161). DESIGN CHOICE (entry 10), unsafe for the result port of an
unfinished transaction only: the elements start as zeros, which a finished transaction has all written over. -/
def Sampler.start : Sampler := { cur := 0, cnt := 0, a := Vector.replicate 256 0 }

/-- The first candidate of a group: `c0 + 256 * (c1 mod 16)` (42_sampling.md R161). -/
def candidate1 (c0 c1 : Byte) : Elem := BitVec.ofNat 12 (c0.toNat + 256 * (c1.toNat % 16))

/-- The second candidate of a group: `floor(c1 / 16) + 16 * c2` (42_sampling.md R161). -/
def candidate2 (c1 c2 : Byte) : Elem := BitVec.ofNat 12 (c1.toNat / 16 + 16 * c2.toNat)

/-- Keep a candidate below q while fewer than 256 are kept (42_sampling.md R161). -/
def Sampler.offer (t : Sampler) (d : Elem) : Sampler :=
  if d.toNat < q ∧ t.cnt < 256 then { t with a := setCoeff t.a t.cnt d, cnt := t.cnt + 1 } else t

/-- One 3-byte group of the stream: both candidates, the first one first (42_sampling.md R161). -/
def Sampler.group (S : Nat → Byte) (t : Sampler) : Sampler :=
  let c0 := S t.cur
  let c1 := S (t.cur + 1)
  let c2 := S (t.cur + 2)
  (({ t with cur := t.cur + 3 }).offer (candidate1 c0 c1)).offer (candidate2 c1 c2)

/-- The loop `while j < 256` for at most n groups (42_sampling.md R161, R162). -/
def Sampler.run (S : Nat → Byte) : Nat → Sampler → Sampler
  | 0, t => t
  | n + 1, t => if t.cnt < 256 then Sampler.run S n (t.group S) else t

/-- `SAMPLENTT(x)` as a function: the polynomial and the final XOFCUR, if 256 candidates are accepted within n groups
(42_sampling.md R161, R163). -/
def sampleNtt (S : Nat → Byte) (n : Nat) : Option (HPoly × Nat) :=
  let t := Sampler.run S n Sampler.start
  if t.cnt < 256 then none else some ({ c := t.a }, t.cur)

/-- The sampler as it stands in the state: XOFCUR, the count and the result port (10_state.md R39, R44). -/
def State.sampler (s : State) : Sampler :=
  { cur := s.work.xofcur, cnt := s.ports.smpCnt, a := s.ports.smpOut.c }

/-- The state with its sampler at a given point. -/
def State.setSampler (s : State) (t : Sampler) : State :=
  { s with
    work := { s.work with xofcur := t.cur }
    ports := { s.ports with smpCnt := t.cnt, smpOut := { c := t.a } } }

/-- The start of a `SAMPLENTT` transaction on the operand at the port: the XOF request, cursor and count at 0
(42_sampling.md R160, R161). -/
def sampleStart (s : State) : State := (s.setSampler Sampler.start).log (.reqXof 34)

/-- As many groups as one turn reads, at least one, on the stream of the operand at the port (42_sampling.md R161). -/
def sampleTurn (P : Provider) (s : State) : State :=
  s.setSampler (Sampler.run (P.XOF s.ports.smpIn) (s.patience + 1) s.sampler)

/-- A turn of `SAMPLENTT` and what is left of it: nothing when 256 elements are accepted, else the loop
(42_sampling.md R161, R162). -/
def sampleResult (s : State) : State × List Txn :=
  if s.ports.smpCnt < 256 then (s, [.sampleLoop]) else (s.log (.stream s.work.xofcur), [])

/-- One transaction of `rejection_sampler`, as far as one turn takes it (10_state.md R43; 42_sampling.md R161). Started
while an earlier one is unfinished (93_implementation_defined.md U7), it starts the sampler anew, and the earlier loop, still
left to do, then ends with the new one's result: DESIGN CHOICE (entry 19), unsafe. -/
def samplenttUnit (P : Provider) (s : State) : State × List Txn := sampleResult (sampleTurn P (sampleStart s))

/-- `CBD eta`: coefficient i is the number of set bits among the first eta of its 2 eta bits minus the number among the next
eta, mod q (42_sampling.md R166). -/
def cbd (eta : Eta) (B : List Byte) : NPoly :=
  { c := tabulate fun i =>
      let x := countBits (fun j => bitAt B (2 * i * eta.val + j)) eta.val
      let y := countBits (fun j => bitAt B (2 * i * eta.val + eta.val + j)) eta.val
      subq (BitVec.ofNat 12 x) (BitVec.ofNat 12 y) }

/-- One transaction of `cbd_sampler` on the first 64 eta bytes of its port (10_state.md R43, R44). -/
def cbdUnit (eta : Eta) (s : State) : State :=
  s.setPorts { s.ports with cbdOut := cbd eta (slice s.ports.cbdIn.toList 0 (64 * eta.val)) }

/-- A unit transaction's outcome: what is left of it stands before the sequencer's other transactions (10_state.md R27). -/
def unfinished (s : State) (r : State × List Txn) : Host.Outcome State Fault Refusal :=
  .next (r.1.setTodo (r.2 ++ s.todo))

/-- `SAMPLENTT` (42_sampling.md R161). In front of an unfinished one (93_implementation_defined.md U7) it runs as in front of any
other transaction: DESIGN CHOICE (entry 19), unsafe. -/
def execSamplentt (s : State) : Host.Outcome State Fault Refusal := unfinished s (samplenttUnit Config.provider s)

/-- `CBD eta` (42_sampling.md R166, R167). -/
def execCbd (eta : BitVec 4) (s : State) : Host.Outcome State Fault Refusal :=
  match etaOfArg eta with
  | some e => .next (cbdUnit e s)
  | none => .refused .illegalArg

end Sys2Proof.Machine
end

