-- ==== Sys2Proof/Machine/Transactions.lean ====
section
/-! DEFINITION. What one transaction of a sequencer does to the state: unit transactions with the wiring the rules give them,
provider requests and register transfers (44_kpke.md R200 to R205; 45_mlkem_fsm.md R232 to R241). -/

namespace Sys2Proof.Machine

open Sys2Proof

/-- How one transaction ends. -/
inductive TxnResult where
  /-- It is finished. -/
  | done (s : State)
  /-- It is not finished; the sequencer stays where it is (42_sampling.md R162). -/
  | wait (s : State)
  /-- It raises an error (60_exceptions.md R277). -/
  | raise (code : Err) (s : State)

/-! ### CHECK and FETCH_RND -/

/-- The length test of CHECK for a word of rank k (45_mlkem_fsm.md R232). -/
def lengthsOk (op : Instr) (k : Rank) (s : State) : Bool :=
  match op with
  | .keygen _ => true
  | .keygenDet _ => s.seed.cnt == 64
  | .encaps _ => s.key.cnt == ekLen k
  | .encapsDet _ => s.key.cnt == ekLen k && s.seed.cnt == 32
  | .decaps _ => s.key.cnt == dkLen k && s.ct.cnt == ctLen k
  | _ => false

/-- The registers CHECK loads when the lengths are right (45_mlkem_fsm.md R232). -/
def loadInputs (op : Instr) (k : Rank) (s : State) : State :=
  match op with
  | .keygenDet _ =>
    s.setWork { s.work with
      dseed := bytesOfList 32 (s.seed.mem.readBytes 0 32)
      zseed := bytesOfList 32 (s.seed.mem.readBytes 32 32) }
  | .encapsDet _ => s.setWork { s.work with msg := bytesOfList 32 (s.seed.mem.readBytes 0 32) }
  | .decaps _ =>
    s.setWork { s.work with
      hek := bytesOfList 32 (s.key.mem.readBytes (768 * rankVal k + 32) 32)
      zseed := bytesOfList 32 (s.key.mem.readBytes (768 * rankVal k + 64) 32) }
  | _ => s

/-- CHECK: clear the outputs, test the lengths, load the registers (45_mlkem_fsm.md R232). A word with an ARG that is no rank
is never taken; the test then fails. DESIGN CHOICE (entry 14), safe. -/
def checkTxn (op : Instr) (s : State) : TxnResult :=
  match rankOfArg op.arg with
  | none => .raise .length s.clearOutputs
  | some k =>
    if lengthsOk op k s then .done (loadInputs op k s.clearOutputs) else .raise .length s.clearOutputs

/-- Where FETCH_RND puts its i-th byte (45_mlkem_fsm.md R233; 20_memory.md R71). -/
def storeDraw (op : Instr) (i : Nat) (b : Byte) (w : Work) : Work :=
  match op with
  | .keygen _ =>
    if i < 32 then { w with dseed := w.dseed.setIfInBounds i b }
    else { w with zseed := w.zseed.setIfInBounds (i - 32) b }
  | .encaps _ => { w with msg := w.msg.setIfInBounds i b }
  | _ => w

/-- One draw of FETCH_RND (45_mlkem_fsm.md R233). -/
def drawTxn (op : Instr) (i : Nat) (s : State) : TxnResult :=
  match s.rngByte with
  | none => .raise .rng s.drawn
  | some b => .done (s.drawn.setWork (storeDraw op i b s.work))

/-! ### The other steps of the wrapper -/

/-- HASH_EK of a key generation (45_mlkem_fsm.md R234). -/
def hashEkoTxn (P : Provider) (k : Rank) (s : State) : State :=
  (s.setWork { s.work with hek := P.H (s.eko.mem.readBytes 0 (ekLen k)) }).log (.reqH (ekLen k))

/-- HASH_EK of an encapsulation (45_mlkem_fsm.md R236). -/
def hashKeyTxn (P : Provider) (k : Rank) (s : State) : State :=
  (s.setWork { s.work with hek := P.H (s.key.mem.readBytes 0 (ekLen k)) }).log (.reqH (ekLen k))

/-- ASSEMBLE_DK (45_mlkem_fsm.md R234; 20_memory.md R69). -/
def assembleDkTxn (k : Rank) (s : State) : State :=
  let dk1 := s.dko.mem.writeBytes (384 * rankVal k) (s.eko.mem.readBytes 0 (ekLen k))
  let dk2 := dk1.writeBytes (768 * rankVal k + 32) s.work.hek.toList
  (s.setOutBuf .eko { s.eko with len := ekLen k }).setOutBuf .dko
    { mem := dk2.writeBytes (768 * rankVal k + 64) s.work.zseed.toList, len := dkLen k }

/-- DERIVE (45_mlkem_fsm.md R236, R238). -/
def deriveTxn (P : Provider) (s : State) : State :=
  (s.setWork { s.work with kr := P.G (s.work.msg.toList ++ s.work.hek.toList) }).log (.reqG 64)

/-- REJ_KEY (45_mlkem_fsm.md R238). -/
def rejKeyTxn (P : Provider) (k : Rank) (s : State) : State :=
  (s.setWork { s.work with
    kbar := P.J (s.work.zseed.toList ++ s.ct.mem.readBytes 0 (ctLen k)) }).log (.reqJ (32 + ctLen k))

/-- The operands of `KPKE_ENC k` presented: ek, m = MSG, r = KR[32:64] (45_mlkem_fsm.md R236, R238). -/
def presentEnc (ek : List Byte) (s : State) : State :=
  s.setPorts { s.ports with
    encEk := bytesOfList 1568 ek
    encM := s.work.msg
    encR := bytesOfList 32 (slice s.work.kr.toList 32 32)
    encC := Vector.replicate 1568 0 }

/-- The ports of `k_pke_encryptor` released. DESIGN CHOICE (entry 8). -/
def releaseEnc (s : State) : State :=
  s.setPorts { s.ports with
    encEk := Vector.replicate 1568 0
    encM := Vector.replicate 32 0
    encR := Vector.replicate 32 0
    encC := Vector.replicate 1568 0 }

/-- The result of `KPKE_ENC k`: the first CTLEN(k) bytes of its port (10_state.md R44). -/
def encResult (k : Rank) (s : State) : List Byte := slice s.ports.encC.toList 0 (ctLen k)

/-- The end of ENCRYPT in an encapsulation: c into CTO, K into SSO (45_mlkem_fsm.md R236). -/
def encapsOutTxn (k : Rank) (s : State) : State :=
  releaseEnc ((s.setOutBuf .cto { mem := s.cto.mem.writeBytes 0 (encResult k s), len := ctLen k }).setOutBuf .sso
    { mem := s.sso.mem.writeBytes 0 (slice s.work.kr.toList 0 32), len := 32 })

/-- The end of ENCRYPT in a decapsulation: c' into CT2 (45_mlkem_fsm.md R238). -/
def reencOutTxn (k : Rank) (s : State) : State :=
  releaseEnc (s.setWork { s.work with ct2 := s.work.ct2.writeBytes 0 (encResult k s) })

/-- The operands of `KPKE_DEC k` presented (45_mlkem_fsm.md R238). -/
def presentDec (k : Rank) (s : State) : State :=
  s.setPorts { s.ports with
    decDkp := bytesOfList 1536 (s.key.mem.readBytes 0 (dkpLen k))
    decC := bytesOfList 1568 (s.ct.mem.readBytes 0 (ctLen k))
    decM := Vector.replicate 32 0 }

/-- The end of DECRYPT: m' into MSG (45_mlkem_fsm.md R238), the ports of `k_pke_decryptor` released. DESIGN CHOICE (entry 8). -/
def decryptOutTxn (s : State) : State :=
  (s.setWork { s.work with msg := s.ports.decM }).setPorts { s.ports with
    decDkp := Vector.replicate 1536 0
    decC := Vector.replicate 1568 0
    decM := Vector.replicate 32 0 }

/-- COMPARE (45_mlkem_fsm.md R238, R242). -/
def compareTxn (k : Rank) (s : State) : State :=
  let d := diffBytes s.ct.mem.read s.work.ct2.read (ctLen k)
  s.setWork { s.work with diff := d, mask := maskOf d }

/-- SELECT (45_mlkem_fsm.md R238, R242). -/
def selectTxn (s : State) : State :=
  let out := (List.range 32).map fun i =>
    selectByte s.work.mask (s.work.kr.toList.getD i 0) (s.work.kbar.toList.getD i 0)
  s.setOutBuf .sso { mem := s.sso.mem.writeBytes 0 out, len := 32 }

/-! ### K-PKE -/

/-- `KR <- G(DSEED, byte(k))` (44_kpke.md R203). -/
def seedGTxn (P : Provider) (k : Rank) (s : State) : State :=
  (s.setWork { s.work with
    kr := P.G (s.work.dseed.toList ++ [BitVec.ofNat 8 (rankVal k)]) }).log (.reqG 33)

/-- `RHO <- KR[0:32] ; SIGMA <- KR[32:64] ; NCTR <- 0` (44_kpke.md R203). -/
def splitSeedsTxn (s : State) : State :=
  s.setWork { s.work with
    rho := bytesOfList 32 (slice s.work.kr.toList 0 32)
    sigma := bytesOfList 32 (slice s.work.kr.toList 32 32)
    nctr := 0 }

/-- `RHO <- ek[384k : 384k + 32] ; SIGMA <- r ; NCTR <- 0` (44_kpke.md R204). -/
def encSeedsTxn (k : Rank) (s : State) : State :=
  s.setWork { s.work with
    rho := bytesOfList 32 (slice s.ports.encEk.toList (384 * rankVal k) 32)
    sigma := s.ports.encR
    nctr := 0 }

/-- The PRF request of `SamplePRF` (44_kpke.md R201). -/
def prfTxn (P : Provider) (eta : Eta) (s : State) : State :=
  (s.setWork { s.work with
    prfbuf := writeField s.work.prfbuf 0 (P.PRF eta s.work.sigma s.work.nctr).toList }).log (.reqPrf eta 33)

/-- The `CBD eta` of `SamplePRF` and the step of its counter (44_kpke.md R201). -/
def cbdTxn (eta : Eta) (dst : NReg) (s : State) : State :=
  let f := cbd eta (slice s.work.prfbuf.toList 0 (64 * eta.val))
  (s.setWork { s.work.setN dst f with nctr := s.work.nctr + 1 }).log (.unit (encode (.cbd (etaArg eta))) 1)

/-- `XOFIN <- RHO, byte(col), byte(row)` (44_kpke.md R200). -/
def xofinTxn (row col : Fin 4) (s : State) : State :=
  s.setWork { s.work with
    xofin := bytesOfList 34 (s.work.rho.toList ++ [BitVec.ofNat 8 col.val, BitVec.ofNat 8 row.val]) }

/-- The start of `SAMPLENTT(XOFIN)`: the operand onto the port, then the transaction's start (44_kpke.md R200). -/
def sampleStartTxn (s : State) : State :=
  sampleStart ((s.setPorts { s.ports with smpIn := s.work.xofin }).log (.unit (encode .samplentt) 1))

/-- One turn of the loop of `SAMPLENTT`; one that never ends is an unending run (42_sampling.md R161, R162). DEDUCED
(entry 12), safe. -/
def sampleLoopTxn (P : Provider) (s : State) : TxnResult :=
  let r := sampleResult (sampleTurn P s)
  match r.2 with
  | [] => .done r.1
  | _ :: _ => .wait r.1

/-- The result of `SAMPLENTT` into AIJ, its ports released (44_kpke.md R200). DESIGN CHOICE (entry 8). -/
def sampleTakeTxn (s : State) : State :=
  (s.setH .aij s.ports.smpOut).setPorts { s.ports with
    smpIn := Vector.replicate 34 0
    smpOut := HPoly.zero
    smpCnt := 0 }

/-- `NTT` from register to register (44_kpke.md R203 to R205). -/
def nttTxn (src : NReg) (dst : HReg) (s : State) : State :=
  (s.setH dst (ntt (s.work.getN src))).log (.unit (encode .ntt) 1)

/-- `INTT` from register to register (44_kpke.md R204, R205). -/
def inttTxn (src : HReg) (dst : NReg) (s : State) : State :=
  (s.setN dst (intt (s.work.getH src))).log (.unit (encode .intt) 1)

/-- `PRODH <- PWM(a, b)` (44_kpke.md R202). -/
def pwmTxn (a b : HReg) (s : State) : State :=
  (s.setH .prodh (pwm (s.work.getH a) (s.work.getH b))).log (.unit (encode .pwm) 1)

/-- `PolyAdd`: 256 uses of the adder (40_field_arith.md R126). -/
def addHTxn (a b dst : HReg) (s : State) : State :=
  (s.setH dst (polyAddH (s.work.getH a) (s.work.getH b))).log (.unit (encode .add) 256)

/-- `PolyAdd`: 256 uses of the adder (40_field_arith.md R126). -/
def addNTxn (a b dst : NReg) (s : State) : State :=
  (s.setN dst (polyAddN (s.work.getN a) (s.work.getN b))).log (.unit (encode .add) 256)

/-- `PolySub`: 256 uses of the adder (40_field_arith.md R127). -/
def subNTxn (a b dst : NReg) (s : State) : State :=
  (s.setN dst (polySubN (s.work.getN a) (s.work.getN b))).log (.unit (encode .sub) 256)

/-- A transaction of `compress_decompress_unit` is seen. -/
def logByteenc (d : Nat) (s : State) : State := s.log (.unit (encode (.byteenc (BitVec.ofNat 4 d))) 1)

/-- A transaction of `compress_decompress_unit` is seen. -/
def logBytedec (d : Nat) (s : State) : State := s.log (.unit (encode (.bytedec (BitVec.ofNat 4 d))) 1)

/-- A transaction of `compress_decompress_unit` is seen. -/
def logCompress (d : Nat) (s : State) : State := s.log (.unit (encode (.compress (BitVec.ofNat 4 d))) 1)

/-- A transaction of `compress_decompress_unit` is seen. -/
def logDecompress (d : Nat) (s : State) : State := s.log (.unit (encode (.decompress (BitVec.ofNat 4 d))) 1)

/-- `MemWrite(EKO, 384 i, 384, BYTEENC(12, TH[i]))` (44_kpke.md R203). -/
def encodeTTxn (i : Fin 4) (s : State) : State :=
  logByteenc 12
    (s.setOutBuf .eko { s.eko with mem := s.eko.mem.writeBytes (384 * i.val) (byteEncode 12 s.work.th[i].c) })

/-- `MemWrite(EKO, 384 k, 32, RHO)` (44_kpke.md R203). -/
def writeRhoTxn (k : Rank) (s : State) : State :=
  s.setOutBuf .eko { s.eko with mem := s.eko.mem.writeBytes (384 * rankVal k) s.work.rho.toList }

/-- `MemWrite(DKO, 384 i, 384, BYTEENC(12, SH[i]))` (44_kpke.md R203). -/
def encodeSTxn (i : Fin 4) (s : State) : State :=
  logByteenc 12
    (s.setOutBuf .dko { s.dko with mem := s.dko.mem.writeBytes (384 * i.val) (byteEncode 12 s.work.sh[i].c) })

/-- `TH[i] <- BYTEDEC(12, ek[384 i : 384 (i+1)])` (44_kpke.md R204). -/
def decodeTTxn (i : Fin 4) (s : State) : State :=
  logBytedec 12 (s.setH (.th i) { c := byteDecode 12 (slice s.ports.encEk.toList (384 * i.val) 384) })

/-- `SH[i] <- BYTEDEC(12, dkp[384 i : 384 (i+1)])` (44_kpke.md R205). -/
def decodeSTxn (i : Fin 4) (s : State) : State :=
  logBytedec 12 (s.setH (.sh i) { c := byteDecode 12 (slice s.ports.decDkp.toList (384 * i.val) 384) })

/-- `CZ <- BYTEDEC(d, B) ; dst <- DECOMPRESS(d, CZ)` (44_kpke.md R204, R205). -/
def unpackTxn (d : Nat) (B : List Byte) (dst : NReg) (s : State) : State :=
  let y := byteDecode d B
  logDecompress d (logBytedec d (s.setWork ({ s.work with cz := y }.setN dst (decompress d y))))

/-- `CZ <- COMPRESS(d, src) ; c[off : off + 32 d] <- BYTEENC(d, CZ)` (44_kpke.md R204). -/
def packTxn (d off : Nat) (src : NReg) (s : State) : State :=
  let y := compress d (s.work.getN src)
  logByteenc d (logCompress d ((s.setWork { s.work with cz := y }).setPorts
    { s.ports with encC := writeField s.ports.encC off (byteEncode d y) }))

/-- `CZ <- COMPRESS(1, WN) ; m <- BYTEENC(1, CZ)` (44_kpke.md R205). -/
def recoverTxn (s : State) : State :=
  let y := compress 1 s.work.wn
  logByteenc 1 (logCompress 1 ((s.setWork { s.work with cz := y }).setPorts
    { s.ports with decM := bytesOfList 32 (byteEncode 1 y) }))

/-! ### All of them -/

/-- One transaction. An operation word is not done here but by the unit it is presented to (`opTxn`). -/
def doTxn (P : Provider) (t : Txn) (s : State) : TxnResult :=
  match t with
  | .check op => checkTxn op s
  | .draw op i => drawTxn op i s
  | .op _ => .wait s
  | .hashEko k => .done (hashEkoTxn P k s)
  | .hashKey k => .done (hashKeyTxn P k s)
  | .assembleDk k => .done (assembleDkTxn k s)
  | .derive => .done (deriveTxn P s)
  | .rejKey k => .done (rejKeyTxn P k s)
  | .encapsIn k => .done (presentEnc (s.key.mem.readBytes 0 (ekLen k)) s)
  | .encapsOut k => .done (encapsOutTxn k s)
  | .decryptIn k => .done (presentDec k s)
  | .decryptOut => .done (decryptOutTxn s)
  | .reencIn k => .done (presentEnc (s.key.mem.readBytes (384 * rankVal k) (ekLen k)) s)
  | .reencOut k => .done (reencOutTxn k s)
  | .compare k => .done (compareTxn k s)
  | .select => .done (selectTxn s)
  | .discard => .done s.clearOutputs
  | .wipe op => .done (s.wipe op)
  | .clr mask => .done (s.clear mask)
  | .seedG k => .done (seedGTxn P k s)
  | .splitSeeds => .done (splitSeedsTxn s)
  | .encSeeds k => .done (encSeedsTxn k s)
  | .prf eta => .done (prfTxn P eta s)
  | .cbd eta dst => .done (cbdTxn eta dst s)
  | .ntt src dst => .done (nttTxn src dst s)
  | .intt src dst => .done (inttTxn src dst s)
  | .xofin row col => .done (xofinTxn row col s)
  | .sampleStart => .done (sampleStartTxn s)
  | .sampleLoop => sampleLoopTxn P s
  | .sampleTake => .done (sampleTakeTxn s)
  | .clearAcc => .done (s.setH .acch HPoly.zero)
  | .pwm a b => .done (pwmTxn a b s)
  | .addH a b dst => .done (addHTxn a b dst s)
  | .addN a b dst => .done (addNTxn a b dst s)
  | .subN a b dst => .done (subNTxn a b dst s)
  | .encodeT i => .done (encodeTTxn i s)
  | .writeRho k => .done (writeRhoTxn k s)
  | .encodeS i => .done (encodeSTxn i s)
  | .decodeT i => .done (decodeTTxn i s)
  | .message => .done (unpackTxn 1 s.ports.encM.toList .mun s)
  | .packU k i => .done (packTxn (du k) (32 * du k * i.val) (.un i) s)
  | .packV k => .done (packTxn (dv k) (32 * du k * rankVal k) .vn s)
  | .unpackU k i =>
    .done (unpackTxn (du k) (slice s.ports.decC.toList (32 * du k * i.val) (32 * du k)) (.un i) s)
  | .unpackV k =>
    .done (unpackTxn (dv k) (slice s.ports.decC.toList (32 * du k * rankVal k) (32 * dv k)) .vn s)
  | .decodeS i => .done (decodeSTxn i s)
  | .recover => .done (recoverTxn s)

end Sys2Proof.Machine
end

