-- ==== Sys2Proof/Machine/Kpke.lean ====
section
/-! DEFINITION. K-PKE (44_kpke.md): the sequences of `KPKE_KEYGEN k`, `KPKE_ENC k` and `KPKE_DEC k`, transaction by transaction
in the order of the rules, and what running one does. -/

namespace Sys2Proof.Machine

open Sys2Proof

/-- `SamplePRF(eta)` into a register (44_kpke.md R201). -/
def samplePrfSeq (eta : Eta) (dst : NReg) : List Txn := [.prf eta, .cbd eta dst]

/-- `GenEntry(row, col)` (44_kpke.md R200). -/
def genEntrySeq (row col : Fin 4) : List Txn := [.xofin row col, .sampleStart, .sampleLoop, .sampleTake]

/-- `Dot` of one row of the matrix with SH: entry (i, j) of the matrix for j in turn (44_kpke.md R202, R203). -/
def dotRowSeq (k : Rank) (i : Fin 4) : List Txn :=
  .clearAcc :: (rankIdx k).flatMap fun j => genEntrySeq i j ++ [.pwm .aij (.sh j), .addH .acch .prodh .acch]

/-- `Dot` of one column of the matrix with SH: entry (j, i) of the matrix for j in turn (44_kpke.md R202, R204). -/
def dotColSeq (k : Rank) (i : Fin 4) : List Txn :=
  .clearAcc :: (rankIdx k).flatMap fun j => genEntrySeq j i ++ [.pwm .aij (.sh j), .addH .acch .prodh .acch]

/-- `Dot(TH, SH)` (44_kpke.md R202, R204). -/
def dotTSeq (k : Rank) : List Txn :=
  .clearAcc :: (rankIdx k).flatMap fun j => [.pwm (.th j) (.sh j), .addH .acch .prodh .acch]

/-- `KPKE_KEYGEN k` (44_kpke.md R203). -/
def kpkeKeygenSeq (k : Rank) : List Txn :=
  [.seedG k, .splitSeeds]
    ++ (rankIdx k).flatMap (fun i => samplePrfSeq (eta1 k) (.sn i))
    ++ (rankIdx k).flatMap (fun i => samplePrfSeq (eta1 k) (.en i))
    ++ (rankIdx k).flatMap (fun i => [.ntt (.sn i) (.sh i), .ntt (.en i) (.eh i)])
    ++ (rankIdx k).flatMap (fun i => dotRowSeq k i ++ [.addH .acch (.eh i) (.th i)])
    ++ (rankIdx k).map (fun i => .encodeT i)
    ++ [.writeRho k]
    ++ (rankIdx k).map (fun i => .encodeS i)

/-- `KPKE_ENC k` (44_kpke.md R204). -/
def kpkeEncSeq (k : Rank) : List Txn :=
  (rankIdx k).map (fun i => .decodeT i)
    ++ [.encSeeds k]
    ++ (rankIdx k).flatMap (fun i => samplePrfSeq (eta1 k) (.sn i))
    ++ (rankIdx k).flatMap (fun i => samplePrfSeq (eta2 k) (.en i))
    ++ samplePrfSeq (eta2 k) .e2n
    ++ (rankIdx k).map (fun i => .ntt (.sn i) (.sh i))
    ++ (rankIdx k).flatMap (fun i => dotColSeq k i ++ [.intt .acch .wn, .addN .wn (.en i) (.un i)])
    ++ [.message]
    ++ dotTSeq k
    ++ [.intt .acch .wn, .addN .wn .e2n .vn, .addN .vn .mun .vn]
    ++ (rankIdx k).map (fun i => .packU k i)
    ++ [.packV k]

/-- `KPKE_DEC k` (44_kpke.md R205). -/
def kpkeDecSeq (k : Rank) : List Txn :=
  (rankIdx k).map (fun i => .unpackU k i)
    ++ [.unpackV k]
    ++ (rankIdx k).map (fun i => .decodeS i)
    ++ [.clearAcc]
    ++ (rankIdx k).flatMap (fun j => [.ntt (.un j) .uh, .pwm (.sh j) .uh, .addH .acch .prodh .acch])
    ++ [.intt .acch .wn, .subN .vn .wn .wn, .recover]

/-- Run a sequence one transaction at a time; the second component is what is left of it when a transaction does not finish
(70_reset_and_hazards.md R322; 42_sampling.md R162). -/
def runSeq (P : Provider) : List Txn → State → State × List Txn
  | [], s => (s, [])
  | t :: ts, s =>
    match doTxn P t s with
    | .done s' => runSeq P ts s'
    | .wait s' => (s', t :: ts)
    | .raise _ s' => (s', t :: ts)

/-- `KPKE_KEYGEN k` (44_kpke.md R203). Placed in front of an unfinished transaction it runs all the same: DESIGN
CHOICE (entry 19), unsafe. -/
def execKpkeKeygen (k : BitVec 4) (s : State) : Host.Outcome State Fault Refusal :=
  match rankOfArg k with
  | some r => unfinished s (runSeq Config.provider (kpkeKeygenSeq r) s)
  | none => .refused .illegalArg

/-- `KPKE_ENC k` (44_kpke.md R204). Placed in front of an unfinished transaction it runs all the same: DESIGN
CHOICE (entry 19), unsafe. -/
def execKpkeEnc (k : BitVec 4) (s : State) : Host.Outcome State Fault Refusal :=
  match rankOfArg k with
  | some r => unfinished s (runSeq Config.provider (kpkeEncSeq r) s)
  | none => .refused .illegalArg

/-- `KPKE_DEC k` (44_kpke.md R205). Placed in front of an unfinished transaction it runs all the same: DESIGN
CHOICE (entry 19), unsafe. -/
def execKpkeDec (k : BitVec 4) (s : State) : Host.Outcome State Fault Refusal :=
  match rankOfArg k with
  | some r => unfinished s (runSeq Config.provider (kpkeDecSeq r) s)
  | none => .refused .illegalArg

end Sys2Proof.Machine
end

