-- ==== Sys2Proof/Machine/Sequencer.lean ====
section
/-! DEFINITION. The sequencer `ml_kem_wrapper_fsm` (45_mlkem_fsm.md section 1): the path table, the transactions of each state,
one transaction of the block, and a turn of it. -/

namespace Sys2Proof.Machine

open Sys2Proof

/-- The successor of a state for the word being executed; nothing where the path table has none (45_mlkem_fsm.md R231).
An error's successor FAIL is `State.raiseError`'s. -/
def nextState (f : Fsm) (op : Instr) : Option Fsm :=
  match f with
  | .idle => none
  | .check =>
    match op with
    | .keygen _ => some .fetchRnd
    | .encaps _ => some .fetchRnd
    | .keygenDet _ => some .kpkeKg
    | .encapsDet _ => some .hashEk
    | .decaps _ => some .decrypt
    | _ => none
  | .fetchRnd =>
    match op with
    | .keygen _ => some .kpkeKg
    | .encaps _ => some .hashEk
    | _ => none
  | .kpkeKg => some .hashEk
  | .hashEk =>
    match op with
    | .keygen _ => some .assembleDk
    | .keygenDet _ => some .assembleDk
    | .encaps _ => some .derive
    | .encapsDet _ => some .derive
    | _ => none
  | .assembleDk => some .wipe
  | .decrypt => some .derive
  | .derive =>
    match op with
    | .encaps _ => some .encrypt
    | .encapsDet _ => some .encrypt
    | .decaps _ => some .rejKey
    | _ => none
  | .rejKey => some .encrypt
  | .encrypt =>
    match op with
    | .encaps _ => some .wipe
    | .encapsDet _ => some .wipe
    | .decaps _ => some .compare
    | _ => none
  | .compare => some .select
  | .select => some .wipe
  | .fail => some .wipe
  | .wipe => some .idle
  | .clr => some .idle
  | .unused => none

/-- How many bytes FETCH_RND draws (45_mlkem_fsm.md R233). -/
def drawCount : Instr → Nat
  | .keygen _ => 64
  | .encaps _ => 32
  | _ => 0

/-- The word decapsulates (45_mlkem_fsm.md R238). -/
def isDecaps : Instr → Bool
  | .decaps _ => true
  | _ => false

/-- The word generates a key (45_mlkem_fsm.md R234, R235). -/
def isKeygen : Instr → Bool
  | .keygen _ => true
  | .keygenDet _ => true
  | _ => false

/-- The transactions of the step of a state, for a word of rank k (45_mlkem_fsm.md R232 to R241). -/
def stateSeq (f : Fsm) (op : Instr) (k : Rank) : List Txn :=
  match f with
  | .idle => []
  | .check => [.check op]
  | .fetchRnd => (List.range (drawCount op)).map fun i => .draw op i
  | .kpkeKg => [.op (encode (.kpkeKeygen (rankArg k)))]
  | .hashEk => if isKeygen op then [.hashEko k] else [.hashKey k]
  | .assembleDk => [.assembleDk k]
  | .derive => [.derive]
  | .encrypt =>
    if isDecaps op then [.reencIn k, .op (encode (.kpkeEnc (rankArg k))), .reencOut k]
    else [.encapsIn k, .op (encode (.kpkeEnc (rankArg k))), .encapsOut k]
  | .decrypt => [.decryptIn k, .op (encode (.kpkeDec (rankArg k))), .decryptOut]
  | .rejKey => [.rejKey k]
  | .compare => [.compare k]
  | .select => [.select]
  | .fail => [.discard]
  | .wipe => [.wipe op]
  | .clr => [.clr op.arg]
  | .unused => []

/-- The transactions of the step of a state: the word and its k are read from OPW (10_state.md R41). A word without a rank is
`CLEAR`, whose steps need none. DESIGN CHOICE (entry 14), safe. -/
def stateTxns (f : Fsm) (opw : Word16) : List Txn :=
  match decode opw with
  | .ok op => stateSeq f op ((rankOfArg op.arg).getD .k2)
  | .error _ => []

/-- `pc <- S` (10_state.md R27). -/
def State.goto (s : State) (f : Fsm) : State := s.enter f (stateTxns f s.opw)

/-- The end of a step: FSM advances to its successor once no transaction of the step is left (10_state.md R27;
45_mlkem_fsm.md R231). WIPE and CLR have themselves gone to IDLE, which has no successor. -/
def State.advance (s : State) : State :=
  match s.todo with
  | _ :: _ => s
  | [] =>
    match decode s.opw with
    | .ok op =>
      match nextState s.fsm op with
      | some f => s.goto f
      | none => s
    | .error _ => s

/-- A unit transaction of an operation, and what is left of it. A host word presented to the wrapper while it is running
does nothing (70_reset_and_hazards.md R314), and a word with an illegal ARG is not done. -/
def opUnit (P : Provider) (i : Instr) (s : State) : State × List Txn :=
  match i with
  | .add => (addUnit s, [])
  | .sub => (subUnit s, [])
  | .mul => (mulUnit s, [])
  | .ntt => (nttUnit s, [])
  | .intt => (inttUnit s, [])
  | .pwm => (pwmUnit s, [])
  | .samplentt => samplenttUnit P s
  | .cbd eta =>
    match etaOfArg eta with
    | some e => (cbdUnit e s, [])
    | none => (s, [.op (encode i)])
  | .compress d => (compressUnit d.toNat s, [])
  | .decompress d => (decompressUnit d.toNat s, [])
  | .byteenc d => (byteencUnit d.toNat s, [])
  | .bytedec d => (bytedecUnit d.toNat s, [])
  | .kpkeEnc k =>
    match rankOfArg k with
    | some r => runSeq P (kpkeEncSeq r) s
    | none => (s, [.op (encode i)])
  | .kpkeDec k =>
    match rankOfArg k with
    | some r => runSeq P (kpkeDecSeq r) s
    | none => (s, [.op (encode i)])
  | .kpkeKeygen k =>
    match rankOfArg k with
    | some r => runSeq P (kpkeKeygenSeq r) s
    | none => (s, [.op (encode i)])
  | .keygen _ => (s, [])
  | .keygenDet _ => (s, [])
  | .encaps _ => (s, [])
  | .encapsDet _ => (s, [])
  | .decaps _ => (s, [])
  | .clear _ => (s, [])

/-- An operation word presented to its unit (10_state.md R43; 30_encoding.md R94, R100). A word that is no operation is left
where it is (93_implementation_defined.md U6; `step` refuses it). -/
def opTxn (P : Provider) (w : Word16) (s : State) : State × List Txn :=
  match decode w with
  | .ok i => opUnit P i (s.log (.unit w 1))
  | .error _ => (s, [.op w])

/-- How one transaction of the block ends. -/
inductive BlockResult where
  /-- It is made, and the block can go on. -/
  | moved (s : State)
  /-- There is none to make, or the one at the head is not finished. -/
  | rest (s : State)

/-- One transaction of the block, the first of `todo`; with the last one of a step FSM advances, and an error goes to FAIL
(10_state.md R27; 20_memory.md R74; 60_exceptions.md R277). -/
def blockStep (P : Provider) (s : State) : BlockResult :=
  match s.todo with
  | [] => .rest s
  | .op w :: ts =>
    let r := opTxn P w (s.setTodo ts)
    match r.2 with
    | [] => .moved r.1.advance
    | u :: us => .rest (r.1.setTodo (u :: us ++ ts))
  | t :: ts =>
    match doTxn P t (s.setTodo ts) with
    | .done s' => .moved s'.advance
    | .wait s' => .rest (s'.setTodo (t :: ts))
    | .raise code s' => .moved (s'.raiseError code)

/-- A turn of the block: at most n transactions, ending early in IDLE or at a transaction that does not finish
(45_mlkem_fsm.md R230, R244). -/
def settle (P : Provider) : Nat → State → State
  | 0, s => s
  | n + 1, s =>
    match blockStep P s with
    | .moved s' => settle P n s'
    | .rest s' => s'

end Sys2Proof.Machine
end

