-- ==== Sys2Proof/Machine/Wrapper.lean ====
section
/-! DEFINITION. The host words (45_mlkem_fsm.md R230, R234 to R239): taking one and letting the block run on it. -/

namespace Sys2Proof.Machine

open Sys2Proof

/-- The first state of a word: CLR for `CLEAR`, CHECK otherwise (45_mlkem_fsm.md R230). -/
def firstState : Instr → Fsm
  | .clear _ => .clr
  | _ => .check

/-- Taking a legal word: STATUS, OPW, ECODE, and `pc` (45_mlkem_fsm.md R230). A new trace begins. What is left of a
transaction that was placed in the idle block and is unfinished is dropped (93_implementation_defined.md U7): DESIGN CHOICE
(entry 19), unsafe. -/
def State.take (s : State) (op : Instr) : State :=
  ({ s with status := statusTaken, opw := encode op, ecode := .none, trace := [] } : State).goto (firstState op)

/-- A host word: without effect while BUSY (10_state.md R20); else it is taken and the block makes its transactions, as many
as one turn allows (45_mlkem_fsm.md R230, R244; entry 4). -/
def runWord (P : Provider) (op : Instr) (s : State) : State :=
  if s.status.busy then s else settle P s.burst (s.take op)

/-- A host word with a rank, or a refusal of an ARG that is no rank (30_encoding.md R93). -/
def rankedWord (op : Instr) (k : BitVec 4) (s : State) : Host.Outcome State Fault Refusal :=
  match rankOfArg k with
  | some _ => .next (runWord Config.provider op s)
  | none => .refused .illegalArg

/-- `KEYGEN k` (45_mlkem_fsm.md R234). -/
def execKeygen (k : BitVec 4) (s : State) : Host.Outcome State Fault Refusal := rankedWord (.keygen k) k s

/-- `KEYGEN_DET k` (45_mlkem_fsm.md R235). -/
def execKeygenDet (k : BitVec 4) (s : State) : Host.Outcome State Fault Refusal := rankedWord (.keygenDet k) k s

/-- `ENCAPS k` (45_mlkem_fsm.md R236). -/
def execEncaps (k : BitVec 4) (s : State) : Host.Outcome State Fault Refusal := rankedWord (.encaps k) k s

/-- `ENCAPS_DET k` (45_mlkem_fsm.md R237). -/
def execEncapsDet (k : BitVec 4) (s : State) : Host.Outcome State Fault Refusal := rankedWord (.encapsDet k) k s

/-- `DECAPS k` (45_mlkem_fsm.md R238). -/
def execDecaps (k : BitVec 4) (s : State) : Host.Outcome State Fault Refusal := rankedWord (.decaps k) k s

/-- `CLEAR mask` (45_mlkem_fsm.md R239). -/
def execClear (mask : BitVec 4) (s : State) : Host.Outcome State Fault Refusal :=
  .next (runWord Config.provider (.clear mask) s)

end Sys2Proof.Machine
end

