-- ==== Sys2Proof/Machine/Dispatch.lean ====
section
/-! DEFINITION. The dispatch: one arm per operation of the opcode map (30_encoding.md R92). -/

namespace Sys2Proof.Machine

open Sys2Proof

def exec (i : Instr) (s : State) : Host.Outcome State Fault Refusal :=
  match i with
  | .add => Sys2Proof.Machine.execAdd s
  | .sub => Sys2Proof.Machine.execSub s
  | .mul => Sys2Proof.Machine.execMul s
  | .ntt => Sys2Proof.Machine.execNtt s
  | .intt => Sys2Proof.Machine.execIntt s
  | .pwm => Sys2Proof.Machine.execPwm s
  | .samplentt => Sys2Proof.Machine.execSamplentt s
  | .cbd eta => Sys2Proof.Machine.execCbd eta s
  | .compress d => Sys2Proof.Machine.execCompress d s
  | .decompress d => Sys2Proof.Machine.execDecompress d s
  | .byteenc d => Sys2Proof.Machine.execByteenc d s
  | .bytedec d => Sys2Proof.Machine.execBytedec d s
  | .kpkeEnc k => Sys2Proof.Machine.execKpkeEnc k s
  | .kpkeDec k => Sys2Proof.Machine.execKpkeDec k s
  | .keygen k => Sys2Proof.Machine.execKeygen k s
  | .keygenDet k => Sys2Proof.Machine.execKeygenDet k s
  | .encaps k => Sys2Proof.Machine.execEncaps k s
  | .encapsDet k => Sys2Proof.Machine.execEncapsDet k s
  | .decaps k => Sys2Proof.Machine.execDecaps k s
  | .clear mask => Sys2Proof.Machine.execClear mask s
  | .kpkeKeygen k => Sys2Proof.Machine.execKpkeKeygen k s

end Sys2Proof.Machine
end

