-- ==== Sys2Proof/Machine/HostPort.lean ====
section
/-! DEFINITION. The host actions (10_state.md R26), what a turn of the block does, and where an operation word is fetched:
the CMD port for the host (10_state.md R20), the head of `todo` for a sequencer (30_encoding.md R100). -/

namespace Sys2Proof.Machine

open Sys2Proof

/-- `HostReset()`: every piece of state the block has at its reset value; what belongs to the world outside is kept
(70_reset_and_hazards.md R310, R312; 10_state.md R52). DESIGN CHOICE (entry 17), safe. -/
def hostReset (s : State) : State :=
  { State.reset with
    agenda := s.agenda
    rng := s.rng
    draws := s.draws
    burst := s.burst
    patience := s.patience }

/-- The completion of an illegal word: ERR_CMD in the same transition, nothing else changed (60_exceptions.md R273). -/
def illegalWord (s : State) : State := { s with status := statusDone .cmd }

/-- `HostCmd(w)`: ignored while BUSY, else decoded and taken (45_mlkem_fsm.md R230; 30_encoding.md R95). -/
def hostCmd (det : Bool) (w : Word16) (s : State) : Host.Outcome State Fault Refusal :=
  if s.status.busy then .next s
  else
    match decodeHost det w with
    | .ok i => exec i s
    | .error _ => .next (illegalWord s)

/-- `HostPush(b, v)`: ignored while BUSY (10_state.md R23; 70_reset_and_hazards.md R314). -/
def hostPush (b : InName) (v : Byte) (s : State) : State :=
  if s.status.busy then s else s.setInBuf b ((s.inBuf b).push (inCap b) v)

/-- What `HostRead(b, i)` returns: 0x00 while BUSY or beyond the length (10_state.md R25; 20_memory.md R66). -/
def hostReadByte (b : OutName) (i : Nat) (s : State) : Byte :=
  if s.status.busy = false ∧ i < (s.outBuf b).len then (s.outBuf b).mem.read i else 0

/-- `HostRead(b, i)` (10_state.md R25). -/
def hostRead (b : OutName) (i : Nat) (s : State) : State := { s with reply := .byte (hostReadByte b i s) }

/-- `HostStatus()`: STATUS, the three counters and the four lengths, at any time (10_state.md R21, R22, R24). -/
def hostStatus (s : State) : State :=
  { s with
    reply := .status (statusWord s.status)
      (BitVec.ofNat 16 s.key.cnt) (BitVec.ofNat 16 s.ct.cnt) (BitVec.ofNat 16 s.seed.cnt)
      (BitVec.ofNat 16 s.eko.len) (BitVec.ofNat 16 s.dko.len)
      (BitVec.ofNat 16 s.cto.len) (BitVec.ofNat 16 s.sso.len) }

/-- One host action (10_state.md R26). -/
def hostAction (a : HostAction) (s : State) : Host.Outcome State Fault Refusal :=
  match a with
  | .reset => .next (hostReset s)
  | .cmd w => hostCmd Config.detApi w s
  | .push b v => .next (hostPush b v s)
  | .read b i => .next (hostRead b i s)
  | .status => .next (hostStatus s)

/-- After the unit transaction of a sequencer: FSM advances if it was the last one of its step (10_state.md R27). -/
def afterOp (r : Host.Outcome State Fault Refusal) : Host.Outcome State Fault Refusal :=
  match r with
  | .next s => .next s.advance
  | .fault f => .fault f
  | .refused f => .refused f

/-- A turn of the block. A word at the head of `todo` is fetched from there and executed; else the block makes the
transactions one turn allows, at least one; in IDLE it waits (10_state.md R27, R43; 60_exceptions.md R288). A word that stands in
front of an unfinished transaction of its unit is run too (93_implementation_defined.md U7; 70_reset_and_hazards.md R322): DESIGN
CHOICE (entry 19), unsafe. -/
def blockTurn (s : State) : Host.Outcome State Fault Refusal :=
  if s.fsm = .unused then .fault .fsmUnused
  else
    match s.todo with
    | .op w :: ts =>
      match decode w with
      | .ok i => afterOp (exec i ((s.setTodo ts).log (.unit w 1)))
      | .error _ => .refused (.notAnOperation w)
    | _ => .next (settle Config.provider (s.burst + 1) s)

/-- The next event: a host action, or a turn of the block, which also comes when none is listed (20_memory.md R74). -/
def nextEvent (s : State) : Host.Outcome State Fault Refusal :=
  match s.agenda with
  | .host a :: es => hostAction a (s.setAgenda es)
  | .block :: es => blockTurn (s.setAgenda es)
  | [] => blockTurn s

/-- The word is one the host may issue in every build (30_encoding.md R95, R101). -/
def productionWord (w : Word16) : Bool := (decodeHost false w).toOption.isSome

/-- A word where it is fetched next: an operation the host may not issue in every build at the head of `todo`, with a turn of
the block next; any other word at the CMD port, with that action next (entry 11). The head of `todo` may be an unfinished
transaction, and the word is placed in front of it (93_implementation_defined.md U7): DESIGN CHOICE (entry 19), unsafe. -/
def placeWord (s : State) (w : Word16) : State :=
  if (decode w).toOption.isSome && !productionWord w then
    (s.setTodo (.op w :: s.todo)).setAgenda (.block :: s.agenda)
  else s.setAgenda (.host (.cmd w) :: s.agenda)

end Sys2Proof.Machine
end

