-- ==== Sys2Proof/Machine/Step.lean ====
section
/-! DEFINITION. One step of the machine, and the placing of a word where the next step fetches it. -/

namespace Sys2Proof.Machine

open Sys2Proof

/-- One step: the next event of the agenda, or a turn of the block (20_memory.md R74). -/
def step (s : State) : Host.Outcome State Fault Refusal := nextEvent s

/-- The state with an operation word placed where the next step fetches it (entry 11). Every operation word has 16 bits
(30_encoding.md R90); bits above the given ones are zero. -/
def State.withFetchWord (s : State) (nbits w : Nat) : State := placeWord s (BitVec.ofNat 16 (w % 2 ^ nbits))

end Sys2Proof.Machine
end

