-- ==== Sys2Proof/Machine/Algorithms.lean ====
section
/-! DEFINITION. The algorithms of K-PKE and ML-KEM as functions on byte strings (44_kpke.md R203 to R205; 45_mlkem_fsm.md R247),
in which claims about the sequences are stated. No definition of the machine uses them. A function that samples the public
matrix answers `none` where a `SAMPLENTT` of it does not finish within n groups (42_sampling.md R162). -/

namespace Sys2Proof.Machine

open Sys2Proof

/-- The matrix entry in a row and a column: `SAMPLENTT(rho, byte(col), byte(row))` (44_kpke.md R200). -/
def matrixEntry (P : Provider) (n : Nat) (rho : List Byte) (row col : Fin 4) : Option HPoly :=
  (sampleNtt (P.XOF (bytesOfList 34 (rho ++ [BitVec.ofNat 8 col.val, BitVec.ofNat 8 row.val]))) n).map fun r => r.1

/-- The small polynomial with PRF counter N: `CBD eta (PRF(eta, sigma, byte(N)))` (44_kpke.md R201). -/
def smallPoly (P : Provider) (eta : Eta) (sigma : List Byte) (N : Nat) : NPoly :=
  cbd eta (P.PRF eta (bytesOfList 32 sigma) (BitVec.ofNat 8 N)).toList

/-- The sum of the point-wise products of two vectors, from zero in rising order (44_kpke.md R202). -/
def dotProduct (a b : List HPoly) : HPoly :=
  (a.zip b).foldl (fun acc p => polyAddH acc (pwm p.1 p.2)) HPoly.zero

/-- Row i of the matrix (44_kpke.md R203). -/
def matrixRow (P : Provider) (n : Nat) (k : Rank) (rho : List Byte) (i : Fin 4) : Option (List HPoly) :=
  (rankIdx k).mapM fun j => matrixEntry P n rho i j

/-- Column i of the matrix (44_kpke.md R204). -/
def matrixCol (P : Provider) (n : Nat) (k : Rank) (rho : List Byte) (i : Fin 4) : Option (List HPoly) :=
  (rankIdx k).mapM fun j => matrixEntry P n rho j i

/-- The encoding of a vector of NTT-domain polynomials, 384 bytes each (43_compress_encode.md R189). -/
def encodeVector (v : List HPoly) : List Byte := v.flatMap fun f => byteEncode 12 f.c

/-- `KPKE_KeyGen(k, d)`: ek and dkp (44_kpke.md R203). -/
def kpkeKeyGen (P : Provider) (n : Nat) (k : Rank) (d : List Byte) : Option (List Byte × List Byte) :=
  let g := (P.G (d ++ [BitVec.ofNat 8 (rankVal k)])).toList
  let rho := slice g 0 32
  let sigma := slice g 32 32
  let sh := (rankIdx k).map fun i => ntt (smallPoly P (eta1 k) sigma i.val)
  let th := (rankIdx k).mapM fun i =>
    (matrixRow P n k rho i).map fun a =>
      polyAddH (dotProduct a sh) (ntt (smallPoly P (eta1 k) sigma (rankVal k + i.val)))
  th.map fun t => (encodeVector t ++ rho, encodeVector sh)

/-- `KPKE_Enc(k, ek, m, r)`: c (44_kpke.md R204). -/
def kpkeEncrypt (P : Provider) (n : Nat) (k : Rank) (ek m r : List Byte) : Option (List Byte) :=
  let th := (rankIdx k).map fun i => ({ c := byteDecode 12 (slice ek (384 * i.val) 384) } : HPoly)
  let rho := slice ek (384 * rankVal k) 32
  let yh := (rankIdx k).map fun i => ntt (smallPoly P (eta1 k) r i.val)
  let u := (rankIdx k).mapM fun i =>
    (matrixCol P n k rho i).map fun a =>
      polyAddN (intt (dotProduct a yh)) (smallPoly P (eta2 k) r (rankVal k + i.val))
  let e2 := smallPoly P (eta2 k) r (2 * rankVal k)
  let mu := decompress 1 (byteDecode 1 m)
  let v := polyAddN (polyAddN (intt (dotProduct th yh)) e2) mu
  u.map fun us =>
    us.flatMap (fun f => byteEncode (du k) (compress (du k) f)) ++ byteEncode (dv k) (compress (dv k) v)

/-- `KPKE_Dec(k, dkp, c)`: m (44_kpke.md R205). -/
def kpkeDecrypt (k : Rank) (dkp c : List Byte) : List Byte :=
  let u := (rankIdx k).map fun i => decompress (du k) (byteDecode (du k) (slice c (32 * du k * i.val) (32 * du k)))
  let v := decompress (dv k) (byteDecode (dv k) (slice c (32 * du k * rankVal k) (32 * dv k)))
  let sh := (rankIdx k).map fun i => ({ c := byteDecode 12 (slice dkp (384 * i.val) 384) } : HPoly)
  byteEncode 1 (compress 1 (polySubN v (intt (dotProduct sh (u.map ntt)))))

/-- `MLKEM_KeyGen(k, d, z)`: ek and dk (45_mlkem_fsm.md R247). -/
def mlkemKeyGen (P : Provider) (n : Nat) (k : Rank) (d z : List Byte) : Option (List Byte × List Byte) :=
  (kpkeKeyGen P n k d).map fun r => (r.1, r.2 ++ r.1 ++ (P.H r.1).toList ++ z)

/-- `MLKEM_Encaps(k, ek, m)`: c and K (45_mlkem_fsm.md R247). -/
def mlkemEncaps (P : Provider) (n : Nat) (k : Rank) (ek m : List Byte) : Option (List Byte × List Byte) :=
  let g := (P.G (m ++ (P.H ek).toList)).toList
  (kpkeEncrypt P n k ek m (slice g 32 32)).map fun c => (c, slice g 0 32)

/-- `MLKEM_Decaps(k, dk, c)`: the shared secret (45_mlkem_fsm.md R247). -/
def mlkemDecaps (P : Provider) (n : Nat) (k : Rank) (dk c : List Byte) : Option (List Byte) :=
  let dkp := slice dk 0 (384 * rankVal k)
  let ek := slice dk (384 * rankVal k) (ekLen k)
  let h := slice dk (768 * rankVal k + 32) 32
  let z := slice dk (768 * rankVal k + 64) 32
  let m := kpkeDecrypt k dkp c
  let g := (P.G (m ++ h)).toList
  (kpkeEncrypt P n k ek m (slice g 32 32)).map fun c' => if c' = c then slice g 0 32 else (P.J (z ++ c)).toList

end Sys2Proof.Machine
end

