-- ==== Sys2Proof/Safety.lean ====
section
/-! DEFINITION. The terms claims are stated in: when the block is ready for a host action, the invariants of the spec, what the
words leave behind, the path and the requests of a word, and the ring product. -/

namespace Sys2Proof.Machine

open Sys2Proof

/-! ### Ready, and turns long enough for a whole word -/

/-- The ports of the sampler and of the two K-PKE units carry nothing, as between two transactions (entry 8). -/
structure Ports.Released (p : Ports) : Prop where
  smpIn : p.smpIn = Vector.replicate 34 0
  smpOut : p.smpOut = HPoly.zero
  smpCnt : p.smpCnt = 0
  encEk : p.encEk = Vector.replicate 1568 0
  encM : p.encM = Vector.replicate 32 0
  encR : p.encR = Vector.replicate 32 0
  encC : p.encC = Vector.replicate 1568 0
  decDkp : p.decDkp = Vector.replicate 1536 0
  decC : p.decC = Vector.replicate 1568 0
  decM : p.decM = Vector.replicate 32 0

/-- The block is in IDLE and clean (10_state.md R27, R36), with no transaction left over. -/
structure State.Ready (s : State) : Prop where
  busy : s.status.busy = false
  fsm : s.fsm = .idle
  opw : s.opw = 0
  ecode : s.ecode = .none
  work : s.work = Work.zero
  todo : s.todo = []
  ports : s.ports.Released

/-- As many transactions as any word needs when no `SAMPLENTT` waits (entry 4): a turn of so many is a whole word. -/
def wordTxns : Nat := 128

/-- How many 3-byte groups of a stream one turn reads (entry 4). -/
def State.groups (s : State) : Nat := s.patience + 1

/-- The host may issue the operation in a build with the given `DET_API` (30_encoding.md R94, R101). -/
def hostIssuable (det : Bool) : Instr → Bool
  | .keygen _ => true
  | .keygenDet _ => det
  | .encaps _ => true
  | .encapsDet _ => det
  | .decaps _ => true
  | .clear _ => true
  | _ => false

/-! ### What a completed word leaves (45_mlkem_fsm.md R247; 60_exceptions.md R278) -/

/-- The contents of an output buffer that holds a byte string (10_state.md R24). -/
def OutBuf.holding (B : List Byte) : OutBuf := { mem := Memory.writeBytes [] 0 B, len := B.length }

/-- A completed key generation. -/
def keygenDone (s : State) (ek dk : List Byte) : State :=
  { s.clearOutputs with
    status := statusDone .none
    eko := OutBuf.holding ek
    dko := OutBuf.holding dk }

/-- A completed encapsulation. -/
def encapsDone (s : State) (c K : List Byte) : State :=
  { s.clearOutputs with
    status := statusDone .none
    cto := OutBuf.holding c
    sso := OutBuf.holding K }

/-- A completed decapsulation. -/
def decapsDone (s : State) (K : List Byte) : State :=
  { s.clearOutputs with status := statusDone .none, sso := OutBuf.holding K }

/-- A word that ended with an error code after CHECK: the outputs are empty (60_exceptions.md R278). -/
def errorDone (s : State) (e : Err) : State := { s.clearOutputs with status := statusDone e }

/-- The state after a deterministic word has wiped SEED (45_mlkem_fsm.md R241). -/
def State.seedWiped (s : State) : State := { s with seed := InBuf.empty }

/-- The state after `n` randomness requests that used up the scripted answers down to `rest` (00_scope.md R14). -/
def State.afterDraws (s : State) (n : Nat) (rest : List (Option Byte)) : State :=
  { s with rng := rest, draws := s.draws + n }

/-- A word that waits in a `SAMPLENTT` (42_sampling.md R162): BUSY, in the given state, nothing delivered, the input buffers
untouched. -/
def Waiting (s t : State) (f : Fsm) : Prop :=
  t.status = statusTaken ∧ t.fsm = f ∧ t.todo ≠ [] ∧ t.key = s.key ∧ t.ct = s.ct ∧ t.seed = s.seed ∧
    t.eko.len = 0 ∧ t.dko.len = 0 ∧ t.cto.len = 0 ∧ t.sso.len = 0

/-! ### The buffers (10_state.md R22, R24, R33) -/

/-- An input buffer: canonical, nothing at or above the fill counter, the counter in its range (10_state.md R22). -/
def InBuf.Ok (cap : Nat) (b : InBuf) : Prop :=
  b.mem.wf cap ∧ (∀ c ∈ b.mem, c.1 < b.cnt) ∧ b.cnt ≤ cap + 1

/-- An output buffer: canonical, the length register at most the capacity (10_state.md R24). -/
def OutBuf.Ok (cap : Nat) (b : OutBuf) : Prop := b.mem.wf cap ∧ b.len ≤ cap

/-- All eight buffers. -/
structure BuffersOk (s : State) : Prop where
  key : s.key.Ok (inCap .key)
  ct : s.ct.Ok (inCap .ct)
  seed : s.seed.Ok (inCap .seed)
  eko : s.eko.Ok (outCap .eko)
  dko : s.dko.Ok (outCap .dko)
  cto : s.cto.Ok (outCap .cto)
  sso : s.sso.Ok (outCap .sso)
  ct2 : s.work.ct2.wf 1568

/-! ### The polynomial registers (10_state.md R34) -/

/-- Every polynomial register holds canonical elements, and CZ values of at most 11 bits (10_state.md R32, R34). The sampler's
result, finished or not, is canonical too: the model's choice of log entries 8 and 10, which a step needs for AIJ. -/
structure RegsCanonical (s : State) : Prop where
  normal : ∀ r, canonical (s.work.getN r).c = true
  ntt : ∀ r, canonical (s.work.getH r).c = true
  cz : fitsBits 11 s.work.cz = true
  sampler : canonical s.ports.smpOut.c = true

/-! ### The sequencer (10_state.md R27, R36; 45_mlkem_fsm.md R231) -/

/-- The states a word visits after IDLE when no error occurs, in order (45_mlkem_fsm.md R231). -/
def wordPath : Instr → List Fsm
  | .keygen _ => [.check, .fetchRnd, .kpkeKg, .hashEk, .assembleDk, .wipe, .idle]
  | .keygenDet _ => [.check, .kpkeKg, .hashEk, .assembleDk, .wipe, .idle]
  | .encaps _ => [.check, .fetchRnd, .hashEk, .derive, .encrypt, .wipe, .idle]
  | .encapsDet _ => [.check, .hashEk, .derive, .encrypt, .wipe, .idle]
  | .decaps _ => [.check, .decrypt, .derive, .rejKey, .encrypt, .compare, .select, .wipe, .idle]
  | .clear _ => [.clr, .idle]
  | _ => []

/-- The states a word visits with an error (45_mlkem_fsm.md R231); ERR_CMD visits none (60_exceptions.md R277). -/
def errorPath : Err → List Fsm
  | .length => [.check, .fail, .wipe, .idle]
  | .rng => [.check, .fetchRnd, .fail, .wipe, .idle]
  | _ => []

/-- The states in which the block can be at work on a word: those of its path, and FAIL where a word can raise an error after
CHECK has begun (45_mlkem_fsm.md R231). `CLEAR` raises none. -/
def wordStates (op : Instr) : List Fsm :=
  match op with
  | .clear _ => wordPath op
  | _ => .fail :: wordPath op

/-- A state in which a K-PKE operation runs (45_mlkem_fsm.md R234, R236, R238). -/
def kpkeState (f : Fsm) : Bool := f == .kpkeKg || f == .encrypt || f == .decrypt

/-- A word a sequencer presents: a K-PKE operation (45_mlkem_fsm.md R234, R236, R238). -/
def kpkeWord (w : Word16) : Bool :=
  match decode w with
  | .ok (.kpkeKeygen _) => true
  | .ok (.kpkeEnc _) => true
  | .ok (.kpkeDec _) => true
  | _ => false

/-- The transactions that belong to the step of a state (45_mlkem_fsm.md R232 to R241; 44_kpke.md R203 to R205). -/
def belongs (f : Fsm) : Txn → Bool
  | .check _ => f == .check
  | .draw _ _ => f == .fetchRnd
  | .op w => kpkeState f && kpkeWord w
  | .hashEko _ => f == .hashEk
  | .hashKey _ => f == .hashEk
  | .assembleDk _ => f == .assembleDk
  | .derive => f == .derive
  | .rejKey _ => f == .rejKey
  | .encapsIn _ => f == .encrypt
  | .encapsOut _ => f == .encrypt
  | .decryptIn _ => f == .decrypt
  | .decryptOut => f == .decrypt
  | .reencIn _ => f == .encrypt
  | .reencOut _ => f == .encrypt
  | .compare _ => f == .compare
  | .select => f == .select
  | .discard => f == .fail
  | .wipe _ => f == .wipe
  | .clr _ => f == .clr
  | .seedG _ => kpkeState f
  | .splitSeeds => kpkeState f
  | .encSeeds _ => kpkeState f
  | .prf _ => kpkeState f
  | .cbd _ _ => kpkeState f
  | .ntt _ _ => kpkeState f
  | .intt _ _ => kpkeState f
  | .xofin _ _ => kpkeState f
  | .sampleStart => kpkeState f
  | .sampleLoop => kpkeState f
  | .sampleTake => kpkeState f
  | .clearAcc => kpkeState f
  | .pwm _ _ => kpkeState f
  | .addH _ _ _ => kpkeState f
  | .addN _ _ _ => kpkeState f
  | .subN _ _ _ => kpkeState f
  | .encodeT _ => kpkeState f
  | .writeRho _ => kpkeState f
  | .encodeS _ => kpkeState f
  | .decodeT _ => kpkeState f
  | .message => kpkeState f
  | .packU _ _ => kpkeState f
  | .packV _ => kpkeState f
  | .unpackU _ _ => kpkeState f
  | .unpackV _ => kpkeState f
  | .decodeS _ => kpkeState f
  | .recover => kpkeState f

/-- The block in IDLE (10_state.md R27, R36, R41). -/
structure IdleOk (s : State) : Prop where
  fsm : s.fsm = .idle
  busy : s.status.busy = false
  todo : s.todo = []
  opw : s.opw = 0
  ecode : s.ecode = .none
  work : s.work = Work.zero

/-- The block at work on a word: BUSY, in a state of the word's paths, with transactions of that state to make
(10_state.md R21, R27, R41; 45_mlkem_fsm.md R231). CLR starts from clean registers and leaves them so. -/
structure BusyOk (s : State) : Prop where
  status : s.status = statusTaken
  path : ∃ op, decode s.opw = .ok op ∧ s.fsm ∈ wordStates op ∧ s.fsm ≠ .idle ∧ hostIssuable true op = true
  todo : s.todo ≠ []
  belongs : ∀ t ∈ s.todo, belongs s.fsm t = true
  clr : s.fsm = .clr → s.ecode = .none ∧ s.work = Work.zero

/-- The sequencer's invariant. -/
def SequencerOk (s : State) : Prop := IdleOk s ∨ BusyOk s

/-! ### The trace (70_reset_and_hazards.md R318) -/

/-- The states of FSM in a trace, in the order they were entered. -/
def tracedStates (tr : List TraceItem) : List Fsm :=
  tr.reverse.filterMap fun
    | .state f => some f
    | _ => none

/-- The provider requests in a trace, in the order they were made. -/
def tracedRequests (tr : List TraceItem) : List TraceItem :=
  tr.reverse.filter fun
    | .reqH _ => true
    | .reqG _ => true
    | .reqJ _ => true
    | .reqPrf _ _ => true
    | .reqXof _ => true
    | .draw => true
    | _ => false

/-- The requests of `KPKE_KEYGEN k` by function and input length (44_kpke.md R210). -/
def keygenRequests (k : Rank) : List TraceItem :=
  .reqG 33 :: (List.replicate (2 * rankVal k) (.reqPrf (eta1 k) 33)
    ++ List.replicate (rankVal k * rankVal k) (.reqXof 34))

/-- The requests of `KPKE_ENC k` by function and input length (44_kpke.md R210). -/
def encRequests (k : Rank) : List TraceItem :=
  List.replicate (rankVal k) (.reqPrf (eta1 k) 33) ++ List.replicate (rankVal k + 1) (.reqPrf (eta2 k) 33)
    ++ List.replicate (rankVal k * rankVal k) (.reqXof 34)

/-- The requests of a word of rank k that completes without an error (45_mlkem_fsm.md R245). -/
def wordRequests (k : Rank) : Instr → List TraceItem
  | .keygen _ => List.replicate 64 .draw ++ keygenRequests k ++ [.reqH (ekLen k)]
  | .keygenDet _ => keygenRequests k ++ [.reqH (ekLen k)]
  | .encaps _ => List.replicate 32 .draw ++ [.reqH (ekLen k), .reqG 64] ++ encRequests k
  | .encapsDet _ => [.reqH (ekLen k), .reqG 64] ++ encRequests k
  | .decaps _ => [.reqG 64, .reqJ (32 + ctLen k)] ++ encRequests k
  | _ => []

/-- Two states that agree on everything public of `DECAPS k` (70_reset_and_hazards.md R318): all but the contents of KEY, of
which only the seed rho inside dk is public, and the contents of CT; the counters are public. -/
def DecapsPublic (k : Rank) (s t : State) : Prop :=
  t = { s with key := { s.key with mem := t.key.mem }, ct := { s.ct with mem := t.ct.mem } } ∧
    s.key.mem.readBytes (768 * rankVal k) 32 = t.key.mem.readBytes (768 * rankVal k) 32

/-! ### The ring (40_field_arith.md R128; 41_ntt.md R144) -/

/-- The coefficient of `X^t` in the product of two polynomials modulo `X^256 + 1`, before reduction mod q
(40_field_arith.md R128). -/
def ringProduct (f g : Coeffs) (t : Nat) : Int :=
  ((List.range 256).map fun i =>
    if i ≤ t then ((coeff f i).toNat : Int) * (coeff g (t - i)).toNat
    else -(((coeff f i).toNat : Int) * (coeff g (t + 256 - i)).toNat)).sum

/-- The value at gamma of the polynomial of the elements `f[par], f[2 + par], f[4 + par], ...`: for parity 0 and 1 the two
coefficients of the remainder of f on division by `X^2 - gamma`, before reduction mod q (41_ntt.md R144). -/
def residue (f : Coeffs) (par gam : Nat) : Nat :=
  ((List.range 128).map fun j => (coeff f (2 * j + par)).toNat * gam ^ j).sum

/-- The candidates of the first n groups of a stream, in the order they are tested (42_sampling.md R161). -/
def candidates (S : Nat → Byte) (n : Nat) : List Elem :=
  (List.range n).flatMap fun g => [candidate1 (S (3 * g)) (S (3 * g + 1)), candidate2 (S (3 * g + 1)) (S (3 * g + 2))]

/-- The candidates of the first n groups that are kept (42_sampling.md R161). -/
def accepted (S : Nat → Byte) (n : Nat) : List Elem := (candidates S n).filter fun d => decide (d.toNat < q)

end Sys2Proof.Machine
end

