-- ==== Sys2Proof/Certificates/Slice0/Obligations.lean ====
section
/-! DEFINITION. The statements for the provers, each the formal reading of rules of spec/ as its docstring says. -/

open Sys2Proof Sys2Proof.Machine

/-! ### Encoding -/

/-- Every operation is what its word decodes to (30_encoding.md R90 to R93): no bit of ARG is dropped. -/
def Obligations.DecodeEncode : Prop :=
  ∀ i : Instr, i.wellFormed = true → decode (encode i) = .ok i

/-- A word the unit decoders accept is the word of an existing operation, and of no other (30_encoding.md R92, R94, R96). -/
def Obligations.EncodeDecode : Prop :=
  ∀ (w : Word16) (i : Instr), decode w = .ok i → i.wellFormed = true ∧ encode i = w

/-- The host decoder accepts exactly the words of the operations the host may issue: unit 0xB, FUNC 0 to 5, legal ARG, the
deterministic ones only with `DET_API` (30_encoding.md R94, R95, R101). -/
def Obligations.HostDecoder : Prop :=
  ∀ (det : Bool) (w : Word16) (i : Instr),
    decodeHost det w = .ok i ↔ (decode w = .ok i ∧ hostIssuable det i = true)

/-- 95 words are legal; 31 at the host with `DET_API`, 25 without (30_encoding.md R92, R95). -/
def Obligations.LegalWordCounts : Prop :=
  ((List.range 65536).countP fun w => (decode (BitVec.ofNat 16 w)).isOk) = 95 ∧
  ((List.range 65536).countP fun w => (decodeHost true (BitVec.ofNat 16 w)).isOk) = 31 ∧
  ((List.range 65536).countP fun w => (decodeHost false (BitVec.ofNat 16 w)).isOk) = 25

/-- Words written out from the opcode map (30_encoding.md R92). -/
def Obligations.DecodeWords : Prop :=
  decode 0b0000000100010000#16 = .ok .sub ∧
  decode 0b0000001100000000#16 = .ok .ntt ∧
  decode 0b0000011100000011#16 = .ok (.cbd 3#4) ∧
  decode 0b0000100000101100#16 = .ok (.byteenc 12#4) ∧
  decode 0b0000101101000100#16 = .ok (.decaps 4#4) ∧
  decode 0b0000101101011111#16 = .ok (.clear 15#4) ∧
  decode 0b0000000000000000#16 = .error .noSuchUnit ∧
  decode 0b0001101100000010#16 = .error .zeroField

/-- A step runs the decoded instruction. A word of an operation at the head of a sequencer's transactions, on the block's turn,
is executed; FSM then advances if the step has no transaction left. A word at the CMD port of an idle block that the host
decoder accepts is executed. (The model's own arrangement, log entries 2, 3 and 11.) -/
def Obligations.StepRunsInstr : Prop :=
  (∀ (s : State) (w : Word16) (i : Instr) (ts : List Txn) (es : List Event),
    s.fsm ≠ .unused → (s.agenda = .block :: es ∨ (s.agenda = [] ∧ es = [])) → s.todo = .op w :: ts → decode w = .ok i →
      step s = afterOp (exec i (({ s with agenda := es, todo := ts } : State).log (.unit w 1)))) ∧
  (∀ (s : State) (w : Word16) (i : Instr) (es : List Event),
    s.status.busy = false → s.agenda = .host (.cmd w) :: es → decodeHost Config.detApi w = .ok i →
      step s = exec i { s with agenda := es })

/-! ### Field arithmetic -/

/-- `ADD`, word 0x0100: r = (a + b) mod q on canonical operands, and nothing but the adder's wires changes (40_field_arith.md R121). -/
def Obligations.AddResult : Prop :=
  decode 0x0100#16 = .ok .add ∧
  ∀ s : State, s.ports.addA.toNat < q → s.ports.addB.toNat < q →
    exec .add s = .next { s with ports := { s.ports with
      addFn := 0
      addR := BitVec.ofNat 12 ((s.ports.addA.toNat + s.ports.addB.toNat) % q) } }

/-- `SUB`, word 0x0110: r = (a - b) mod q on canonical operands, and nothing but the adder's wires changes (40_field_arith.md R122). -/
def Obligations.SubResult : Prop :=
  decode 0x0110#16 = .ok .sub ∧
  ∀ s : State, s.ports.addA.toNat < q → s.ports.addB.toNat < q →
    exec .sub s = .next { s with ports := { s.ports with
      addFn := 1
      addR := BitVec.ofNat 12 ((((s.ports.addA.toNat : Int) - s.ports.addB.toNat) % (q : Int)).toNat) } }

/-- `MUL`, word 0x0200: r = (a * b) mod q on canonical operands, and nothing but the multiplier's result changes
(40_field_arith.md R123). -/
def Obligations.MulResult : Prop :=
  decode 0x0200#16 = .ok .mul ∧
  ∀ s : State, s.ports.mulA.toNat < q → s.ports.mulB.toNat < q →
    exec .mul s = .next { s with ports := { s.ports with
      mulR := BitVec.ofNat 12 (s.ports.mulA.toNat * s.ports.mulB.toNat % q) } }

/-- The units run on every operand, in and out of its type, and nothing but their wires changes; what the result is when an
operand is out of its type the spec leaves open, and the model leaves free (log entry 9). That the bytes of BYTEENC's port beyond
the result keep their value is the model's choice (log entry 8). -/
def Obligations.UnitsRun : Prop :=
  ∀ s : State,
    (∃ r, exec .add s = .next { s with ports := { s.ports with addFn := 0, addR := r } }) ∧
    (∃ r, exec .sub s = .next { s with ports := { s.ports with addFn := 1, addR := r } }) ∧
    (∃ r, exec .mul s = .next { s with ports := { s.ports with mulR := r } }) ∧
    (∃ r, exec .ntt s = .next { s with ports := { s.ports with nttOut := r } }) ∧
    (∃ r, exec .intt s = .next { s with ports := { s.ports with inttOut := r } }) ∧
    (∃ r, exec .pwm s = .next { s with ports := { s.ports with pwmOut := r } }) ∧
    (∀ d : BitVec 4, 1 ≤ d.toNat → d.toNat ≤ 11 →
      (∃ r, exec (.compress d) s = .next { s with ports := { s.ports with cmpOut := r } }) ∧
      (∃ r, exec (.decompress d) s = .next { s with ports := { s.ports with dcmOut := r } })) ∧
    (∀ d : BitVec 4, 1 ≤ d.toNat → d.toNat ≤ 12 →
      ∃ B : Bytes 384, exec (.byteenc d) s = .next { s with ports := { s.ports with bencOut := B } } ∧
        ∀ i, 32 * d.toNat ≤ i → i < 384 → B.toList[i]? = s.ports.bencOut.toList[i]?)

/-! ### The transform -/

/-- `NTT` of a canonical polynomial is canonical, pair i being the remainder on division by `X^2 - GAMMA[i]`, and nothing but
the engine's result changes (41_ntt.md R144, the characterisation the spec marks as general knowledge). -/
def Obligations.NttResidues : Prop :=
  ∀ s : State, canonical s.ports.nttIn.c = true →
    ∃ fh : HPoly, exec .ntt s = .next { s with ports := { s.ports with nttOut := fh } } ∧
      canonical fh.c = true ∧
      ∀ i, i < 128 →
        (coeff fh.c (2 * i)).toNat = residue s.ports.nttIn.c 0 (gamma i).toNat % q ∧
        (coeff fh.c (2 * i + 1)).toNat = residue s.ports.nttIn.c 1 (gamma i).toNat % q

/-- `INTT` answers the one canonical polynomial whose `NTT` is its operand, and nothing but the engine's result changes
(41_ntt.md R145, R148). -/
def Obligations.InttResult : Prop :=
  ∀ s : State, canonical s.ports.inttIn.c = true →
    ∃ f : NPoly, exec .intt s = .next { s with ports := { s.ports with inttOut := f } } ∧
      canonical f.c = true ∧ ntt f = s.ports.inttIn ∧
      ∀ g : NPoly, canonical g.c = true → ntt g = s.ports.inttIn → g = f

/-- The involution contract: `INTT(NTT(f)) = f` for every canonical polynomial, through the two instructions (41_ntt.md R148). -/
def Obligations.NttInvolution : Prop :=
  ∀ s : State, canonical s.ports.nttIn.c = true →
    ∃ t u : State, exec .ntt s = .next t ∧
      exec .intt { t with ports := { t.ports with inttIn := t.ports.nttOut } } = .next u ∧
      u.ports.inttOut = s.ports.nttIn

/-- The homomorphism contract: `INTT(PWM(NTT(f), NTT(g)))` is the ring product of f and g (41_ntt.md R148;
40_field_arith.md R128). -/
def Obligations.NttHomomorphism : Prop :=
  ∀ f g : NPoly, canonical f.c = true → canonical g.c = true →
    ∀ t, t < 256 →
      ((coeff (intt (pwm (ntt f) (ntt g))).c t).toNat : Int) = ringProduct f.c g.c t % (q : Int)

/-- `PWM`: pair i of the result is the product of the operands' pairs modulo `X^2 - GAMMA[i]`, and nothing but the unit's
result changes (41_ntt.md R146, R147). -/
def Obligations.PwmResult : Prop :=
  ∀ s : State, canonical s.ports.pwmF.c = true → canonical s.ports.pwmG.c = true →
    ∃ h : HPoly, exec .pwm s = .next { s with ports := { s.ports with pwmOut := h } } ∧
      canonical h.c = true ∧
      ∀ i, i < 128 →
        (coeff h.c (2 * i)).toNat =
          ((coeff s.ports.pwmF.c (2 * i)).toNat * (coeff s.ports.pwmG.c (2 * i)).toNat
            + (coeff s.ports.pwmF.c (2 * i + 1)).toNat * (coeff s.ports.pwmG.c (2 * i + 1)).toNat
              * (gamma i).toNat) % q ∧
        (coeff h.c (2 * i + 1)).toNat =
          ((coeff s.ports.pwmF.c (2 * i)).toNat * (coeff s.ports.pwmG.c (2 * i + 1)).toNat
            + (coeff s.ports.pwmF.c (2 * i + 1)).toNat * (coeff s.ports.pwmG.c (2 * i)).toNat) % q

/-- The constants: `ZETA[i] = 17^BitRev7(i)`, `GAMMA[i] = 17^(2 BitRev7(i) + 1)`, `128 * NINV = 1`, all mod q
(41_ntt.md R140, R141, R142, R143). -/
def Obligations.ConstantTables : Prop :=
  (∀ i, i < 128 →
    (zeta i).toNat = 17 ^ (bitsToNat (fun b => i.testBit (6 - b)) 7) % q ∧
    (gamma i).toNat = 17 ^ (2 * bitsToNat (fun b => i.testBit (6 - b)) 7 + 1) % q) ∧
  128 * ninv.toNat % q = 1

/-! ### Sampling -/

/-- `SAMPLENTT` answers a next state for every operand. If 256 candidates of the groups one turn reads are kept, the result is
the first 256 kept ones in order, XOFCUR is three times the least number of groups that yields them, and nothing is left to do;
if not, the transaction is left under way (42_sampling.md R161, R162). Everything but the sampler's ports, XOFCUR, `todo` and
the trace is unchanged. That this holds also while an earlier transaction is unfinished is the model's choice (log entry 19). -/
def Obligations.SampleNttResult : Prop :=
  ∀ s : State, ∃ t : State, exec .samplentt s = .next t ∧
    t = { s with
      work := { s.work with xofcur := t.work.xofcur }
      ports := { s.ports with smpOut := t.ports.smpOut, smpCnt := t.ports.smpCnt }
      todo := t.todo
      trace := t.trace } ∧
    (256 ≤ (accepted (Config.provider.XOF s.ports.smpIn) s.groups).length →
      t.todo = s.todo ∧ t.ports.smpCnt = 256 ∧
      (∀ i, i < 256 →
        some (coeff t.ports.smpOut.c i) = (accepted (Config.provider.XOF s.ports.smpIn) s.groups)[i]?) ∧
      ∃ g, g ≤ s.groups ∧ t.work.xofcur = 3 * g ∧
        256 ≤ (accepted (Config.provider.XOF s.ports.smpIn) g).length ∧
        ∀ g', g' < g → (accepted (Config.provider.XOF s.ports.smpIn) g').length < 256) ∧
    ((accepted (Config.provider.XOF s.ports.smpIn) s.groups).length < 256 →
      t.todo = .sampleLoop :: s.todo ∧ t.work.xofcur = 3 * s.groups ∧
      t.ports.smpCnt = (accepted (Config.provider.XOF s.ports.smpIn) s.groups).length)

/-- The result of `SAMPLENTT` depends on the stream alone: more time never changes it (42_sampling.md R163). -/
def Obligations.SampleDeterministic : Prop :=
  ∀ (S : Nat → Byte) (n m : Nat) (r : HPoly × Nat), sampleNtt S n = some r → n ≤ m → sampleNtt S m = some r

/-- The hang: on a stream of 0xFF bytes `SAMPLENTT` never has 256 candidates accepted, and so no result, however long it reads
(42_sampling.md R162). -/
def Obligations.SampleHang : Prop :=
  ∀ n : Nat, sampleNtt (fun _ => 0xFF#8) n = none

/-- `CBD eta`, word 0x0700 + eta, on the first 64 eta bytes of its port: coefficient i is x - y mod q, x and y being the numbers of
set bits among the first and the next eta of the 2 eta bits from bit 2 i eta on; nothing but the unit's result changes
(42_sampling.md R166). -/
def Obligations.CbdResult : Prop :=
  ∀ (eta : Eta) (s : State), ∃ f : NPoly,
    decode (0x0700#16 + (etaArg eta).zeroExtend 16) = .ok (.cbd (etaArg eta)) ∧
    exec (.cbd (etaArg eta)) s = .next { s with ports := { s.ports with cbdOut := f } } ∧
    ∀ i, i < 256 →
      ((coeff f.c i).toNat : Int) =
        ((((List.range eta.val).countP fun j => bitAt s.ports.cbdIn.toList (2 * i * eta.val + j)) : Int)
          - ((List.range eta.val).countP fun j => bitAt s.ports.cbdIn.toList (2 * i * eta.val + eta.val + j)))
          % (q : Int)

/-- The values of `CBD eta`: one of 0 to eta or q - eta to q - 1, hence canonical (42_sampling.md R166). -/
def Obligations.CbdRange : Prop :=
  ∀ (eta : Eta) (B : List Byte) (i : Nat), i < 256 →
    (coeff (cbd eta B).c i).toNat ≤ eta.val ∨
      (q - eta.val ≤ (coeff (cbd eta B).c i).toNat ∧ (coeff (cbd eta B).c i).toNat < q)

/-! ### Compression and byte encoding -/

/-- `COMPRESS d`, word 0x0800 + d, on a canonical polynomial, d in 1..11: the formula of the rule in every lane, and nothing but
the unit's result changes (43_compress_encode.md R181). -/
def Obligations.CompressResult : Prop :=
  ∀ (d : BitVec 4) (s : State), 1 ≤ d.toNat → d.toNat ≤ 11 → canonical s.ports.cmpIn.c = true →
    decode (0x0800#16 + d.zeroExtend 16) = .ok (.compress d) ∧
    ∃ y : Coeffs, exec (.compress d) s = .next { s with ports := { s.ports with cmpOut := y } } ∧
      ∀ i, i < 256 →
        (coeff y i).toNat =
          (2 ^ (d.toNat + 1) * (coeff s.ports.cmpIn.c i).toNat + q) / (2 * q) % 2 ^ d.toNat

/-- `DECOMPRESS d`, word 0x0810 + d, on d-bit values, d in 1..11: the formula of the rule in every lane, a canonical result, and
nothing but the unit's result changes (43_compress_encode.md R182). -/
def Obligations.DecompressResult : Prop :=
  ∀ (d : BitVec 4) (s : State), 1 ≤ d.toNat → d.toNat ≤ 11 → fitsBits d.toNat s.ports.dcmIn = true →
    decode (0x0810#16 + d.zeroExtend 16) = .ok (.decompress d) ∧
    ∃ f : NPoly, exec (.decompress d) s = .next { s with ports := { s.ports with dcmOut := f } } ∧
      canonical f.c = true ∧
      ∀ i, i < 256 →
        (coeff f.c i).toNat = (q * (coeff s.ports.dcmIn i).toNat + 2 ^ (d.toNat - 1)) / 2 ^ d.toNat

/-- The error bound of compression, around the circle (43_compress_encode.md R184). -/
def Obligations.CompressionBound : Prop :=
  ∀ (d : Nat) (x : Elem), 1 ≤ d → d ≤ 11 → x.toNat < q →
    let x' := (decompressElem d (compressElem d x)).toNat
    min ((x' + q - x.toNat) % q) ((x.toNat + q - x') % q) ≤ roundDiv q (2 ^ (d + 1))

/-- `COMPRESS d` undoes `DECOMPRESS d` on every d-bit value (43_compress_encode.md R184). -/
def Obligations.CompressDecompress : Prop :=
  ∀ (d : Nat) (y : Elem), 1 ≤ d → d ≤ 11 → y.toNat < 2 ^ d → compressElem d (decompressElem d y) = y

/-- `BYTEENC d`, word 0x0820 + d, on an operand of its type, d in 1..12: bit m of the first 32 d bytes of the result is bit
(m mod d) of element floor(m / d); nothing but the unit's result changes (43_compress_encode.md R185). That the bytes of the
384-byte port beyond the result keep their value is the model's choice (log entry 8). -/
def Obligations.ByteencResult : Prop :=
  ∀ (d : BitVec 4) (s : State), 1 ≤ d.toNat → d.toNat ≤ 12 → encodable d.toNat s.ports.bencIn = true →
    decode (0x0820#16 + d.zeroExtend 16) = .ok (.byteenc d) ∧
    ∃ B : Bytes 384, exec (.byteenc d) s = .next { s with ports := { s.ports with bencOut := B } } ∧
      (∀ m, m < 256 * d.toNat →
        bitAt B.toList m = (coeff s.ports.bencIn (m / d.toNat)).getLsbD (m % d.toNat)) ∧
      ∀ i, 32 * d.toNat ≤ i → i < 384 → B.toList[i]? = s.ports.bencOut.toList[i]?

/-- `BYTEDEC d`, word 0x0830 + d, on the first 32 d bytes of its port, d in 1..12: element i is the number of the d bits from bit
i d on, for d = 12 reduced mod q; nothing but the unit's result changes (43_compress_encode.md R186). -/
def Obligations.BytedecResult : Prop :=
  ∀ (d : BitVec 4) (s : State), 1 ≤ d.toNat → d.toNat ≤ 12 →
    decode (0x0830#16 + d.zeroExtend 16) = .ok (.bytedec d) ∧
    ∃ F : Coeffs, exec (.bytedec d) s = .next { s with ports := { s.ports with bdecOut := F } } ∧
      ∀ i, i < 256 →
        (coeff F i).toNat =
          (let v := ((List.range d.toNat).map fun j =>
              if bitAt s.ports.bdecIn.toList (i * d.toNat + j) then 2 ^ j else 0).sum
          if d.toNat = 12 then v % q else v)

/-- The round trip of the byte encoding, for every operand of its type, and its length (43_compress_encode.md R187). -/
def Obligations.ByteRoundTrip : Prop :=
  ∀ (d : Nat) (F : Coeffs), 1 ≤ d → d ≤ 12 → encodable d F = true →
    (byteEncode d F).length = 32 * d ∧ byteDecode d (byteEncode d F) = F

/-- The other direction for d below 12: every byte string of the right length is the encoding of what it decodes to
(43_compress_encode.md R187). -/
def Obligations.ByteRoundTripBack : Prop :=
  ∀ (d : Nat) (B : List Byte), 1 ≤ d → d ≤ 11 → B.length = 32 * d → byteEncode d (byteDecode d B) = B

/-! ### K-PKE -/

/-- `KPKE_KEYGEN k` answers a next state that agrees with K-PKE key generation as a function: ek in EKO and dkp in DKO when the
matrix is sampled within the turn, else the transaction left under way. Only the buffers EKO and DKO (not their lengths), the
registers it names and the sampler's ports change (44_kpke.md R203). That this holds also while an earlier transaction is
unfinished is the model's choice (log entry 19). -/
def Obligations.KpkeKeygenResult : Prop :=
  ∀ (k : Rank) (s : State),
    ∃ t : State, exec (.kpkeKeygen (rankArg k)) s = .next t ∧
      t = { s with
        eko := { s.eko with mem := t.eko.mem }
        dko := { s.dko with mem := t.dko.mem }
        work := { s.work with
          kr := t.work.kr, rho := t.work.rho, sigma := t.work.sigma, nctr := t.work.nctr
          prfbuf := t.work.prfbuf, xofin := t.work.xofin, xofcur := t.work.xofcur
          aij := t.work.aij, sh := t.work.sh, eh := t.work.eh, th := t.work.th
          acch := t.work.acch, prodh := t.work.prodh, sn := t.work.sn, en := t.work.en }
        ports := { s.ports with
          smpIn := t.ports.smpIn, smpOut := t.ports.smpOut, smpCnt := t.ports.smpCnt }
        todo := t.todo
        trace := t.trace } ∧
      match kpkeKeyGen Config.provider s.groups k s.work.dseed.toList with
      | some (ek, dkp) =>
        t.todo = s.todo ∧ t.eko.mem = s.eko.mem.writeBytes 0 ek ∧ t.dko.mem = s.dko.mem.writeBytes 0 dkp
      | none => ∃ u us, t.todo = u :: us ++ s.todo

/-- `KPKE_ENC k` answers a next state that agrees with K-PKE encryption as a function: c at its port when the matrix is sampled
within the turn, else the transaction left under way. Only the registers it names, the result port and the sampler's ports
change (44_kpke.md R204). That this holds also while an earlier transaction is unfinished is the model's choice (log entry 19). -/
def Obligations.KpkeEncResult : Prop :=
  ∀ (k : Rank) (s : State),
    ∃ t : State, exec (.kpkeEnc (rankArg k)) s = .next t ∧
      t = { s with
        work := { s.work with
          rho := t.work.rho, sigma := t.work.sigma, nctr := t.work.nctr
          prfbuf := t.work.prfbuf, xofin := t.work.xofin, xofcur := t.work.xofcur
          aij := t.work.aij, sh := t.work.sh, th := t.work.th
          acch := t.work.acch, prodh := t.work.prodh, sn := t.work.sn, en := t.work.en, un := t.work.un
          e2n := t.work.e2n, mun := t.work.mun, vn := t.work.vn, wn := t.work.wn, cz := t.work.cz }
        ports := { s.ports with
          encC := t.ports.encC
          smpIn := t.ports.smpIn, smpOut := t.ports.smpOut, smpCnt := t.ports.smpCnt }
        todo := t.todo
        trace := t.trace } ∧
      match kpkeEncrypt Config.provider s.groups k s.ports.encEk.toList s.ports.encM.toList s.ports.encR.toList with
      | some c => t.todo = s.todo ∧ slice t.ports.encC.toList 0 (ctLen k) = c
      | none => ∃ u us, t.todo = u :: us ++ s.todo

/-- `KPKE_DEC k` answers a next state with the K-PKE decryption of its operands at its port; it makes no request and never
waits. Only the registers it names and the result port change (44_kpke.md R205). That this holds also while an earlier transaction
is unfinished is the model's choice (log entry 19). -/
def Obligations.KpkeDecResult : Prop :=
  ∀ (k : Rank) (s : State),
    ∃ t : State, exec (.kpkeDec (rankArg k)) s = .next t ∧
      t = { s with
        work := { s.work with
          sh := t.work.sh, acch := t.work.acch, prodh := t.work.prodh, uh := t.work.uh
          un := t.work.un, vn := t.work.vn, wn := t.work.wn, cz := t.work.cz }
        ports := { s.ports with decM := t.ports.decM }
        trace := t.trace } ∧
      t.ports.decM.toList = kpkeDecrypt k s.ports.decDkp.toList s.ports.decC.toList ∧
      tracedRequests t.trace = tracedRequests s.trace

/-! ### The host words -/

/-- `KEYGEN k` on a ready block, 64 draws answered with d then z: it completes with ek in EKO and dk in DKO as the algorithm has
them, everything else as it was but the outputs cleared; or it waits in KPKE_KG for the sampler (45_mlkem_fsm.md R234, R247). -/
def Obligations.KeygenResult : Prop :=
  ∀ (k : Rank) (s : State) (d z : Bytes 32) (rest : List (Option Byte)),
    s.Ready → wordTxns ≤ s.burst → s.rng = (d.toList ++ z.toList).map some ++ rest →
    ∃ t : State, exec (.keygen (rankArg k)) s = .next t ∧
      match mlkemKeyGen Config.provider s.groups k d.toList z.toList with
      | some (ek, dk) => t = { keygenDone (s.afterDraws 64 rest) ek dk with trace := t.trace }
      | none => Waiting s t .kpkeKg

/-- `KEYGEN_DET k` on a ready block with 64 bytes d, z in SEED: the same function of (d, z) as `KEYGEN k`, no draw, SEED wiped;
or it waits in KPKE_KG (45_mlkem_fsm.md R235, R247). -/
def Obligations.KeygenDetResult : Prop :=
  ∀ (k : Rank) (s : State),
    s.Ready → wordTxns ≤ s.burst → s.seed.cnt = 64 →
    ∃ t : State, exec (.keygenDet (rankArg k)) s = .next t ∧
      match mlkemKeyGen Config.provider s.groups k (s.seed.mem.readBytes 0 32) (s.seed.mem.readBytes 32 32) with
      | some (ek, dk) => t = { keygenDone s.seedWiped ek dk with trace := t.trace }
      | none => Waiting s t .kpkeKg

/-- `ENCAPS k` on a ready block with EKLEN(k) bytes in KEY, 32 draws answered with m: it completes with c in CTO and K in SSO as
the algorithm has them, KEY unchanged; or it waits in ENCRYPT (45_mlkem_fsm.md R236, R247). -/
def Obligations.EncapsResult : Prop :=
  ∀ (k : Rank) (s : State) (m : Bytes 32) (rest : List (Option Byte)),
    s.Ready → wordTxns ≤ s.burst → s.key.cnt = ekLen k → s.rng = m.toList.map some ++ rest →
    ∃ t : State, exec (.encaps (rankArg k)) s = .next t ∧
      match mlkemEncaps Config.provider s.groups k (s.key.mem.readBytes 0 (ekLen k)) m.toList with
      | some (c, K) => t = { encapsDone (s.afterDraws 32 rest) c K with trace := t.trace }
      | none => Waiting s t .encrypt

/-- `ENCAPS_DET k` on a ready block with EKLEN(k) bytes in KEY and 32 bytes m in SEED: the same function as `ENCAPS k`, no draw,
SEED wiped; or it waits in ENCRYPT (45_mlkem_fsm.md R237, R247). -/
def Obligations.EncapsDetResult : Prop :=
  ∀ (k : Rank) (s : State),
    s.Ready → wordTxns ≤ s.burst → s.key.cnt = ekLen k → s.seed.cnt = 32 →
    ∃ t : State, exec (.encapsDet (rankArg k)) s = .next t ∧
      match mlkemEncaps Config.provider s.groups k (s.key.mem.readBytes 0 (ekLen k)) (s.seed.mem.readBytes 0 32) with
      | some (c, K) => t = { encapsDone s.seedWiped c K with trace := t.trace }
      | none => Waiting s t .encrypt

/-- `DECAPS k` on a ready block with DKLEN(k) bytes in KEY and CTLEN(k) in CT: whatever they hold, it completes without an error
and with 32 bytes in SSO, the key of the re-encryption if it equals the ciphertext and J(z, c) if not; KEY and CT unchanged; or
it waits in ENCRYPT (45_mlkem_fsm.md R238, R243, R247). -/
def Obligations.DecapsResult : Prop :=
  ∀ (k : Rank) (s : State),
    s.Ready → wordTxns ≤ s.burst → s.key.cnt = dkLen k → s.ct.cnt = ctLen k →
    ∃ t : State, exec (.decaps (rankArg k)) s = .next t ∧
      match mlkemDecaps Config.provider s.groups k (s.key.mem.readBytes 0 (dkLen k)) (s.ct.mem.readBytes 0 (ctLen k)) with
      | some K => K.length = 32 ∧ t = { decapsDone s K with trace := t.trace }
      | none => Waiting s t .encrypt

/-- `CLEAR mask` on a ready block: the buffers the mask names are emptied, STATUS is 0x0002, and nothing else changes
(45_mlkem_fsm.md R239). -/
def Obligations.ClearResult : Prop :=
  ∀ (mask : BitVec 4) (s : State), s.Ready → 1 ≤ s.burst →
    ∃ t : State, exec (.clear mask) s = .next t ∧
      t = { s with
        key := if mask.getLsbD 0 then InBuf.empty else s.key
        ct := if mask.getLsbD 1 then InBuf.empty else s.ct
        seed := if mask.getLsbD 2 then InBuf.empty else s.seed
        eko := if mask.getLsbD 3 then OutBuf.empty else s.eko
        dko := if mask.getLsbD 3 then OutBuf.empty else s.dko
        cto := if mask.getLsbD 3 then OutBuf.empty else s.cto
        sso := if mask.getLsbD 3 then OutBuf.empty else s.sso
        status := t.status
        trace := t.trace } ∧
      statusWord t.status = 0x0002#16

/-- `ZEROIZE`, word 0x0B5F: after it the block's state is its reset state except for DONE (45_mlkem_fsm.md R240). The leaf
ports, which hold no state of the block, are left out (log entry 8). -/
def Obligations.ZeroizeResult : Prop :=
  ∀ s : State, s.Ready → 1 ≤ s.burst →
    ∃ t : State, hostCmd Config.detApi 0x0B5F#16 s = .next t ∧
      { hostReset t with ports := t.ports, reply := t.reply, trace := t.trace, status := statusDone .none } = t

/-! ### Errors -/

/-- ERR_LENGTH: a word whose length test fails completes with STATUS 0x0006, no draw made, outputs empty, KEY and CT unchanged,
SEED wiped by the deterministic words only (60_exceptions.md R271, R278; 45_mlkem_fsm.md R232). -/
def Obligations.LengthError : Prop :=
  ∀ (k : Rank) (s : State), s.Ready → wordTxns ≤ s.burst →
    (s.seed.cnt ≠ 64 → ∃ tr, exec (.keygenDet (rankArg k)) s =
      .next { errorDone s.seedWiped .length with trace := tr }) ∧
    (s.key.cnt ≠ ekLen k → ∃ tr, exec (.encaps (rankArg k)) s =
      .next { errorDone s .length with trace := tr }) ∧
    (s.key.cnt ≠ ekLen k ∨ s.seed.cnt ≠ 32 → ∃ tr, exec (.encapsDet (rankArg k)) s =
      .next { errorDone s.seedWiped .length with trace := tr }) ∧
    (s.key.cnt ≠ dkLen k ∨ s.ct.cnt ≠ ctLen k → ∃ tr, exec (.decaps (rankArg k)) s =
      .next { errorDone s .length with trace := tr }) ∧
    statusWord (statusDone .length) = 0x0006#16

/-- ERR_RNG: a draw answered fail after some answered bytes ends `KEYGEN` and `ENCAPS` with STATUS 0x000A, the outputs empty, the
input buffers unchanged, and no further draw (60_exceptions.md R272, R278; 45_mlkem_fsm.md R233). -/
def Obligations.RngError : Prop :=
  ∀ (k : Rank) (s : State) (bs : List Byte) (rest : List (Option Byte)),
    s.Ready → wordTxns ≤ s.burst → s.rng = bs.map some ++ none :: rest →
    (bs.length < 64 → ∃ tr, exec (.keygen (rankArg k)) s =
      .next { errorDone (s.afterDraws (bs.length + 1) rest) .rng with trace := tr }) ∧
    (bs.length < 32 → s.key.cnt = ekLen k → ∃ tr, exec (.encaps (rankArg k)) s =
      .next { errorDone (s.afterDraws (bs.length + 1) rest) .rng with trace := tr }) ∧
    statusWord (statusDone .rng) = 0x000A#16

/-- ERR_CMD: an illegal word at an idle block sets STATUS to 0x000E and changes nothing else (60_exceptions.md R273;
30_encoding.md R97). -/
def Obligations.IllegalWord : Prop :=
  ∀ (det : Bool) (w : Word16) (e : DecodeError) (s : State),
    s.status.busy = false → decodeHost det w = .error e →
    hostCmd det w s = .next { s with status := { busy := false, done := true, err := .cmd } } ∧
    statusWord { busy := false, done := true, err := .cmd } = 0x000E#16

/-- An operation term with an illegal ARG, which no decoder yields, is refused by name, and so is a word that is no operation
at the head of a sequencer's transactions (93_implementation_defined.md U6). -/
def Obligations.NoSuchOperation : Prop :=
  (∀ (i : Instr) (s : State), i.wellFormed = false → exec i s = .refused .illegalArg) ∧
  (∀ (s : State) (w : Word16) (e : DecodeError) (ts : List Txn),
    s.fsm ≠ .unused → s.agenda = [] → s.todo = .op w :: ts → decode w = .error e →
      step s = .refused (.notAnOperation w))

/-! ### The host actions -/

/-- While BUSY, `HostCmd` and `HostPush` change nothing and `HostRead` returns 0x00 (70_reset_and_hazards.md R314;
10_state.md R20, R23, R25). -/
def Obligations.BusyIgnored : Prop :=
  ∀ s : State, s.status.busy = true →
    (∀ w, hostCmd Config.detApi w s = .next s) ∧
    (∀ b v, hostPush b v s = s) ∧
    (∀ b i, hostRead b i s = { s with reply := .byte 0 })

/-- `HostPush`: while BUSY nothing changes. On an idle block, below the capacity the byte is at the index the fill counter had,
every other byte of the buffer is as it was, and the counter is one more; else only the counter changes, to capacity + 1. STATUS,
the other buffers and everything else are unchanged (10_state.md R23). -/
def Obligations.PushResult : Prop :=
  ∀ (b : InName) (v : Byte) (s : State),
    (s.status.busy = true → hostPush b v s = s) ∧
    (s.status.busy = false →
      hostPush b v s = s.setInBuf b ((hostPush b v s).inBuf b) ∧
      ((s.inBuf b).cnt < inCap b → BuffersOk s →
        ((hostPush b v s).inBuf b).cnt = (s.inBuf b).cnt + 1 ∧
        (∀ a, ((hostPush b v s).inBuf b).mem.read a =
          if a = (s.inBuf b).cnt then v else (s.inBuf b).mem.read a)) ∧
      (inCap b ≤ (s.inBuf b).cnt →
        ((hostPush b v s).inBuf b).cnt = inCap b + 1 ∧ ((hostPush b v s).inBuf b).mem = (s.inBuf b).mem))

/-- `HostRead` returns the byte when idle and below the length, else 0x00, and changes nothing but what it returned
(10_state.md R25; 20_memory.md R66). -/
def Obligations.ReadResult : Prop :=
  ∀ (b : OutName) (i : Nat) (s : State) (es : List Event), s.agenda = .host (.read b i) :: es →
    step s = .next { s with
      agenda := es
      reply := .byte (if s.status.busy = false ∧ i < (s.outBuf b).len then (s.outBuf b).mem.read i else 0) }

/-- `HostStatus` returns STATUS with BUSY in bit 0, DONE in bit 1, ERR in bits 4:2 and zeros above, the counters and the
lengths, at any time, and changes nothing else; `irq` is DONE (10_state.md R21, R22, R24; 60_exceptions.md R275). -/
def Obligations.StatusResult : Prop :=
  ∀ (s : State) (es : List Event), s.agenda = .host .status :: es →
    ∃ w : Word16,
      step s = .next { s with
        agenda := es
        reply := .status w
          (BitVec.ofNat 16 s.key.cnt) (BitVec.ofNat 16 s.ct.cnt) (BitVec.ofNat 16 s.seed.cnt)
          (BitVec.ofNat 16 s.eko.len) (BitVec.ofNat 16 s.dko.len)
          (BitVec.ofNat 16 s.cto.len) (BitVec.ofNat 16 s.sso.len) } ∧
      w.getLsbD 0 = s.status.busy ∧ w.getLsbD 1 = s.status.done ∧
      w.extractLsb' 2 3 = errCode s.status.err ∧ w.extractLsb' 5 11 = 0 ∧ irq s = w.getLsbD 1

/-- `HostReset`, enabled in every state, busy or not: every piece of state of the block is at its reset value
(70_reset_and_hazards.md R310; 10_state.md R52). That the agenda and the randomness provider's answers and count are kept is the
model's choice (log entry 17). -/
def Obligations.ResetResult : Prop :=
  ∀ (s : State) (es : List Event), s.agenda = .host .reset :: es →
    ∃ t : State, step s = .next t ∧
      statusWord t.status = 0 ∧ irq t = false ∧ t.fsm = .idle ∧ t.opw = 0 ∧ t.ecode = .none ∧
      (∀ b, (t.inBuf b).cnt = 0 ∧ ∀ a, (t.inBuf b).mem.read a = 0) ∧
      (∀ b, (t.outBuf b).len = 0 ∧ ∀ a, (t.outBuf b).mem.read a = 0) ∧
      t.work = Work.zero ∧
      t.agenda = es ∧ t.rng = s.rng ∧ t.draws = s.draws

/-- The values reset leaves: STATUS 0x0000, IDLE, counters and lengths 0, every buffer byte and every working register zero
(10_state.md R52). -/
def Obligations.ResetValues : Prop :=
  statusWord State.reset.status = 0x0000#16 ∧ irq State.reset = false ∧ fsmCode State.reset.fsm = 0#4 ∧
  State.reset.opw = 0 ∧ State.reset.ecode = .none ∧
  (∀ b, (State.reset.inBuf b).cnt = 0 ∧ ∀ a, (State.reset.inBuf b).mem.read a = 0) ∧
  (∀ b, (State.reset.outBuf b).len = 0 ∧ ∀ a, (State.reset.outBuf b).mem.read a = 0) ∧
  (∀ r i, coeff (State.reset.work.getN r).c i = 0) ∧ (∀ r i, coeff (State.reset.work.getH r).c i = 0) ∧
  (∀ i, coeff State.reset.work.cz i = 0) ∧
  State.reset.work.dseed.toList = List.replicate 32 0 ∧ State.reset.work.zseed.toList = List.replicate 32 0 ∧
  State.reset.work.msg.toList = List.replicate 32 0 ∧ State.reset.work.hek.toList = List.replicate 32 0 ∧
  State.reset.work.rho.toList = List.replicate 32 0 ∧ State.reset.work.sigma.toList = List.replicate 32 0 ∧
  State.reset.work.kr.toList = List.replicate 64 0 ∧ State.reset.work.kbar.toList = List.replicate 32 0 ∧
  State.reset.work.nctr = 0 ∧ State.reset.work.prfbuf.toList = List.replicate 192 0 ∧
  State.reset.work.xofin.toList = List.replicate 34 0 ∧ (∀ a, State.reset.work.ct2.read a = 0) ∧
  State.reset.work.diff = 0 ∧ State.reset.work.mask = 0 ∧ State.reset.work.xofcur = 0

/-! ### Invariants -/

/-- Reset meets the three invariants; that the sampler's result port is canonical is the model's choice (log entry 8). -/
def Obligations.ResetInvariants : Prop :=
  BuffersOk State.reset ∧ RegsCanonical State.reset ∧ SequencerOk State.reset

/-- Every step keeps the buffers in canonical form, within capacity, the fill counters in their ranges, and nothing stored at or
above a fill counter (10_state.md R22, R23, R24). -/
def Obligations.StepKeepsBuffers : Prop :=
  ∀ s t : State, BuffersOk s → step s = .next t → BuffersOk t

/-- Every step keeps every polynomial register canonical (10_state.md R34), and with them the sampler's result, finished or not,
which is the model's choice (log entries 8 and 10). -/
def Obligations.StepKeepsCanonical : Prop :=
  ∀ s t : State, RegsCanonical s → step s = .next t → RegsCanonical t

/-- Every step keeps the sequencer's invariant: idle means clean and not BUSY, busy means on the path of the word in OPW
(10_state.md R27, R36; 45_mlkem_fsm.md R231). -/
def Obligations.StepKeepsSequencer : Prop :=
  ∀ s t : State, SequencerOk s → step s = .next t → SequencerOk t

/-- What the sequencer's invariant says of STATUS and FSM: IDLE exactly when BUSY is 0, BUSY and DONE never both 1, code 15 never
entered, and in IDLE the working registers, OPW and ECODE are all zero (10_state.md R21, R27, R36). -/
def Obligations.SequencerMeaning : Prop :=
  ∀ s : State, SequencerOk s →
    (fsmCode s.fsm = 0#4 ↔ s.status.busy = false) ∧
    ¬(s.status.busy = true ∧ s.status.done = true) ∧
    fsmCode s.fsm ≠ 15#4 ∧
    (s.fsm = .idle → s.work = Work.zero ∧ s.opw = 0 ∧ s.ecode = .none)

/-- There are no other runtime errors: in a state of the invariant every step answers a next state, whatever the host does next
(60_exceptions.md R274). -/
def Obligations.EveryStepAnswers : Prop :=
  ∀ s : State, SequencerOk s → ∃ t : State, step s = .next t

/-! ### Paths, requests, constant time -/

/-- The states of a completed word are those of the path table, with and without an error (45_mlkem_fsm.md R231). -/
def Obligations.PathTable : Prop :=
  ∀ (i : Instr) (s t : State), s.Ready → wordTxns ≤ s.burst → i.wellFormed = true → hostIssuable true i = true →
    exec i s = .next t → t.status.busy = false →
      tracedStates t.trace = if t.status.err = .none then wordPath i else errorPath t.status.err

/-- The provider requests of a word that completes without an error, in order; a word that ends in ERR_LENGTH makes none, and one
that ends in ERR_RNG only draws (45_mlkem_fsm.md R245; 44_kpke.md R210). -/
def Obligations.RequestOrder : Prop :=
  ∀ (i : Instr) (k : Rank) (s t : State), s.Ready → wordTxns ≤ s.burst → hostIssuable true i = true →
    (i.arg = rankArg k ∨ ∃ mask, i = .clear mask) →
    exec i s = .next t → t.status.busy = false →
      (t.status.err = .none → tracedRequests t.trace = wordRequests k i) ∧
      (t.status.err = .length → tracedRequests t.trace = []) ∧
      (t.status.err = .rng → ∃ n, tracedRequests t.trace = List.replicate n .draw ∧ t.draws = s.draws + n)

/-- The trace of `DECAPS k` depends on public data only: two ready blocks that differ in the contents of CT and in those of KEY
outside the public seed rho go through the same states, transactions, requests and stream lengths, and show the same STATUS,
FSM and SSO_LEN (45_mlkem_fsm.md R242; 70_reset_and_hazards.md R318). -/
def Obligations.DecapsConstantTime : Prop :=
  ∀ (k : Rank) (s₁ s₂ t₁ t₂ : State), s₁.Ready → DecapsPublic k s₁ s₂ →
    exec (.decaps (rankArg k)) s₁ = .next t₁ → exec (.decaps (rankArg k)) s₂ = .next t₂ →
      t₁.trace = t₂.trace ∧ t₁.status = t₂.status ∧ t₁.fsm = t₂.fsm ∧ t₁.todo = t₂.todo ∧
      t₁.sso.len = t₂.sso.len

/-- A word that waits stays BUSY. Whatever the hash provider: while the first transaction is the loop of a `SAMPLENTT` on a
stream that yields fewer than 256 candidates below q, a turn, of however many transactions, changes nothing but what the sampler
has read, and leaves the same to do; and a step with no host action is such a turn (42_sampling.md R162;
60_exceptions.md R288). -/
def Obligations.HangStaysBusy : Prop :=
  (∀ (P : Provider) (n : Nat) (s : State) (ts : List Txn), s.todo = .sampleLoop :: ts →
    s.sampler = Sampler.run (P.XOF s.ports.smpIn) (s.work.xofcur / 3) Sampler.start →
    (∀ m, (accepted (P.XOF s.ports.smpIn) m).length < 256) →
    ∃ t : State, settle P (n + 1) s = t ∧
      t = { s with
        work := { s.work with xofcur := t.work.xofcur }
        ports := { s.ports with smpOut := t.ports.smpOut, smpCnt := t.ports.smpCnt } } ∧
      t.sampler = Sampler.run (P.XOF t.ports.smpIn) (t.work.xofcur / 3) Sampler.start ∧
      s.work.xofcur < t.work.xofcur) ∧
  (∀ (s : State) (ts : List Txn), s.fsm ≠ .unused → s.agenda = [] → s.todo = .sampleLoop :: ts →
    step s = .next (settle Config.provider (s.burst + 1) s))
end

