-- ==== Sys2Proof/Laws/Bits.lean ====
section
/-! SUPPORT. Elements of polynomials, byte strings and bits: what each helper of Operands.lean reads and writes. -/

namespace Sys2Proof.Machine

open Sys2Proof

/-! ### Elements -/

theorem coeff_eq_getElem (f : Coeffs) {i : Nat} (h : i < 256) : coeff f i = f[i] := by
  simp [coeff, h]

@[simp] theorem coeff_tabulate (f : Nat → Elem) {i : Nat} (h : i < 256) : coeff (tabulate f) i = f i := by
  simp [coeff, tabulate, h]

/-- Two polynomials with the same 256 elements are the same. -/
theorem coeff_ext {f g : Coeffs} (h : ∀ i, i < 256 → coeff f i = coeff g i) : f = g := by
  apply Vector.ext
  intro i hi
  have := h i hi
  rwa [coeff_eq_getElem f hi, coeff_eq_getElem g hi] at this

/-- An element read after one is written. -/
theorem coeff_setCoeff (f : Coeffs) {i : Nat} (v : Elem) (j : Nat) (h : i < 256) :
    coeff (setCoeff f i v) j = if j = i then v else coeff f j := by
  unfold coeff setCoeff
  rw [Vector.getElem?_setIfInBounds]
  by_cases hj : i = j
  · subst hj
    simp [h]
  · simp [hj, Ne.symm hj]

@[simp] theorem coeff_zero (i : Nat) : coeff (Vector.replicate 256 0#12) i = 0#12 := by
  unfold coeff
  by_cases h : i < 256 <;> simp [h]

theorem mem_toList_iff_coeff (f : Coeffs) (x : Elem) : x ∈ f.toList ↔ ∃ i, i < 256 ∧ coeff f i = x := by
  rw [Vector.mem_toList_iff, Vector.mem_iff_getElem]
  constructor
  · rintro ⟨i, hi, h⟩
    exact ⟨i, hi, by rw [coeff_eq_getElem f hi, h]⟩
  · rintro ⟨i, hi, h⟩
    exact ⟨i, hi, by rw [← coeff_eq_getElem f hi, h]⟩

/-- Canonical form, element by element (10_state.md R34). -/
theorem canonical_iff (f : Coeffs) : canonical f = true ↔ ∀ i, i < 256 → (coeff f i).toNat < q := by
  simp only [canonical, List.all_eq_true, decide_eq_true_eq, mem_toList_iff_coeff]
  exact ⟨fun h i hi => h _ ⟨i, hi, rfl⟩, fun h x ⟨i, hi, hx⟩ => hx ▸ h i hi⟩

/-- d-bit values, element by element. -/
theorem fitsBits_iff (d : Nat) (f : Coeffs) : fitsBits d f = true ↔ ∀ i, i < 256 → (coeff f i).toNat < 2 ^ d := by
  simp only [fitsBits, List.all_eq_true, decide_eq_true_eq, mem_toList_iff_coeff]
  exact ⟨fun h i hi => h _ ⟨i, hi, rfl⟩, fun h x ⟨i, hi, hx⟩ => hx ▸ h i hi⟩

@[simp] theorem canonical_zero : canonical (Vector.replicate 256 0) = true := by
  rw [canonical_iff]
  intro i _
  rw [show (0 : Elem) = 0#12 from rfl, coeff_zero]
  decide

@[simp] theorem canonical_nzero : canonical NPoly.zero.c = true := canonical_zero

@[simp] theorem canonical_hzero : canonical HPoly.zero.c = true := canonical_zero

/-- A polynomial whose elements all come out of a function below q is canonical. -/
theorem canonical_tabulate {f : Nat → Elem} (h : ∀ i, i < 256 → (f i).toNat < q) : canonical (tabulate f) = true := by
  rw [canonical_iff]
  intro i hi
  rw [coeff_tabulate f hi]
  exact h i hi

/-- Writing an element below q keeps canonical form. -/
theorem canonical_setCoeff {f : Coeffs} {i : Nat} {v : Elem} (h : canonical f = true) (hv : v.toNat < q) :
    canonical (setCoeff f i v) = true := by
  rw [canonical_iff] at h ⊢
  intro j hj
  by_cases hi : i < 256
  · rw [coeff_setCoeff f v j hi]
    split
    · exact hv
    · exact h j hj
  · unfold setCoeff
    rw [Vector.setIfInBounds_eq_of_size_le (by omega)]
    exact h j hj

theorem coeff_lt {f : Coeffs} (h : canonical f = true) (i : Nat) : (coeff f i).toNat < q := by
  by_cases hi : i < 256
  · exact (canonical_iff f).1 h i hi
  · unfold coeff
    simp [hi]

/-! ### Byte strings -/

@[simp] theorem bytesOfList_toList {n : Nat} {B : List Byte} (h : B.length = n) : (bytesOfList n B).toList = B := by
  apply List.ext_getElem
  · simp [h]
  · intro i h1 h2
    simp [bytesOfList, h2]

@[simp] theorem bytesOfList_of_toList {n : Nat} (v : Bytes n) : bytesOfList n v.toList = v := by
  apply Vector.ext
  intro i hi
  simp [bytesOfList]

theorem slice_length (B : List Byte) (off n : Nat) (h : off + n ≤ B.length) : (slice B off n).length = n := by
  simp [slice]
  omega

theorem slice_getD (B : List Byte) (off n i : Nat) (h : i < n) : (slice B off n).getD i 0 = B.getD (off + i) 0 := by
  simp [slice, List.getD, h]

theorem slice_all (B : List Byte) (n : Nat) (h : B.length = n) : slice B 0 n = B := by
  simp [slice, ← h]

/-- A slice of a slice. -/
theorem slice_slice (B : List Byte) (off n off' n' : Nat) (h : off' + n' ≤ n) :
    slice (slice B off n) off' n' = slice B (off + off') n' := by
  simp only [slice, List.drop_take, List.drop_drop, List.take_take]
  rw [Nat.min_eq_left (by omega)]

/-- A slice that lies in the string a register was filled from. -/
theorem slice_bytesOfList (n : Nat) (B : List Byte) (off m : Nat) (h : off + m ≤ B.length) (hn : off + m ≤ n) :
    slice (bytesOfList n B).toList off m = slice B off m := by
  apply List.ext_getElem
  · rw [slice_length B off m h, slice_length _ _ _ (by simpa using hn)]
  · intro i h1 h2
    rw [slice_length B off m h] at h2
    have h3 : off + i < B.length := by omega
    simp [slice, bytesOfList, h3]

/-- One byte of a register after a field of it is written. -/
theorem getElem_writeField {n : Nat} (v : Bytes n) (off : Nat) (B : List Byte) (i : Nat) (h : i < n) :
    (writeField v off B)[i] = if off ≤ i ∧ i < off + B.length then B.getD (i - off) 0 else v[i] := by
  simp [writeField]

/-- The field written, read back. -/
theorem slice_writeField {n : Nat} (v : Bytes n) (off : Nat) (B : List Byte) (h : off + B.length ≤ n) :
    slice (writeField v off B).toList off B.length = B := by
  apply List.ext_getElem
  · rw [slice_length]
    simpa using h
  · intro i h1 h2
    simp [slice, getElem_writeField, h2]

/-- A field apart from the one written. -/
theorem slice_writeField_of_disjoint {n : Nat} (v : Bytes n) (off : Nat) (B : List Byte) (off' m : Nat)
    (hn : off' + m ≤ n) (hd : off' + m ≤ off ∨ off + B.length ≤ off') :
    slice (writeField v off B).toList off' m = slice v.toList off' m := by
  apply List.ext_getElem
  · rw [slice_length _ _ _ (by simpa using hn), slice_length _ _ _ (by simpa using hn)]
  · intro i h1 h2
    rw [slice_length _ _ _ (by simpa using hn)] at h1
    simp only [slice, List.getElem_take, List.getElem_drop, Vector.getElem_toList]
    rw [getElem_writeField, if_neg (by omega)]

/-- Two fields one after the other. -/
theorem slice_add (B : List Byte) (off n n' : Nat) : slice B off (n + n') = slice B off n ++ slice B (off + n) n' := by
  simp [slice, List.take_add]

/-! ### Bits -/

/-- A bit of a slice. -/
theorem bitAt_slice (B : List Byte) (off n m : Nat) (h : m < 8 * n) :
    bitAt (slice B off n) m = bitAt B (8 * off + m) := by
  unfold bitAt
  rw [slice_getD _ _ _ _ (by omega), show (8 * off + m) / 8 = off + m / 8 by omega,
    show (8 * off + m) % 8 = m % 8 by omega]

theorem bitsToNat_lt (b : Nat → Bool) (n : Nat) : bitsToNat b n < 2 ^ n := by
  induction n with
  | zero => simp [bitsToNat]
  | succ n ih =>
    simp only [bitsToNat, Nat.pow_succ]
    split <;> omega

theorem bitsToNat_congr {b c : Nat → Bool} {n : Nat} (h : ∀ j, j < n → b j = c j) : bitsToNat b n = bitsToNat c n := by
  induction n with
  | zero => rfl
  | succ n ih => rw [bitsToNat, bitsToNat, ih fun j hj => h j (by omega), h n (by omega)]

/-- Bit j of the number of bits is `b j`. -/
theorem testBit_bitsToNat (b : Nat → Bool) (n j : Nat) : (bitsToNat b n).testBit j = (decide (j < n) && b j) := by
  induction n with
  | zero => simp [bitsToNat]
  | succ n ih =>
    have hlt := bitsToNat_lt b n
    simp only [bitsToNat]
    by_cases hb : b n
    · rw [if_pos hb, Nat.add_comm]
      rcases Nat.lt_trichotomy j n with hj | rfl | hj
      · rw [Nat.testBit_two_pow_add_gt hj, ih]
        simp [hj, show j < n + 1 by omega]
      · rw [Nat.testBit_two_pow_add_eq, ih]
        simp [hb]
      · rw [Nat.testBit_lt_two_pow]
        · simp [show ¬j < n + 1 by omega]
        · calc 2 ^ n + bitsToNat b n < 2 ^ n + 2 ^ n := by omega
            _ = 2 ^ (n + 1) := by rw [Nat.pow_succ]; omega
            _ ≤ 2 ^ j := Nat.pow_le_pow_right (by omega) hj
    · rw [if_neg hb, Nat.add_zero, ih]
      rcases Nat.lt_trichotomy j n with hj | rfl | hj
      · simp [hj, show j < n + 1 by omega]
      · simp [hb]
      · simp [show ¬j < n by omega, show ¬j < n + 1 by omega]

/-- The number of the low n bits of x. -/
theorem bitsToNat_testBit (x n : Nat) : bitsToNat x.testBit n = x % 2 ^ n := by
  apply Nat.eq_of_testBit_eq
  intro j
  rw [testBit_bitsToNat, Nat.testBit_mod_two_pow]

theorem countBits_le (b : Nat → Bool) (n : Nat) : countBits b n ≤ n := by
  induction n with
  | zero => simp [countBits]
  | succ n ih =>
    simp only [countBits]
    split <;> omega

theorem countBits_congr {b c : Nat → Bool} {n : Nat} (h : ∀ j, j < n → b j = c j) : countBits b n = countBits c n := by
  induction n with
  | zero => rfl
  | succ n ih => rw [countBits, countBits, ih fun j hj => h j (by omega), h n (by omega)]

/-- The number of set bits, counted over a list of positions. -/
theorem countBits_eq_countP (b : Nat → Bool) (n : Nat) : countBits b n = (List.range n).countP b := by
  induction n with
  | zero => rfl
  | succ n ih => rw [countBits, ih, List.range_succ, List.countP_append, List.countP_singleton]

/-- The number of bits as a sum over a list of positions. -/
theorem bitsToNat_eq_sum (b : Nat → Bool) (n : Nat) :
    bitsToNat b n = ((List.range n).map fun j => if b j then 2 ^ j else 0).sum := by
  induction n with
  | zero => rfl
  | succ n ih => rw [bitsToNat, ih, List.range_succ, List.map_append, List.sum_append]; simp

/-! ### `compress_decompress_unit` -/

/-- `BYTEENC d` is 32 d bytes, whatever its operand (43_compress_encode.md R185). -/
theorem byteEncode_length (d : Nat) (F : Coeffs) (h : d ≤ 12) : (byteEncode d F).length = 32 * d := by
  unfold byteEncode
  split
  · simp
  · rw [slice_length]
    simp
    omega

/-- One bit of a byte of `BYTEENC d` (43_compress_encode.md R185). -/
theorem encodedByte_getLsbD (d : Nat) (F : Coeffs) (t j : Nat) (h : j < 8) :
    (encodedByte d F t).getLsbD j = (coeff F ((8 * t + j) / d)).getLsbD ((8 * t + j) % d) := by
  unfold encodedByte
  rw [BitVec.getLsbD_ofNat, testBit_bitsToNat]
  simp [h]

/-- `BYTEDEC d` of the first 32 d bytes depends on no other byte (43_compress_encode.md R186). -/
theorem byteDecode_slice (d : Nat) (B : List Byte) : byteDecode d (slice B 0 (32 * d)) = byteDecode d B := by
  apply coeff_ext
  intro i hi
  unfold byteDecode
  rw [coeff_tabulate _ hi, coeff_tabulate _ hi]
  have : decodedValue d (slice B 0 (32 * d)) i = decodedValue d B i := by
    apply bitsToNat_congr
    intro j hj
    have : i * d ≤ 255 * d := Nat.mul_le_mul_right d (by omega)
    rw [bitAt_slice _ _ _ _ (by omega)]
    simp
  rw [this]

/-- `BYTEDEC d` answers d-bit values (43_compress_encode.md R186). -/
theorem fitsBits_byteDecode (d : Nat) (B : List Byte) (h : d ≤ 11) : fitsBits d (byteDecode d B) = true := by
  rw [fitsBits_iff]
  intro i hi
  unfold byteDecode
  rw [coeff_tabulate _ hi, if_neg (by omega), BitVec.toNat_ofNat]
  exact Nat.lt_of_le_of_lt (Nat.mod_le _ _) (bitsToNat_lt _ _)

/-- `BYTEDEC 12` answers canonical elements (43_compress_encode.md R186). -/
theorem canonical_byteDecode (B : List Byte) : canonical (byteDecode 12 B) = true := by
  apply canonical_tabulate
  intro i hi
  rw [if_pos rfl, BitVec.toNat_ofNat]
  exact Nat.lt_of_le_of_lt (Nat.mod_le _ _) (Nat.mod_lt _ (by decide))

/-- `COMPRESS d` of a canonical polynomial answers d-bit values (43_compress_encode.md R181). -/
theorem fitsBits_compress (d : Nat) (f : NPoly) (h : canonical f.c = true) : fitsBits d (compress d f) = true := by
  rw [fitsBits_iff]
  intro i hi
  unfold compress
  rw [if_pos h, coeff_tabulate _ hi, compressElem, BitVec.toNat_ofNat]
  exact Nat.lt_of_le_of_lt (Nat.mod_le _ _) (Nat.mod_lt _ (Nat.two_pow_pos d))

/-- A lane of `DECOMPRESS d` is canonical (43_compress_encode.md R182). -/
theorem decompressElem_lt (d : Nat) (y : Elem) (hd : d ≤ 11) (h : y.toNat < 2 ^ d) : (decompressElem d y).toNat < q := by
  have h1 : 2 ^ d ≤ 2 ^ 11 := Nat.pow_le_pow_right (by omega) hd
  have h2 : roundDiv (y.toNat * q) (2 ^ d) < q := by
    unfold roundDiv
    rw [Nat.div_lt_iff_lt_mul (by omega)]
    generalize 2 ^ d = D at *
    have h3 : q = 3329 := rfl
    have h4 : (y.toNat + 1) * q ≤ D * q := Nat.mul_le_mul_right q h
    rw [h3] at *
    omega
  rw [decompressElem, BitVec.toNat_ofNat]
  exact Nat.lt_of_le_of_lt (Nat.mod_le _ _) h2

/-- `DECOMPRESS d` of d-bit values is canonical (43_compress_encode.md R182). -/
theorem canonical_decompress (d : Nat) (y : Coeffs) (hd : d ≤ 11) (h : fitsBits d y = true) :
    canonical (decompress d y).c = true := by
  unfold decompress
  simp only [h, if_true]
  apply canonical_tabulate
  intro i hi
  exact decompressElem_lt d _ hd ((fitsBits_iff d y).1 h i hi)

end Sys2Proof.Machine
end

