-- ==== Sys2Proof/Laws/Flags.lean ====
section
/-! SUPPORT. DIFF, MASK and SELECT: what the comparison of a decapsulation leaves (45_mlkem_fsm.md R238, R242). -/

namespace Sys2Proof.Machine

open Sys2Proof

theorem byte_or_eq_zero (a b : Byte) : a ||| b = 0 ↔ a = 0 ∧ b = 0 := by
  constructor
  · intro h
    have bit : ∀ i, (a ||| b).getLsbD i = false := fun i => by rw [h]; simp
    constructor <;>
      (apply BitVec.eq_of_getLsbD_eq; intro i _; have := bit i; simp at this; simp [this])
  · rintro ⟨rfl, rfl⟩
    rfl

theorem byte_xor_eq_zero (a b : Byte) : a ^^^ b = 0 ↔ a = b := by
  constructor
  · intro h
    apply BitVec.eq_of_getLsbD_eq
    intro i _
    have : (a ^^^ b).getLsbD i = false := by rw [h]; simp
    rw [BitVec.getLsbD_xor] at this
    cases ha : a.getLsbD i <;> cases hb : b.getLsbD i <;> simp_all
  · rintro rfl
    exact BitVec.xor_self

/-- DIFF is zero exactly when the bytes compared are the same. -/
theorem diffBytes_eq_zero (a b : Nat → Byte) (n : Nat) : diffBytes a b n = 0 ↔ ∀ i, i < n → a i = b i := by
  induction n with
  | zero => simp [diffBytes]
  | succ n ih =>
    rw [diffBytes, byte_or_eq_zero, byte_xor_eq_zero, ih]
    constructor
    · rintro ⟨h1, h2⟩ i hi
      rcases Nat.lt_succ_iff_lt_or_eq.1 hi with h | rfl
      · exact h1 i h
      · exact h2
    · exact fun h => ⟨fun i hi => h i (by omega), h n (by omega)⟩

/-- MASK is 0x00 where DIFF is zero. -/
theorem maskOf_zero : maskOf 0 = 0 := by decide

/-- MASK is 0xFF where DIFF is not zero. -/
theorem maskOf_ne_zero : ∀ d : Byte, d ≠ 0 → maskOf d = 0xFF := by decide +kernel

/-- SELECT takes K' under MASK 0x00. -/
theorem selectByte_zero (a b : Byte) : selectByte 0 a b = a := by
  apply BitVec.eq_of_getLsbD_eq
  intro i hi
  have h8 : i < 8 := hi
  have : ∀ j : Fin 8, (0xFF#8).getLsbD j.val = true := by decide
  have := this ⟨i, h8⟩
  simp [selectByte]
  simp_all

/-- SELECT takes K_bar under MASK 0xFF. -/
theorem selectByte_ff (a b : Byte) : selectByte 0xFF a b = b := by
  apply BitVec.eq_of_getLsbD_eq
  intro i hi
  have h8 : i < 8 := hi
  have : ∀ j : Fin 8, (0xFF#8).getLsbD j.val = true := by decide
  have := this ⟨i, h8⟩
  simp [selectByte]
  simp_all

end Sys2Proof.Machine
end

