-- ==== Sys2Proof/Laws/Memory.lean ====
section
/-! SUPPORT. The buffers: every operation keeps the canonical form, a read after a write gives the value written and a write
leaves every other byte alone, and a canonical buffer is determined by what it reads. -/

namespace Sys2Proof.Machine

open Sys2Proof

/-! ### Reading and the canonical form -/

@[simp] theorem Memory.read_nil (a : Nat) : Memory.read [] a = 0 := rfl

theorem Memory.read_cons (c : Host.Cell) (m : Memory) (a : Nat) :
    Memory.read (c :: m) a = if a = c.1 then c.2 else Memory.read m a := rfl

theorem Memory.wf_nil (cap : Nat) : Memory.wf cap [] := by simp [Memory.wf]

theorem Memory.wf_cons {cap : Nat} {c : Host.Cell} {m : Memory} :
    Memory.wf cap (c :: m) ↔
      (∀ x ∈ m, c.1 < x.1) ∧ c.2 ≠ Memory.unlisted ∧ c.1 < cap ∧ Memory.wf cap m := by
  simp only [Memory.wf, List.pairwise_cons, List.forall_mem_cons]
  constructor
  · rintro ⟨⟨h1, h2⟩, ⟨h3, h4⟩, h5⟩
    exact ⟨h1, h3, h4, h2, h5⟩
  · rintro ⟨h1, h3, h4, h2, h5⟩
    exact ⟨⟨h1, h2⟩, ⟨h3, h4⟩, h5⟩

/-- An index below every listed one is not listed. -/
theorem Memory.read_below (m : Memory) (a : Nat) (h : ∀ c ∈ m, a < c.1) : Memory.read m a = 0 := by
  induction m with
  | nil => rfl
  | cons c m ih =>
    rw [Memory.read_cons, if_neg (by have := h c (by simp); omega)]
    exact ih fun x hx => h x (by simp [hx])

/-- An index above every listed one is not listed. -/
theorem Memory.read_above (m : Memory) (a : Nat) (h : ∀ c ∈ m, c.1 < a) : Memory.read m a = 0 := by
  induction m with
  | nil => rfl
  | cons c m ih =>
    rw [Memory.read_cons, if_neg (by have := h c (by simp); omega)]
    exact ih fun x hx => h x (by simp [hx])

/-! ### Writing -/

/-- What a write can list: the byte written, and what was listed. -/
theorem Memory.mem_write {m : Memory} {a : Nat} {v : Byte} {c : Host.Cell} (h : c ∈ Memory.write m a v) :
    c ∈ m ∨ (c = (a, v) ∧ v ≠ Memory.unlisted) := by
  induction m with
  | nil =>
    simp only [Memory.write] at h
    split at h <;> simp_all
  | cons x m ih =>
    simp only [Memory.write] at h
    split at h
    · split at h
      · exact .inl h
      · rcases List.mem_cons.1 h with h | h
        · exact .inr ⟨h, by assumption⟩
        · exact .inl h
    · split at h
      · split at h
        · exact .inl (List.mem_cons_of_mem _ h)
        · rcases List.mem_cons.1 h with h | h
          · exact .inr ⟨h, by assumption⟩
          · exact .inl (List.mem_cons_of_mem _ h)
      · simp only [List.mem_cons] at h ⊢
        rcases h with rfl | h
        · simp
        · rcases ih h with h | h <;> simp_all

/-- A write below the capacity keeps the canonical form. -/
theorem Memory.write_wf {cap : Nat} {m : Memory} {a : Nat} (v : Byte) (h : Memory.wf cap m) (ha : a < cap) :
    Memory.wf cap (Memory.write m a v) := by
  induction m with
  | nil =>
    simp only [Memory.write]
    split
    · exact Memory.wf_nil cap
    · exact Memory.wf_cons.2 ⟨by simp, by assumption, ha, Memory.wf_nil cap⟩
  | cons x m ih =>
    obtain ⟨h1, h2, h3, h4⟩ := Memory.wf_cons.1 h
    simp only [Memory.write]
    split
    · split
      · exact h
      · refine Memory.wf_cons.2 ⟨?_, by assumption, ha, h⟩
        intro y hy
        rcases List.mem_cons.1 hy with rfl | hy
        · assumption
        · have := h1 y hy
          omega
    · split
      · subst_vars
        split
        · exact h4
        · exact Memory.wf_cons.2 ⟨h1, by assumption, ha, h4⟩
      · refine Memory.wf_cons.2 ⟨?_, h2, h3, ih h4⟩
        intro y hy
        rcases Memory.mem_write hy with hy | ⟨rfl, -⟩
        · exact h1 y hy
        · simp only
          omega

/-- A read after a write: the value written at its index, what was there at every other. -/
theorem Memory.read_write {cap : Nat} {m : Memory} (h : Memory.wf cap m) (a : Nat) (v : Byte) (b : Nat) :
    Memory.read (Memory.write m a v) b = if b = a then v else Memory.read m b := by
  induction m with
  | nil =>
    simp only [Memory.write]
    split
    · subst_vars
      simp [Memory.unlisted]
    · simp [Memory.read_cons]
  | cons x m ih =>
    obtain ⟨h1, h2, h3, h4⟩ := Memory.wf_cons.1 h
    have low : ∀ c, c ≤ x.1 → Memory.read m c = 0 := fun c hc =>
      Memory.read_below m c fun y hy => by have := h1 y hy; omega
    simp only [Memory.write]
    split
    · split
      · subst_vars
        by_cases hb : b = a
        · subst hb
          rw [Memory.read_cons, if_neg (by omega), low b (by omega)]
          simp [Memory.unlisted]
        · simp [hb]
      · simp [Memory.read_cons]
    · split
      · subst_vars
        split
        · subst_vars
          by_cases hb : b = x.1
          · subst hb
            simp [low, Memory.unlisted]
          · simp [hb, Memory.read_cons]
        · by_cases hb : b = x.1 <;> simp [hb, Memory.read_cons]
      · rw [Memory.read_cons, ih h4]
        by_cases hb : b = a
        · subst hb
          simp [*]
        · simp [hb, Memory.read_cons]

/-! ### Byte strings -/

@[simp] theorem Memory.writeBytes_nil (m : Memory) (off : Nat) : Memory.writeBytes m off [] = m := rfl

theorem Memory.writeBytes_cons (m : Memory) (off : Nat) (v : Byte) (B : List Byte) :
    Memory.writeBytes m off (v :: B) = Memory.writeBytes (m.write off v) (off + 1) B := rfl

/-- Two strings one after the other. -/
theorem Memory.writeBytes_append (m : Memory) (off : Nat) (A B : List Byte) :
    Memory.writeBytes m off (A ++ B) = Memory.writeBytes (Memory.writeBytes m off A) (off + A.length) B := by
  induction A generalizing m off with
  | nil => rfl
  | cons v A ih =>
    rw [List.cons_append, Memory.writeBytes_cons, ih, Memory.writeBytes_cons, List.length_cons]
    congr 1
    omega

/-- What a string written can list: its own indexes, and what was listed. -/
theorem Memory.mem_writeBytes {m : Memory} {off : Nat} {B : List Byte} {c : Host.Cell}
    (h : c ∈ Memory.writeBytes m off B) : c ∈ m ∨ (off ≤ c.1 ∧ c.1 < off + B.length) := by
  induction B generalizing m off with
  | nil => exact .inl h
  | cons v B ih =>
    rcases ih h with h | ⟨h1, h2⟩
    · rcases Memory.mem_write h with h | ⟨rfl, -⟩
      · exact .inl h
      · right
        simp
    · right
      simp only [List.length_cons]
      omega

/-- A string written within the capacity keeps the canonical form. -/
theorem Memory.writeBytes_wf {cap : Nat} {m : Memory} {off : Nat} (B : List Byte) (h : Memory.wf cap m)
    (hb : off + B.length ≤ cap) : Memory.wf cap (Memory.writeBytes m off B) := by
  induction B generalizing m off with
  | nil => exact h
  | cons v B ih =>
    simp only [List.length_cons] at hb
    exact ih (Memory.write_wf v h (by omega)) (by omega)

/-- A read after a string is written: its byte inside its field, what was there outside. -/
theorem Memory.read_writeBytes {cap : Nat} {m : Memory} {off : Nat} {B : List Byte} (h : Memory.wf cap m)
    (hb : off + B.length ≤ cap) (a : Nat) :
    Memory.read (Memory.writeBytes m off B) a =
      if off ≤ a ∧ a < off + B.length then B.getD (a - off) 0 else Memory.read m a := by
  induction B generalizing m off with
  | nil => rw [Memory.writeBytes_nil, if_neg (by simp only [List.length_nil]; omega)]
  | cons v B ih =>
    simp only [List.length_cons] at hb ⊢
    rw [Memory.writeBytes_cons, ih (Memory.write_wf v h (by omega)) (by omega), Memory.read_write h]
    rcases Nat.lt_trichotomy a off with ha | rfl | ha
    · rw [if_neg (by omega), if_neg (by omega), if_neg (by omega)]
    · rw [if_neg (by omega), if_pos rfl, if_pos (by omega)]
      simp
    · by_cases hc : a < off + (B.length + 1)
      · rw [if_pos (by omega), if_pos (by omega)]
        obtain ⟨n, rfl⟩ := Nat.exists_eq_add_of_lt ha
        simp [show off + n + 1 - off = n + 1 by omega, show off + n + 1 - (off + 1) = n by omega]
      · rw [if_neg (by omega), if_neg (by omega), if_neg (by omega)]

@[simp] theorem Memory.readBytes_length (m : Memory) (off n : Nat) : (Memory.readBytes m off n).length = n := by
  simp [Memory.readBytes]

/-- One byte of a string read. -/
theorem Memory.getD_readBytes (m : Memory) (off n i : Nat) (h : i < n) :
    (Memory.readBytes m off n).getD i 0 = Memory.read m (off + i) := by
  simp [Memory.readBytes, List.getD, h]

/-- Reading back the field just written. -/
theorem Memory.readBytes_writeBytes {cap : Nat} {m : Memory} {off : Nat} {B : List Byte} (h : Memory.wf cap m)
    (hb : off + B.length ≤ cap) : Memory.readBytes (Memory.writeBytes m off B) off B.length = B := by
  apply List.ext_getElem (by simp)
  intro i h1 h2
  have h3 : i < B.length := h2
  simp only [Memory.readBytes, List.getElem_map, List.getElem_range, Memory.read_writeBytes h hb]
  rw [if_pos (by omega)]
  simp [h3]

/-- A field a string does not touch reads as before. -/
theorem Memory.readBytes_writeBytes_of_disjoint {cap : Nat} {m : Memory} {off : Nat} {B : List Byte}
    (h : Memory.wf cap m) (hb : off + B.length ≤ cap) (off' n : Nat)
    (hd : off' + n ≤ off ∨ off + B.length ≤ off') :
    Memory.readBytes (Memory.writeBytes m off B) off' n = Memory.readBytes m off' n := by
  apply List.ext_getElem (by simp)
  intro i h1 h2
  simp only [Memory.readBytes_length] at h1
  simp only [Memory.readBytes, List.getElem_map, List.getElem_range, Memory.read_writeBytes h hb]
  rw [if_neg (by omega)]

/-- A field in two parts. -/
theorem Memory.readBytes_add (m : Memory) (off n n' : Nat) :
    Memory.readBytes m off (n + n') = Memory.readBytes m off n ++ Memory.readBytes m (off + n) n' := by
  simp [Memory.readBytes, List.range_add, Nat.add_assoc, Function.comp_def]

/-- Buffers that read the same are the same list: the form is canonical. -/
theorem Memory.ext {cap cap' : Nat} {m m' : Memory} (h : Memory.wf cap m) (h' : Memory.wf cap' m')
    (hr : ∀ a, Memory.read m a = Memory.read m' a) : m = m' := by
  induction m generalizing m' with
  | nil =>
    cases m' with
    | nil => rfl
    | cons c m' =>
      have := hr c.1
      rw [Memory.read_cons, if_pos rfl, Memory.read_nil] at this
      exact absurd this.symm (Memory.wf_cons.1 h').2.1
  | cons c m ih =>
    obtain ⟨h1, h2, h3, h4⟩ := Memory.wf_cons.1 h
    cases m' with
    | nil =>
      have := hr c.1
      rw [Memory.read_cons, if_pos rfl, Memory.read_nil] at this
      exact absurd this h2
    | cons c' m' =>
      obtain ⟨h1', h2', h3', h4'⟩ := Memory.wf_cons.1 h'
      have key : c.1 = c'.1 := by
        rcases Nat.lt_trichotomy c.1 c'.1 with hc | hc | hc
        · exfalso
          have := hr c.1
          rw [Memory.read_cons, if_pos rfl, Memory.read_cons, if_neg (by omega),
            Memory.read_below m' c.1 fun y hy => by have := h1' y hy; omega] at this
          exact h2 this
        · exact hc
        · exfalso
          have := hr c'.1
          rw [Memory.read_cons, if_neg (by omega), Memory.read_cons, if_pos rfl,
            Memory.read_below m c'.1 fun y hy => by have := h1 y hy; omega] at this
          exact h2' this.symm
      have hv : c.2 = c'.2 := by
        have := hr c.1
        rw [Memory.read_cons, if_pos rfl, Memory.read_cons, if_pos key] at this
        exact this
      have hm : m = m' := by
        refine ih h4 h4' fun a => ?_
        have := hr a
        rw [Memory.read_cons, Memory.read_cons, key] at this
        by_cases ha : a = c'.1
        · rw [Memory.read_below m a fun y hy => by have := h1 y hy; omega,
            Memory.read_below m' a fun y hy => by have := h1' y hy; omega]
        · simpa [ha] using this
      rw [hm, Prod.ext key hv]

/-! ### The operations on whole buffers -/

/-- The buffers after reset are in canonical form. -/
theorem Memory.reset_wf :
    State.reset.key.mem.wf (inCap .key) ∧ State.reset.ct.mem.wf (inCap .ct) ∧ State.reset.seed.mem.wf (inCap .seed) ∧
      State.reset.eko.mem.wf (outCap .eko) ∧ State.reset.dko.mem.wf (outCap .dko) ∧
      State.reset.cto.mem.wf (outCap .cto) ∧ State.reset.sso.mem.wf (outCap .sso) ∧
      State.reset.work.ct2.wf 1568 := by
  simp [State.reset, Work.zero, Memory.wf]

/-- Everything a push can do: the byte at the fill counter and the counter one more, or the counter saturated. -/
theorem InBuf.push_cases (cap : Nat) (b : InBuf) (v : Byte) :
    (b.cnt < cap ∧ b.push cap v = { mem := b.mem.write b.cnt v, cnt := b.cnt + 1 }) ∨
      (cap ≤ b.cnt ∧ b.push cap v = { mem := b.mem, cnt := cap + 1 }) := by
  unfold InBuf.push
  split
  · exact .inl ⟨by assumption, rfl⟩
  · exact .inr ⟨by omega, rfl⟩

/-- A push keeps the canonical form. -/
theorem InBuf.push_wf {cap : Nat} {b : InBuf} (v : Byte) (h : b.mem.wf cap) : (b.push cap v).mem.wf cap := by
  rcases InBuf.push_cases cap b v with ⟨h1, h2⟩ | ⟨-, h2⟩ <;> rw [h2]
  · exact Memory.write_wf v h h1
  · exact h

end Sys2Proof.Machine
end

