-- ==== Sys2Proof/Laws/Units.lean ====
section
/-! SUPPORT. The field units, the transform units and the samplers: what each function answers, and that canonical operands give
canonical results. -/

namespace Sys2Proof.Machine

open Sys2Proof

/-! ### Field units -/

theorem q_eq : q = 3329 := rfl

/-- The sum of two canonical elements (40_field_arith.md R121). -/
theorem addq_toNat {a b : Elem} (ha : a.toNat < q) (hb : b.toNat < q) :
    (addq a b).toNat = (a.toNat + b.toNat) % q := by
  simp only [q_eq] at *
  simp only [addq, q_eq]
  split <;> simp only [BitVec.toNat_ofNat] <;> omega

/-- The difference of two canonical elements (40_field_arith.md R122). -/
theorem subq_toNat {a b : Elem} (ha : a.toNat < q) (hb : b.toNat < q) :
    (subq a b).toNat = (a.toNat + q - b.toNat) % q := by
  simp only [q_eq] at *
  simp only [subq, q_eq]
  split <;> simp only [BitVec.toNat_ofNat] <;> omega

/-- The product of two elements (40_field_arith.md R123). -/
theorem mulq_toNat (a b : Elem) : (mulq a b).toNat = a.toNat * b.toNat % q := by
  have : a.toNat * b.toNat % q < q := Nat.mod_lt _ (by decide)
  simp only [q_eq] at *
  simp only [mulq, q_eq, BitVec.toNat_ofNat]
  omega

theorem addq_lt {a b : Elem} (ha : a.toNat < q) (hb : b.toNat < q) : (addq a b).toNat < q := by
  rw [addq_toNat ha hb]
  exact Nat.mod_lt _ (by decide)

theorem subq_lt {a b : Elem} (ha : a.toNat < q) (hb : b.toNat < q) : (subq a b).toNat < q := by
  rw [subq_toNat ha hb]
  exact Nat.mod_lt _ (by decide)

theorem mulq_lt (a b : Elem) : (mulq a b).toNat < q := by
  rw [mulq_toNat]
  exact Nat.mod_lt _ (by decide)

theorem bothCanonical_iff (a b : Elem) : bothCanonical a b = true ↔ a.toNat < q ∧ b.toNat < q := by
  simp [bothCanonical]

theorem addElem_eq {a b : Elem} (ha : a.toNat < q) (hb : b.toNat < q) : addElem a b = addq a b := by
  unfold addElem
  rw [if_pos ((bothCanonical_iff a b).2 ⟨ha, hb⟩)]

theorem subElem_eq {a b : Elem} (ha : a.toNat < q) (hb : b.toNat < q) : subElem a b = subq a b := by
  unfold subElem
  rw [if_pos ((bothCanonical_iff a b).2 ⟨ha, hb⟩)]

theorem mulElem_eq {a b : Elem} (ha : a.toNat < q) (hb : b.toNat < q) : mulElem a b = mulq a b := by
  unfold mulElem
  rw [if_pos ((bothCanonical_iff a b).2 ⟨ha, hb⟩)]

/-- Lane i of `PolyAdd` of canonical polynomials (40_field_arith.md R126). -/
theorem coeff_addCoeffs {f g : Coeffs} (hf : canonical f = true) (hg : canonical g = true) {i : Nat} (hi : i < 256) :
    coeff (addCoeffs f g) i = addq (coeff f i) (coeff g i) := by
  unfold addCoeffs
  rw [coeff_tabulate _ hi, addElem_eq (coeff_lt hf i) (coeff_lt hg i)]

/-- Lane i of `PolySub` of canonical polynomials (40_field_arith.md R127). -/
theorem coeff_subCoeffs {f g : Coeffs} (hf : canonical f = true) (hg : canonical g = true) {i : Nat} (hi : i < 256) :
    coeff (subCoeffs f g) i = subq (coeff f i) (coeff g i) := by
  unfold subCoeffs
  rw [coeff_tabulate _ hi, subElem_eq (coeff_lt hf i) (coeff_lt hg i)]

theorem canonical_addCoeffs {f g : Coeffs} (hf : canonical f = true) (hg : canonical g = true) :
    canonical (addCoeffs f g) = true := by
  rw [canonical_iff]
  intro i hi
  rw [coeff_addCoeffs hf hg hi]
  exact addq_lt (coeff_lt hf i) (coeff_lt hg i)

theorem canonical_subCoeffs {f g : Coeffs} (hf : canonical f = true) (hg : canonical g = true) :
    canonical (subCoeffs f g) = true := by
  rw [canonical_iff]
  intro i hi
  rw [coeff_subCoeffs hf hg hi]
  exact subq_lt (coeff_lt hf i) (coeff_lt hg i)

/-! ### The transform -/

/-- What a fold starts from and every turn of it keeps holds at its end. -/
theorem foldl_inv {α β : Type} (Inv : β → Prop) (op : β → α → β) (l : List α) (b : β) (h : Inv b)
    (hop : ∀ c a, Inv c → Inv (op c a)) : Inv (l.foldl op b) := by
  induction l generalizing b with
  | nil => exact h
  | cons a l ih => exact ih _ (hop b a h)

/-- What holds of a polynomial before a run of butterflies and is kept by each holds after it. -/
theorem block_inv (Inv : Coeffs → Prop) (bf : Elem → Nat → Coeffs → Nat → Coeffs) (z : Elem) (len start : Nat) (f : Coeffs)
    (h : Inv f) (hb : ∀ g j, Inv g → Inv (bf z len g j)) : Inv (block bf z len start f) := by
  unfold block
  exact foldl_inv Inv _ _ f h fun g t hg => hb g _ hg

theorem canonical_butterfly (z : Elem) (len : Nat) (f : Coeffs) (j : Nat) (h : canonical f = true) :
    canonical (butterfly z len f j) = true := by
  have h1 := coeff_lt h j
  have h2 := mulq_lt z (coeff f (j + len))
  exact canonical_setCoeff (canonical_setCoeff h (subq_lt h1 h2)) (addq_lt h1 h2)

theorem canonical_inverseButterfly (z : Elem) (len : Nat) (f : Coeffs) (j : Nat) (h : canonical f = true) :
    canonical (inverseButterfly z len f j) = true := by
  have h1 := coeff_lt h j
  have h2 := coeff_lt h (j + len)
  exact canonical_setCoeff (canonical_setCoeff h (addq_lt h1 h2)) (mulq_lt _ _)

theorem canonical_nttLayer (f : Coeffs) (len : Nat) (h : canonical f = true) : canonical (nttLayer f len) = true := by
  unfold nttLayer
  exact foldl_inv (fun g => canonical g = true) _ _ f h fun g _ hg =>
    block_inv (fun g => canonical g = true) _ _ _ _ g hg fun g j => canonical_butterfly _ _ g j

theorem canonical_inverseLayer (f : Coeffs) (len : Nat) (h : canonical f = true) :
    canonical (inverseLayer f len) = true := by
  unfold inverseLayer
  exact foldl_inv (fun g => canonical g = true) _ _ f h fun g _ hg =>
    block_inv (fun g => canonical g = true) _ _ _ _ g hg fun g j => canonical_inverseButterfly _ _ g j

theorem canonical_nttLayers (lens : List Nat) (f : Coeffs) (h : canonical f = true) :
    canonical (lens.foldl nttLayer f) = true :=
  foldl_inv (fun g => canonical g = true) _ _ f h canonical_nttLayer

theorem canonical_nttCore (f : Coeffs) (h : canonical f = true) : canonical (nttCore f) = true :=
  canonical_nttLayers [128, 64, 32, 16, 8, 4, 2] f h

theorem canonical_scaled (g : Coeffs) (z : Elem) : canonical (tabulate fun j => mulq (coeff g j) z) = true :=
  canonical_tabulate fun _ _ => mulq_lt _ _

theorem canonical_inttCore (f : Coeffs) : canonical (inttCore f) = true := canonical_scaled _ _

theorem canonical_pwmCore (f g : Coeffs) : canonical (pwmCore f g) = true := by
  apply canonical_tabulate
  intro j _
  simp only
  split
  · exact addq_lt (mulq_lt _ _) (mulq_lt _ _)
  · exact addq_lt (mulq_lt _ _) (mulq_lt _ _)

/-- `NTT` of a canonical polynomial (41_ntt.md R144). -/
theorem ntt_eq {f : NPoly} (h : canonical f.c = true) : (ntt f).c = nttCore f.c := by simp [ntt, h]

/-- `INTT` of a canonical polynomial (41_ntt.md R145). -/
theorem intt_eq {f : HPoly} (h : canonical f.c = true) : (intt f).c = inttCore f.c := by simp [intt, h]

/-- `PWM` of canonical polynomials (41_ntt.md R146). -/
theorem pwm_eq {f g : HPoly} (hf : canonical f.c = true) (hg : canonical g.c = true) :
    (pwm f g).c = pwmCore f.c g.c := by simp [pwm, hf, hg]

theorem canonical_ntt {f : NPoly} (h : canonical f.c = true) : canonical (ntt f).c = true := by
  rw [ntt_eq h]
  exact canonical_nttCore _ h

theorem canonical_intt {f : HPoly} (h : canonical f.c = true) : canonical (intt f).c = true := by
  rw [intt_eq h]
  exact canonical_inttCore _

theorem canonical_pwm {f g : HPoly} (hf : canonical f.c = true) (hg : canonical g.c = true) :
    canonical (pwm f g).c = true := by
  rw [pwm_eq hf hg]
  exact canonical_pwmCore _ _

/-! ### The samplers -/

/-- Coefficient i of `CBD eta` (42_sampling.md R166). -/
theorem coeff_cbd (eta : Eta) (B : List Byte) {i : Nat} (h : i < 256) :
    coeff (cbd eta B).c i =
      subq (BitVec.ofNat 12 (countBits (fun j => bitAt B (2 * i * eta.val + j)) eta.val))
        (BitVec.ofNat 12 (countBits (fun j => bitAt B (2 * i * eta.val + eta.val + j)) eta.val)) := by
  unfold cbd
  rw [coeff_tabulate _ h]

theorem eta_le (eta : Eta) : 2 ≤ eta.val ∧ eta.val ≤ 3 := by cases eta <;> decide

/-- `CBD eta` answers canonical elements (42_sampling.md R166). -/
theorem canonical_cbd (eta : Eta) (B : List Byte) : canonical (cbd eta B).c = true := by
  rw [canonical_iff]
  intro i hi
  have h := (eta_le eta).2
  rw [coeff_cbd eta B hi]
  apply subq_lt
  · have := countBits_le (fun j => bitAt B (2 * i * eta.val + j)) eta.val
    rw [BitVec.toNat_ofNat, q_eq]
    omega
  · have := countBits_le (fun j => bitAt B (2 * i * eta.val + eta.val + j)) eta.val
    rw [BitVec.toNat_ofNat, q_eq]
    omega

/-- Everything an offer can do (42_sampling.md R161). -/
theorem Sampler.offer_cases (t : Sampler) (d : Elem) :
    (d.toNat < q ∧ t.cnt < 256 ∧ t.offer d = { t with a := setCoeff t.a t.cnt d, cnt := t.cnt + 1 }) ∨
      ((q ≤ d.toNat ∨ 256 ≤ t.cnt) ∧ t.offer d = t) := by
  unfold Sampler.offer
  split
  · left
    refine ⟨?_, ?_, rfl⟩ <;> omega
  · right
    refine ⟨?_, rfl⟩
    omega

@[simp] theorem Sampler.offer_cur (t : Sampler) (d : Elem) : (t.offer d).cur = t.cur := by
  unfold Sampler.offer
  split <;> rfl

/-- An offer keeps the elements canonical. -/
theorem Sampler.canonical_offer (t : Sampler) (d : Elem) (h : canonical t.a = true) : canonical (t.offer d).a = true := by
  rcases Sampler.offer_cases t d with ⟨h1, -, h2⟩ | ⟨-, h2⟩ <;> rw [h2]
  · exact canonical_setCoeff h h1
  · exact h

@[simp] theorem Sampler.group_cur (S : Nat → Byte) (t : Sampler) : (t.group S).cur = t.cur + 3 := by
  simp [Sampler.group]

theorem Sampler.canonical_group (S : Nat → Byte) (t : Sampler) (h : canonical t.a = true) :
    canonical (t.group S).a = true :=
  Sampler.canonical_offer _ _ (Sampler.canonical_offer _ _ h)

theorem Sampler.canonical_run (S : Nat → Byte) (n : Nat) (t : Sampler) (h : canonical t.a = true) :
    canonical (Sampler.run S n t).a = true := by
  induction n generalizing t with
  | zero => exact h
  | succ n ih =>
    unfold Sampler.run
    split
    · exact ih _ (Sampler.canonical_group S t h)
    · exact h

/-- A sampler that has its 256 elements stays as it is (42_sampling.md R161). -/
theorem Sampler.run_of_full (S : Nat → Byte) (n : Nat) (t : Sampler) (h : 256 ≤ t.cnt) : Sampler.run S n t = t := by
  cases n with
  | zero => rfl
  | succ n =>
    unfold Sampler.run
    rw [if_neg (by omega)]

/-- A run in two parts: stopping the loop between groups changes nothing (70_reset_and_hazards.md R320). -/
theorem Sampler.run_add (S : Nat → Byte) (n m : Nat) (t : Sampler) :
    Sampler.run S (n + m) t = Sampler.run S m (Sampler.run S n t) := by
  induction n generalizing t with
  | zero => simp [Sampler.run]
  | succ n ih =>
    rw [Nat.add_right_comm]
    by_cases h : t.cnt < 256
    · rw [Sampler.run, if_pos h, ih, Sampler.run, if_pos h]
    · rw [Sampler.run_of_full S _ t (by omega), Sampler.run_of_full S _ t (by omega),
        Sampler.run_of_full S _ t (by omega)]

end Sys2Proof.Machine
end

