-- ==== Sys2Proof/Laws/Ntt.lean ====
section
/-! SUPPORT. The layers of the transforms in closed form: one layer applies its two lane functions to each pair of elements
`len` apart, whatever the order of its butterflies (41_ntt.md R144, R145). -/

namespace Sys2Proof.Machine

open Sys2Proof

/-- A butterfly that writes `lo` of a pair over its first element and `hi` over its second. -/
def PairOp (bf : Elem → Nat → Coeffs → Nat → Coeffs) (lo hi : Elem → Elem → Elem → Elem) : Prop :=
  ∀ z len f j i, 0 < len → j + len < 256 →
    coeff (bf z len f j) i =
      if i = j then lo z (coeff f j) (coeff f (j + len))
      else if i = j + len then hi z (coeff f j) (coeff f (j + len))
      else coeff f i

/-- The butterfly of `NTT` (41_ntt.md R144). -/
theorem pairOp_butterfly : PairOp butterfly (fun z u v => addq u (mulq z v)) (fun z u v => subq u (mulq z v)) := by
  intro z len f j i hl hj
  unfold butterfly
  simp only
  rw [coeff_setCoeff _ _ _ (by omega), coeff_setCoeff _ _ _ hj]

/-- The butterfly of `INTT` (41_ntt.md R145). -/
theorem pairOp_inverseButterfly : PairOp inverseButterfly (fun _ u v => addq u v) (fun z u v => mulq z (subq v u)) := by
  intro z len f j i hl hj
  unfold inverseButterfly
  simp only
  rw [coeff_setCoeff _ _ _ hj, coeff_setCoeff _ _ _ (by omega)]
  by_cases h : i = j
  · subst h
    rw [if_neg (by omega), if_pos rfl, if_pos rfl]
  · rw [if_neg h, if_neg h]

/-- The first n butterflies of a block. -/
theorem coeff_block_prefix {bf : Elem → Nat → Coeffs → Nat → Coeffs} {lo hi : Elem → Elem → Elem → Elem}
    (h : PairOp bf lo hi) (z : Elem) (len start n : Nat) (f : Coeffs) (hn : n ≤ len) (hs : start + 2 * len ≤ 256) (i : Nat) :
    coeff ((List.range n).foldl (fun g t => bf z len g (start + t)) f) i =
      if start ≤ i ∧ i < start + n then lo z (coeff f i) (coeff f (i + len))
      else if start + len ≤ i ∧ i < start + len + n then hi z (coeff f (i - len)) (coeff f i)
      else coeff f i := by
  induction n generalizing i with
  | zero =>
    rw [if_neg (by omega), if_neg (by omega)]
    rfl
  | succ n ih =>
    rw [List.range_succ, List.foldl_append, List.foldl_cons, List.foldl_nil, h z len _ (start + n) i (by omega) (by omega),
      ih (by omega), ih (by omega), ih (by omega)]
    by_cases h1 : i = start + n
    · subst h1
      simp (disch := omega) only [if_pos, if_neg, if_true]
    · by_cases h2 : i = start + n + len
      · subst h2
        simp (disch := omega) only [if_pos, if_neg, if_true, Nat.add_sub_cancel]
      · by_cases h3 : start ≤ i ∧ i < start + n
        · simp (disch := omega) only [if_pos, if_neg]
        · by_cases h4 : start + len ≤ i ∧ i < start + len + n
          · simp (disch := omega) only [if_pos, if_neg]
          · simp (disch := omega) only [if_neg]

/-- One block in closed form. -/
theorem coeff_block {bf : Elem → Nat → Coeffs → Nat → Coeffs} {lo hi : Elem → Elem → Elem → Elem}
    (h : PairOp bf lo hi) (z : Elem) (len start : Nat) (f : Coeffs) (hs : start + 2 * len ≤ 256) (i : Nat) :
    coeff (block bf z len start f) i =
      if start ≤ i ∧ i < start + len then lo z (coeff f i) (coeff f (i + len))
      else if start + len ≤ i ∧ i < start + len + len then hi z (coeff f (i - len)) (coeff f i)
      else coeff f i :=
  coeff_block_prefix h z len start len f (Nat.le_refl _) hs i

/-- The first n blocks of a layer. -/
theorem coeff_blocks {bf : Elem → Nat → Coeffs → Nat → Coeffs} {lo hi : Elem → Elem → Elem → Elem}
    (h : PairOp bf lo hi) (zs : Nat → Elem) (len n : Nat) (f : Coeffs) (hl : 0 < len) (hn : 2 * len * n ≤ 256) (i : Nat) :
    coeff ((List.range n).foldl (fun g b => block bf (zs b) len (2 * len * b) g) f) i =
      if i < 2 * len * n then
        if i % (2 * len) < len then lo (zs (i / (2 * len))) (coeff f i) (coeff f (i + len))
        else hi (zs (i / (2 * len))) (coeff f (i - len)) (coeff f i)
      else coeff f i := by
  induction n generalizing i with
  | zero => simp
  | succ n ih =>
    rw [Nat.mul_add] at hn ⊢
    have hdm := Nat.div_add_mod i (2 * len)
    have hml := Nat.mod_lt i (show 0 < 2 * len by omega)
    rw [List.range_succ, List.foldl_append, List.foldl_cons, List.foldl_nil, coeff_block h _ _ _ _ (by omega),
      ih (by omega), ih (by omega), ih (by omega)]
    by_cases h0 : i < 2 * len * n
    · simp (disch := omega) only [if_pos, if_neg]
    · by_cases h1 : i < 2 * len * n + 2 * len * 1
      · have hq : i / (2 * len) = n := by
          apply Nat.div_eq_of_lt_le
          · rw [Nat.mul_comm]
            omega
          · rw [Nat.mul_comm, Nat.mul_add]
            omega
        rw [hq] at hdm ⊢
        by_cases h2 : i % (2 * len) < len
        · simp (disch := omega) only [if_pos, if_neg]
        · simp (disch := omega) only [if_pos, if_neg]
      · simp (disch := omega) only [if_neg]

/-- One layer of `NTT` in closed form, for a length that divides 128 (41_ntt.md R144). -/
theorem coeff_nttLayer (f : Coeffs) (len : Nat) (hl : 0 < len) (hd : 128 / len * len = 128) {i : Nat} (hi : i < 256) :
    coeff (nttLayer f len) i =
      if i % (2 * len) < len then
        addq (coeff f i) (mulq (zeta (128 / len + i / (2 * len))) (coeff f (i + len)))
      else subq (coeff f (i - len)) (mulq (zeta (128 / len + i / (2 * len))) (coeff f i)) := by
  have hn : 2 * len * (128 / len) = 256 := by
    rw [Nat.mul_assoc, Nat.mul_comm len, hd]
  unfold nttLayer
  rw [coeff_blocks pairOp_butterfly (fun b => zeta (128 / len + b)) len (128 / len) f hl (by omega) i, if_pos (by omega)]

/-- One layer of `INTT` in closed form, for a length that divides 128 (41_ntt.md R145). -/
theorem coeff_inverseLayer (f : Coeffs) (len : Nat) (hl : 0 < len) (hd : 128 / len * len = 128) {i : Nat} (hi : i < 256) :
    coeff (inverseLayer f len) i =
      if i % (2 * len) < len then addq (coeff f i) (coeff f (i + len))
      else mulq (zeta (256 / len - 1 - i / (2 * len))) (subq (coeff f i) (coeff f (i - len))) := by
  have hn : 2 * len * (128 / len) = 256 := by
    rw [Nat.mul_assoc, Nat.mul_comm len, hd]
  unfold inverseLayer
  rw [coeff_blocks pairOp_inverseButterfly (fun b => zeta (256 / len - 1 - b)) len (128 / len) f hl (by omega) i,
    if_pos (by omega)]

end Sys2Proof.Machine
end

