-- ==== Sys2Proof/Laws/PerInstr.lean ====
section
/-! SUPPORT. The statements made instruction by instruction, about an instruction as syntax. -/

namespace Sys2Proof.Laws.Fields

open Sys2Proof

/-- The word of an operation has zeros in bits 15:12 and the operation's UNIT, FUNC and ARG in its other fields, and with an
illegal ARG it is refused for that reason (30_encoding.md R90 to R93, R96). -/
def Statement (i : Instr) : Prop :=
  zeroField (encode i) = 0#4 ∧ unitField (encode i) = i.unit ∧ funcField (encode i) = i.func ∧ argField (encode i) = i.arg ∧
    (i.wellFormed = false → decode (encode i) = .error .illegalArg)

/-- The four fields of a word put together from them. -/
theorem fields (i : Instr) :
    zeroField (encode i) = 0#4 ∧ unitField (encode i) = i.unit ∧ funcField (encode i) = i.func ∧
      argField (encode i) = i.arg := by
  unfold encode
  generalize i.unit = u
  generalize i.func = f
  generalize i.arg = a
  revert u f a
  decide +kernel

/-- What the decoder makes of the word of an operation: what its map makes of the operation's fields. -/
theorem decode_encode (i : Instr) : decode (encode i) = decodeFields i.unit i.func i.arg := by
  obtain ⟨h1, h2, h3, h4⟩ := fields i
  rw [decode, if_pos h1, h2, h3, h4]

theorem of_legal {i : Instr} (h : i.wellFormed = false → decodeFields i.unit i.func i.arg = .error .illegalArg) :
    Statement i := by
  obtain ⟨h1, h2, h3, h4⟩ := fields i
  exact ⟨h1, h2, h3, h4, fun hw => (decode_encode i).trans (h hw)⟩

theorem refused {i : Instr} (h : i.wellFormed = false) : withLegalArg i = .error .illegalArg := by
  simp [withLegalArg, h]

theorem add : Statement .add := of_legal fun h => nomatch h
theorem sub : Statement .sub := of_legal fun h => nomatch h
theorem mul : Statement .mul := of_legal fun h => nomatch h
theorem ntt : Statement .ntt := of_legal fun h => nomatch h
theorem intt : Statement .intt := of_legal fun h => nomatch h
theorem pwm : Statement .pwm := of_legal fun h => nomatch h
theorem samplentt : Statement .samplentt := of_legal fun h => nomatch h
theorem cbd (eta : BitVec 4) : Statement (.cbd eta) := of_legal fun h => refused h
theorem compress (d : BitVec 4) : Statement (.compress d) := of_legal fun h => refused h
theorem decompress (d : BitVec 4) : Statement (.decompress d) := of_legal fun h => refused h
theorem byteenc (d : BitVec 4) : Statement (.byteenc d) := of_legal fun h => refused h
theorem bytedec (d : BitVec 4) : Statement (.bytedec d) := of_legal fun h => refused h
theorem kpkeEnc (k : BitVec 4) : Statement (.kpkeEnc k) := of_legal fun h => refused h
theorem kpkeDec (k : BitVec 4) : Statement (.kpkeDec k) := of_legal fun h => refused h
theorem keygen (k : BitVec 4) : Statement (.keygen k) := of_legal fun h => refused h
theorem keygenDet (k : BitVec 4) : Statement (.keygenDet k) := of_legal fun h => refused h
theorem encaps (k : BitVec 4) : Statement (.encaps k) := of_legal fun h => refused h
theorem encapsDet (k : BitVec 4) : Statement (.encapsDet k) := of_legal fun h => refused h
theorem decaps (k : BitVec 4) : Statement (.decaps k) := of_legal fun h => refused h
theorem clear (mask : BitVec 4) : Statement (.clear mask) := of_legal fun h => nomatch h
theorem kpkeKeygen (k : BitVec 4) : Statement (.kpkeKeygen k) := of_legal fun h => refused h

end Sys2Proof.Laws.Fields
end

