-- ==== Sys2Proof/Laws/State.lean ====
section
/-! SUPPORT. What each update of the state leaves in each field, and what the writes of one register leave in another, so that
no proof unfolds a record update. -/

namespace Sys2Proof.Machine

open Sys2Proof

/-! ### `setWork` -/

@[simp] theorem State.setWork_status (s : State) (w : Work) : (s.setWork w).status = s.status := rfl
@[simp] theorem State.setWork_key (s : State) (w : Work) : (s.setWork w).key = s.key := rfl
@[simp] theorem State.setWork_ct (s : State) (w : Work) : (s.setWork w).ct = s.ct := rfl
@[simp] theorem State.setWork_seed (s : State) (w : Work) : (s.setWork w).seed = s.seed := rfl
@[simp] theorem State.setWork_eko (s : State) (w : Work) : (s.setWork w).eko = s.eko := rfl
@[simp] theorem State.setWork_dko (s : State) (w : Work) : (s.setWork w).dko = s.dko := rfl
@[simp] theorem State.setWork_cto (s : State) (w : Work) : (s.setWork w).cto = s.cto := rfl
@[simp] theorem State.setWork_sso (s : State) (w : Work) : (s.setWork w).sso = s.sso := rfl
@[simp] theorem State.setWork_fsm (s : State) (w : Work) : (s.setWork w).fsm = s.fsm := rfl
@[simp] theorem State.setWork_opw (s : State) (w : Work) : (s.setWork w).opw = s.opw := rfl
@[simp] theorem State.setWork_ecode (s : State) (w : Work) : (s.setWork w).ecode = s.ecode := rfl
@[simp] theorem State.setWork_work (s : State) (w : Work) : (s.setWork w).work = w := rfl
@[simp] theorem State.setWork_ports (s : State) (w : Work) : (s.setWork w).ports = s.ports := rfl
@[simp] theorem State.setWork_todo (s : State) (w : Work) : (s.setWork w).todo = s.todo := rfl
@[simp] theorem State.setWork_agenda (s : State) (w : Work) : (s.setWork w).agenda = s.agenda := rfl
@[simp] theorem State.setWork_rng (s : State) (w : Work) : (s.setWork w).rng = s.rng := rfl
@[simp] theorem State.setWork_draws (s : State) (w : Work) : (s.setWork w).draws = s.draws := rfl
@[simp] theorem State.setWork_burst (s : State) (w : Work) : (s.setWork w).burst = s.burst := rfl
@[simp] theorem State.setWork_patience (s : State) (w : Work) : (s.setWork w).patience = s.patience := rfl
@[simp] theorem State.setWork_reply (s : State) (w : Work) : (s.setWork w).reply = s.reply := rfl
@[simp] theorem State.setWork_trace (s : State) (w : Work) : (s.setWork w).trace = s.trace := rfl

/-! ### `setPorts` -/

@[simp] theorem State.setPorts_status (s : State) (p : Ports) : (s.setPorts p).status = s.status := rfl
@[simp] theorem State.setPorts_key (s : State) (p : Ports) : (s.setPorts p).key = s.key := rfl
@[simp] theorem State.setPorts_ct (s : State) (p : Ports) : (s.setPorts p).ct = s.ct := rfl
@[simp] theorem State.setPorts_seed (s : State) (p : Ports) : (s.setPorts p).seed = s.seed := rfl
@[simp] theorem State.setPorts_eko (s : State) (p : Ports) : (s.setPorts p).eko = s.eko := rfl
@[simp] theorem State.setPorts_dko (s : State) (p : Ports) : (s.setPorts p).dko = s.dko := rfl
@[simp] theorem State.setPorts_cto (s : State) (p : Ports) : (s.setPorts p).cto = s.cto := rfl
@[simp] theorem State.setPorts_sso (s : State) (p : Ports) : (s.setPorts p).sso = s.sso := rfl
@[simp] theorem State.setPorts_fsm (s : State) (p : Ports) : (s.setPorts p).fsm = s.fsm := rfl
@[simp] theorem State.setPorts_opw (s : State) (p : Ports) : (s.setPorts p).opw = s.opw := rfl
@[simp] theorem State.setPorts_ecode (s : State) (p : Ports) : (s.setPorts p).ecode = s.ecode := rfl
@[simp] theorem State.setPorts_work (s : State) (p : Ports) : (s.setPorts p).work = s.work := rfl
@[simp] theorem State.setPorts_ports (s : State) (p : Ports) : (s.setPorts p).ports = p := rfl
@[simp] theorem State.setPorts_todo (s : State) (p : Ports) : (s.setPorts p).todo = s.todo := rfl
@[simp] theorem State.setPorts_agenda (s : State) (p : Ports) : (s.setPorts p).agenda = s.agenda := rfl
@[simp] theorem State.setPorts_rng (s : State) (p : Ports) : (s.setPorts p).rng = s.rng := rfl
@[simp] theorem State.setPorts_draws (s : State) (p : Ports) : (s.setPorts p).draws = s.draws := rfl
@[simp] theorem State.setPorts_burst (s : State) (p : Ports) : (s.setPorts p).burst = s.burst := rfl
@[simp] theorem State.setPorts_patience (s : State) (p : Ports) : (s.setPorts p).patience = s.patience := rfl
@[simp] theorem State.setPorts_reply (s : State) (p : Ports) : (s.setPorts p).reply = s.reply := rfl
@[simp] theorem State.setPorts_trace (s : State) (p : Ports) : (s.setPorts p).trace = s.trace := rfl

/-! ### `setN` -/

@[simp] theorem State.setN_status (s : State) (r : NReg) (f : NPoly) : (s.setN r f).status = s.status := rfl
@[simp] theorem State.setN_key (s : State) (r : NReg) (f : NPoly) : (s.setN r f).key = s.key := rfl
@[simp] theorem State.setN_ct (s : State) (r : NReg) (f : NPoly) : (s.setN r f).ct = s.ct := rfl
@[simp] theorem State.setN_seed (s : State) (r : NReg) (f : NPoly) : (s.setN r f).seed = s.seed := rfl
@[simp] theorem State.setN_eko (s : State) (r : NReg) (f : NPoly) : (s.setN r f).eko = s.eko := rfl
@[simp] theorem State.setN_dko (s : State) (r : NReg) (f : NPoly) : (s.setN r f).dko = s.dko := rfl
@[simp] theorem State.setN_cto (s : State) (r : NReg) (f : NPoly) : (s.setN r f).cto = s.cto := rfl
@[simp] theorem State.setN_sso (s : State) (r : NReg) (f : NPoly) : (s.setN r f).sso = s.sso := rfl
@[simp] theorem State.setN_fsm (s : State) (r : NReg) (f : NPoly) : (s.setN r f).fsm = s.fsm := rfl
@[simp] theorem State.setN_opw (s : State) (r : NReg) (f : NPoly) : (s.setN r f).opw = s.opw := rfl
@[simp] theorem State.setN_ecode (s : State) (r : NReg) (f : NPoly) : (s.setN r f).ecode = s.ecode := rfl
@[simp] theorem State.setN_work (s : State) (r : NReg) (f : NPoly) : (s.setN r f).work = s.work.setN r f := rfl
@[simp] theorem State.setN_ports (s : State) (r : NReg) (f : NPoly) : (s.setN r f).ports = s.ports := rfl
@[simp] theorem State.setN_todo (s : State) (r : NReg) (f : NPoly) : (s.setN r f).todo = s.todo := rfl
@[simp] theorem State.setN_agenda (s : State) (r : NReg) (f : NPoly) : (s.setN r f).agenda = s.agenda := rfl
@[simp] theorem State.setN_rng (s : State) (r : NReg) (f : NPoly) : (s.setN r f).rng = s.rng := rfl
@[simp] theorem State.setN_draws (s : State) (r : NReg) (f : NPoly) : (s.setN r f).draws = s.draws := rfl
@[simp] theorem State.setN_burst (s : State) (r : NReg) (f : NPoly) : (s.setN r f).burst = s.burst := rfl
@[simp] theorem State.setN_patience (s : State) (r : NReg) (f : NPoly) : (s.setN r f).patience = s.patience := rfl
@[simp] theorem State.setN_reply (s : State) (r : NReg) (f : NPoly) : (s.setN r f).reply = s.reply := rfl
@[simp] theorem State.setN_trace (s : State) (r : NReg) (f : NPoly) : (s.setN r f).trace = s.trace := rfl

/-! ### `setH` -/

@[simp] theorem State.setH_status (s : State) (r : HReg) (f : HPoly) : (s.setH r f).status = s.status := rfl
@[simp] theorem State.setH_key (s : State) (r : HReg) (f : HPoly) : (s.setH r f).key = s.key := rfl
@[simp] theorem State.setH_ct (s : State) (r : HReg) (f : HPoly) : (s.setH r f).ct = s.ct := rfl
@[simp] theorem State.setH_seed (s : State) (r : HReg) (f : HPoly) : (s.setH r f).seed = s.seed := rfl
@[simp] theorem State.setH_eko (s : State) (r : HReg) (f : HPoly) : (s.setH r f).eko = s.eko := rfl
@[simp] theorem State.setH_dko (s : State) (r : HReg) (f : HPoly) : (s.setH r f).dko = s.dko := rfl
@[simp] theorem State.setH_cto (s : State) (r : HReg) (f : HPoly) : (s.setH r f).cto = s.cto := rfl
@[simp] theorem State.setH_sso (s : State) (r : HReg) (f : HPoly) : (s.setH r f).sso = s.sso := rfl
@[simp] theorem State.setH_fsm (s : State) (r : HReg) (f : HPoly) : (s.setH r f).fsm = s.fsm := rfl
@[simp] theorem State.setH_opw (s : State) (r : HReg) (f : HPoly) : (s.setH r f).opw = s.opw := rfl
@[simp] theorem State.setH_ecode (s : State) (r : HReg) (f : HPoly) : (s.setH r f).ecode = s.ecode := rfl
@[simp] theorem State.setH_work (s : State) (r : HReg) (f : HPoly) : (s.setH r f).work = s.work.setH r f := rfl
@[simp] theorem State.setH_ports (s : State) (r : HReg) (f : HPoly) : (s.setH r f).ports = s.ports := rfl
@[simp] theorem State.setH_todo (s : State) (r : HReg) (f : HPoly) : (s.setH r f).todo = s.todo := rfl
@[simp] theorem State.setH_agenda (s : State) (r : HReg) (f : HPoly) : (s.setH r f).agenda = s.agenda := rfl
@[simp] theorem State.setH_rng (s : State) (r : HReg) (f : HPoly) : (s.setH r f).rng = s.rng := rfl
@[simp] theorem State.setH_draws (s : State) (r : HReg) (f : HPoly) : (s.setH r f).draws = s.draws := rfl
@[simp] theorem State.setH_burst (s : State) (r : HReg) (f : HPoly) : (s.setH r f).burst = s.burst := rfl
@[simp] theorem State.setH_patience (s : State) (r : HReg) (f : HPoly) : (s.setH r f).patience = s.patience := rfl
@[simp] theorem State.setH_reply (s : State) (r : HReg) (f : HPoly) : (s.setH r f).reply = s.reply := rfl
@[simp] theorem State.setH_trace (s : State) (r : HReg) (f : HPoly) : (s.setH r f).trace = s.trace := rfl

/-! ### `setTodo` -/

@[simp] theorem State.setTodo_status (s : State) (ts : List Txn) : (s.setTodo ts).status = s.status := rfl
@[simp] theorem State.setTodo_key (s : State) (ts : List Txn) : (s.setTodo ts).key = s.key := rfl
@[simp] theorem State.setTodo_ct (s : State) (ts : List Txn) : (s.setTodo ts).ct = s.ct := rfl
@[simp] theorem State.setTodo_seed (s : State) (ts : List Txn) : (s.setTodo ts).seed = s.seed := rfl
@[simp] theorem State.setTodo_eko (s : State) (ts : List Txn) : (s.setTodo ts).eko = s.eko := rfl
@[simp] theorem State.setTodo_dko (s : State) (ts : List Txn) : (s.setTodo ts).dko = s.dko := rfl
@[simp] theorem State.setTodo_cto (s : State) (ts : List Txn) : (s.setTodo ts).cto = s.cto := rfl
@[simp] theorem State.setTodo_sso (s : State) (ts : List Txn) : (s.setTodo ts).sso = s.sso := rfl
@[simp] theorem State.setTodo_fsm (s : State) (ts : List Txn) : (s.setTodo ts).fsm = s.fsm := rfl
@[simp] theorem State.setTodo_opw (s : State) (ts : List Txn) : (s.setTodo ts).opw = s.opw := rfl
@[simp] theorem State.setTodo_ecode (s : State) (ts : List Txn) : (s.setTodo ts).ecode = s.ecode := rfl
@[simp] theorem State.setTodo_work (s : State) (ts : List Txn) : (s.setTodo ts).work = s.work := rfl
@[simp] theorem State.setTodo_ports (s : State) (ts : List Txn) : (s.setTodo ts).ports = s.ports := rfl
@[simp] theorem State.setTodo_todo (s : State) (ts : List Txn) : (s.setTodo ts).todo = ts := rfl
@[simp] theorem State.setTodo_agenda (s : State) (ts : List Txn) : (s.setTodo ts).agenda = s.agenda := rfl
@[simp] theorem State.setTodo_rng (s : State) (ts : List Txn) : (s.setTodo ts).rng = s.rng := rfl
@[simp] theorem State.setTodo_draws (s : State) (ts : List Txn) : (s.setTodo ts).draws = s.draws := rfl
@[simp] theorem State.setTodo_burst (s : State) (ts : List Txn) : (s.setTodo ts).burst = s.burst := rfl
@[simp] theorem State.setTodo_patience (s : State) (ts : List Txn) : (s.setTodo ts).patience = s.patience := rfl
@[simp] theorem State.setTodo_reply (s : State) (ts : List Txn) : (s.setTodo ts).reply = s.reply := rfl
@[simp] theorem State.setTodo_trace (s : State) (ts : List Txn) : (s.setTodo ts).trace = s.trace := rfl

/-! ### `setAgenda` -/

@[simp] theorem State.setAgenda_status (s : State) (es : List Event) : (s.setAgenda es).status = s.status := rfl
@[simp] theorem State.setAgenda_key (s : State) (es : List Event) : (s.setAgenda es).key = s.key := rfl
@[simp] theorem State.setAgenda_ct (s : State) (es : List Event) : (s.setAgenda es).ct = s.ct := rfl
@[simp] theorem State.setAgenda_seed (s : State) (es : List Event) : (s.setAgenda es).seed = s.seed := rfl
@[simp] theorem State.setAgenda_eko (s : State) (es : List Event) : (s.setAgenda es).eko = s.eko := rfl
@[simp] theorem State.setAgenda_dko (s : State) (es : List Event) : (s.setAgenda es).dko = s.dko := rfl
@[simp] theorem State.setAgenda_cto (s : State) (es : List Event) : (s.setAgenda es).cto = s.cto := rfl
@[simp] theorem State.setAgenda_sso (s : State) (es : List Event) : (s.setAgenda es).sso = s.sso := rfl
@[simp] theorem State.setAgenda_fsm (s : State) (es : List Event) : (s.setAgenda es).fsm = s.fsm := rfl
@[simp] theorem State.setAgenda_opw (s : State) (es : List Event) : (s.setAgenda es).opw = s.opw := rfl
@[simp] theorem State.setAgenda_ecode (s : State) (es : List Event) : (s.setAgenda es).ecode = s.ecode := rfl
@[simp] theorem State.setAgenda_work (s : State) (es : List Event) : (s.setAgenda es).work = s.work := rfl
@[simp] theorem State.setAgenda_ports (s : State) (es : List Event) : (s.setAgenda es).ports = s.ports := rfl
@[simp] theorem State.setAgenda_todo (s : State) (es : List Event) : (s.setAgenda es).todo = s.todo := rfl
@[simp] theorem State.setAgenda_agenda (s : State) (es : List Event) : (s.setAgenda es).agenda = es := rfl
@[simp] theorem State.setAgenda_rng (s : State) (es : List Event) : (s.setAgenda es).rng = s.rng := rfl
@[simp] theorem State.setAgenda_draws (s : State) (es : List Event) : (s.setAgenda es).draws = s.draws := rfl
@[simp] theorem State.setAgenda_burst (s : State) (es : List Event) : (s.setAgenda es).burst = s.burst := rfl
@[simp] theorem State.setAgenda_patience (s : State) (es : List Event) : (s.setAgenda es).patience = s.patience := rfl
@[simp] theorem State.setAgenda_reply (s : State) (es : List Event) : (s.setAgenda es).reply = s.reply := rfl
@[simp] theorem State.setAgenda_trace (s : State) (es : List Event) : (s.setAgenda es).trace = s.trace := rfl

/-! ### `log` -/

@[simp] theorem State.log_status (s : State) (t : TraceItem) : (s.log t).status = s.status := rfl
@[simp] theorem State.log_key (s : State) (t : TraceItem) : (s.log t).key = s.key := rfl
@[simp] theorem State.log_ct (s : State) (t : TraceItem) : (s.log t).ct = s.ct := rfl
@[simp] theorem State.log_seed (s : State) (t : TraceItem) : (s.log t).seed = s.seed := rfl
@[simp] theorem State.log_eko (s : State) (t : TraceItem) : (s.log t).eko = s.eko := rfl
@[simp] theorem State.log_dko (s : State) (t : TraceItem) : (s.log t).dko = s.dko := rfl
@[simp] theorem State.log_cto (s : State) (t : TraceItem) : (s.log t).cto = s.cto := rfl
@[simp] theorem State.log_sso (s : State) (t : TraceItem) : (s.log t).sso = s.sso := rfl
@[simp] theorem State.log_fsm (s : State) (t : TraceItem) : (s.log t).fsm = s.fsm := rfl
@[simp] theorem State.log_opw (s : State) (t : TraceItem) : (s.log t).opw = s.opw := rfl
@[simp] theorem State.log_ecode (s : State) (t : TraceItem) : (s.log t).ecode = s.ecode := rfl
@[simp] theorem State.log_work (s : State) (t : TraceItem) : (s.log t).work = s.work := rfl
@[simp] theorem State.log_ports (s : State) (t : TraceItem) : (s.log t).ports = s.ports := rfl
@[simp] theorem State.log_todo (s : State) (t : TraceItem) : (s.log t).todo = s.todo := rfl
@[simp] theorem State.log_agenda (s : State) (t : TraceItem) : (s.log t).agenda = s.agenda := rfl
@[simp] theorem State.log_rng (s : State) (t : TraceItem) : (s.log t).rng = s.rng := rfl
@[simp] theorem State.log_draws (s : State) (t : TraceItem) : (s.log t).draws = s.draws := rfl
@[simp] theorem State.log_burst (s : State) (t : TraceItem) : (s.log t).burst = s.burst := rfl
@[simp] theorem State.log_patience (s : State) (t : TraceItem) : (s.log t).patience = s.patience := rfl
@[simp] theorem State.log_reply (s : State) (t : TraceItem) : (s.log t).reply = s.reply := rfl
@[simp] theorem State.log_trace (s : State) (t : TraceItem) : (s.log t).trace = t :: s.trace := rfl

/-! ### `drawn` -/

@[simp] theorem State.drawn_status (s : State) : (s.drawn).status = s.status := rfl
@[simp] theorem State.drawn_key (s : State) : (s.drawn).key = s.key := rfl
@[simp] theorem State.drawn_ct (s : State) : (s.drawn).ct = s.ct := rfl
@[simp] theorem State.drawn_seed (s : State) : (s.drawn).seed = s.seed := rfl
@[simp] theorem State.drawn_eko (s : State) : (s.drawn).eko = s.eko := rfl
@[simp] theorem State.drawn_dko (s : State) : (s.drawn).dko = s.dko := rfl
@[simp] theorem State.drawn_cto (s : State) : (s.drawn).cto = s.cto := rfl
@[simp] theorem State.drawn_sso (s : State) : (s.drawn).sso = s.sso := rfl
@[simp] theorem State.drawn_fsm (s : State) : (s.drawn).fsm = s.fsm := rfl
@[simp] theorem State.drawn_opw (s : State) : (s.drawn).opw = s.opw := rfl
@[simp] theorem State.drawn_ecode (s : State) : (s.drawn).ecode = s.ecode := rfl
@[simp] theorem State.drawn_work (s : State) : (s.drawn).work = s.work := rfl
@[simp] theorem State.drawn_ports (s : State) : (s.drawn).ports = s.ports := rfl
@[simp] theorem State.drawn_todo (s : State) : (s.drawn).todo = s.todo := rfl
@[simp] theorem State.drawn_agenda (s : State) : (s.drawn).agenda = s.agenda := rfl
@[simp] theorem State.drawn_rng (s : State) : (s.drawn).rng = s.rng.tail := rfl
@[simp] theorem State.drawn_draws (s : State) : (s.drawn).draws = s.draws + 1 := rfl
@[simp] theorem State.drawn_burst (s : State) : (s.drawn).burst = s.burst := rfl
@[simp] theorem State.drawn_patience (s : State) : (s.drawn).patience = s.patience := rfl
@[simp] theorem State.drawn_reply (s : State) : (s.drawn).reply = s.reply := rfl
@[simp] theorem State.drawn_trace (s : State) : (s.drawn).trace = .draw :: s.trace := rfl

/-! ### `clearOutputs` -/

@[simp] theorem State.clearOutputs_status (s : State) : (s.clearOutputs).status = s.status := rfl
@[simp] theorem State.clearOutputs_key (s : State) : (s.clearOutputs).key = s.key := rfl
@[simp] theorem State.clearOutputs_ct (s : State) : (s.clearOutputs).ct = s.ct := rfl
@[simp] theorem State.clearOutputs_seed (s : State) : (s.clearOutputs).seed = s.seed := rfl
@[simp] theorem State.clearOutputs_eko (s : State) : (s.clearOutputs).eko = OutBuf.empty := rfl
@[simp] theorem State.clearOutputs_dko (s : State) : (s.clearOutputs).dko = OutBuf.empty := rfl
@[simp] theorem State.clearOutputs_cto (s : State) : (s.clearOutputs).cto = OutBuf.empty := rfl
@[simp] theorem State.clearOutputs_sso (s : State) : (s.clearOutputs).sso = OutBuf.empty := rfl
@[simp] theorem State.clearOutputs_fsm (s : State) : (s.clearOutputs).fsm = s.fsm := rfl
@[simp] theorem State.clearOutputs_opw (s : State) : (s.clearOutputs).opw = s.opw := rfl
@[simp] theorem State.clearOutputs_ecode (s : State) : (s.clearOutputs).ecode = s.ecode := rfl
@[simp] theorem State.clearOutputs_work (s : State) : (s.clearOutputs).work = s.work := rfl
@[simp] theorem State.clearOutputs_ports (s : State) : (s.clearOutputs).ports = s.ports := rfl
@[simp] theorem State.clearOutputs_todo (s : State) : (s.clearOutputs).todo = s.todo := rfl
@[simp] theorem State.clearOutputs_agenda (s : State) : (s.clearOutputs).agenda = s.agenda := rfl
@[simp] theorem State.clearOutputs_rng (s : State) : (s.clearOutputs).rng = s.rng := rfl
@[simp] theorem State.clearOutputs_draws (s : State) : (s.clearOutputs).draws = s.draws := rfl
@[simp] theorem State.clearOutputs_burst (s : State) : (s.clearOutputs).burst = s.burst := rfl
@[simp] theorem State.clearOutputs_patience (s : State) : (s.clearOutputs).patience = s.patience := rfl
@[simp] theorem State.clearOutputs_reply (s : State) : (s.clearOutputs).reply = s.reply := rfl
@[simp] theorem State.clearOutputs_trace (s : State) : (s.clearOutputs).trace = s.trace := rfl

/-! ### `enter` -/

@[simp] theorem State.enter_status (s : State) (f : Fsm) (ts : List Txn) : (s.enter f ts).status = s.status := rfl
@[simp] theorem State.enter_key (s : State) (f : Fsm) (ts : List Txn) : (s.enter f ts).key = s.key := rfl
@[simp] theorem State.enter_ct (s : State) (f : Fsm) (ts : List Txn) : (s.enter f ts).ct = s.ct := rfl
@[simp] theorem State.enter_seed (s : State) (f : Fsm) (ts : List Txn) : (s.enter f ts).seed = s.seed := rfl
@[simp] theorem State.enter_eko (s : State) (f : Fsm) (ts : List Txn) : (s.enter f ts).eko = s.eko := rfl
@[simp] theorem State.enter_dko (s : State) (f : Fsm) (ts : List Txn) : (s.enter f ts).dko = s.dko := rfl
@[simp] theorem State.enter_cto (s : State) (f : Fsm) (ts : List Txn) : (s.enter f ts).cto = s.cto := rfl
@[simp] theorem State.enter_sso (s : State) (f : Fsm) (ts : List Txn) : (s.enter f ts).sso = s.sso := rfl
@[simp] theorem State.enter_fsm (s : State) (f : Fsm) (ts : List Txn) : (s.enter f ts).fsm = f := rfl
@[simp] theorem State.enter_opw (s : State) (f : Fsm) (ts : List Txn) : (s.enter f ts).opw = s.opw := rfl
@[simp] theorem State.enter_ecode (s : State) (f : Fsm) (ts : List Txn) : (s.enter f ts).ecode = s.ecode := rfl
@[simp] theorem State.enter_work (s : State) (f : Fsm) (ts : List Txn) : (s.enter f ts).work = s.work := rfl
@[simp] theorem State.enter_ports (s : State) (f : Fsm) (ts : List Txn) : (s.enter f ts).ports = s.ports := rfl
@[simp] theorem State.enter_todo (s : State) (f : Fsm) (ts : List Txn) : (s.enter f ts).todo = ts := rfl
@[simp] theorem State.enter_agenda (s : State) (f : Fsm) (ts : List Txn) : (s.enter f ts).agenda = s.agenda := rfl
@[simp] theorem State.enter_rng (s : State) (f : Fsm) (ts : List Txn) : (s.enter f ts).rng = s.rng := rfl
@[simp] theorem State.enter_draws (s : State) (f : Fsm) (ts : List Txn) : (s.enter f ts).draws = s.draws := rfl
@[simp] theorem State.enter_burst (s : State) (f : Fsm) (ts : List Txn) : (s.enter f ts).burst = s.burst := rfl
@[simp] theorem State.enter_patience (s : State) (f : Fsm) (ts : List Txn) : (s.enter f ts).patience = s.patience := rfl
@[simp] theorem State.enter_reply (s : State) (f : Fsm) (ts : List Txn) : (s.enter f ts).reply = s.reply := rfl
@[simp] theorem State.enter_trace (s : State) (f : Fsm) (ts : List Txn) : (s.enter f ts).trace = .state f :: s.trace := rfl

/-! ### `goto` -/

@[simp] theorem State.goto_status (s : State) (f : Fsm) : (s.goto f).status = s.status := rfl
@[simp] theorem State.goto_key (s : State) (f : Fsm) : (s.goto f).key = s.key := rfl
@[simp] theorem State.goto_ct (s : State) (f : Fsm) : (s.goto f).ct = s.ct := rfl
@[simp] theorem State.goto_seed (s : State) (f : Fsm) : (s.goto f).seed = s.seed := rfl
@[simp] theorem State.goto_eko (s : State) (f : Fsm) : (s.goto f).eko = s.eko := rfl
@[simp] theorem State.goto_dko (s : State) (f : Fsm) : (s.goto f).dko = s.dko := rfl
@[simp] theorem State.goto_cto (s : State) (f : Fsm) : (s.goto f).cto = s.cto := rfl
@[simp] theorem State.goto_sso (s : State) (f : Fsm) : (s.goto f).sso = s.sso := rfl
@[simp] theorem State.goto_fsm (s : State) (f : Fsm) : (s.goto f).fsm = f := rfl
@[simp] theorem State.goto_opw (s : State) (f : Fsm) : (s.goto f).opw = s.opw := rfl
@[simp] theorem State.goto_ecode (s : State) (f : Fsm) : (s.goto f).ecode = s.ecode := rfl
@[simp] theorem State.goto_work (s : State) (f : Fsm) : (s.goto f).work = s.work := rfl
@[simp] theorem State.goto_ports (s : State) (f : Fsm) : (s.goto f).ports = s.ports := rfl
@[simp] theorem State.goto_todo (s : State) (f : Fsm) : (s.goto f).todo = stateTxns f s.opw := rfl
@[simp] theorem State.goto_agenda (s : State) (f : Fsm) : (s.goto f).agenda = s.agenda := rfl
@[simp] theorem State.goto_rng (s : State) (f : Fsm) : (s.goto f).rng = s.rng := rfl
@[simp] theorem State.goto_draws (s : State) (f : Fsm) : (s.goto f).draws = s.draws := rfl
@[simp] theorem State.goto_burst (s : State) (f : Fsm) : (s.goto f).burst = s.burst := rfl
@[simp] theorem State.goto_patience (s : State) (f : Fsm) : (s.goto f).patience = s.patience := rfl
@[simp] theorem State.goto_reply (s : State) (f : Fsm) : (s.goto f).reply = s.reply := rfl
@[simp] theorem State.goto_trace (s : State) (f : Fsm) : (s.goto f).trace = .state f :: s.trace := rfl

/-! ### `raiseError` -/

@[simp] theorem State.raiseError_status (s : State) (code : Err) : (s.raiseError code).status = s.status := rfl
@[simp] theorem State.raiseError_key (s : State) (code : Err) : (s.raiseError code).key = s.key := rfl
@[simp] theorem State.raiseError_ct (s : State) (code : Err) : (s.raiseError code).ct = s.ct := rfl
@[simp] theorem State.raiseError_seed (s : State) (code : Err) : (s.raiseError code).seed = s.seed := rfl
@[simp] theorem State.raiseError_eko (s : State) (code : Err) : (s.raiseError code).eko = s.eko := rfl
@[simp] theorem State.raiseError_dko (s : State) (code : Err) : (s.raiseError code).dko = s.dko := rfl
@[simp] theorem State.raiseError_cto (s : State) (code : Err) : (s.raiseError code).cto = s.cto := rfl
@[simp] theorem State.raiseError_sso (s : State) (code : Err) : (s.raiseError code).sso = s.sso := rfl
@[simp] theorem State.raiseError_fsm (s : State) (code : Err) : (s.raiseError code).fsm = .fail := rfl
@[simp] theorem State.raiseError_opw (s : State) (code : Err) : (s.raiseError code).opw = s.opw := rfl
@[simp] theorem State.raiseError_ecode (s : State) (code : Err) : (s.raiseError code).ecode = code := rfl
@[simp] theorem State.raiseError_work (s : State) (code : Err) : (s.raiseError code).work = s.work := rfl
@[simp] theorem State.raiseError_ports (s : State) (code : Err) : (s.raiseError code).ports = s.ports := rfl
@[simp] theorem State.raiseError_todo (s : State) (code : Err) : (s.raiseError code).todo = [.discard] := rfl
@[simp] theorem State.raiseError_agenda (s : State) (code : Err) : (s.raiseError code).agenda = s.agenda := rfl
@[simp] theorem State.raiseError_rng (s : State) (code : Err) : (s.raiseError code).rng = s.rng := rfl
@[simp] theorem State.raiseError_draws (s : State) (code : Err) : (s.raiseError code).draws = s.draws := rfl
@[simp] theorem State.raiseError_burst (s : State) (code : Err) : (s.raiseError code).burst = s.burst := rfl
@[simp] theorem State.raiseError_patience (s : State) (code : Err) : (s.raiseError code).patience = s.patience := rfl
@[simp] theorem State.raiseError_reply (s : State) (code : Err) : (s.raiseError code).reply = s.reply := rfl
@[simp] theorem State.raiseError_trace (s : State) (code : Err) : (s.raiseError code).trace = .state .fail :: s.trace := rfl

/-! ### `wipe` -/

@[simp] theorem State.wipe_status (s : State) (op : Instr) : (s.wipe op).status = statusDone s.ecode := rfl
@[simp] theorem State.wipe_key (s : State) (op : Instr) : (s.wipe op).key = s.key := rfl
@[simp] theorem State.wipe_ct (s : State) (op : Instr) : (s.wipe op).ct = s.ct := rfl
@[simp] theorem State.wipe_seed (s : State) (op : Instr) :
    (s.wipe op).seed = if wipesSeed op then InBuf.empty else s.seed := rfl
@[simp] theorem State.wipe_eko (s : State) (op : Instr) : (s.wipe op).eko = s.eko := rfl
@[simp] theorem State.wipe_dko (s : State) (op : Instr) : (s.wipe op).dko = s.dko := rfl
@[simp] theorem State.wipe_cto (s : State) (op : Instr) : (s.wipe op).cto = s.cto := rfl
@[simp] theorem State.wipe_sso (s : State) (op : Instr) : (s.wipe op).sso = s.sso := rfl
@[simp] theorem State.wipe_fsm (s : State) (op : Instr) : (s.wipe op).fsm = .idle := rfl
@[simp] theorem State.wipe_opw (s : State) (op : Instr) : (s.wipe op).opw = 0 := rfl
@[simp] theorem State.wipe_ecode (s : State) (op : Instr) : (s.wipe op).ecode = .none := rfl
@[simp] theorem State.wipe_work (s : State) (op : Instr) : (s.wipe op).work = Work.zero := rfl
@[simp] theorem State.wipe_ports (s : State) (op : Instr) : (s.wipe op).ports = s.ports := rfl
@[simp] theorem State.wipe_todo (s : State) (op : Instr) : (s.wipe op).todo = [] := rfl
@[simp] theorem State.wipe_agenda (s : State) (op : Instr) : (s.wipe op).agenda = s.agenda := rfl
@[simp] theorem State.wipe_rng (s : State) (op : Instr) : (s.wipe op).rng = s.rng := rfl
@[simp] theorem State.wipe_draws (s : State) (op : Instr) : (s.wipe op).draws = s.draws := rfl
@[simp] theorem State.wipe_burst (s : State) (op : Instr) : (s.wipe op).burst = s.burst := rfl
@[simp] theorem State.wipe_patience (s : State) (op : Instr) : (s.wipe op).patience = s.patience := rfl
@[simp] theorem State.wipe_reply (s : State) (op : Instr) : (s.wipe op).reply = s.reply := rfl
@[simp] theorem State.wipe_trace (s : State) (op : Instr) : (s.wipe op).trace = .state .idle :: s.trace := rfl

/-! ### `clear` -/

@[simp] theorem State.clear_status (s : State) (mask : BitVec 4) : (s.clear mask).status = statusDone .none := rfl
@[simp] theorem State.clear_key (s : State) (mask : BitVec 4) :
    (s.clear mask).key = if mask.getLsbD 0 then InBuf.empty else s.key := rfl
@[simp] theorem State.clear_ct (s : State) (mask : BitVec 4) :
    (s.clear mask).ct = if mask.getLsbD 1 then InBuf.empty else s.ct := rfl
@[simp] theorem State.clear_seed (s : State) (mask : BitVec 4) :
    (s.clear mask).seed = if mask.getLsbD 2 then InBuf.empty else s.seed := rfl
@[simp] theorem State.clear_eko (s : State) (mask : BitVec 4) :
    (s.clear mask).eko = if mask.getLsbD 3 then OutBuf.empty else s.eko := rfl
@[simp] theorem State.clear_dko (s : State) (mask : BitVec 4) :
    (s.clear mask).dko = if mask.getLsbD 3 then OutBuf.empty else s.dko := rfl
@[simp] theorem State.clear_cto (s : State) (mask : BitVec 4) :
    (s.clear mask).cto = if mask.getLsbD 3 then OutBuf.empty else s.cto := rfl
@[simp] theorem State.clear_sso (s : State) (mask : BitVec 4) :
    (s.clear mask).sso = if mask.getLsbD 3 then OutBuf.empty else s.sso := rfl
@[simp] theorem State.clear_fsm (s : State) (mask : BitVec 4) : (s.clear mask).fsm = .idle := rfl
@[simp] theorem State.clear_opw (s : State) (mask : BitVec 4) : (s.clear mask).opw = 0 := rfl
@[simp] theorem State.clear_ecode (s : State) (mask : BitVec 4) : (s.clear mask).ecode = s.ecode := rfl
@[simp] theorem State.clear_work (s : State) (mask : BitVec 4) : (s.clear mask).work = s.work := rfl
@[simp] theorem State.clear_ports (s : State) (mask : BitVec 4) : (s.clear mask).ports = s.ports := rfl
@[simp] theorem State.clear_todo (s : State) (mask : BitVec 4) : (s.clear mask).todo = [] := rfl
@[simp] theorem State.clear_agenda (s : State) (mask : BitVec 4) : (s.clear mask).agenda = s.agenda := rfl
@[simp] theorem State.clear_rng (s : State) (mask : BitVec 4) : (s.clear mask).rng = s.rng := rfl
@[simp] theorem State.clear_draws (s : State) (mask : BitVec 4) : (s.clear mask).draws = s.draws := rfl
@[simp] theorem State.clear_burst (s : State) (mask : BitVec 4) : (s.clear mask).burst = s.burst := rfl
@[simp] theorem State.clear_patience (s : State) (mask : BitVec 4) : (s.clear mask).patience = s.patience := rfl
@[simp] theorem State.clear_reply (s : State) (mask : BitVec 4) : (s.clear mask).reply = s.reply := rfl
@[simp] theorem State.clear_trace (s : State) (mask : BitVec 4) : (s.clear mask).trace = .state .idle :: s.trace := rfl

/-! ### `take` -/

@[simp] theorem State.take_status (s : State) (op : Instr) : (s.take op).status = statusTaken := rfl
@[simp] theorem State.take_key (s : State) (op : Instr) : (s.take op).key = s.key := rfl
@[simp] theorem State.take_ct (s : State) (op : Instr) : (s.take op).ct = s.ct := rfl
@[simp] theorem State.take_seed (s : State) (op : Instr) : (s.take op).seed = s.seed := rfl
@[simp] theorem State.take_eko (s : State) (op : Instr) : (s.take op).eko = s.eko := rfl
@[simp] theorem State.take_dko (s : State) (op : Instr) : (s.take op).dko = s.dko := rfl
@[simp] theorem State.take_cto (s : State) (op : Instr) : (s.take op).cto = s.cto := rfl
@[simp] theorem State.take_sso (s : State) (op : Instr) : (s.take op).sso = s.sso := rfl
@[simp] theorem State.take_fsm (s : State) (op : Instr) : (s.take op).fsm = firstState op := rfl
@[simp] theorem State.take_opw (s : State) (op : Instr) : (s.take op).opw = encode op := rfl
@[simp] theorem State.take_ecode (s : State) (op : Instr) : (s.take op).ecode = .none := rfl
@[simp] theorem State.take_work (s : State) (op : Instr) : (s.take op).work = s.work := rfl
@[simp] theorem State.take_ports (s : State) (op : Instr) : (s.take op).ports = s.ports := rfl
@[simp] theorem State.take_todo (s : State) (op : Instr) : (s.take op).todo = stateTxns (firstState op) (encode op) := rfl
@[simp] theorem State.take_agenda (s : State) (op : Instr) : (s.take op).agenda = s.agenda := rfl
@[simp] theorem State.take_rng (s : State) (op : Instr) : (s.take op).rng = s.rng := rfl
@[simp] theorem State.take_draws (s : State) (op : Instr) : (s.take op).draws = s.draws := rfl
@[simp] theorem State.take_burst (s : State) (op : Instr) : (s.take op).burst = s.burst := rfl
@[simp] theorem State.take_patience (s : State) (op : Instr) : (s.take op).patience = s.patience := rfl
@[simp] theorem State.take_reply (s : State) (op : Instr) : (s.take op).reply = s.reply := rfl
@[simp] theorem State.take_trace (s : State) (op : Instr) : (s.take op).trace = [.state (firstState op)] := rfl

/-! ### `setSampler` -/

@[simp] theorem State.setSampler_status (s : State) (t : Sampler) : (s.setSampler t).status = s.status := rfl
@[simp] theorem State.setSampler_key (s : State) (t : Sampler) : (s.setSampler t).key = s.key := rfl
@[simp] theorem State.setSampler_ct (s : State) (t : Sampler) : (s.setSampler t).ct = s.ct := rfl
@[simp] theorem State.setSampler_seed (s : State) (t : Sampler) : (s.setSampler t).seed = s.seed := rfl
@[simp] theorem State.setSampler_eko (s : State) (t : Sampler) : (s.setSampler t).eko = s.eko := rfl
@[simp] theorem State.setSampler_dko (s : State) (t : Sampler) : (s.setSampler t).dko = s.dko := rfl
@[simp] theorem State.setSampler_cto (s : State) (t : Sampler) : (s.setSampler t).cto = s.cto := rfl
@[simp] theorem State.setSampler_sso (s : State) (t : Sampler) : (s.setSampler t).sso = s.sso := rfl
@[simp] theorem State.setSampler_fsm (s : State) (t : Sampler) : (s.setSampler t).fsm = s.fsm := rfl
@[simp] theorem State.setSampler_opw (s : State) (t : Sampler) : (s.setSampler t).opw = s.opw := rfl
@[simp] theorem State.setSampler_ecode (s : State) (t : Sampler) : (s.setSampler t).ecode = s.ecode := rfl
@[simp] theorem State.setSampler_work (s : State) (t : Sampler) :
    (s.setSampler t).work = { s.work with xofcur := t.cur } := rfl
@[simp] theorem State.setSampler_ports (s : State) (t : Sampler) :
    (s.setSampler t).ports = { s.ports with smpCnt := t.cnt, smpOut := { c := t.a } } := rfl
@[simp] theorem State.setSampler_todo (s : State) (t : Sampler) : (s.setSampler t).todo = s.todo := rfl
@[simp] theorem State.setSampler_agenda (s : State) (t : Sampler) : (s.setSampler t).agenda = s.agenda := rfl
@[simp] theorem State.setSampler_rng (s : State) (t : Sampler) : (s.setSampler t).rng = s.rng := rfl
@[simp] theorem State.setSampler_draws (s : State) (t : Sampler) : (s.setSampler t).draws = s.draws := rfl
@[simp] theorem State.setSampler_burst (s : State) (t : Sampler) : (s.setSampler t).burst = s.burst := rfl
@[simp] theorem State.setSampler_patience (s : State) (t : Sampler) : (s.setSampler t).patience = s.patience := rfl
@[simp] theorem State.setSampler_reply (s : State) (t : Sampler) : (s.setSampler t).reply = s.reply := rfl
@[simp] theorem State.setSampler_trace (s : State) (t : Sampler) : (s.setSampler t).trace = s.trace := rfl

/-! ### `setInBuf` -/

@[simp] theorem State.setInBuf_key_status (s : State) (b : InBuf) : (s.setInBuf .key b).status = s.status := rfl
@[simp] theorem State.setInBuf_key_key (s : State) (b : InBuf) : (s.setInBuf .key b).key = b := rfl
@[simp] theorem State.setInBuf_key_ct (s : State) (b : InBuf) : (s.setInBuf .key b).ct = s.ct := rfl
@[simp] theorem State.setInBuf_key_seed (s : State) (b : InBuf) : (s.setInBuf .key b).seed = s.seed := rfl
@[simp] theorem State.setInBuf_key_eko (s : State) (b : InBuf) : (s.setInBuf .key b).eko = s.eko := rfl
@[simp] theorem State.setInBuf_key_dko (s : State) (b : InBuf) : (s.setInBuf .key b).dko = s.dko := rfl
@[simp] theorem State.setInBuf_key_cto (s : State) (b : InBuf) : (s.setInBuf .key b).cto = s.cto := rfl
@[simp] theorem State.setInBuf_key_sso (s : State) (b : InBuf) : (s.setInBuf .key b).sso = s.sso := rfl
@[simp] theorem State.setInBuf_key_fsm (s : State) (b : InBuf) : (s.setInBuf .key b).fsm = s.fsm := rfl
@[simp] theorem State.setInBuf_key_opw (s : State) (b : InBuf) : (s.setInBuf .key b).opw = s.opw := rfl
@[simp] theorem State.setInBuf_key_ecode (s : State) (b : InBuf) : (s.setInBuf .key b).ecode = s.ecode := rfl
@[simp] theorem State.setInBuf_key_work (s : State) (b : InBuf) : (s.setInBuf .key b).work = s.work := rfl
@[simp] theorem State.setInBuf_key_ports (s : State) (b : InBuf) : (s.setInBuf .key b).ports = s.ports := rfl
@[simp] theorem State.setInBuf_key_todo (s : State) (b : InBuf) : (s.setInBuf .key b).todo = s.todo := rfl
@[simp] theorem State.setInBuf_key_agenda (s : State) (b : InBuf) : (s.setInBuf .key b).agenda = s.agenda := rfl
@[simp] theorem State.setInBuf_key_rng (s : State) (b : InBuf) : (s.setInBuf .key b).rng = s.rng := rfl
@[simp] theorem State.setInBuf_key_draws (s : State) (b : InBuf) : (s.setInBuf .key b).draws = s.draws := rfl
@[simp] theorem State.setInBuf_key_burst (s : State) (b : InBuf) : (s.setInBuf .key b).burst = s.burst := rfl
@[simp] theorem State.setInBuf_key_patience (s : State) (b : InBuf) : (s.setInBuf .key b).patience = s.patience := rfl
@[simp] theorem State.setInBuf_key_reply (s : State) (b : InBuf) : (s.setInBuf .key b).reply = s.reply := rfl
@[simp] theorem State.setInBuf_key_trace (s : State) (b : InBuf) : (s.setInBuf .key b).trace = s.trace := rfl
@[simp] theorem State.setInBuf_ct_status (s : State) (b : InBuf) : (s.setInBuf .ct b).status = s.status := rfl
@[simp] theorem State.setInBuf_ct_key (s : State) (b : InBuf) : (s.setInBuf .ct b).key = s.key := rfl
@[simp] theorem State.setInBuf_ct_ct (s : State) (b : InBuf) : (s.setInBuf .ct b).ct = b := rfl
@[simp] theorem State.setInBuf_ct_seed (s : State) (b : InBuf) : (s.setInBuf .ct b).seed = s.seed := rfl
@[simp] theorem State.setInBuf_ct_eko (s : State) (b : InBuf) : (s.setInBuf .ct b).eko = s.eko := rfl
@[simp] theorem State.setInBuf_ct_dko (s : State) (b : InBuf) : (s.setInBuf .ct b).dko = s.dko := rfl
@[simp] theorem State.setInBuf_ct_cto (s : State) (b : InBuf) : (s.setInBuf .ct b).cto = s.cto := rfl
@[simp] theorem State.setInBuf_ct_sso (s : State) (b : InBuf) : (s.setInBuf .ct b).sso = s.sso := rfl
@[simp] theorem State.setInBuf_ct_fsm (s : State) (b : InBuf) : (s.setInBuf .ct b).fsm = s.fsm := rfl
@[simp] theorem State.setInBuf_ct_opw (s : State) (b : InBuf) : (s.setInBuf .ct b).opw = s.opw := rfl
@[simp] theorem State.setInBuf_ct_ecode (s : State) (b : InBuf) : (s.setInBuf .ct b).ecode = s.ecode := rfl
@[simp] theorem State.setInBuf_ct_work (s : State) (b : InBuf) : (s.setInBuf .ct b).work = s.work := rfl
@[simp] theorem State.setInBuf_ct_ports (s : State) (b : InBuf) : (s.setInBuf .ct b).ports = s.ports := rfl
@[simp] theorem State.setInBuf_ct_todo (s : State) (b : InBuf) : (s.setInBuf .ct b).todo = s.todo := rfl
@[simp] theorem State.setInBuf_ct_agenda (s : State) (b : InBuf) : (s.setInBuf .ct b).agenda = s.agenda := rfl
@[simp] theorem State.setInBuf_ct_rng (s : State) (b : InBuf) : (s.setInBuf .ct b).rng = s.rng := rfl
@[simp] theorem State.setInBuf_ct_draws (s : State) (b : InBuf) : (s.setInBuf .ct b).draws = s.draws := rfl
@[simp] theorem State.setInBuf_ct_burst (s : State) (b : InBuf) : (s.setInBuf .ct b).burst = s.burst := rfl
@[simp] theorem State.setInBuf_ct_patience (s : State) (b : InBuf) : (s.setInBuf .ct b).patience = s.patience := rfl
@[simp] theorem State.setInBuf_ct_reply (s : State) (b : InBuf) : (s.setInBuf .ct b).reply = s.reply := rfl
@[simp] theorem State.setInBuf_ct_trace (s : State) (b : InBuf) : (s.setInBuf .ct b).trace = s.trace := rfl
@[simp] theorem State.setInBuf_seed_status (s : State) (b : InBuf) : (s.setInBuf .seed b).status = s.status := rfl
@[simp] theorem State.setInBuf_seed_key (s : State) (b : InBuf) : (s.setInBuf .seed b).key = s.key := rfl
@[simp] theorem State.setInBuf_seed_ct (s : State) (b : InBuf) : (s.setInBuf .seed b).ct = s.ct := rfl
@[simp] theorem State.setInBuf_seed_seed (s : State) (b : InBuf) : (s.setInBuf .seed b).seed = b := rfl
@[simp] theorem State.setInBuf_seed_eko (s : State) (b : InBuf) : (s.setInBuf .seed b).eko = s.eko := rfl
@[simp] theorem State.setInBuf_seed_dko (s : State) (b : InBuf) : (s.setInBuf .seed b).dko = s.dko := rfl
@[simp] theorem State.setInBuf_seed_cto (s : State) (b : InBuf) : (s.setInBuf .seed b).cto = s.cto := rfl
@[simp] theorem State.setInBuf_seed_sso (s : State) (b : InBuf) : (s.setInBuf .seed b).sso = s.sso := rfl
@[simp] theorem State.setInBuf_seed_fsm (s : State) (b : InBuf) : (s.setInBuf .seed b).fsm = s.fsm := rfl
@[simp] theorem State.setInBuf_seed_opw (s : State) (b : InBuf) : (s.setInBuf .seed b).opw = s.opw := rfl
@[simp] theorem State.setInBuf_seed_ecode (s : State) (b : InBuf) : (s.setInBuf .seed b).ecode = s.ecode := rfl
@[simp] theorem State.setInBuf_seed_work (s : State) (b : InBuf) : (s.setInBuf .seed b).work = s.work := rfl
@[simp] theorem State.setInBuf_seed_ports (s : State) (b : InBuf) : (s.setInBuf .seed b).ports = s.ports := rfl
@[simp] theorem State.setInBuf_seed_todo (s : State) (b : InBuf) : (s.setInBuf .seed b).todo = s.todo := rfl
@[simp] theorem State.setInBuf_seed_agenda (s : State) (b : InBuf) : (s.setInBuf .seed b).agenda = s.agenda := rfl
@[simp] theorem State.setInBuf_seed_rng (s : State) (b : InBuf) : (s.setInBuf .seed b).rng = s.rng := rfl
@[simp] theorem State.setInBuf_seed_draws (s : State) (b : InBuf) : (s.setInBuf .seed b).draws = s.draws := rfl
@[simp] theorem State.setInBuf_seed_burst (s : State) (b : InBuf) : (s.setInBuf .seed b).burst = s.burst := rfl
@[simp] theorem State.setInBuf_seed_patience (s : State) (b : InBuf) : (s.setInBuf .seed b).patience = s.patience := rfl
@[simp] theorem State.setInBuf_seed_reply (s : State) (b : InBuf) : (s.setInBuf .seed b).reply = s.reply := rfl
@[simp] theorem State.setInBuf_seed_trace (s : State) (b : InBuf) : (s.setInBuf .seed b).trace = s.trace := rfl

@[simp] theorem State.inBuf_setInBuf (s : State) (n : InName) (b : InBuf) : (s.setInBuf n b).inBuf n = b := by
  cases n <;> rfl

theorem State.inBuf_setInBuf_ne (s : State) (n n' : InName) (b : InBuf) (h : n' ≠ n) :
    (s.setInBuf n b).inBuf n' = s.inBuf n' := by
  cases n <;> cases n' <;> first | rfl | exact absurd rfl h

/-! ### `setOutBuf` -/

@[simp] theorem State.setOutBuf_eko_status (s : State) (b : OutBuf) : (s.setOutBuf .eko b).status = s.status := rfl
@[simp] theorem State.setOutBuf_eko_key (s : State) (b : OutBuf) : (s.setOutBuf .eko b).key = s.key := rfl
@[simp] theorem State.setOutBuf_eko_ct (s : State) (b : OutBuf) : (s.setOutBuf .eko b).ct = s.ct := rfl
@[simp] theorem State.setOutBuf_eko_seed (s : State) (b : OutBuf) : (s.setOutBuf .eko b).seed = s.seed := rfl
@[simp] theorem State.setOutBuf_eko_eko (s : State) (b : OutBuf) : (s.setOutBuf .eko b).eko = b := rfl
@[simp] theorem State.setOutBuf_eko_dko (s : State) (b : OutBuf) : (s.setOutBuf .eko b).dko = s.dko := rfl
@[simp] theorem State.setOutBuf_eko_cto (s : State) (b : OutBuf) : (s.setOutBuf .eko b).cto = s.cto := rfl
@[simp] theorem State.setOutBuf_eko_sso (s : State) (b : OutBuf) : (s.setOutBuf .eko b).sso = s.sso := rfl
@[simp] theorem State.setOutBuf_eko_fsm (s : State) (b : OutBuf) : (s.setOutBuf .eko b).fsm = s.fsm := rfl
@[simp] theorem State.setOutBuf_eko_opw (s : State) (b : OutBuf) : (s.setOutBuf .eko b).opw = s.opw := rfl
@[simp] theorem State.setOutBuf_eko_ecode (s : State) (b : OutBuf) : (s.setOutBuf .eko b).ecode = s.ecode := rfl
@[simp] theorem State.setOutBuf_eko_work (s : State) (b : OutBuf) : (s.setOutBuf .eko b).work = s.work := rfl
@[simp] theorem State.setOutBuf_eko_ports (s : State) (b : OutBuf) : (s.setOutBuf .eko b).ports = s.ports := rfl
@[simp] theorem State.setOutBuf_eko_todo (s : State) (b : OutBuf) : (s.setOutBuf .eko b).todo = s.todo := rfl
@[simp] theorem State.setOutBuf_eko_agenda (s : State) (b : OutBuf) : (s.setOutBuf .eko b).agenda = s.agenda := rfl
@[simp] theorem State.setOutBuf_eko_rng (s : State) (b : OutBuf) : (s.setOutBuf .eko b).rng = s.rng := rfl
@[simp] theorem State.setOutBuf_eko_draws (s : State) (b : OutBuf) : (s.setOutBuf .eko b).draws = s.draws := rfl
@[simp] theorem State.setOutBuf_eko_burst (s : State) (b : OutBuf) : (s.setOutBuf .eko b).burst = s.burst := rfl
@[simp] theorem State.setOutBuf_eko_patience (s : State) (b : OutBuf) : (s.setOutBuf .eko b).patience = s.patience := rfl
@[simp] theorem State.setOutBuf_eko_reply (s : State) (b : OutBuf) : (s.setOutBuf .eko b).reply = s.reply := rfl
@[simp] theorem State.setOutBuf_eko_trace (s : State) (b : OutBuf) : (s.setOutBuf .eko b).trace = s.trace := rfl
@[simp] theorem State.setOutBuf_dko_status (s : State) (b : OutBuf) : (s.setOutBuf .dko b).status = s.status := rfl
@[simp] theorem State.setOutBuf_dko_key (s : State) (b : OutBuf) : (s.setOutBuf .dko b).key = s.key := rfl
@[simp] theorem State.setOutBuf_dko_ct (s : State) (b : OutBuf) : (s.setOutBuf .dko b).ct = s.ct := rfl
@[simp] theorem State.setOutBuf_dko_seed (s : State) (b : OutBuf) : (s.setOutBuf .dko b).seed = s.seed := rfl
@[simp] theorem State.setOutBuf_dko_eko (s : State) (b : OutBuf) : (s.setOutBuf .dko b).eko = s.eko := rfl
@[simp] theorem State.setOutBuf_dko_dko (s : State) (b : OutBuf) : (s.setOutBuf .dko b).dko = b := rfl
@[simp] theorem State.setOutBuf_dko_cto (s : State) (b : OutBuf) : (s.setOutBuf .dko b).cto = s.cto := rfl
@[simp] theorem State.setOutBuf_dko_sso (s : State) (b : OutBuf) : (s.setOutBuf .dko b).sso = s.sso := rfl
@[simp] theorem State.setOutBuf_dko_fsm (s : State) (b : OutBuf) : (s.setOutBuf .dko b).fsm = s.fsm := rfl
@[simp] theorem State.setOutBuf_dko_opw (s : State) (b : OutBuf) : (s.setOutBuf .dko b).opw = s.opw := rfl
@[simp] theorem State.setOutBuf_dko_ecode (s : State) (b : OutBuf) : (s.setOutBuf .dko b).ecode = s.ecode := rfl
@[simp] theorem State.setOutBuf_dko_work (s : State) (b : OutBuf) : (s.setOutBuf .dko b).work = s.work := rfl
@[simp] theorem State.setOutBuf_dko_ports (s : State) (b : OutBuf) : (s.setOutBuf .dko b).ports = s.ports := rfl
@[simp] theorem State.setOutBuf_dko_todo (s : State) (b : OutBuf) : (s.setOutBuf .dko b).todo = s.todo := rfl
@[simp] theorem State.setOutBuf_dko_agenda (s : State) (b : OutBuf) : (s.setOutBuf .dko b).agenda = s.agenda := rfl
@[simp] theorem State.setOutBuf_dko_rng (s : State) (b : OutBuf) : (s.setOutBuf .dko b).rng = s.rng := rfl
@[simp] theorem State.setOutBuf_dko_draws (s : State) (b : OutBuf) : (s.setOutBuf .dko b).draws = s.draws := rfl
@[simp] theorem State.setOutBuf_dko_burst (s : State) (b : OutBuf) : (s.setOutBuf .dko b).burst = s.burst := rfl
@[simp] theorem State.setOutBuf_dko_patience (s : State) (b : OutBuf) : (s.setOutBuf .dko b).patience = s.patience := rfl
@[simp] theorem State.setOutBuf_dko_reply (s : State) (b : OutBuf) : (s.setOutBuf .dko b).reply = s.reply := rfl
@[simp] theorem State.setOutBuf_dko_trace (s : State) (b : OutBuf) : (s.setOutBuf .dko b).trace = s.trace := rfl
@[simp] theorem State.setOutBuf_cto_status (s : State) (b : OutBuf) : (s.setOutBuf .cto b).status = s.status := rfl
@[simp] theorem State.setOutBuf_cto_key (s : State) (b : OutBuf) : (s.setOutBuf .cto b).key = s.key := rfl
@[simp] theorem State.setOutBuf_cto_ct (s : State) (b : OutBuf) : (s.setOutBuf .cto b).ct = s.ct := rfl
@[simp] theorem State.setOutBuf_cto_seed (s : State) (b : OutBuf) : (s.setOutBuf .cto b).seed = s.seed := rfl
@[simp] theorem State.setOutBuf_cto_eko (s : State) (b : OutBuf) : (s.setOutBuf .cto b).eko = s.eko := rfl
@[simp] theorem State.setOutBuf_cto_dko (s : State) (b : OutBuf) : (s.setOutBuf .cto b).dko = s.dko := rfl
@[simp] theorem State.setOutBuf_cto_cto (s : State) (b : OutBuf) : (s.setOutBuf .cto b).cto = b := rfl
@[simp] theorem State.setOutBuf_cto_sso (s : State) (b : OutBuf) : (s.setOutBuf .cto b).sso = s.sso := rfl
@[simp] theorem State.setOutBuf_cto_fsm (s : State) (b : OutBuf) : (s.setOutBuf .cto b).fsm = s.fsm := rfl
@[simp] theorem State.setOutBuf_cto_opw (s : State) (b : OutBuf) : (s.setOutBuf .cto b).opw = s.opw := rfl
@[simp] theorem State.setOutBuf_cto_ecode (s : State) (b : OutBuf) : (s.setOutBuf .cto b).ecode = s.ecode := rfl
@[simp] theorem State.setOutBuf_cto_work (s : State) (b : OutBuf) : (s.setOutBuf .cto b).work = s.work := rfl
@[simp] theorem State.setOutBuf_cto_ports (s : State) (b : OutBuf) : (s.setOutBuf .cto b).ports = s.ports := rfl
@[simp] theorem State.setOutBuf_cto_todo (s : State) (b : OutBuf) : (s.setOutBuf .cto b).todo = s.todo := rfl
@[simp] theorem State.setOutBuf_cto_agenda (s : State) (b : OutBuf) : (s.setOutBuf .cto b).agenda = s.agenda := rfl
@[simp] theorem State.setOutBuf_cto_rng (s : State) (b : OutBuf) : (s.setOutBuf .cto b).rng = s.rng := rfl
@[simp] theorem State.setOutBuf_cto_draws (s : State) (b : OutBuf) : (s.setOutBuf .cto b).draws = s.draws := rfl
@[simp] theorem State.setOutBuf_cto_burst (s : State) (b : OutBuf) : (s.setOutBuf .cto b).burst = s.burst := rfl
@[simp] theorem State.setOutBuf_cto_patience (s : State) (b : OutBuf) : (s.setOutBuf .cto b).patience = s.patience := rfl
@[simp] theorem State.setOutBuf_cto_reply (s : State) (b : OutBuf) : (s.setOutBuf .cto b).reply = s.reply := rfl
@[simp] theorem State.setOutBuf_cto_trace (s : State) (b : OutBuf) : (s.setOutBuf .cto b).trace = s.trace := rfl
@[simp] theorem State.setOutBuf_sso_status (s : State) (b : OutBuf) : (s.setOutBuf .sso b).status = s.status := rfl
@[simp] theorem State.setOutBuf_sso_key (s : State) (b : OutBuf) : (s.setOutBuf .sso b).key = s.key := rfl
@[simp] theorem State.setOutBuf_sso_ct (s : State) (b : OutBuf) : (s.setOutBuf .sso b).ct = s.ct := rfl
@[simp] theorem State.setOutBuf_sso_seed (s : State) (b : OutBuf) : (s.setOutBuf .sso b).seed = s.seed := rfl
@[simp] theorem State.setOutBuf_sso_eko (s : State) (b : OutBuf) : (s.setOutBuf .sso b).eko = s.eko := rfl
@[simp] theorem State.setOutBuf_sso_dko (s : State) (b : OutBuf) : (s.setOutBuf .sso b).dko = s.dko := rfl
@[simp] theorem State.setOutBuf_sso_cto (s : State) (b : OutBuf) : (s.setOutBuf .sso b).cto = s.cto := rfl
@[simp] theorem State.setOutBuf_sso_sso (s : State) (b : OutBuf) : (s.setOutBuf .sso b).sso = b := rfl
@[simp] theorem State.setOutBuf_sso_fsm (s : State) (b : OutBuf) : (s.setOutBuf .sso b).fsm = s.fsm := rfl
@[simp] theorem State.setOutBuf_sso_opw (s : State) (b : OutBuf) : (s.setOutBuf .sso b).opw = s.opw := rfl
@[simp] theorem State.setOutBuf_sso_ecode (s : State) (b : OutBuf) : (s.setOutBuf .sso b).ecode = s.ecode := rfl
@[simp] theorem State.setOutBuf_sso_work (s : State) (b : OutBuf) : (s.setOutBuf .sso b).work = s.work := rfl
@[simp] theorem State.setOutBuf_sso_ports (s : State) (b : OutBuf) : (s.setOutBuf .sso b).ports = s.ports := rfl
@[simp] theorem State.setOutBuf_sso_todo (s : State) (b : OutBuf) : (s.setOutBuf .sso b).todo = s.todo := rfl
@[simp] theorem State.setOutBuf_sso_agenda (s : State) (b : OutBuf) : (s.setOutBuf .sso b).agenda = s.agenda := rfl
@[simp] theorem State.setOutBuf_sso_rng (s : State) (b : OutBuf) : (s.setOutBuf .sso b).rng = s.rng := rfl
@[simp] theorem State.setOutBuf_sso_draws (s : State) (b : OutBuf) : (s.setOutBuf .sso b).draws = s.draws := rfl
@[simp] theorem State.setOutBuf_sso_burst (s : State) (b : OutBuf) : (s.setOutBuf .sso b).burst = s.burst := rfl
@[simp] theorem State.setOutBuf_sso_patience (s : State) (b : OutBuf) : (s.setOutBuf .sso b).patience = s.patience := rfl
@[simp] theorem State.setOutBuf_sso_reply (s : State) (b : OutBuf) : (s.setOutBuf .sso b).reply = s.reply := rfl
@[simp] theorem State.setOutBuf_sso_trace (s : State) (b : OutBuf) : (s.setOutBuf .sso b).trace = s.trace := rfl

@[simp] theorem State.outBuf_setOutBuf (s : State) (n : OutName) (b : OutBuf) : (s.setOutBuf n b).outBuf n = b := by
  cases n <;> rfl

theorem State.outBuf_setOutBuf_ne (s : State) (n n' : OutName) (b : OutBuf) (h : n' ≠ n) :
    (s.setOutBuf n b).outBuf n' = s.outBuf n' := by
  cases n <;> cases n' <;> first | rfl | exact absurd rfl h

/-! ### The polynomial registers -/

@[simp] theorem Work.setN_dseed (w : Work) (r : NReg) (f : NPoly) : (w.setN r f).dseed = w.dseed := by cases r <;> rfl
@[simp] theorem Work.setN_zseed (w : Work) (r : NReg) (f : NPoly) : (w.setN r f).zseed = w.zseed := by cases r <;> rfl
@[simp] theorem Work.setN_msg (w : Work) (r : NReg) (f : NPoly) : (w.setN r f).msg = w.msg := by cases r <;> rfl
@[simp] theorem Work.setN_hek (w : Work) (r : NReg) (f : NPoly) : (w.setN r f).hek = w.hek := by cases r <;> rfl
@[simp] theorem Work.setN_rho (w : Work) (r : NReg) (f : NPoly) : (w.setN r f).rho = w.rho := by cases r <;> rfl
@[simp] theorem Work.setN_sigma (w : Work) (r : NReg) (f : NPoly) : (w.setN r f).sigma = w.sigma := by cases r <;> rfl
@[simp] theorem Work.setN_kr (w : Work) (r : NReg) (f : NPoly) : (w.setN r f).kr = w.kr := by cases r <;> rfl
@[simp] theorem Work.setN_kbar (w : Work) (r : NReg) (f : NPoly) : (w.setN r f).kbar = w.kbar := by cases r <;> rfl
@[simp] theorem Work.setN_nctr (w : Work) (r : NReg) (f : NPoly) : (w.setN r f).nctr = w.nctr := by cases r <;> rfl
@[simp] theorem Work.setN_prfbuf (w : Work) (r : NReg) (f : NPoly) : (w.setN r f).prfbuf = w.prfbuf := by cases r <;> rfl
@[simp] theorem Work.setN_xofin (w : Work) (r : NReg) (f : NPoly) : (w.setN r f).xofin = w.xofin := by cases r <;> rfl
@[simp] theorem Work.setN_cz (w : Work) (r : NReg) (f : NPoly) : (w.setN r f).cz = w.cz := by cases r <;> rfl
@[simp] theorem Work.setN_ct2 (w : Work) (r : NReg) (f : NPoly) : (w.setN r f).ct2 = w.ct2 := by cases r <;> rfl
@[simp] theorem Work.setN_diff (w : Work) (r : NReg) (f : NPoly) : (w.setN r f).diff = w.diff := by cases r <;> rfl
@[simp] theorem Work.setN_mask (w : Work) (r : NReg) (f : NPoly) : (w.setN r f).mask = w.mask := by cases r <;> rfl
@[simp] theorem Work.setN_xofcur (w : Work) (r : NReg) (f : NPoly) : (w.setN r f).xofcur = w.xofcur := by cases r <;> rfl
@[simp] theorem Work.setN_aij (w : Work) (r : NReg) (f : NPoly) : (w.setN r f).aij = w.aij := by cases r <;> rfl
@[simp] theorem Work.setN_sh (w : Work) (r : NReg) (f : NPoly) : (w.setN r f).sh = w.sh := by cases r <;> rfl
@[simp] theorem Work.setN_eh (w : Work) (r : NReg) (f : NPoly) : (w.setN r f).eh = w.eh := by cases r <;> rfl
@[simp] theorem Work.setN_th (w : Work) (r : NReg) (f : NPoly) : (w.setN r f).th = w.th := by cases r <;> rfl
@[simp] theorem Work.setN_acch (w : Work) (r : NReg) (f : NPoly) : (w.setN r f).acch = w.acch := by cases r <;> rfl
@[simp] theorem Work.setN_prodh (w : Work) (r : NReg) (f : NPoly) : (w.setN r f).prodh = w.prodh := by cases r <;> rfl
@[simp] theorem Work.setN_uh (w : Work) (r : NReg) (f : NPoly) : (w.setN r f).uh = w.uh := by cases r <;> rfl
@[simp] theorem Work.setH_dseed (w : Work) (r : HReg) (f : HPoly) : (w.setH r f).dseed = w.dseed := by cases r <;> rfl
@[simp] theorem Work.setH_zseed (w : Work) (r : HReg) (f : HPoly) : (w.setH r f).zseed = w.zseed := by cases r <;> rfl
@[simp] theorem Work.setH_msg (w : Work) (r : HReg) (f : HPoly) : (w.setH r f).msg = w.msg := by cases r <;> rfl
@[simp] theorem Work.setH_hek (w : Work) (r : HReg) (f : HPoly) : (w.setH r f).hek = w.hek := by cases r <;> rfl
@[simp] theorem Work.setH_rho (w : Work) (r : HReg) (f : HPoly) : (w.setH r f).rho = w.rho := by cases r <;> rfl
@[simp] theorem Work.setH_sigma (w : Work) (r : HReg) (f : HPoly) : (w.setH r f).sigma = w.sigma := by cases r <;> rfl
@[simp] theorem Work.setH_kr (w : Work) (r : HReg) (f : HPoly) : (w.setH r f).kr = w.kr := by cases r <;> rfl
@[simp] theorem Work.setH_kbar (w : Work) (r : HReg) (f : HPoly) : (w.setH r f).kbar = w.kbar := by cases r <;> rfl
@[simp] theorem Work.setH_nctr (w : Work) (r : HReg) (f : HPoly) : (w.setH r f).nctr = w.nctr := by cases r <;> rfl
@[simp] theorem Work.setH_prfbuf (w : Work) (r : HReg) (f : HPoly) : (w.setH r f).prfbuf = w.prfbuf := by cases r <;> rfl
@[simp] theorem Work.setH_xofin (w : Work) (r : HReg) (f : HPoly) : (w.setH r f).xofin = w.xofin := by cases r <;> rfl
@[simp] theorem Work.setH_cz (w : Work) (r : HReg) (f : HPoly) : (w.setH r f).cz = w.cz := by cases r <;> rfl
@[simp] theorem Work.setH_ct2 (w : Work) (r : HReg) (f : HPoly) : (w.setH r f).ct2 = w.ct2 := by cases r <;> rfl
@[simp] theorem Work.setH_diff (w : Work) (r : HReg) (f : HPoly) : (w.setH r f).diff = w.diff := by cases r <;> rfl
@[simp] theorem Work.setH_mask (w : Work) (r : HReg) (f : HPoly) : (w.setH r f).mask = w.mask := by cases r <;> rfl
@[simp] theorem Work.setH_xofcur (w : Work) (r : HReg) (f : HPoly) : (w.setH r f).xofcur = w.xofcur := by cases r <;> rfl
@[simp] theorem Work.setH_sn (w : Work) (r : HReg) (f : HPoly) : (w.setH r f).sn = w.sn := by cases r <;> rfl
@[simp] theorem Work.setH_en (w : Work) (r : HReg) (f : HPoly) : (w.setH r f).en = w.en := by cases r <;> rfl
@[simp] theorem Work.setH_un (w : Work) (r : HReg) (f : HPoly) : (w.setH r f).un = w.un := by cases r <;> rfl
@[simp] theorem Work.setH_e2n (w : Work) (r : HReg) (f : HPoly) : (w.setH r f).e2n = w.e2n := by cases r <;> rfl
@[simp] theorem Work.setH_mun (w : Work) (r : HReg) (f : HPoly) : (w.setH r f).mun = w.mun := by cases r <;> rfl
@[simp] theorem Work.setH_vn (w : Work) (r : HReg) (f : HPoly) : (w.setH r f).vn = w.vn := by cases r <;> rfl
@[simp] theorem Work.setH_wn (w : Work) (r : HReg) (f : HPoly) : (w.setH r f).wn = w.wn := by cases r <;> rfl

@[simp] theorem Work.getH_setN (w : Work) (r : NReg) (f : NPoly) (r' : HReg) : (w.setN r f).getH r' = w.getH r' := by
  cases r <;> rfl

@[simp] theorem Work.getN_setH (w : Work) (r : HReg) (f : HPoly) (r' : NReg) : (w.setH r f).getN r' = w.getN r' := by
  cases r <;> rfl

/-- A normal-domain register read after one is written: the value written, or what it held. -/
theorem Work.getN_setN (w : Work) (r : NReg) (f : NPoly) (r' : NReg) :
    (w.setN r f).getN r' = if r' = r then f else w.getN r' := by
  cases r <;> cases r' <;> simp [Work.setN, Work.getN, Vector.getElem_set, Fin.ext_iff, eq_comm]

/-- An NTT-domain register read after one is written: the value written, or what it held. -/
theorem Work.getH_setH (w : Work) (r : HReg) (f : HPoly) (r' : HReg) :
    (w.setH r f).getH r' = if r' = r then f else w.getH r' := by
  cases r <;> cases r' <;> simp [Work.setH, Work.getH, Vector.getElem_set, Fin.ext_iff, eq_comm]

@[simp] theorem Work.getN_setN_self (w : Work) (r : NReg) (f : NPoly) : (w.setN r f).getN r = f := by
  simp [Work.getN_setN]

@[simp] theorem Work.getH_setH_self (w : Work) (r : HReg) (f : HPoly) : (w.setH r f).getH r = f := by
  simp [Work.getH_setH]

/-- The sampler of a state whose sampler was set is that sampler. -/
@[simp] theorem State.sampler_setSampler (s : State) (t : Sampler) : (s.setSampler t).sampler = t := rfl

/-- An output buffer of the state with its outputs cleared holds no result. -/
@[simp] theorem State.outBuf_clearOutputs (s : State) (n : OutName) : s.clearOutputs.outBuf n = OutBuf.empty := by
  cases n <;> rfl

end Sys2Proof.Machine
end

