-- ==== Sys2Proof/Laws/Transactions.lean ====
section
/-! SUPPORT. What one transaction, one sequence, one transaction of the block and one turn can do, said once each. -/

namespace Sys2Proof.Machine

open Sys2Proof

/-! ### One transaction -/

/-- The state a transaction ends with, however it ends. -/
def TxnResult.state : TxnResult → State
  | .done s => s
  | .wait s => s
  | .raise _ s => s

/-- The host's side, the sequencer's registers and the schedule are the same; the outputs, the working registers, the ports, the
randomness and the trace may differ. -/
structure SameControl (s t : State) : Prop where
  status : t.status = s.status
  key : t.key = s.key
  ct : t.ct = s.ct
  seed : t.seed = s.seed
  fsm : t.fsm = s.fsm
  opw : t.opw = s.opw
  ecode : t.ecode = s.ecode
  todo : t.todo = s.todo
  agenda : t.agenda = s.agenda
  burst : t.burst = s.burst
  patience : t.patience = s.patience
  reply : t.reply = s.reply

theorem SameControl.refl (s : State) : SameControl s s := by constructor <;> rfl

theorem SameControl.trans {s t u : State} (h : SameControl s t) (h' : SameControl t u) : SameControl s u := by
  constructor
  · exact h'.status.trans h.status
  · exact h'.key.trans h.key
  · exact h'.ct.trans h.ct
  · exact h'.seed.trans h.seed
  · exact h'.fsm.trans h.fsm
  · exact h'.opw.trans h.opw
  · exact h'.ecode.trans h.ecode
  · exact h'.todo.trans h.todo
  · exact h'.agenda.trans h.agenda
  · exact h'.burst.trans h.burst
  · exact h'.patience.trans h.patience
  · exact h'.reply.trans h.reply

theorem SameControl.setWork {s t : State} (h : SameControl s t) (w : Work) : SameControl s (t.setWork w) :=
  h.trans ⟨rfl, rfl, rfl, rfl, rfl, rfl, rfl, rfl, rfl, rfl, rfl, rfl⟩

theorem SameControl.setPorts {s t : State} (h : SameControl s t) (p : Ports) : SameControl s (t.setPorts p) :=
  h.trans ⟨rfl, rfl, rfl, rfl, rfl, rfl, rfl, rfl, rfl, rfl, rfl, rfl⟩

theorem SameControl.setN {s t : State} (h : SameControl s t) (r : NReg) (f : NPoly) : SameControl s (t.setN r f) :=
  h.setWork _

theorem SameControl.setH {s t : State} (h : SameControl s t) (r : HReg) (f : HPoly) : SameControl s (t.setH r f) :=
  h.setWork _

theorem SameControl.log {s t : State} (h : SameControl s t) (x : TraceItem) : SameControl s (t.log x) :=
  h.trans ⟨rfl, rfl, rfl, rfl, rfl, rfl, rfl, rfl, rfl, rfl, rfl, rfl⟩

theorem SameControl.drawn {s t : State} (h : SameControl s t) : SameControl s t.drawn :=
  h.trans ⟨rfl, rfl, rfl, rfl, rfl, rfl, rfl, rfl, rfl, rfl, rfl, rfl⟩

theorem SameControl.setSampler {s t : State} (h : SameControl s t) (x : Sampler) : SameControl s (t.setSampler x) :=
  h.trans ⟨rfl, rfl, rfl, rfl, rfl, rfl, rfl, rfl, rfl, rfl, rfl, rfl⟩

theorem SameControl.outputs {s t : State} (h : SameControl s t) (a b c d : OutBuf) :
    SameControl s { t with eko := a, dko := b, cto := c, sso := d } :=
  h.trans ⟨rfl, rfl, rfl, rfl, rfl, rfl, rfl, rfl, rfl, rfl, rfl, rfl⟩

/-- The two transactions that end a word (45_mlkem_fsm.md R239, R241). -/
def Txn.ends : Txn → Bool
  | .wipe _ => true
  | .clr _ => true
  | .check _ => false
  | .draw _ _ => false
  | .op _ => false
  | .hashEko _ => false
  | .hashKey _ => false
  | .assembleDk _ => false
  | .derive => false
  | .rejKey _ => false
  | .encapsIn _ => false
  | .encapsOut _ => false
  | .decryptIn _ => false
  | .decryptOut => false
  | .reencIn _ => false
  | .reencOut _ => false
  | .compare _ => false
  | .select => false
  | .discard => false
  | .seedG _ => false
  | .splitSeeds => false
  | .encSeeds _ => false
  | .prf _ => false
  | .cbd _ _ => false
  | .ntt _ _ => false
  | .intt _ _ => false
  | .xofin _ _ => false
  | .sampleStart => false
  | .sampleLoop => false
  | .sampleTake => false
  | .clearAcc => false
  | .pwm _ _ => false
  | .addH _ _ _ => false
  | .addN _ _ _ => false
  | .subN _ _ _ => false
  | .encodeT _ => false
  | .writeRho _ => false
  | .encodeS _ => false
  | .decodeT _ => false
  | .message => false
  | .packU _ _ => false
  | .packV _ => false
  | .unpackU _ _ => false
  | .unpackV _ => false
  | .decodeS _ => false
  | .recover => false

/-- The registers CHECK loads are working registers only. -/
theorem loadInputs_eq (op : Instr) (k : Rank) (s : State) : ∃ w, loadInputs op k s = s.setWork w := by
  unfold loadInputs
  split
  · exact ⟨_, rfl⟩
  · exact ⟨_, rfl⟩
  · exact ⟨_, rfl⟩
  · exact ⟨s.work, rfl⟩

/-- Everything CHECK can do: the outputs are cleared, and it goes on with some registers loaded or raises ERR_LENGTH
(45_mlkem_fsm.md R232). -/
theorem checkTxn_cases (op : Instr) (s : State) :
    (∃ k, rankOfArg op.arg = some k ∧ lengthsOk op k s = true ∧
      checkTxn op s = .done (loadInputs op k s.clearOutputs)) ∨
    checkTxn op s = .raise .length s.clearOutputs := by
  unfold checkTxn
  split
  · exact .inr rfl
  · split
    · exact .inl ⟨_, by assumption, by assumption, rfl⟩
    · exact .inr rfl

/-- Everything a draw can do: one byte into the registers, or ERR_RNG; the request is made either way (45_mlkem_fsm.md R233). -/
theorem drawTxn_cases (op : Instr) (i : Nat) (s : State) :
    (∃ b, s.rngByte = some b ∧ drawTxn op i s = .done (s.drawn.setWork (storeDraw op i b s.work))) ∨
    (s.rngByte = none ∧ drawTxn op i s = .raise .rng s.drawn) := by
  unfold drawTxn
  split
  · exact .inr ⟨by assumption, rfl⟩
  · exact .inl ⟨_, by assumption, rfl⟩

/-- Everything a turn of the sampler's loop can do: the sampler moves on, and the loop is finished or not (42_sampling.md R161). -/
theorem sampleLoopTxn_cases (P : Provider) (s : State) :
    (256 ≤ (sampleTurn P s).ports.smpCnt ∧
      sampleLoopTxn P s = .done ((sampleTurn P s).log (.stream (sampleTurn P s).work.xofcur))) ∨
    ((sampleTurn P s).ports.smpCnt < 256 ∧ sampleLoopTxn P s = .wait (sampleTurn P s)) := by
  unfold sampleLoopTxn sampleResult
  by_cases h : (sampleTurn P s).ports.smpCnt < 256
  · right
    simp [h]
  · left
    simp [h]
    omega

/-- Only CHECK and the draws raise an error (60_exceptions.md R270 to R272). -/
theorem doTxn_raise {P : Provider} {t : Txn} {s s' : State} {e : Err} (h : doTxn P t s = .raise e s') :
    (∃ op, t = .check op ∧ e = .length ∧ s' = s.clearOutputs) ∨ (∃ op i, t = .draw op i ∧ e = .rng ∧ s' = s.drawn) := by
  cases t with
  | check op =>
    left
    rcases checkTxn_cases op s with ⟨k, -, -, hc⟩ | hc <;> rw [doTxn, hc] at h <;> simp_all
  | draw op i =>
    right
    rcases drawTxn_cases op i s with ⟨b, -, hc⟩ | ⟨-, hc⟩ <;> rw [doTxn, hc] at h <;> simp_all
  | sampleLoop =>
    rcases sampleLoopTxn_cases P s with ⟨-, hc⟩ | ⟨-, hc⟩ <;> rw [doTxn, hc] at h <;> simp_all
  | _ => simp [doTxn] at h

/-- Only the sampler's loop and a word presented to a unit do not finish at once. -/
theorem doTxn_wait {P : Provider} {t : Txn} {s s' : State} (h : doTxn P t s = .wait s') :
    (t = .sampleLoop ∧ s' = sampleTurn P s ∧ s'.ports.smpCnt < 256) ∨ (∃ w, t = .op w ∧ s' = s) := by
  cases t with
  | check op =>
    rcases checkTxn_cases op s with ⟨k, -, -, hc⟩ | hc <;> rw [doTxn, hc] at h <;> simp_all
  | draw op i =>
    rcases drawTxn_cases op i s with ⟨b, -, hc⟩ | ⟨-, hc⟩ <;> rw [doTxn, hc] at h <;> simp_all
  | sampleLoop =>
    rcases sampleLoopTxn_cases P s with ⟨-, hc⟩ | ⟨h1, hc⟩ <;> rw [doTxn, hc] at h <;> simp_all
  | op w =>
    right
    simp_all [doTxn]
  | _ => simp [doTxn] at h

/-- A transaction that does not end the word leaves the host's side, the sequencer's registers and the schedule alone. -/
theorem doTxn_control (P : Provider) (t : Txn) (s : State) (ht : t.ends = false) : SameControl s (doTxn P t s).state := by
  have r := SameControl.refl s
  cases t with
  | check op =>
    rcases checkTxn_cases op s with ⟨k, -, -, hc⟩ | hc <;> rw [doTxn, hc]
    · obtain ⟨w, hw⟩ := loadInputs_eq op k s.clearOutputs
      rw [hw]
      exact (r.outputs _ _ _ _).setWork w
    · exact r.outputs _ _ _ _
  | draw op i =>
    rcases drawTxn_cases op i s with ⟨b, -, hc⟩ | ⟨-, hc⟩ <;> rw [doTxn, hc]
    · exact r.drawn.setWork _
    · exact r.drawn
  | sampleLoop =>
    rcases sampleLoopTxn_cases P s with ⟨-, hc⟩ | ⟨h1, hc⟩ <;> rw [doTxn, hc]
    · exact (r.setSampler _).log _
    · exact r.setSampler _
  | wipe op => simp [Txn.ends] at ht
  | clr mask => simp [Txn.ends] at ht
  | op w => exact r
  | hashEko k => exact (r.setWork _).log _
  | hashKey k => exact (r.setWork _).log _
  | assembleDk k => exact r.outputs _ _ _ _
  | derive => exact (r.setWork _).log _
  | rejKey k => exact (r.setWork _).log _
  | encapsIn k => exact r.setPorts _
  | encapsOut k => exact (r.outputs _ _ _ _).setPorts _
  | decryptIn k => exact r.setPorts _
  | decryptOut => exact (r.setWork _).setPorts _
  | reencIn k => exact r.setPorts _
  | reencOut k => exact (r.setWork _).setPorts _
  | compare k => exact r.setWork _
  | select => exact r.outputs _ _ _ _
  | discard => exact r.outputs _ _ _ _
  | seedG k => exact (r.setWork _).log _
  | splitSeeds => exact r.setWork _
  | encSeeds k => exact r.setWork _
  | prf eta => exact (r.setWork _).log _
  | cbd eta dst => exact (r.setWork _).log _
  | ntt src dst => exact (r.setH _ _).log _
  | intt src dst => exact (r.setN _ _).log _
  | xofin row col => exact r.setWork _
  | sampleStart => exact (((r.setPorts _).log _).setSampler _).log _
  | sampleTake => exact (r.setH _ _).setPorts _
  | clearAcc => exact r.setH _ _
  | pwm a b => exact (r.setH _ _).log _
  | addH a b dst => exact (r.setH _ _).log _
  | addN a b dst => exact (r.setN _ _).log _
  | subN a b dst => exact (r.setN _ _).log _
  | encodeT i => exact (r.outputs _ _ _ _).log _
  | writeRho k => exact r.outputs _ _ _ _
  | encodeS i => exact (r.outputs _ _ _ _).log _
  | decodeT i => exact (r.setH _ _).log _
  | message => exact ((r.setWork _).log _).log _
  | packU k i => exact (((r.setWork _).setPorts _).log _).log _
  | packV k => exact (((r.setWork _).setPorts _).log _).log _
  | unpackU k i => exact ((r.setWork _).log _).log _
  | unpackV k => exact ((r.setWork _).log _).log _
  | decodeS i => exact (r.setH _ _).log _
  | recover => exact (((r.setWork _).setPorts _).log _).log _

/-! ### A sequence -/

/-- A sequence in two parts. -/
theorem runSeq_append (P : Provider) (a b : List Txn) (s : State) :
    runSeq P (a ++ b) s =
      match runSeq P a s with
      | (s', []) => runSeq P b s'
      | (s', t :: ts) => (s', t :: ts ++ b) := by
  induction a generalizing s with
  | nil => rfl
  | cons t a ih =>
    rw [List.cons_append, runSeq, runSeq]
    cases h : doTxn P t s with
    | done s' => exact ih s'
    | wait s' => rfl
    | raise e s' => rfl

/-- What is left of a sequence is an end of it. -/
theorem runSeq_suffix (P : Provider) (ts : List Txn) (s : State) : (runSeq P ts s).2 <:+ ts := by
  induction ts generalizing s with
  | nil => exact List.suffix_refl _
  | cons t ts ih =>
    rw [runSeq]
    cases h : doTxn P t s with
    | done s' => exact (ih s').trans (List.suffix_cons t ts)
    | wait s' => exact List.suffix_refl _
    | raise e s' => exact List.suffix_refl _

/-- What holds before a sequence and is kept by each of its transactions holds after it. -/
theorem runSeq_inv (P : Provider) (Inv : State → Prop) (ts : List Txn) (s : State) (h : Inv s)
    (hk : ∀ t ∈ ts, ∀ u, Inv u → Inv (doTxn P t u).state) : Inv (runSeq P ts s).1 := by
  induction ts generalizing s with
  | nil => exact h
  | cons t ts ih =>
    have h1 := hk t (by simp) s h
    rw [runSeq]
    cases hd : doTxn P t s with
    | done s' =>
      rw [hd] at h1
      exact ih s' h1 fun t' ht' => hk t' (by simp [ht'])
    | wait s' =>
      rw [hd] at h1
      exact h1
    | raise e s' =>
      rw [hd] at h1
      exact h1

/-- A sequence without an end of the word leaves the host's side, the sequencer's registers and the schedule alone. -/
theorem runSeq_control (P : Provider) (ts : List Txn) (s : State) (h : ∀ t ∈ ts, t.ends = false) :
    SameControl s (runSeq P ts s).1 :=
  runSeq_inv P (SameControl s) ts s (SameControl.refl s) fun t ht u hu => hu.trans (doTxn_control P t u (h t ht))

/-- A transaction of a K-PKE sequence (44_kpke.md R203 to R205). -/
def Txn.kpke : Txn → Bool
  | .seedG _ => true
  | .splitSeeds => true
  | .encSeeds _ => true
  | .prf _ => true
  | .cbd _ _ => true
  | .ntt _ _ => true
  | .intt _ _ => true
  | .xofin _ _ => true
  | .sampleStart => true
  | .sampleLoop => true
  | .sampleTake => true
  | .clearAcc => true
  | .pwm _ _ => true
  | .addH _ _ _ => true
  | .addN _ _ _ => true
  | .subN _ _ _ => true
  | .encodeT _ => true
  | .writeRho _ => true
  | .encodeS _ => true
  | .decodeT _ => true
  | .message => true
  | .packU _ _ => true
  | .packV _ => true
  | .unpackU _ _ => true
  | .unpackV _ => true
  | .decodeS _ => true
  | .recover => true
  | .check _ => false
  | .draw _ _ => false
  | .op _ => false
  | .hashEko _ => false
  | .hashKey _ => false
  | .assembleDk _ => false
  | .derive => false
  | .rejKey _ => false
  | .encapsIn _ => false
  | .encapsOut _ => false
  | .decryptIn _ => false
  | .decryptOut => false
  | .reencIn _ => false
  | .reencOut _ => false
  | .compare _ => false
  | .select => false
  | .discard => false
  | .wipe _ => false
  | .clr _ => false

theorem Txn.ends_of_kpke {t : Txn} (h : t.kpke = true) : t.ends = false := by
  cases t <;> simp_all [Txn.kpke, Txn.ends]

theorem kpkeKeygenSeq_kpke (k : Rank) : ∀ t ∈ kpkeKeygenSeq k, t.kpke = true := by cases k <;> decide +kernel

theorem kpkeEncSeq_kpke (k : Rank) : ∀ t ∈ kpkeEncSeq k, t.kpke = true := by cases k <;> decide +kernel

theorem kpkeDecSeq_kpke (k : Rank) : ∀ t ∈ kpkeDecSeq k, t.kpke = true := by cases k <;> decide +kernel

/-! ### The words a sequencer presents -/

theorem rankOfArg_rankArg (k : Rank) : rankOfArg (rankArg k) = some k := by cases k <;> rfl

theorem etaOfArg_etaArg (eta : Eta) : etaOfArg (etaArg eta) = some eta := by cases eta <;> rfl

/-- A legal rank is one of the three (30_encoding.md R93). -/
theorem rankOfArg_of_legal {k : BitVec 4} (h : legalRank k = true) : ∃ r, rankOfArg k = some r ∧ rankArg r = k := by
  simp only [legalRank, Bool.or_eq_true, beq_iff_eq] at h
  rcases h with (rfl | rfl) | rfl
  · exact ⟨.k2, rfl, rfl⟩
  · exact ⟨.k3, rfl, rfl⟩
  · exact ⟨.k4, rfl, rfl⟩

theorem etaOfArg_of_legal {eta : BitVec 4} (h : legalEta eta = true) : ∃ e, etaOfArg eta = some e ∧ etaArg e = eta := by
  simp only [legalEta, Bool.or_eq_true, beq_iff_eq] at h
  rcases h with rfl | rfl
  · exact ⟨.two, rfl, rfl⟩
  · exact ⟨.three, rfl, rfl⟩

end Sys2Proof.Machine
end

