-- ==== Sys2Proof/Laws/Sequencer.lean ====
section
/-! SUPPORT. What a unit transaction, a transaction of the block, a turn, an instruction and a step can do, said once each. -/

namespace Sys2Proof.Machine

open Sys2Proof

/-! ### The end of a step -/

/-- Everything the end of a step can do: nothing while transactions are left or where the path ends, else `pc <- S`
(45_mlkem_fsm.md R231). -/
theorem State.advance_cases (s : State) :
    s.advance = s ∨
      ∃ op f, s.todo = [] ∧ decode s.opw = .ok op ∧ nextState s.fsm op = some f ∧ s.advance = s.goto f := by
  unfold State.advance
  split
  · exact .inl rfl
  · split
    · split
      · exact .inr ⟨_, _, by assumption, by assumption, by assumption, rfl⟩
      · exact .inl rfl
    · exact .inl rfl

/-- No step ends while transactions are left. -/
theorem State.advance_of_todo {s : State} (h : s.todo ≠ []) : s.advance = s := by
  unfold State.advance
  split
  · rfl
  · contradiction

/-- In IDLE nothing follows. -/
theorem State.advance_idle {s : State} (h : s.fsm = .idle) : s.advance = s := by
  rcases s.advance_cases with h1 | ⟨op, f, -, -, h2, -⟩
  · exact h1
  · simp [h, nextState] at h2

/-! ### The transactions of a state -/

/-- A K-PKE transaction belongs to the states in which a K-PKE operation runs. -/
theorem belongs_of_kpke {t : Txn} {f : Fsm} (h : t.kpke = true) : belongs f t = kpkeState f := by
  cases t <;> first | rfl | cases h

/-- Only the end of a word belongs to WIPE and CLR. -/
theorem ends_of_belongs {t : Txn} {f : Fsm} (hf : f = .wipe ∨ f = .clr) (h : belongs f t = true) : t.ends = true := by
  rcases hf with rfl | rfl <;> cases t <;> first | rfl | (simp [belongs, kpkeState] at h)

/-- The transactions of the step of a state belong to it. -/
theorem belongs_stateTxns (f : Fsm) (w : Word16) : ∀ t ∈ stateTxns f w, belongs f t = true := by
  unfold stateTxns
  split
  · rename_i op _
    intro t ht
    generalize (rankOfArg op.arg).getD .k2 = k at ht
    cases f <;> simp only [stateSeq] at ht
    case kpkeKg => cases k <;> simp at ht <;> subst ht <;> decide
    case encrypt => split at ht <;> cases k <;> simp at ht <;> rcases ht with rfl | rfl | rfl <;> decide
    case decrypt => cases k <;> simp at ht <;> rcases ht with rfl | rfl | rfl <;> decide
    case fetchRnd =>
      simp at ht
      obtain ⟨_, _, rfl⟩ := ht
      rfl
    case hashEk => split at ht <;> simp at ht <;> subst ht <;> rfl
    all_goals first
      | (simp at ht; subst ht; rfl)
      | simp at ht
  · simp

/-! ### A unit transaction -/

/-- A unit transaction leaves the host's side, the sequencer's registers and the schedule alone (10_state.md R43). -/
theorem opUnit_control (P : Provider) (i : Instr) (s : State) : SameControl s (opUnit P i s).1 := by
  have r := SameControl.refl s
  cases i with
  | samplentt =>
    have h : SameControl s (sampleTurn P (sampleStart s)) := ((r.setSampler _).log _).setSampler _
    show SameControl s (sampleResult (sampleTurn P (sampleStart s))).1
    unfold sampleResult
    split
    · exact h
    · exact h.log _
  | cbd eta =>
    simp only [opUnit]
    split
    · exact r.setPorts _
    · exact r
  | kpkeEnc k =>
    simp only [opUnit]
    split
    · exact runSeq_control P _ s fun t ht => Txn.ends_of_kpke (kpkeEncSeq_kpke _ t ht)
    · exact r
  | kpkeDec k =>
    simp only [opUnit]
    split
    · exact runSeq_control P _ s fun t ht => Txn.ends_of_kpke (kpkeDecSeq_kpke _ t ht)
    · exact r
  | kpkeKeygen k =>
    simp only [opUnit]
    split
    · exact runSeq_control P _ s fun t ht => Txn.ends_of_kpke (kpkeKeygenSeq_kpke _ t ht)
    · exact r
  | add => exact r.setPorts _
  | sub => exact r.setPorts _
  | mul => exact r.setPorts _
  | ntt => exact r.setPorts _
  | intt => exact r.setPorts _
  | pwm => exact r.setPorts _
  | compress d => exact r.setPorts _
  | decompress d => exact r.setPorts _
  | byteenc d => exact r.setPorts _
  | bytedec d => exact r.setPorts _
  | keygen k => exact r
  | keygenDet k => exact r
  | encaps k => exact r
  | encapsDet k => exact r
  | decaps k => exact r
  | clear mask => exact r

/-- What is left of a unit transaction is an end of a K-PKE sequence, the sampler's loop, or the word of an operation that does
not exist. -/
theorem opUnit_left (P : Provider) (i : Instr) (s : State) (t : Txn) (ht : t ∈ (opUnit P i s).2) :
    t.kpke = true ∨ (t = .op (encode i) ∧ i.wellFormed = false) := by
  cases i with
  | samplentt =>
    have ht : t ∈ (sampleResult (sampleTurn P (sampleStart s))).2 := ht
    unfold sampleResult at ht
    split at ht
    · left
      simp at ht
      subst ht
      rfl
    · simp at ht
  | cbd eta =>
    simp only [opUnit] at ht
    split at ht
    · simp at ht
    · right
      refine ⟨by simpa using ht, ?_⟩
      simp only [Instr.wellFormed, Bool.eq_false_iff]
      intro hl
      obtain ⟨e, he, -⟩ := etaOfArg_of_legal hl
      simp_all
  | kpkeEnc k =>
    simp only [opUnit] at ht
    split at ht
    · exact .inl (kpkeEncSeq_kpke _ t ((runSeq_suffix P _ s).subset ht))
    · right
      refine ⟨by simpa using ht, ?_⟩
      simp only [Instr.wellFormed, Bool.eq_false_iff]
      intro hl
      obtain ⟨e, he, -⟩ := rankOfArg_of_legal hl
      simp_all
  | kpkeDec k =>
    simp only [opUnit] at ht
    split at ht
    · exact .inl (kpkeDecSeq_kpke _ t ((runSeq_suffix P _ s).subset ht))
    · right
      refine ⟨by simpa using ht, ?_⟩
      simp only [Instr.wellFormed, Bool.eq_false_iff]
      intro hl
      obtain ⟨e, he, -⟩ := rankOfArg_of_legal hl
      simp_all
  | kpkeKeygen k =>
    simp only [opUnit] at ht
    split at ht
    · exact .inl (kpkeKeygenSeq_kpke _ t ((runSeq_suffix P _ s).subset ht))
    · right
      refine ⟨by simpa using ht, ?_⟩
      simp only [Instr.wellFormed, Bool.eq_false_iff]
      intro hl
      obtain ⟨e, he, -⟩ := rankOfArg_of_legal hl
      simp_all
  | add => exact absurd ht List.not_mem_nil
  | sub => exact absurd ht List.not_mem_nil
  | mul => exact absurd ht List.not_mem_nil
  | ntt => exact absurd ht List.not_mem_nil
  | intt => exact absurd ht List.not_mem_nil
  | pwm => exact absurd ht List.not_mem_nil
  | compress d => exact absurd ht List.not_mem_nil
  | decompress d => exact absurd ht List.not_mem_nil
  | byteenc d => exact absurd ht List.not_mem_nil
  | bytedec d => exact absurd ht List.not_mem_nil
  | keygen k => exact absurd ht List.not_mem_nil
  | keygenDet k => exact absurd ht List.not_mem_nil
  | encaps k => exact absurd ht List.not_mem_nil
  | encapsDet k => exact absurd ht List.not_mem_nil
  | decaps k => exact absurd ht List.not_mem_nil
  | clear mask => exact absurd ht List.not_mem_nil

/-! ### A transaction of the block, and a turn -/

/-- Everything one transaction of the block can do. -/
theorem blockStep_cases (P : Provider) (s : State) :
    (s.todo = [] ∧ blockStep P s = .rest s) ∨
    (∃ w ts, s.todo = .op w :: ts ∧ (opTxn P w (s.setTodo ts)).2 = [] ∧
      blockStep P s = .moved (opTxn P w (s.setTodo ts)).1.advance) ∨
    (∃ w ts u us, s.todo = .op w :: ts ∧ (opTxn P w (s.setTodo ts)).2 = u :: us ∧
      blockStep P s = .rest ((opTxn P w (s.setTodo ts)).1.setTodo (u :: us ++ ts))) ∨
    (∃ t ts u, s.todo = t :: ts ∧ doTxn P t (s.setTodo ts) = .done u ∧ blockStep P s = .moved u.advance) ∨
    (∃ ts, s.todo = .sampleLoop :: ts ∧
      blockStep P s = .rest ((sampleTurn P (s.setTodo ts)).setTodo (.sampleLoop :: ts))) ∨
    (∃ op ts, s.todo = .check op :: ts ∧
      blockStep P s = .moved ((s.setTodo ts).clearOutputs.raiseError .length)) ∨
    (∃ op i ts, s.todo = .draw op i :: ts ∧
      blockStep P s = .moved ((s.setTodo ts).drawn.raiseError .rng)) := by
  by_cases hop : ∃ w ts, s.todo = .op w :: ts
  · obtain ⟨w, ts, h⟩ := hop
    cases h2 : (opTxn P w (s.setTodo ts)).2 with
    | nil =>
      right; left
      refine ⟨w, ts, h, h2, ?_⟩
      unfold blockStep
      rw [h]
      simp only [h2]
    | cons u us =>
      right; right; left
      refine ⟨w, ts, u, us, h, h2, ?_⟩
      unfold blockStep
      rw [h]
      simp only [h2]
  · cases h : s.todo with
    | nil =>
      left
      refine ⟨rfl, ?_⟩
      unfold blockStep
      rw [h]
    | cons t ts =>
      have hne : ∀ w, t ≠ .op w := fun w hw => hop ⟨w, ts, hw ▸ h⟩
      have hb : blockStep P s =
          match doTxn P t (s.setTodo ts) with
          | .done s' => .moved s'.advance
          | .wait s' => .rest (s'.setTodo (t :: ts))
          | .raise code s' => .moved (s'.raiseError code) := by
        unfold blockStep
        rw [h]
        cases t <;> first | rfl | exact absurd rfl (hne _)
      cases hd : doTxn P t (s.setTodo ts) with
      | done u =>
        right; right; right; left
        exact ⟨t, ts, u, rfl, hd, by rw [hb, hd]⟩
      | wait u =>
        rcases doTxn_wait hd with ⟨rfl, rfl, -⟩ | ⟨w, rfl, -⟩
        · right; right; right; right; left
          exact ⟨ts, rfl, by rw [hb, hd]⟩
        · exact absurd rfl (hne w)
      | raise e u =>
        rcases doTxn_raise hd with ⟨op, rfl, rfl, rfl⟩ | ⟨op, i, rfl, rfl, rfl⟩
        · right; right; right; right; right; left
          exact ⟨op, ts, rfl, by rw [hb, hd]⟩
        · right; right; right; right; right; right
          exact ⟨op, i, ts, rfl, by rw [hb, hd]⟩

/-- What holds before a turn and is kept by each transaction of the block holds after it. -/
theorem settle_inv (P : Provider) (Inv : State → Prop)
    (hk : ∀ s t, Inv s → (blockStep P s = .moved t ∨ blockStep P s = .rest t) → Inv t) (n : Nat) (s : State) (h : Inv s) :
    Inv (settle P n s) := by
  induction n generalizing s with
  | zero => exact h
  | succ n ih =>
    unfold settle
    cases hb : blockStep P s with
    | moved t => exact ih t (hk s t h (.inl hb))
    | rest t => exact hk s t h (.inr hb)

/-- A turn with nothing to do does nothing: in IDLE the block waits (60_exceptions.md R288). -/
theorem settle_of_todo_nil (P : Provider) (n : Nat) (s : State) (h : s.todo = []) : settle P n s = s := by
  cases n with
  | zero => rfl
  | succ n =>
    unfold settle
    have : blockStep P s = .rest s := by
      unfold blockStep
      rw [h]
    rw [this]

/-- A transaction the block makes, and the rest of the turn. -/
theorem settle_succ_of_moved {P : Provider} {n : Nat} {s t : State} (h : blockStep P s = .moved t) :
    settle P (n + 1) s = settle P n t := by
  rw [settle, h]

/-- A transaction that does not finish ends the turn. -/
theorem settle_succ_of_rest {P : Provider} {n : Nat} {s t : State} (h : blockStep P s = .rest t) :
    settle P (n + 1) s = t := by
  rw [settle, h]

/-! ### An instruction -/

/-- A unit transaction of which nothing is left. -/
theorem unfinished_nil {s u : State} (h : u.todo = s.todo) : unfinished s (u, []) = .next u := by
  unfold unfinished State.setTodo
  rw [List.nil_append, ← h]

/-- The operation of a unit, on the machine: what its unit does, with what is left of it before the other transactions. -/
theorem exec_unit {i : Instr} (s : State) (hw : i.wellFormed = true) (hi : hostIssuable true i = false) :
    exec i s = unfinished s (opUnit Config.provider i s) := by
  cases i with
  | cbd eta =>
    obtain ⟨e, he, -⟩ := etaOfArg_of_legal hw
    simp only [exec, execCbd, opUnit, he]
    exact (unfinished_nil (State.setPorts_todo s _)).symm
  | kpkeEnc k =>
    obtain ⟨e, he, -⟩ := rankOfArg_of_legal hw
    simp only [exec, execKpkeEnc, opUnit, he]
  | kpkeDec k =>
    obtain ⟨e, he, -⟩ := rankOfArg_of_legal hw
    simp only [exec, execKpkeDec, opUnit, he]
  | kpkeKeygen k =>
    obtain ⟨e, he, -⟩ := rankOfArg_of_legal hw
    simp only [exec, execKpkeKeygen, opUnit, he]
  | compress d =>
    simp only [Instr.wellFormed] at hw
    simp only [exec, execCompress, opUnit, hw, if_true]
    exact (unfinished_nil (State.setPorts_todo s _)).symm
  | decompress d =>
    simp only [Instr.wellFormed] at hw
    simp only [exec, execDecompress, opUnit, hw, if_true]
    exact (unfinished_nil (State.setPorts_todo s _)).symm
  | byteenc d =>
    simp only [Instr.wellFormed] at hw
    simp only [exec, execByteenc, opUnit, hw, if_true]
    exact (unfinished_nil (State.setPorts_todo s _)).symm
  | bytedec d =>
    simp only [Instr.wellFormed] at hw
    simp only [exec, execBytedec, opUnit, hw, if_true]
    exact (unfinished_nil (State.setPorts_todo s _)).symm
  | add => exact (unfinished_nil (State.setPorts_todo s _)).symm
  | sub => exact (unfinished_nil (State.setPorts_todo s _)).symm
  | mul => exact (unfinished_nil (State.setPorts_todo s _)).symm
  | ntt => exact (unfinished_nil (State.setPorts_todo s _)).symm
  | intt => exact (unfinished_nil (State.setPorts_todo s _)).symm
  | pwm => exact (unfinished_nil (State.setPorts_todo s _)).symm
  | samplentt => rfl
  | keygen k => simp [hostIssuable] at hi
  | keygenDet k => simp [hostIssuable] at hi
  | encaps k => simp [hostIssuable] at hi
  | encapsDet k => simp [hostIssuable] at hi
  | decaps k => simp [hostIssuable] at hi
  | clear mask => simp [hostIssuable] at hi

/-- A host word, on the machine (45_mlkem_fsm.md R230). -/
theorem exec_word {i : Instr} (s : State) (hw : i.wellFormed = true) (hi : hostIssuable true i = true) :
    exec i s = .next (runWord Config.provider i s) := by
  cases i with
  | keygen k =>
    obtain ⟨e, he, -⟩ := rankOfArg_of_legal hw
    simp only [exec, execKeygen, rankedWord, he]
  | keygenDet k =>
    obtain ⟨e, he, -⟩ := rankOfArg_of_legal hw
    simp only [exec, execKeygenDet, rankedWord, he]
  | encaps k =>
    obtain ⟨e, he, -⟩ := rankOfArg_of_legal hw
    simp only [exec, execEncaps, rankedWord, he]
  | encapsDet k =>
    obtain ⟨e, he, -⟩ := rankOfArg_of_legal hw
    simp only [exec, execEncapsDet, rankedWord, he]
  | decaps k =>
    obtain ⟨e, he, -⟩ := rankOfArg_of_legal hw
    simp only [exec, execDecaps, rankedWord, he]
  | clear mask => rfl
  | _ => simp [hostIssuable] at hi

/-- Everything an instruction that answers a next state can do: a host word runs on the block, any other operation is its unit's
transaction. -/
theorem exec_next_cases {i : Instr} {s t : State} (h : exec i s = .next t) :
    i.wellFormed = true ∧
      ((hostIssuable true i = true ∧ t = runWord Config.provider i s) ∨
        (hostIssuable true i = false ∧
          t = (opUnit Config.provider i s).1.setTodo ((opUnit Config.provider i s).2 ++ s.todo))) := by
  have hw : i.wellFormed = true := by
    have rank : ∀ k, rankOfArg k ≠ none → legalRank k = true := by decide
    have width : ∀ e, etaOfArg e ≠ none → legalEta e = true := by decide
    cases i with
    | cbd eta => exact width eta fun hn => by simp [exec, execCbd, hn] at h
    | compress d =>
      simp only [exec, execCompress] at h
      split at h
      · assumption
      · cases h
    | decompress d =>
      simp only [exec, execDecompress] at h
      split at h
      · assumption
      · cases h
    | byteenc d =>
      simp only [exec, execByteenc] at h
      split at h
      · assumption
      · cases h
    | bytedec d =>
      simp only [exec, execBytedec] at h
      split at h
      · assumption
      · cases h
    | kpkeEnc k => exact rank k fun hn => by simp [exec, execKpkeEnc, hn] at h
    | kpkeDec k => exact rank k fun hn => by simp [exec, execKpkeDec, hn] at h
    | kpkeKeygen k => exact rank k fun hn => by simp [exec, execKpkeKeygen, hn] at h
    | keygen k => exact rank k fun hn => by simp [exec, execKeygen, rankedWord, hn] at h
    | keygenDet k => exact rank k fun hn => by simp [exec, execKeygenDet, rankedWord, hn] at h
    | encaps k => exact rank k fun hn => by simp [exec, execEncaps, rankedWord, hn] at h
    | encapsDet k => exact rank k fun hn => by simp [exec, execEncapsDet, rankedWord, hn] at h
    | decaps k => exact rank k fun hn => by simp [exec, execDecaps, rankedWord, hn] at h
    | _ => rfl
  refine ⟨hw, ?_⟩
  cases hi : hostIssuable true i with
  | true =>
    rw [exec_word s hw hi] at h
    exact .inl ⟨rfl, (Host.Outcome.next.inj h).symm⟩
  | false =>
    rw [exec_unit s hw hi] at h
    exact .inr ⟨rfl, (Host.Outcome.next.inj h).symm⟩

/-! ### A step -/

/-- Everything a turn of the block that answers a next state can do. -/
theorem blockTurn_cases {s t : State} (h : blockTurn s = .next t) :
    s.fsm ≠ .unused ∧
      ((∃ w ts i u, s.todo = .op w :: ts ∧ decode w = .ok i ∧
          exec i ((s.setTodo ts).log (.unit w 1)) = .next u ∧ t = u.advance) ∨
        ((∀ w ts, s.todo ≠ .op w :: ts) ∧ t = settle Config.provider (s.burst + 1) s)) := by
  unfold blockTurn at h
  split at h
  · cases h
  · refine ⟨by assumption, ?_⟩
    split at h
    · rename_i w ts htodo
      split at h
      · rename_i i hd
        cases he : exec i ((s.setTodo ts).log (.unit w 1)) with
        | next u =>
          rw [he] at h
          exact .inl ⟨w, ts, i, u, htodo, hd, he, (Host.Outcome.next.inj h).symm⟩
        | fault f =>
          rw [he] at h
          cases h
        | refused f =>
          rw [he] at h
          cases h
      · cases h
    · rename_i hno
      exact .inr ⟨fun w ts hw => hno w ts hw, (Host.Outcome.next.inj h).symm⟩

/-- Everything a step that answers a next state can do (20_memory.md R74): a host action, each on the state with the event taken
from the agenda, or a turn of the block. -/
theorem step_cases {s t : State} (h : step s = .next t) :
    let u := s.setAgenda s.agenda.tail
    t = hostReset u ∨ (∃ b v, t = hostPush b v u) ∨ (∃ b i, t = hostRead b i u) ∨ t = hostStatus u ∨
      (s.status.busy = true ∧ t = u) ∨ (s.status.busy = false ∧ t = illegalWord u) ∨
      (∃ w i, s.status.busy = false ∧ decodeHost Config.detApi w = .ok i ∧ exec i u = .next t) ∨
      blockTurn u = .next t := by
  intro u
  unfold step nextEvent at h
  cases ha : s.agenda with
  | nil =>
    rw [ha] at h
    have hu : u = s := by
      show s.setAgenda s.agenda.tail = s
      rw [ha, List.tail_nil, ← ha]
      rfl
    rw [hu]
    simp [h]
  | cons e es =>
    have hu : u = s.setAgenda es := by
      show s.setAgenda s.agenda.tail = _
      rw [ha, List.tail_cons]
    rw [ha] at h
    rw [hu]
    cases e with
    | block => simp [h]
    | host a =>
      cases a with
      | reset => exact .inl (Host.Outcome.next.inj h).symm
      | push b v => exact .inr (.inl ⟨b, v, (Host.Outcome.next.inj h).symm⟩)
      | read b i => exact .inr (.inr (.inl ⟨b, i, (Host.Outcome.next.inj h).symm⟩))
      | status => exact .inr (.inr (.inr (.inl (Host.Outcome.next.inj h).symm)))
      | cmd w =>
        have h : hostCmd Config.detApi w (s.setAgenda es) = .next t := h
        unfold hostCmd at h
        split at h
        · rename_i hb
          exact .inr (.inr (.inr (.inr (.inl ⟨hb, (Host.Outcome.next.inj h).symm⟩))))
        · rename_i hb
          have hb : s.status.busy = false := by simpa using hb
          split at h
          · rename_i i hd
            exact .inr (.inr (.inr (.inr (.inr (.inr (.inl ⟨w, i, hb, hd, h⟩))))))
          · exact .inr (.inr (.inr (.inr (.inr (.inl ⟨hb, (Host.Outcome.next.inj h).symm⟩)))))

end Sys2Proof.Machine
end

