-- ==== Sys2Proof/Tests/Slice0.lean ====
section
/-! SUPPORT. The model's own tests: ill-formed terms refused, one word written out for every operation, at most two small tests
an operation with the spec's own numbers, and for every obligation with hypotheses a state that meets them. -/

namespace Sys2Proof.Tests

open Sys2Proof Sys2Proof.Machine

/-- Whether an outcome is a next state with a property. -/
def nextHas (o : Host.Outcome State Fault Refusal) (p : State → Bool) : Bool :=
  match o with
  | .next s => p s
  | _ => false

/-- Whether an outcome is the refusal of an illegal ARG. -/
def refusedArg (o : Host.Outcome State Fault Refusal) : Bool :=
  match o with
  | .refused .illegalArg => true
  | _ => false

/-- Whether a word decodes to an operation. -/
def decodesTo (w : Word16) (i : Instr) : Bool :=
  match decode w with
  | .ok j => j == i
  | .error _ => false

/-- Whether a word is refused by the unit decoders for a reason. -/
def refusedFor (r : Except DecodeError Instr) (e : DecodeError) : Bool :=
  match r with
  | .ok _ => false
  | .error e' => e' == e

/-- The reset state with other ports. -/
def withPorts (p : Ports) : State := State.reset.setPorts p

/-- The polynomial with the first elements given and zeros after. -/
def coeffsOf (l : List Nat) : Coeffs := tabulate fun i => BitVec.ofNat 12 (l.getD i 0)

/-- A register of n bytes with the first bytes given and zeros after. -/
def bytesOf (n : Nat) (l : List Byte) : Bytes n := bytesOfList n l

/-! ### WellFormed: an ill-formed term for each check (30_encoding.md R93) -/

theorem test_rank_1_ill_formed : (Instr.keygen 1#4).wellFormed = false := by decide
theorem test_rank_5_ill_formed : (Instr.kpkeEnc 5#4).wellFormed = false := by decide
theorem test_eta_1_ill_formed : (Instr.cbd 1#4).wellFormed = false := by decide
theorem test_eta_4_ill_formed : (Instr.cbd 4#4).wellFormed = false := by decide
theorem test_compress_0_ill_formed : (Instr.compress 0#4).wellFormed = false := by decide
theorem test_compress_12_ill_formed : (Instr.compress 12#4).wellFormed = false := by decide
theorem test_byteenc_0_ill_formed : (Instr.byteenc 0#4).wellFormed = false := by decide
theorem test_byteenc_13_ill_formed : (Instr.byteenc 13#4).wellFormed = false := by decide
theorem test_byteenc_12_well_formed : (Instr.byteenc 12#4).wellFormed = true := by decide

/-! ### Decode: a word written out bit by bit for every operation, ZERO UNIT FUNC ARG (30_encoding.md R90, R92) -/

theorem test_decode_add : decodesTo 0b0000_0001_0000_0000#16 .add = true := by decide
theorem test_decode_sub : decodesTo 0b0000_0001_0001_0000#16 .sub = true := by decide
theorem test_decode_mul : decodesTo 0b0000_0010_0000_0000#16 .mul = true := by decide
theorem test_decode_ntt : decodesTo 0b0000_0011_0000_0000#16 .ntt = true := by decide
theorem test_decode_intt : decodesTo 0b0000_0100_0000_0000#16 .intt = true := by decide
theorem test_decode_pwm : decodesTo 0b0000_0101_0000_0000#16 .pwm = true := by decide
theorem test_decode_samplentt : decodesTo 0b0000_0110_0000_0000#16 .samplentt = true := by decide
theorem test_decode_cbd : decodesTo 0b0000_0111_0000_0010#16 (.cbd 2#4) = true := by decide
theorem test_decode_compress : decodesTo 0b0000_1000_0000_1011#16 (.compress 11#4) = true := by decide
theorem test_decode_decompress : decodesTo 0b0000_1000_0001_0001#16 (.decompress 1#4) = true := by decide
theorem test_decode_byteenc : decodesTo 0b0000_1000_0010_1100#16 (.byteenc 12#4) = true := by decide
theorem test_decode_bytedec : decodesTo 0b0000_1000_0011_0101#16 (.bytedec 5#4) = true := by decide
theorem test_decode_kpke_enc : decodesTo 0b0000_1001_0000_0010#16 (.kpkeEnc 2#4) = true := by decide
theorem test_decode_kpke_dec : decodesTo 0b0000_1010_0000_0100#16 (.kpkeDec 4#4) = true := by decide
theorem test_decode_keygen : decodesTo 0b0000_1011_0000_0011#16 (.keygen 3#4) = true := by decide
theorem test_decode_keygen_det : decodesTo 0b0000_1011_0001_0010#16 (.keygenDet 2#4) = true := by decide
theorem test_decode_encaps : decodesTo 0b0000_1011_0010_0100#16 (.encaps 4#4) = true := by decide
theorem test_decode_encaps_det : decodesTo 0b0000_1011_0011_0011#16 (.encapsDet 3#4) = true := by decide
theorem test_decode_decaps : decodesTo 0b0000_1011_0100_0010#16 (.decaps 2#4) = true := by decide
theorem test_decode_clear : decodesTo 0b0000_1011_0101_1000#16 (.clear 8#4) = true := by decide
theorem test_decode_kpke_keygen : decodesTo 0b0000_1011_0110_0011#16 (.kpkeKeygen 3#4) = true := by decide

theorem test_decode_zero_field : refusedFor (decode 0b0001_0001_0000_0000#16) .zeroField = true := by decide
theorem test_decode_unit_0 : refusedFor (decode 0b0000_0000_0000_0000#16) .noSuchUnit = true := by decide
theorem test_decode_unit_12 : refusedFor (decode 0b0000_1100_0000_0000#16) .noSuchUnit = true := by decide
theorem test_decode_add_arg : refusedFor (decode 0b0000_0001_0000_0001#16) .illegalArg = true := by decide
theorem test_decode_func : refusedFor (decode 0b0000_1011_0111_0010#16) .noSuchFunc = true := by decide

/-- KPKE_KEYGEN is of unit 0xB and yet not the host's to issue (30_encoding.md R94). -/
theorem test_host_kpke_keygen : refusedFor (decodeHost true 0b0000_1011_0110_0010#16) .notHostIssuable = true := by decide

/-- A deterministic word in a build without `DET_API` (30_encoding.md R101). -/
theorem test_host_det_off : refusedFor (decodeHost false 0b0000_1011_0001_0010#16) .detApiOff = true := by decide

/-! ### The field units (40_field_arith.md R121 to R123, the examples there) -/

/-- The reset state with a and b on the adder's and the multiplier's operand wires. -/
def fieldState (a b : Elem) : State := withPorts { Ports.zero with addA := a, addB := b, mulA := a, mulB := b }

theorem test_add_reduces : nextHas (exec .add (fieldState 3000 1000)) (fun s => s.ports.addR == 671) = true := by decide
theorem test_add_largest : nextHas (exec .add (fieldState 3328 3328)) (fun s => s.ports.addR == 3327) = true := by decide
theorem test_sub_borrows : nextHas (exec .sub (fieldState 1000 3000)) (fun s => s.ports.addR == 1329) = true := by decide
theorem test_sub_wraps : nextHas (exec .sub (fieldState 0 3328)) (fun s => s.ports.addR == 1) = true := by decide
theorem test_mul_full : nextHas (exec .mul (fieldState 3328 3328)) (fun s => s.ports.mulR == 1) = true := by decide
theorem test_mul_root : nextHas (exec .mul (fieldState 1729 2580)) (fun s => s.ports.mulR == 3289) = true := by decide

/-! ### The transform (41_ntt.md R144 to R146) -/

/-- Both updates of a butterfly read the old `fh[j]`: with z = 17, f[0] = 5, f[2] = 3: 5 + 51 and 5 - 51. -/
theorem test_ntt_butterfly :
    (coeff (butterfly 17 2 (coeffsOf [5, 0, 3]) 0) 0, coeff (butterfly 17 2 (coeffsOf [5, 0, 3]) 0) 2) = (56, 3283) := by
  decide +kernel

/-- The last layer of `NTT(X^2)`, whose earlier layers only copy the 1 to every element 4 b + 2: elements 8 and 10 become
`GAMMA[4]` and `GAMMA[5]`, 583 and 2746 in the table of R141. -/
theorem test_ntt_last_layer :
    (coeff (nttLayer (tabulate fun i => if i % 4 = 2 then 1 else 0) 2) 8,
      coeff (nttLayer (tabulate fun i => if i % 4 = 2 then 1 else 0) 2) 10) = (583, 2746) := by
  rw [coeff_nttLayer _ 2 (by decide) (by decide) (by decide), coeff_nttLayer _ 2 (by decide) (by decide) (by decide)]
  decide +kernel

/-- The inverse butterfly subtracts the old `f[j]` from `f[j + len]`: with z = 17, f[0] = 5, f[2] = 3: 8 and 17 * (3 - 5). -/
theorem test_intt_butterfly :
    (coeff (inverseButterfly 17 2 (coeffsOf [5, 0, 3]) 0) 0, coeff (inverseButterfly 17 2 (coeffsOf [5, 0, 3]) 0) 2) =
      (8, 3295) := by
  decide +kernel

/-- The first layer of `INTT` takes the transform of `X^2` back to 2 in the elements 4 b + 2 and 0 elsewhere. -/
theorem test_intt_first_layer :
    (coeff (inverseLayer (tabulate fun i => if i % 2 = 0 then gamma (i / 2) else 0) 2) 8,
      coeff (inverseLayer (tabulate fun i => if i % 2 = 0 then gamma (i / 2) else 0) 2) 10) = (0, 2) := by
  rw [coeff_inverseLayer _ 2 (by decide) (by decide) (by decide), coeff_inverseLayer _ 2 (by decide) (by decide) (by decide)]
  decide +kernel

/-- The transform of X, pairs (0, 1). -/
def pairsOfX : HPoly := { c := tabulate fun i => if i % 2 = 1 then 1 else 0 }

/-- `PWM` of the transform of X with itself is the transform of `X^2`: `GAMMA[i]` in the even elements, 0 in the odd ones. -/
theorem test_pwm_square :
    nextHas (exec .pwm (withPorts { Ports.zero with pwmF := pairsOfX, pwmG := pairsOfX }))
      (fun s => coeff s.ports.pwmOut.c 4 == 2761 && coeff s.ports.pwmOut.c 5 == 0) = true := by
  decide +kernel

/-- One pair product, worked by hand: (2 + 3 X)(5 + 7 X) modulo X^2 - 17 is 10 + 357, 14 + 15. -/
theorem test_pwm_pair :
    nextHas (exec .pwm (withPorts
        { Ports.zero with pwmF := { c := coeffsOf [2, 3] }, pwmG := { c := coeffsOf [5, 7] } }))
      (fun s => coeff s.ports.pwmOut.c 0 == 367 && coeff s.ports.pwmOut.c 1 == 29) = true := by
  decide +kernel

/-! ### The samplers (42_sampling.md R161, R166) -/

/-- The stream of the worked example of R161. -/
def exampleStream (i : Nat) : Byte :=
  ([0x00, 0x10, 0x00, 0xFF, 0xFF, 0xFF, 0x00, 0x0D, 0xD0, 0x01, 0x0D, 0xD0] : List Byte).getD i 0

/-- Four groups of it: 0, 1, 3328, 3328, 3328 after 12 bytes. -/
theorem test_samplentt_groups :
    let t := Sampler.run exampleStream 4 Sampler.start
    (t.cnt, t.cur, coeff t.a 0, coeff t.a 1, coeff t.a 2, coeff t.a 3, coeff t.a 4) = (5, 12, 0, 1, 3328, 3328, 3328) := by
  decide +kernel

/-- With 255 elements, the second candidate of the group that brings the 256th is discarded and its bytes are consumed. -/
theorem test_samplentt_last_group :
    let t := Sampler.run (fun _ => 0) 5 { cur := 6, cnt := 255, a := Vector.replicate 256 7 }
    (t.cnt, t.cur, coeff t.a 255) = (256, 9, 0) := by
  decide +kernel

theorem test_cbd_2 :
    nextHas (exec (.cbd 2#4) (withPorts { Ports.zero with cbdIn := bytesOf 192 [0x9B, 0x0C] }))
      (fun s => coeff s.ports.cbdOut.c 0 == 1 && coeff s.ports.cbdOut.c 1 == 0 && coeff s.ports.cbdOut.c 2 == 3327) = true := by
  decide +kernel

theorem test_cbd_3 :
    nextHas (exec (.cbd 3#4) (withPorts { Ports.zero with cbdIn := bytesOf 192 [0xC0, 0x01, 0x00, 0x38] }))
      (fun s => coeff s.ports.cbdOut.c 1 == 3 && coeff s.ports.cbdOut.c 4 == 3326) = true := by
  decide +kernel

/-! ### Compression and byte encoding (43_compress_encode.md R181, R182, R185, R186) -/

theorem test_compress_10 :
    nextHas (exec (.compress 10#4) (withPorts { Ports.zero with cmpIn := { c := coeffsOf [1664, 3328] } }))
      (fun s => coeff s.ports.cmpOut 0 == 512 && coeff s.ports.cmpOut 1 == 0) = true := by
  decide +kernel

theorem test_compress_4 :
    nextHas (exec (.compress 4#4) (withPorts { Ports.zero with cmpIn := { c := coeffsOf [105, 104] } }))
      (fun s => coeff s.ports.cmpOut 0 == 1 && coeff s.ports.cmpOut 1 == 0) = true := by
  decide +kernel

theorem test_decompress_10 :
    nextHas (exec (.decompress 10#4) (withPorts { Ports.zero with dcmIn := coeffsOf [512, 1023] }))
      (fun s => coeff s.ports.dcmOut.c 0 == 1665 && coeff s.ports.dcmOut.c 1 == 3326) = true := by
  decide +kernel

theorem test_decompress_4 :
    nextHas (exec (.decompress 4#4) (withPorts { Ports.zero with dcmIn := coeffsOf [1, 15] }))
      (fun s => coeff s.ports.dcmOut.c 0 == 208 && coeff s.ports.dcmOut.c 1 == 3121) = true := by
  decide +kernel

theorem test_byteenc_12 :
    nextHas (exec (.byteenc 12#4) (withPorts { Ports.zero with bencIn := coeffsOf [0xABC, 0x123] }))
      (fun s => s.ports.bencOut.toList.take 4 == [0xBC, 0x3A, 0x12, 0x00]) = true := by
  decide +kernel

theorem test_byteenc_10 :
    nextHas (exec (.byteenc 10#4) (withPorts { Ports.zero with bencIn := coeffsOf [0x3FF, 0x001, 0x200, 0x155] }))
      (fun s => s.ports.bencOut.toList.take 5 == [0xFF, 0x07, 0x00, 0x60, 0x55]) = true := by
  decide +kernel

theorem test_bytedec_12 :
    nextHas (exec (.bytedec 12#4) (withPorts { Ports.zero with bdecIn := bytesOf 384 [0xBC, 0x3A, 0x12, 0xFF, 0xFF, 0xFF] }))
      (fun s => coeff s.ports.bdecOut 0 == 0xABC && coeff s.ports.bdecOut 1 == 0x123 && coeff s.ports.bdecOut 2 == 766) =
      true := by
  decide +kernel

theorem test_bytedec_1 :
    nextHas (exec (.bytedec 1#4) (withPorts { Ports.zero with bdecIn := bytesOf 384 [0x0D, 0x01] }))
      (fun s => coeff s.ports.bdecOut 0 == 1 && coeff s.ports.bdecOut 1 == 0 && coeff s.ports.bdecOut 8 == 1) = true := by
  decide +kernel

/-! ### K-PKE (44_kpke.md R200 to R205) -/

/-- The operand of the sampler for row 1, column 2: rho, then the column, then the row (R200). -/
theorem test_kpke_xofin :
    let s := xofinTxn 1 2 (State.reset.setWork { Work.zero with rho := Vector.replicate 32 0xAA })
    s.work.xofin.toList.drop 31 = [0xAA, 2, 1] := by
  decide +kernel

/-- `KPKE_KEYGEN 2` line by line (R203): 2 for the seeds, 2 for each of 4 polynomials, 4 transforms, 2 rows of a clear, 2 times 6
for an entry and its product, and a sum, 2 + 1 + 2 for the encodings. -/
theorem test_kpke_keygen_length : (kpkeKeygenSeq .k2).length = 2 + 2 * 4 + 4 + 2 * (1 + 2 * 6 + 1) + 2 + 1 + 2 := by decide

/-- `KPKE_ENC` asks the matrix by columns: its first entries are row 0 and row 1 of column 0 (R204). -/
theorem test_kpke_enc_columns :
    ((kpkeEncSeq .k2).filterMap fun t => match t with | .xofin r c => some (r.val, c.val) | _ => none) =
      [(0, 0), (1, 0), (0, 1), (1, 1)] := by
  decide

/-- `KPKE_DEC` subtracts from v (R205). -/
theorem test_kpke_dec_order : ((kpkeDecSeq .k2).drop 12) = [.intt .acch .wn, .subN .vn .wn .wn, .recover] := by decide

theorem test_kpke_keygen_refuses : refusedArg (exec (.kpkeKeygen 1#4) State.reset) = true := by decide
theorem test_kpke_enc_refuses : refusedArg (exec (.kpkeEnc 5#4) State.reset) = true := by decide
theorem test_kpke_dec_refuses : refusedArg (exec (.kpkeDec 0#4) State.reset) = true := by decide

/-! ### The host words (45_mlkem_fsm.md R230 to R241; 60_exceptions.md R271 to R273) -/

/-- Taking a word and nothing more: a block whose turns are empty. -/
def slow : State := { State.reset with burst := 0 }

theorem test_keygen_taken :
    nextHas (exec (.keygen 3#4) slow) (fun s => statusWord s.status == 0x0001#16 && fsmCode s.fsm == 1#4 && s.opw == 0x0B03#16) =
      true := by decide +kernel

/-- A draw that fails: `ERR_RNG`, STATUS 0x000A, back in IDLE. -/
theorem test_keygen_rng_error :
    nextHas (exec (.keygen 2#4) { State.reset with rng := [some 1, none] })
      (fun s => statusWord s.status == 0x000A#16 && fsmCode s.fsm == 0#4 && s.draws == 2) = true := by decide +kernel

theorem test_keygen_det_length_error :
    nextHas (exec (.keygenDet 2#4) State.reset) (fun s => statusWord s.status == 0x0006#16 && fsmCode s.fsm == 0#4) = true := by
  decide +kernel

theorem test_encaps_length_error :
    nextHas (exec (.encaps 2#4) { State.reset with key := { mem := [], cnt := 799 } })
      (fun s => statusWord s.status == 0x0006#16 && s.key.cnt == 799 && s.draws == 0) = true := by decide +kernel

theorem test_encaps_length_ok :
    nextHas (exec (.encaps 2#4) { State.reset with key := { mem := [], cnt := 800 }, rng := [none] })
      (fun s => statusWord s.status == 0x000A#16) = true := by decide +kernel

theorem test_encaps_det_wipes_seed :
    nextHas (exec (.encapsDet 4#4) { State.reset with seed := { mem := [(0, 7)], cnt := 1 } })
      (fun s => statusWord s.status == 0x0006#16 && s.seed == InBuf.empty) = true := by decide +kernel

theorem test_decaps_length_error :
    nextHas (exec (.decaps 3#4) { State.reset with key := { mem := [], cnt := 2400 }, ct := { mem := [], cnt := 1089 } })
      (fun s => statusWord s.status == 0x0006#16 && s.ct.cnt == 1089) = true := by decide +kernel

/-- The worked example of R239: `PUSH KEY, 01 02 03`, then `CMD CLEAR 1`. -/
theorem test_clear_key :
    nextHas (exec (.clear 1#4) (hostPush .key 3 (hostPush .key 2 (hostPush .key 1 State.reset))))
      (fun s => s.key.cnt == 0 && statusWord s.status == 0x0002#16) = true := by decide +kernel

/-- `CLEAR 8` empties the outputs only. -/
theorem test_clear_outputs :
    nextHas (exec (.clear 8#4) { State.reset with sso := OutBuf.holding [1, 2], seed := { mem := [(0, 7)], cnt := 1 } })
      (fun s => s.sso == OutBuf.empty && s.seed.cnt == 1) = true := by decide +kernel

/-- An illegal word: STATUS 0x000E. -/
theorem test_illegal_word :
    nextHas (hostCmd true 0x0100#16 State.reset) (fun s => statusWord s.status == 0x000E#16 && fsmCode s.fsm == 0#4) = true := by
  decide +kernel

/-! ### The comparison (45_mlkem_fsm.md R238) -/

theorem test_mask_equal : maskOf 0 = 0x00 := by decide
theorem test_mask_different : maskOf 0x80 = 0xFF := by decide

/-! ### The host's port (10_state.md R20 to R25) -/

theorem test_push_saturates :
    (hostPush .seed 9 { State.reset with seed := { mem := [], cnt := 64 } }).seed = { mem := [], cnt := 65 } := by decide

theorem test_read_beyond_length :
    (hostRead .sso 2 { State.reset with sso := OutBuf.holding [5, 6] }).reply = .byte 0 := by decide

theorem test_read_byte : (hostRead .sso 1 { State.reset with sso := OutBuf.holding [5, 6] }).reply = .byte 6 := by decide

/-! ### A word placed where it is fetched -/

/-- `CLEAR 15` placed at the reset state is the next thing a step runs. -/
theorem test_fetch_clear :
    nextHas (step (State.reset.withFetchWord 16 0x0B5F)) (fun s => statusWord s.status == 0x0002#16) = true := by
  decide +kernel

/-- A unit's word placed at the reset state is the next thing a step runs. -/
theorem test_fetch_sub :
    nextHas (step (State.reset.withFetchWord 16 0x0110)) (fun s => s.ports.addFn == 1 && s.todo.isEmpty) = true := by
  decide +kernel

/-! ### Witnesses: what each obligation assumes can be met -/

theorem witness_DecodeEncode : (Instr.compress 11#4).wellFormed = true ∧ (Instr.keygen 4#4).wellFormed = true := by decide

theorem witness_EncodeDecode : decode 0x0B5F#16 = .ok (.clear 15#4) := by rfl

theorem witness_HostDecoder : decodeHost false 0x0B02#16 = .ok (.keygen 2#4) ∧ hostIssuable false (.keygen 2#4) = true :=
  ⟨rfl, rfl⟩

/-- A sequencer's word on the block's turn, listed and unlisted, and a word at the CMD port in every build. -/
theorem witness_StepRunsInstr :
    (let s := (State.reset.setTodo [.op 0x0100#16]).setAgenda [.block];
      s.fsm ≠ .unused ∧ s.agenda = .block :: [] ∧ s.todo = .op 0x0100#16 :: [] ∧ decode 0x0100#16 = .ok .add) ∧
    (let s := State.reset.setTodo [.op 0x0100#16];
      s.fsm ≠ .unused ∧ s.agenda = [] ∧ s.todo = .op 0x0100#16 :: []) ∧
    (let s := State.reset.setAgenda [.host (.cmd 0x0B02#16)];
      s.status.busy = false ∧ s.agenda = .host (.cmd 0x0B02#16) :: [] ∧
        decodeHost Config.detApi 0x0B02#16 = .ok (.keygen 2#4)) := by
  refine ⟨⟨by decide, rfl, rfl, rfl⟩, ⟨by decide, rfl, rfl⟩, rfl, rfl, ?_⟩
  cases Config.detApi <;> rfl

/-- AddResult, SubResult and MulResult at the largest operands. -/
theorem witness_field :
    (fieldState 3328 3328).ports.addA.toNat < q ∧ (fieldState 3328 3328).ports.addB.toNat < q ∧
      (fieldState 3328 3328).ports.mulA.toNat < q ∧ (fieldState 3328 3328).ports.mulB.toNat < q := by decide

theorem witness_UnitsRun : 1 ≤ (11#4).toNat ∧ (11#4).toNat ≤ 11 ∧ 1 ≤ (12#4).toNat ∧ (12#4).toNat ≤ 12 := by decide

/-- A canonical polynomial whose elements are the largest there are. -/
theorem canonical_largest : canonical (Vector.replicate 256 3328#12) = true := by
  rw [canonical_iff]
  intro i hi
  rw [coeff_eq_getElem _ hi]
  simp

/-- NttResidues, InttResult, NttInvolution, NttHomomorphism, PwmResult and CompressResult at a polynomial of largest elements. -/
theorem witness_transform :
    let s := withPorts
      { Ports.zero with
        nttIn := { c := Vector.replicate 256 3328#12 }
        inttIn := { c := Vector.replicate 256 3328#12 }
        pwmF := { c := Vector.replicate 256 3328#12 }
        pwmG := { c := Vector.replicate 256 3328#12 }
        cmpIn := { c := Vector.replicate 256 3328#12 } }
    canonical s.ports.nttIn.c = true ∧ canonical s.ports.inttIn.c = true ∧ canonical s.ports.pwmF.c = true ∧
      canonical s.ports.pwmG.c = true ∧ canonical s.ports.cmpIn.c = true :=
  ⟨canonical_largest, canonical_largest, canonical_largest, canonical_largest, canonical_largest⟩

/-- The two cases of SampleNttResult meet at 128 groups of a stream that is always accepted. -/
theorem witness_SampleNttResult :
    256 ≤ (accepted (fun _ => 0#8) 128).length ∧ (accepted (fun _ => 0#8) 127).length < 256 := by decide +kernel

/-- The second case of SampleNttResult for every hash provider: a state whose turn reads one group. -/
theorem witness_SampleNttResult_wait (S : Nat → Byte) :
    (accepted S ({ State.reset with patience := 0 } : State).groups).length < 256 := by
  have h : (accepted S 1).length ≤ 2 := List.length_filter_le _ _
  exact Nat.lt_of_le_of_lt h (by decide)

theorem witness_SampleDeterministic : (sampleNtt (fun _ => 0#8) 128).isSome = true := by decide +kernel

theorem witness_CbdRange : (255 : Nat) < 256 := by decide

theorem witness_CompressResult : 1 ≤ (11#4).toNat ∧ (11#4).toNat ≤ 11 ∧ 1 ≤ (1#4).toNat := by decide

/-- DecompressResult with the largest values of the largest width. -/
theorem witness_DecompressResult : fitsBits (11#4).toNat (Vector.replicate 256 2047#12) = true := by
  rw [fitsBits_iff]
  intro i hi
  rw [coeff_eq_getElem _ hi]
  simp

theorem witness_CompressionBound : 1 ≤ 11 ∧ 11 ≤ 11 ∧ (3328#12).toNat < q := by decide

theorem witness_CompressDecompress : 1 ≤ 11 ∧ 11 ≤ 11 ∧ (2047#12).toNat < 2 ^ 11 := by decide

/-- ByteencResult and ByteRoundTrip: the two kinds of operand. -/
theorem witness_ByteencResult :
    encodable (12#4).toNat (Vector.replicate 256 3328#12) = true ∧ encodable (11#4).toNat (Vector.replicate 256 2047#12) = true :=
  ⟨canonical_largest, witness_DecompressResult⟩

theorem witness_ByteRoundTripBack : (List.replicate 352 0xFF#8).length = 32 * 11 := by rw [List.length_replicate]

/-! The block ready at reset, whatever is in its buffers and whatever the provider of randomness will answer. -/

theorem reset_ready : State.reset.Ready :=
  ⟨rfl, rfl, rfl, rfl, rfl, rfl, ⟨rfl, rfl, rfl, rfl, rfl, rfl, rfl, rfl, rfl, rfl⟩⟩

/-- The ready state with the counters of the input buffers and the answers of the randomness provider given. -/
def loaded (key ct seed : Nat) (rng : List (Option Byte)) : State :=
  { State.reset with key := { mem := [], cnt := key }, ct := { mem := [], cnt := ct }, seed := { mem := [], cnt := seed }, rng := rng }

theorem loaded_ready (key ct seed : Nat) (rng : List (Option Byte)) : (loaded key ct seed rng).Ready :=
  ⟨rfl, rfl, rfl, rfl, rfl, rfl, ⟨rfl, rfl, rfl, rfl, rfl, rfl, rfl, rfl, rfl, rfl⟩⟩

theorem witness_KeygenResult :
    let s := loaded 0 0 0 (((Vector.replicate 32 1#8).toList ++ (Vector.replicate 32 2#8).toList).map some ++ [none])
    s.Ready ∧ wordTxns ≤ s.burst ∧
      s.rng = ((Vector.replicate 32 1#8).toList ++ (Vector.replicate 32 2#8).toList).map some ++ [none] :=
  ⟨loaded_ready _ _ _ _, by decide, rfl⟩

theorem witness_KeygenDetResult :
    (loaded 0 0 64 []).Ready ∧ wordTxns ≤ (loaded 0 0 64 []).burst ∧ (loaded 0 0 64 []).seed.cnt = 64 :=
  ⟨loaded_ready _ _ _ _, by decide, rfl⟩

theorem witness_EncapsResult :
    let s := loaded 1568 0 0 ((Vector.replicate 32 1#8).toList.map some ++ [])
    s.Ready ∧ wordTxns ≤ s.burst ∧ s.key.cnt = ekLen .k4 ∧ s.rng = (Vector.replicate 32 1#8).toList.map some ++ [] :=
  ⟨loaded_ready _ _ _ _, by decide, rfl, rfl⟩

theorem witness_EncapsDetResult :
    let s := loaded 800 0 32 []
    s.Ready ∧ wordTxns ≤ s.burst ∧ s.key.cnt = ekLen .k2 ∧ s.seed.cnt = 32 :=
  ⟨loaded_ready _ _ _ _, by decide, rfl, rfl⟩

theorem witness_DecapsResult :
    let s := loaded 2400 1088 0 []
    s.Ready ∧ wordTxns ≤ s.burst ∧ s.key.cnt = dkLen .k3 ∧ s.ct.cnt = ctLen .k3 :=
  ⟨loaded_ready _ _ _ _, by decide, rfl, rfl⟩

/-- ClearResult and ZeroizeResult. -/
theorem witness_ClearResult : State.reset.Ready ∧ 1 ≤ State.reset.burst := ⟨reset_ready, by decide⟩

/-- LengthError: one byte too few or too many, for each of its clauses. -/
theorem witness_LengthError :
    (loaded 801 767 63 []).Ready ∧ wordTxns ≤ (loaded 801 767 63 []).burst ∧ (loaded 801 767 63 []).seed.cnt ≠ 64 ∧
      (loaded 801 767 63 []).key.cnt ≠ ekLen .k2 ∧ (loaded 800 0 33 []).seed.cnt ≠ 32 ∧
      (loaded 801 767 63 []).key.cnt ≠ dkLen .k2 ∧ (loaded 1632 767 63 []).ct.cnt ≠ ctLen .k2 := by
  exact ⟨loaded_ready _ _ _ _, by decide, by decide, by decide, by decide, by decide, by decide⟩

/-- RngError: the last draw fails, for each of its clauses. -/
theorem witness_RngError :
    (loaded 800 0 0 ((List.replicate 63 1#8).map some ++ none :: [])).Ready ∧ (List.replicate 63 1#8).length < 64 ∧
      (List.replicate 31 1#8).length < 32 ∧ (loaded 800 0 0 ((List.replicate 31 1#8).map some ++ none :: [])).key.cnt = ekLen .k2 :=
  ⟨loaded_ready _ _ _ _, by decide, by decide, rfl⟩

theorem witness_IllegalWord : State.reset.status.busy = false ∧ decodeHost true 0x0B05#16 = .error .illegalArg := ⟨rfl, rfl⟩

theorem witness_NoSuchOperation :
    (Instr.decompress 0#4).wellFormed = false ∧
      (let s := State.reset.setTodo [.op 0x0000#16];
        s.fsm ≠ .unused ∧ s.agenda = [] ∧ s.todo = .op 0x0000#16 :: [] ∧ decode 0x0000#16 = .error .noSuchUnit) :=
  ⟨rfl, by decide, rfl, rfl, rfl⟩

theorem witness_BusyIgnored : ({ State.reset with status := statusTaken } : State).status.busy = true := rfl

/-- A loaded block has canonical buffers where its counters are in their ranges. -/
theorem loaded_buffersOk (key ct seed : Nat) (rng : List (Option Byte)) (hk : key ≤ 3169) (hc : ct ≤ 1569) (hs : seed ≤ 65) :
    BuffersOk (loaded key ct seed rng) := by
  constructor <;> simp [loaded, State.reset, Work.zero, InBuf.Ok, OutBuf.Ok, Memory.wf, inCap, outCap] <;> assumption

/-- PushResult on both sides of the capacity, and while BUSY. -/
theorem witness_PushResult :
    (loaded 3167 0 0 []).status.busy = false ∧ ((loaded 3167 0 0 []).inBuf .key).cnt < inCap .key ∧
      BuffersOk (loaded 3167 0 0 []) ∧ inCap .key ≤ ((loaded 3168 0 0 []).inBuf .key).cnt ∧
      ({ State.reset with status := statusTaken } : State).status.busy = true :=
  ⟨rfl, by decide, loaded_buffersOk _ _ _ _ (by decide) (by decide) (by decide), by decide, rfl⟩

/-- ReadResult, StatusResult and ResetResult. -/
theorem witness_hostActions :
    (State.reset.setAgenda [.host (.read .sso 31)]).agenda = .host (.read .sso 31) :: [] ∧
      (State.reset.setAgenda [.host .status]).agenda = .host .status :: [] ∧
      (State.reset.setAgenda [.host .reset]).agenda = .host .reset :: [] := ⟨rfl, rfl, rfl⟩

theorem reset_sequencerOk : SequencerOk State.reset := .inl ⟨rfl, rfl, rfl, rfl, rfl, rfl⟩

/-- A block at work, as the sequencer's invariant has it. -/
theorem taken_sequencerOk : SequencerOk (State.reset.take (.keygen 2#4)) :=
  .inr ⟨rfl, ⟨.keygen 2#4, rfl, by decide, by decide, rfl⟩, by decide, by decide, by decide⟩

theorem reset_buffersOk : BuffersOk State.reset := by
  constructor <;> simp [State.reset, Work.zero, InBuf.Ok, OutBuf.Ok, Memory.wf, inCap, outCap]

theorem reset_step : step State.reset = .next State.reset := rfl

theorem reset_regsCanonical : RegsCanonical State.reset := by
  refine ⟨fun r => ?_, fun r => ?_, ?_, canonical_zero⟩
  · cases r <;> simp [State.reset, Work.zero, Work.getN]
  · cases r <;> simp [State.reset, Work.zero, Work.getH]
  · rw [fitsBits_iff]
    intro i hi
    have : coeff State.reset.work.cz i = 0#12 := coeff_zero i
    rw [this]
    decide

/-- StepKeepsBuffers, StepKeepsCanonical, StepKeepsSequencer, SequencerMeaning and EveryStepAnswers. -/
theorem witness_invariants :
    BuffersOk State.reset ∧ RegsCanonical State.reset ∧ SequencerOk State.reset ∧ step State.reset = .next State.reset :=
  ⟨reset_buffersOk, reset_regsCanonical, reset_sequencerOk, reset_step⟩

/-- PathTable and RequestOrder: a word that completes without an error, one that ends in ERR_LENGTH and one in ERR_RNG. -/
theorem witness_paths :
    nextHas (exec (.clear 15#4) State.reset) (fun t => t.status.busy == false && t.status.err == .none) = true ∧
      nextHas (exec (.decaps (rankArg .k2)) State.reset) (fun t => t.status.busy == false && t.status.err == .length) = true ∧
      nextHas (exec (.keygen (rankArg .k2)) (loaded 0 0 0 [none])) (fun t => t.status.busy == false && t.status.err == .rng) = true ∧
      wordTxns ≤ State.reset.burst ∧ (Instr.decaps (rankArg .k2)).arg = rankArg .k2 := by
  refine ⟨by decide +kernel, by decide +kernel, by decide +kernel, by decide, rfl⟩

/-- DecapsConstantTime: two ready blocks with full buffers that differ in a secret byte of dk and in the ciphertext. -/
theorem witness_DecapsConstantTime :
    let s := loaded 1632 768 0 []
    let t := { s with key := { s.key with mem := [(5, 1)] }, ct := { s.ct with mem := [(9, 4)] } }
    s.Ready ∧ DecapsPublic .k2 s t ∧
      exec (.decaps (rankArg .k2)) s = .next (runWord Config.provider (.decaps (rankArg .k2)) s) ∧
      exec (.decaps (rankArg .k2)) t = .next (runWord Config.provider (.decaps (rankArg .k2)) t) :=
  ⟨loaded_ready _ _ _ _, ⟨rfl, by decide⟩, exec_word _ rfl rfl, exec_word _ rfl rfl⟩

/-- A provider whose streams are all 0xFF. -/
def allOnes : Provider :=
  { H := fun _ => Vector.replicate 32 0, G := fun _ => Vector.replicate 64 0, J := fun _ => Vector.replicate 32 0
    PRF := fun _ _ _ => Vector.replicate _ 0, XOF := fun _ _ => 0xFF }

/-- HangStaysBusy: the start of a `SAMPLENTT` under that provider. -/
theorem witness_HangStaysBusy :
    let s := State.reset.setTodo [.sampleLoop]
    s.todo = .sampleLoop :: [] ∧
      s.sampler = Sampler.run (allOnes.XOF s.ports.smpIn) (s.work.xofcur / 3) Sampler.start ∧
      (∀ m, (accepted (allOnes.XOF s.ports.smpIn) m).length < 256) ∧ s.fsm ≠ .unused ∧ s.agenda = [] := by
  refine ⟨rfl, rfl, fun m => ?_, by decide, rfl⟩
  have h : accepted (allOnes.XOF (State.reset.setTodo [.sampleLoop]).ports.smpIn) m = [] := by
    unfold accepted
    rw [List.filter_eq_nil_iff]
    intro d hd
    simp only [candidates, List.mem_flatMap] at hd
    obtain ⟨g, -, hd⟩ := hd
    simp only [List.mem_cons, List.not_mem_nil, or_false] at hd
    rcases hd with rfl | rfl
    · exact (by decide : ¬decide ((candidate1 0xFF 0xFF).toNat < q) = true)
    · exact (by decide : ¬decide ((candidate2 0xFF 0xFF).toNat < q) = true)
  rw [h]
  decide

end Sys2Proof.Tests
end

section
/-! PROOFS. The statements of 10_state.md: the invariants of the buffers, the registers and the sequencer, each kept by every
step, and what the host reads. -/

namespace Sys2Proof.Machine

open Sys2Proof

/-! ### Claims about the buffers and the registers -/

/-- What a claim about the buffers and the registers speaks of: the host-facing buffers, the working registers and the sampler's
result. STATUS, the sequencer's registers, the other ports, the schedule, the randomness and the trace are no part of it. -/
def State.stores (s : State) : InBuf × InBuf × InBuf × OutBuf × OutBuf × OutBuf × OutBuf × Work × HPoly :=
  (s.key, s.ct, s.seed, s.eko, s.dko, s.cto, s.sso, s.work, s.ports.smpOut)

/-- A claim about the stores that holds at reset and is kept by a push and by each transaction. -/
structure StoreInv (Inv : State → Prop) : Prop where
  same : ∀ {s t : State}, Inv s → t.stores = s.stores → Inv t
  reset : Inv State.reset
  push : ∀ (b : InName) (v : Byte) {s : State}, Inv s → Inv (s.setInBuf b ((s.inBuf b).push (inCap b) v))
  txn : ∀ (P : Provider) (t : Txn) {s : State}, Inv s → Inv (doTxn P t s).state

/-- The state one transaction of the block ends with, whether the block can go on or not. -/
def BlockResult.state : BlockResult → State
  | .moved s => s
  | .rest s => s

/-- `settle_inv` with one goal: what each transaction of the block keeps, a turn keeps. -/
theorem settle_keeps (P : Provider) (Inv : State → Prop) (hk : ∀ s, Inv s → Inv (blockStep P s).state) (n : Nat)
    (s : State) (h : Inv s) : Inv (settle P n s) := by
  refine settle_inv P Inv (fun u t hu hb => ?_) n s h
  have := hk u hu
  rcases hb with hb | hb <;> rwa [hb] at this

namespace StoreInv

variable {Inv : State → Prop} (hI : StoreInv Inv)
include hI

theorem keeps_setTodo {s : State} (h : Inv s) (ts : List Txn) : Inv (s.setTodo ts) :=
  hI.same h rfl

theorem keeps_log {s : State} (h : Inv s) (x : TraceItem) : Inv (s.log x) :=
  hI.same h rfl

/-- A write of any port but the sampler's result. -/
theorem keeps_setPorts {s : State} (h : Inv s) {p : Ports} (hp : p.smpOut = s.ports.smpOut) : Inv (s.setPorts p) :=
  hI.same h (by simp [State.stores, hp])

theorem keeps_advance {s : State} (h : Inv s) : Inv s.advance := by
  rcases s.advance_cases with ha | ⟨op, f, -, -, -, ha⟩ <;> rw [ha]
  · exact h
  · exact hI.same h rfl

theorem keeps_raiseError {s : State} (h : Inv s) (e : Err) : Inv (s.raiseError e) :=
  hI.same h rfl

theorem keeps_runSeq (P : Provider) (ts : List Txn) {s : State} (h : Inv s) : Inv (runSeq P ts s).1 :=
  runSeq_inv P Inv ts s h fun t _ _ hu => hI.txn P t hu

/-- A turn of the sampler ends where the transaction of its loop does, but for the trace. -/
theorem keeps_sampleTurn (P : Provider) {s : State} (h : Inv s) : Inv (sampleTurn P s) := by
  have hl : Inv (sampleLoopTxn P s).state := hI.txn P .sampleLoop h
  rcases sampleLoopTxn_cases P s with ⟨-, hc⟩ | ⟨-, hc⟩ <;> rw [hc] at hl
  · exact hI.same hl rfl
  · exact hl

theorem keeps_samplenttUnit (P : Provider) {s : State} (h : Inv s) : Inv (samplenttUnit P s).1 := by
  have hs : Inv (sampleStart s) :=
    hI.same (hI.txn P .sampleStart h) rfl
  unfold samplenttUnit sampleResult
  split
  · exact hI.keeps_sampleTurn P hs
  · exact hI.keeps_log (hI.keeps_sampleTurn P hs) _

/-- A unit transaction runs a K-PKE sequence or the sampler, or writes another port (10_state.md R43). -/
theorem keeps_opUnit (P : Provider) (i : Instr) {s : State} (h : Inv s) : Inv (opUnit P i s).1 := by
  cases i with
  | samplentt => exact hI.keeps_samplenttUnit P h
  | kpkeEnc k | kpkeDec k | kpkeKeygen k =>
    simp only [opUnit]
    split
    · exact hI.keeps_runSeq P _ h
    · exact h
  | cbd eta =>
    simp only [opUnit]
    split
    · exact hI.keeps_setPorts h rfl
    · exact h
  | add | sub | mul | ntt | intt | pwm | compress d | decompress d | byteenc d | bytedec d =>
    exact hI.keeps_setPorts h rfl
  | keygen k | keygenDet k | encaps k | encapsDet k | decaps k | clear mask => exact h

theorem keeps_opTxn (P : Provider) (w : Word16) {s : State} (h : Inv s) : Inv (opTxn P w s).1 := by
  unfold opTxn
  split
  · exact hI.keeps_opUnit P _ (hI.keeps_log h _)
  · exact h

theorem keeps_blockStep (P : Provider) {s : State} (h : Inv s) : Inv (blockStep P s).state := by
  have htodo := fun ts => hI.keeps_setTodo h ts
  rcases blockStep_cases P s with ⟨-, hb⟩ | ⟨w, ts, -, -, hb⟩ | ⟨w, ts, u, us, -, -, hb⟩ | ⟨t, ts, u, -, hd, hb⟩ |
    ⟨ts, -, hb⟩ | ⟨op, ts, -, hb⟩ | ⟨op, i, ts, -, hb⟩ <;> rw [hb]
  · exact h
  · exact hI.keeps_advance (hI.keeps_opTxn P w (htodo ts))
  · exact hI.keeps_setTodo (hI.keeps_opTxn P w (htodo ts)) _
  · have hu := hI.txn P t (htodo ts)
    rw [hd] at hu
    exact hI.keeps_advance hu
  · exact hI.keeps_setTodo (hI.keeps_sampleTurn P (htodo ts)) _
  · exact hI.keeps_raiseError (hI.txn P .discard (htodo ts)) _
  · exact hI.keeps_raiseError (hI.same (t := (s.setTodo ts).drawn) (htodo ts) rfl) _

theorem keeps_settle (P : Provider) (n : Nat) {s : State} (h : Inv s) : Inv (settle P n s) :=
  settle_keeps P Inv (fun _ hu => hI.keeps_blockStep P hu) n s h

theorem keeps_runWord (P : Provider) (op : Instr) {s : State} (h : Inv s) : Inv (runWord P op s) := by
  unfold runWord
  split
  · exact h
  · exact hI.keeps_settle P _ (hI.same h rfl)

theorem keeps_exec {i : Instr} {s t : State} (h : Inv s) (he : exec i s = .next t) : Inv t := by
  rcases (exec_next_cases he).2 with ⟨-, rfl⟩ | ⟨-, rfl⟩
  · exact hI.keeps_runWord _ i h
  · exact hI.keeps_setTodo (hI.keeps_opUnit _ i h) _

theorem keeps_blockTurn {s t : State} (h : Inv s) (ht : blockTurn s = .next t) : Inv t := by
  rcases (blockTurn_cases ht).2 with ⟨w, ts, i, u, -, -, he, rfl⟩ | ⟨-, rfl⟩
  · exact hI.keeps_advance (hI.keeps_exec (hI.keeps_log (hI.keeps_setTodo h ts) _) he)
  · exact hI.keeps_settle _ _ h

theorem keeps_hostPush (b : InName) (v : Byte) {s : State} (h : Inv s) : Inv (hostPush b v s) := by
  unfold hostPush
  split
  · exact h
  · exact hI.push b v h

/-- A claim of the kind is kept by every step. -/
theorem keeps_step {s t : State} (h : Inv s) (ht : step s = .next t) : Inv t := by
  have hu : Inv (s.setAgenda s.agenda.tail) := hI.same h rfl
  rcases step_cases ht with rfl | ⟨b, v, rfl⟩ | ⟨b, i, rfl⟩ | rfl | ⟨-, rfl⟩ | ⟨-, rfl⟩ | ⟨w, i, -, -, he⟩ | hb
  · exact hI.same hI.reset rfl
  · exact hI.keeps_hostPush b v hu
  · exact hI.same hu rfl
  · exact hI.same hu rfl
  · exact hu
  · exact hI.same hu rfl
  · exact hI.keeps_exec hu he
  · exact hI.keeps_blockTurn hu hb

end StoreInv

/-! ### The byte registers -/

/-- The polynomial registers, CZ and CT2. The byte registers, the counters and the cursor are no part of it. -/
def Work.polys (w : Work) : (HPoly × Vector HPoly 4 × Vector HPoly 4 × Vector HPoly 4 × HPoly × HPoly × HPoly) ×
    (Vector NPoly 4 × Vector NPoly 4 × Vector NPoly 4 × NPoly × NPoly × NPoly × NPoly) × Coeffs × Memory :=
  ((w.aij, w.sh, w.eh, w.th, w.acch, w.prodh, w.uh), (w.sn, w.en, w.un, w.e2n, w.mun, w.vn, w.wn), w.cz, w.ct2)

section

variable {w w' : Work} (h : w'.polys = w.polys)
include h

theorem Work.getN_of_polys (r : NReg) : w'.getN r = w.getN r := by
  simp only [Work.polys, Prod.mk.injEq] at h
  cases r <;> simp only [Work.getN, h]

theorem Work.getH_of_polys (r : HReg) : w'.getH r = w.getH r := by
  simp only [Work.polys, Prod.mk.injEq] at h
  cases r <;> simp only [Work.getH, h]

theorem Work.cz_of_polys : w'.cz = w.cz := congrArg (fun p => p.2.2.1) h

theorem Work.ct2_of_polys : w'.ct2 = w.ct2 := congrArg (fun p => p.2.2.2) h

end

/-- CHECK loads byte registers only (45_mlkem_fsm.md R232). -/
theorem loadInputs_polys (op : Instr) (k : Rank) (s : State) :
    ∃ w, w.polys = s.work.polys ∧ loadInputs op k s = s.setWork w := by
  cases op with
  | keygenDet k' | encapsDet k' | decaps k' =>
    refine ⟨_, ?_, rfl⟩
    simp only [Work.polys]
  | _ => exact ⟨s.work, rfl, rfl⟩

/-- FETCH_RND fills byte registers only (45_mlkem_fsm.md R233). -/
theorem storeDraw_polys (op : Instr) (i : Nat) (b : Byte) (w : Work) : (storeDraw op i b w).polys = w.polys := by
  unfold storeDraw
  split
  · split <;> rfl
  · rfl
  · rfl

/-! ### The lengths of a rank -/

theorem ekLen_le (k : Rank) : ekLen k ≤ 1568 := by cases k <;> decide

theorem dkLen_le (k : Rank) : dkLen k ≤ 3168 := by cases k <;> decide

theorem ctLen_le (k : Rank) : ctLen k ≤ 1568 := by cases k <;> decide

theorem encResult_length (k : Rank) (s : State) : (encResult k s).length = ctLen k :=
  slice_length _ _ _ (by simpa using ctLen_le k)

/-! ### The buffers (10_state.md R22, R24, R33) -/

theorem InBuf.empty_ok (cap : Nat) : InBuf.empty.Ok cap :=
  ⟨Memory.wf_nil cap, fun _ hc => absurd hc List.not_mem_nil, Nat.zero_le _⟩

theorem OutBuf.empty_ok (cap : Nat) : OutBuf.empty.Ok cap := ⟨Memory.wf_nil cap, Nat.zero_le _⟩

/-- A push keeps an input buffer in order: the byte it adds is below the new counter (10_state.md R23). -/
theorem InBuf.push_ok {cap : Nat} {b : InBuf} (v : Byte) (h : b.Ok cap) : (b.push cap v).Ok cap := by
  obtain ⟨hwf, hbelow, hcnt⟩ := h
  refine ⟨InBuf.push_wf v hwf, ?_⟩
  rcases InBuf.push_cases cap b v with ⟨hlt, hp⟩ | ⟨-, hp⟩ <;> rw [hp]
  · refine ⟨fun c hc => ?_, by simp only; omega⟩
    rcases Memory.mem_write hc with hc | ⟨rfl, -⟩
    · exact Nat.lt_succ_of_lt (hbelow c hc)
    · exact Nat.lt_succ_self _
  · exact ⟨fun c hc => Nat.lt_of_lt_of_le (hbelow c hc) hcnt, Nat.le_refl _⟩

/-- A string written within the capacity keeps an output buffer in order. -/
theorem OutBuf.writeBytes_ok {cap : Nat} {m : Memory} {off len : Nat} {B : List Byte} (h : m.wf cap)
    (hB : off + B.length ≤ cap) (hl : len ≤ cap) : OutBuf.Ok cap { mem := m.writeBytes off B, len := len } :=
  ⟨Memory.writeBytes_wf B h hB, hl⟩

namespace BuffersOk

theorem inBuf {s : State} (h : BuffersOk s) (n : InName) : (s.inBuf n).Ok (inCap n) := by
  cases n with
  | key => exact h.key
  | ct => exact h.ct
  | seed => exact h.seed

theorem setInBuf {s : State} (h : BuffersOk s) (n : InName) {b : InBuf} (hb : b.Ok (inCap n)) :
    BuffersOk (s.setInBuf n b) := by
  cases n with
  | key => exact { h with key := hb }
  | ct => exact { h with ct := hb }
  | seed => exact { h with seed := hb }

theorem setOutBuf {s : State} (h : BuffersOk s) (n : OutName) {b : OutBuf} (hb : b.Ok (outCap n)) :
    BuffersOk (s.setOutBuf n b) := by
  cases n with
  | eko => exact { h with eko := hb }
  | dko => exact { h with dko := hb }
  | cto => exact { h with cto := hb }
  | sso => exact { h with sso := hb }

theorem setWork {s : State} (h : BuffersOk s) (w : Work) (hw : w.ct2 = s.work.ct2) : BuffersOk (s.setWork w) :=
  { h with ct2 := show w.ct2.wf 1568 from hw ▸ h.ct2 }

theorem setN {s : State} (h : BuffersOk s) (r : NReg) (f : NPoly) : BuffersOk (s.setN r f) :=
  h.setWork _ (Work.setN_ct2 s.work r f)

theorem setH {s : State} (h : BuffersOk s) (r : HReg) (f : HPoly) : BuffersOk (s.setH r f) :=
  h.setWork _ (Work.setH_ct2 s.work r f)

theorem setPorts {s : State} (h : BuffersOk s) (p : Ports) : BuffersOk (s.setPorts p) := { h with }

theorem log {s : State} (h : BuffersOk s) (x : TraceItem) : BuffersOk (s.log x) := { h with }

theorem drawn {s : State} (h : BuffersOk s) : BuffersOk s.drawn := { h with }

theorem setSampler {s : State} (h : BuffersOk s) (t : Sampler) : BuffersOk (s.setSampler t) := { h with }

theorem clearOutputs {s : State} (h : BuffersOk s) : BuffersOk s.clearOutputs :=
  { h with
    eko := OutBuf.empty_ok _
    dko := OutBuf.empty_ok _
    cto := OutBuf.empty_ok _
    sso := OutBuf.empty_ok _ }

theorem wipe {s : State} (h : BuffersOk s) (op : Instr) : BuffersOk (s.wipe op) :=
  { h with
    seed := by
      rw [State.wipe_seed]
      split
      · exact InBuf.empty_ok _
      · exact h.seed
    ct2 := Memory.wf_nil 1568 }

/-- `CLEAR mask` empties a buffer or leaves it (45_mlkem_fsm.md R239). -/
theorem clear {s : State} (h : BuffersOk s) (mask : BitVec 4) : BuffersOk (s.clear mask) := by
  have inOk {cap : Nat} {b : InBuf} (hb : b.Ok cap) (c : Bool) : InBuf.Ok cap (if c then InBuf.empty else b) := by
    cases c
    · exact hb
    · exact InBuf.empty_ok cap
  have outOk {cap : Nat} {b : OutBuf} (hb : b.Ok cap) (c : Bool) : OutBuf.Ok cap (if c then OutBuf.empty else b) := by
    cases c
    · exact hb
    · exact OutBuf.empty_ok cap
  exact ⟨inOk h.key _, inOk h.ct _, inOk h.seed _, outOk h.eko _, outOk h.dko _, outOk h.cto _, outOk h.sso _, h.ct2⟩

theorem reset : BuffersOk State.reset :=
  ⟨InBuf.empty_ok _, InBuf.empty_ok _, InBuf.empty_ok _, OutBuf.empty_ok _, OutBuf.empty_ok _, OutBuf.empty_ok _,
    OutBuf.empty_ok _, Memory.wf_nil 1568⟩

/-- ASSEMBLE_DK fills DKO up to DKLEN(k) (45_mlkem_fsm.md R234; 20_memory.md R69). -/
theorem assembleDk {s : State} (h : BuffersOk s) (k : Rank) : BuffersOk (assembleDkTxn k s) := by
  have hk : 768 * rankVal k + 96 ≤ outCap .dko := dkLen_le k
  have h1 := Memory.writeBytes_wf (off := 384 * rankVal k) (s.eko.mem.readBytes 0 (ekLen k)) h.dko.1
    (by rw [Memory.readBytes_length, ekLen]; omega)
  have h2 := Memory.writeBytes_wf (off := 768 * rankVal k + 32) s.work.hek.toList h1
    (by rw [Vector.length_toList]; omega)
  have h3 := OutBuf.writeBytes_ok (off := 768 * rankVal k + 64) (B := s.work.zseed.toList) h2
    (by rw [Vector.length_toList]; omega) hk
  have he : OutBuf.Ok (outCap .eko) { s.eko with len := ekLen k } := ⟨h.eko.1, ekLen_le k⟩
  exact (h.setOutBuf .eko he).setOutBuf .dko h3

/-- The end of ENCRYPT fills CTO up to CTLEN(k) and SSO up to 32 (45_mlkem_fsm.md R236). -/
theorem encapsOut {s : State} (h : BuffersOk s) (k : Rank) : BuffersOk (encapsOutTxn k s) := by
  have hc : OutBuf.Ok (outCap .cto) { mem := s.cto.mem.writeBytes 0 (encResult k s), len := ctLen k } :=
    OutBuf.writeBytes_ok h.cto.1 (by rw [encResult_length, Nat.zero_add]; exact ctLen_le k) (ctLen_le k)
  have hs : OutBuf.Ok (outCap .sso) { mem := s.sso.mem.writeBytes 0 (slice s.work.kr.toList 0 32), len := 32 } :=
    OutBuf.writeBytes_ok h.sso.1 (by rw [slice_length _ _ _ (by simp)]; decide) (by decide)
  exact ((h.setOutBuf .cto hc).setOutBuf .sso hs).setPorts _

/-- The end of ENCRYPT in a decapsulation fills CT2 up to CTLEN(k) (45_mlkem_fsm.md R238). -/
theorem reencOut {s : State} (h : BuffersOk s) (k : Rank) : BuffersOk (reencOutTxn k s) :=
  { h with ct2 := Memory.writeBytes_wf _ h.ct2 (by rw [encResult_length, Nat.zero_add]; exact ctLen_le k) }

/-- Every transaction keeps the buffers in order. -/
theorem doTxn {s : State} (h : BuffersOk s) (P : Provider) (t : Txn) : BuffersOk (doTxn P t s).state := by
  have encoded (F : Coeffs) : (byteEncode 12 F).length = 384 := byteEncode_length 12 F (Nat.le_refl _)
  cases t with
  | check op =>
    rcases checkTxn_cases op s with ⟨k, -, -, hc⟩ | hc <;> rw [Machine.doTxn, hc]
    · obtain ⟨w, hw, hl⟩ := loadInputs_polys op k s.clearOutputs
      rw [hl]
      exact h.clearOutputs.setWork w (Work.ct2_of_polys hw)
    · exact h.clearOutputs
  | draw op i =>
    rcases drawTxn_cases op i s with ⟨b, -, hc⟩ | ⟨-, hc⟩ <;> rw [Machine.doTxn, hc]
    · exact h.drawn.setWork _ (Work.ct2_of_polys (storeDraw_polys op i b s.work))
    · exact h.drawn
  | sampleLoop =>
    rcases sampleLoopTxn_cases P s with ⟨-, hc⟩ | ⟨-, hc⟩ <;> rw [Machine.doTxn, hc]
    · exact (h.setSampler _).log _
    · exact h.setSampler _
  | op w => exact h
  | wipe op => exact h.wipe op
  | clr mask => exact h.clear mask
  | discard => exact h.clearOutputs
  | assembleDk k => exact h.assembleDk k
  | encapsOut k => exact h.encapsOut k
  | reencOut k => exact h.reencOut k
  | select => exact h.setOutBuf .sso (OutBuf.writeBytes_ok h.sso.1 (by simp [outCap]) (by decide))
  | encodeT i =>
    exact (h.setOutBuf .eko (OutBuf.writeBytes_ok h.eko.1 (by simp only [encoded, outCap]; omega) h.eko.2)).log _
  | encodeS i =>
    exact (h.setOutBuf .dko (OutBuf.writeBytes_ok h.dko.1 (by simp only [encoded, outCap]; omega) h.dko.2)).log _
  | writeRho k =>
    exact h.setOutBuf .eko
      (OutBuf.writeBytes_ok h.eko.1 (by simpa [ekLen, outCap] using ekLen_le k) h.eko.2)
  | hashEko k | hashKey k | derive | rejKey k | seedG k | prf eta => exact (h.setWork _ (by rfl)).log _
  | compare k | splitSeeds | encSeeds k | xofin row col => exact h.setWork _ (by rfl)
  | encapsIn k | decryptIn k | reencIn k => exact h.setPorts _
  | decryptOut => exact (h.setWork _ (by rfl)).setPorts _
  | cbd eta dst => 
    refine (h.setWork _ ?_).log _
    exact Work.setN_ct2 s.work dst _
  | intt src dst | addN a b dst | subN a b dst => exact (h.setN _ _).log _
  | ntt src dst | pwm a b | addH a b dst | decodeT i | decodeS i => exact (h.setH _ _).log _
  | clearAcc => exact h.setH _ _
  | sampleStart => exact (((h.setPorts _).log _).setSampler _).log _
  | sampleTake => exact (h.setH _ _).setPorts _
  | message | unpackU k i | unpackV k =>
    refine ((h.setWork _ ?_).log _).log _
    exact Work.setN_ct2 _ _ _
  | packU k i | packV k | recover => exact (((h.setWork _ (by rfl)).setPorts _).log _).log _

theorem same {s t : State} (h : BuffersOk s) (e : t.stores = s.stores) : BuffersOk t := by
  simp only [State.stores, Prod.mk.injEq] at e
  obtain ⟨key, ct, seed, eko, dko, cto, sso, work, -⟩ := e
  exact ⟨key ▸ h.key, ct ▸ h.ct, seed ▸ h.seed, eko ▸ h.eko, dko ▸ h.dko, cto ▸ h.cto, sso ▸ h.sso, work ▸ h.ct2⟩

end BuffersOk

/-- The invariant of the buffers is a claim about the buffers and CT2. -/
theorem storeInv_buffersOk : StoreInv BuffersOk where
  same h e := h.same e
  reset := BuffersOk.reset
  push b v _ h := h.setInBuf b (InBuf.push_ok v (h.inBuf b))
  txn P t _ h := h.doTxn P t

/-- Settles O51: the buffers are changed by pushes and transactions only, and each writes within a capacity. -/
theorem stepKeepsBuffers : Obligations.StepKeepsBuffers :=
  fun _ _ h ht => storeInv_buffersOk.keeps_step h ht

/-! ### The polynomial registers (10_state.md R34) -/

theorem du_le (k : Rank) : du k ≤ 11 := by cases k <;> decide

theorem dv_le (k : Rank) : dv k ≤ 11 := by cases k <;> decide

/-- A value of d bits is one of any larger width. -/
theorem fitsBits_mono {d d' : Nat} {f : Coeffs} (hd : d ≤ d') (h : fitsBits d f = true) : fitsBits d' f = true := by
  rw [fitsBits_iff] at h ⊢
  exact fun i hi => Nat.lt_of_lt_of_le (h i hi) (Nat.pow_le_pow_right (by decide) hd)

@[simp] theorem Work.getN_zero (r : NReg) : Work.zero.getN r = NPoly.zero := by
  cases r <;> simp [Work.zero, Work.getN]

@[simp] theorem Work.getH_zero (r : HReg) : Work.zero.getH r = HPoly.zero := by
  cases r <;> simp [Work.zero, Work.getH]

theorem fitsBits_zero (d : Nat) : fitsBits d (Vector.replicate 256 0) = true := by
  rw [fitsBits_iff]
  intro i _
  rw [show (0 : Elem) = 0#12 from rfl, coeff_zero]
  exact Nat.two_pow_pos d

namespace RegsCanonical

/-- The same registers and the same result of the sampler. -/
theorem congr {s t : State} (h : RegsCanonical s) (work : t.work = s.work)
    (smpOut : t.ports.smpOut = s.ports.smpOut) : RegsCanonical t where
  normal := work ▸ h.normal
  ntt := work ▸ h.ntt
  cz := work ▸ h.cz
  sampler := smpOut ▸ h.sampler

/-- A write of byte registers. -/
theorem setWork {s : State} (h : RegsCanonical s) (w : Work) (hw : w.polys = s.work.polys) :
    RegsCanonical (s.setWork w) where
  normal r := Work.getN_of_polys hw r ▸ h.normal r
  ntt r := Work.getH_of_polys hw r ▸ h.ntt r
  cz := Work.cz_of_polys hw ▸ h.cz
  sampler := h.sampler

theorem setN {s : State} (h : RegsCanonical s) (r : NReg) {f : NPoly} (hf : canonical f.c = true) :
    RegsCanonical (s.setN r f) where
  normal r' := by
    rw [State.setN_work, Work.getN_setN]
    split
    · exact hf
    · exact h.normal r'
  ntt r' := by
    rw [State.setN_work, Work.getH_setN]
    exact h.ntt r'
  cz := by
    rw [State.setN_work, Work.setN_cz]
    exact h.cz
  sampler := h.sampler

theorem setH {s : State} (h : RegsCanonical s) (r : HReg) {f : HPoly} (hf : canonical f.c = true) :
    RegsCanonical (s.setH r f) where
  normal r' := by
    rw [State.setH_work, Work.getN_setH]
    exact h.normal r'
  ntt r' := by
    rw [State.setH_work, Work.getH_setH]
    split
    · exact hf
    · exact h.ntt r'
  cz := by
    rw [State.setH_work, Work.setH_cz]
    exact h.cz
  sampler := h.sampler

theorem setCz {s : State} (h : RegsCanonical s) {y : Coeffs} (hy : fitsBits 11 y = true) :
    RegsCanonical (s.setWork { s.work with cz := y }) where
  normal r := by
    have : ({ s.work with cz := y } : Work).getN r = s.work.getN r := rfl
    rw [State.setWork_work, this]
    exact h.normal r
  ntt r := by
    have : ({ s.work with cz := y } : Work).getH r = s.work.getH r := rfl
    rw [State.setWork_work, this]
    exact h.ntt r
  cz := hy
  sampler := h.sampler

theorem setNctr {s : State} (h : RegsCanonical s) (n : Byte) : RegsCanonical (s.setWork { s.work with nctr := n }) :=
  h.setWork _ (by simp only [Work.polys])

theorem setPorts {s : State} (h : RegsCanonical s) (p : Ports) (hp : p.smpOut = s.ports.smpOut) :
    RegsCanonical (s.setPorts p) := h.congr rfl hp

theorem log {s : State} (h : RegsCanonical s) (x : TraceItem) : RegsCanonical (s.log x) := h.congr rfl rfl

theorem setOutBuf {s : State} (h : RegsCanonical s) (n : OutName) (b : OutBuf) : RegsCanonical (s.setOutBuf n b) := by
  cases n <;> exact h.congr rfl rfl

theorem setInBuf {s : State} (h : RegsCanonical s) (n : InName) (b : InBuf) : RegsCanonical (s.setInBuf n b) := by
  cases n <;> exact h.congr rfl rfl

theorem same {s t : State} (h : RegsCanonical s) (e : t.stores = s.stores) : RegsCanonical t := by
  simp only [State.stores, Prod.mk.injEq] at e
  obtain ⟨-, -, -, -, -, -, -, work, smpOut⟩ := e
  exact h.congr work smpOut

/-- The sampler at a point where its elements are canonical. -/
theorem setSampler {s : State} (h : RegsCanonical s) {t : Sampler} (ht : canonical t.a = true) :
    RegsCanonical (s.setSampler t) where
  normal r := h.normal r
  ntt r := h.ntt r
  cz := h.cz
  sampler := ht

theorem sampleTurn {s : State} (h : RegsCanonical s) (P : Provider) : RegsCanonical (sampleTurn P s) :=
  h.setSampler (Sampler.canonical_run _ _ _ h.sampler)

/-- Registers all zero are canonical (10_state.md R36). -/
theorem of_zero {s : State} (hw : s.work = Work.zero) (hs : canonical s.ports.smpOut.c = true) : RegsCanonical s where
  normal r := by rw [hw, Work.getN_zero, canonical_nzero]
  ntt r := by rw [hw, Work.getH_zero, canonical_hzero]
  cz := by rw [hw]; exact fitsBits_zero 11
  sampler := hs

theorem reset : RegsCanonical State.reset := of_zero rfl canonical_zero

/-- `CZ <- y ; dst <- DECOMPRESS(d, CZ)` for y of d bits (44_kpke.md R204, R205). -/
theorem decompressed {s : State} (h : RegsCanonical s) {d : Nat} (hd : d ≤ 11) {y : Coeffs} (hy : fitsBits d y = true)
    (dst : NReg) : RegsCanonical (s.setWork ({ s.work with cz := y }.setN dst (decompress d y))) :=
  (h.setCz (fitsBits_mono hd hy)).setN dst (canonical_decompress d y hd hy)

theorem unpack {s : State} (h : RegsCanonical s) {d : Nat} (hd : d ≤ 11) (B : List Byte) (dst : NReg) :
    RegsCanonical (unpackTxn d B dst s) :=
  ((h.decompressed hd (fitsBits_byteDecode d B hd) dst).log _).log _

/-- `CZ <- COMPRESS(d, src)`, which is of d bits (44_kpke.md R204, R205). -/
theorem compressed {s : State} (h : RegsCanonical s) {d : Nat} (hd : d ≤ 11) (src : NReg) :
    RegsCanonical (s.setWork { s.work with cz := compress d (s.work.getN src) }) :=
  h.setCz (fitsBits_mono hd (fitsBits_compress d _ (h.normal src)))

/-- Every transaction keeps the registers canonical. -/
theorem doTxn {s : State} (h : RegsCanonical s) (P : Provider) (t : Txn) : RegsCanonical (doTxn P t s).state := by
  cases t with
  | check op =>
    rcases checkTxn_cases op s with ⟨k, -, -, hc⟩ | hc <;> rw [Machine.doTxn, hc]
    · obtain ⟨w, hw, hl⟩ := loadInputs_polys op k s.clearOutputs
      rw [hl]
      exact (h.congr rfl rfl : RegsCanonical s.clearOutputs).setWork w hw
    · exact h.congr rfl rfl
  | draw op i =>
    rcases drawTxn_cases op i s with ⟨b, -, hc⟩ | ⟨-, hc⟩ <;> rw [Machine.doTxn, hc]
    · exact (h.congr rfl rfl : RegsCanonical s.drawn).setWork _ (storeDraw_polys op i b s.work)
    · exact h.congr rfl rfl
  | sampleLoop =>
    rcases sampleLoopTxn_cases P s with ⟨-, hc⟩ | ⟨-, hc⟩ <;> rw [Machine.doTxn, hc]
    · exact (h.sampleTurn P).log _
    · exact h.sampleTurn P
  | op w => exact h
  | wipe op => exact of_zero rfl h.sampler
  | clr mask | discard => exact h.congr rfl rfl
  | assembleDk k => exact (h.setOutBuf .eko _).setOutBuf .dko _
  | encapsOut k => exact ((h.setOutBuf .cto _).setOutBuf .sso _).setPorts _ (by rfl)
  | reencOut k => exact { normal := h.normal, ntt := h.ntt, cz := h.cz, sampler := h.sampler }
  | select => exact h.setOutBuf .sso _
  | encodeT i => exact (h.setOutBuf .eko _).log _
  | encodeS i => exact (h.setOutBuf .dko _).log _
  | writeRho k => exact h.setOutBuf .eko _
  | hashEko k | hashKey k | derive | rejKey k | seedG k | prf eta => exact (h.setWork _ (by simp only [Work.polys])).log _
  | compare k | splitSeeds | encSeeds k | xofin row col => exact h.setWork _ (by simp only [Work.polys])
  | encapsIn k | decryptIn k | reencIn k => exact h.setPorts _ (by rfl)
  | decryptOut => exact (h.setWork _ (by simp only [Work.polys])).setPorts _ (by rfl)
  | cbd eta dst => exact ((h.setN dst (canonical_cbd eta _)).setNctr _).log _
  | ntt src dst => exact (h.setH dst (canonical_ntt (h.normal src))).log _
  | intt src dst => exact (h.setN dst (canonical_intt (h.ntt src))).log _
  | pwm a b => exact (h.setH .prodh (canonical_pwm (h.ntt a) (h.ntt b))).log _
  | addH a b dst => exact (h.setH dst (canonical_addCoeffs (h.ntt a) (h.ntt b))).log _
  | addN a b dst => exact (h.setN dst (canonical_addCoeffs (h.normal a) (h.normal b))).log _
  | subN a b dst => exact (h.setN dst (canonical_subCoeffs (h.normal a) (h.normal b))).log _
  | decodeT i => exact (h.setH (.th i) (canonical_byteDecode _)).log _
  | decodeS i => exact (h.setH (.sh i) (canonical_byteDecode _)).log _
  | clearAcc => exact h.setH .acch canonical_hzero
  | sampleStart => exact (((h.setPorts _ (by rfl)).log _).setSampler (t := Sampler.start) canonical_zero).log _
  | sampleTake =>
    have ht := h.setH .aij h.sampler
    exact { normal := ht.normal, ntt := ht.ntt, cz := ht.cz, sampler := canonical_hzero }
  | message => exact h.unpack (by decide) _ _
  | unpackU k i => exact h.unpack (du_le k) _ _
  | unpackV k => exact h.unpack (dv_le k) _ _
  | packU k i => exact (((h.compressed (du_le k) (.un i)).setPorts _ (by rfl)).log _).log _
  | packV k => exact (((h.compressed (dv_le k) .vn).setPorts _ (by rfl)).log _).log _
  | recover => exact (((h.compressed (by decide) .wn).setPorts _ (by rfl)).log _).log _

end RegsCanonical

/-- The invariant of the registers is a claim about the registers and the sampler's result. -/
theorem storeInv_regsCanonical : StoreInv RegsCanonical where
  same h e := h.same e
  reset := RegsCanonical.reset
  push b _ _ h := h.setInBuf b _
  txn P t _ h := h.doTxn P t

/-- Settles O52: registers are written by transactions only, and each answers canonical elements on canonical operands. -/
theorem stepKeepsCanonical : Obligations.StepKeepsCanonical :=
  fun _ _ h ht => storeInv_regsCanonical.keeps_step h ht

/-! ### Words and what they decode to -/

/-- Whatever a decoder answers is an operation with a legal ARG. -/
def AnswersLegal (r : Except DecodeError Instr) : Prop := ∀ i, r = .ok i → i.wellFormed = true

theorem answersLegal_error (e : DecodeError) : AnswersLegal (.error e) := fun _ h => nomatch h

theorem answersLegal_withNoArg (arg : BitVec 4) {i : Instr} (hw : i.wellFormed = true) :
    AnswersLegal (withNoArg arg i) := by
  intro j h
  unfold withNoArg at h
  split at h
  · exact Except.ok.inj h ▸ hw
  · cases h

theorem answersLegal_withLegalArg (i : Instr) : AnswersLegal (withLegalArg i) := by
  intro j h
  unfold withLegalArg at h
  split at h
  · exact Except.ok.inj h ▸ by assumption
  · cases h

/-- The map answers an operation without a parameter, one whose ARG it has tested, or an error (30_encoding.md R92, R93). -/
theorem answersLegal_decodeFields (unit func arg : BitVec 4) : AnswersLegal (decodeFields unit func arg) := by
  unfold decodeFields
  repeat' split
  all_goals first
    | exact answersLegal_error _
    | exact answersLegal_withLegalArg _
    | exact answersLegal_withNoArg _ rfl

/-- A decoder answers existing operations only (30_encoding.md R93, R94). -/
theorem wellFormed_of_decode {w : Word16} {i : Instr} (h : decode w = .ok i) : i.wellFormed = true := by
  unfold decode at h
  split at h
  · exact answersLegal_decodeFields _ _ _ i h
  · cases h

/-- The word of a host's operation decodes to it (30_encoding.md R92). -/
theorem decode_encode_of_hostIssuable {i : Instr} (hw : i.wellFormed = true) (hi : hostIssuable true i = true) :
    decode (encode i) = .ok i := by
  have legal : withLegalArg i = .ok i := by rw [withLegalArg, if_pos hw]
  rw [Laws.Fields.decode_encode]
  cases i with
  | keygen k | keygenDet k | encaps k | encapsDet k | decaps k | clear mask => exact legal
  | _ => cases hi

/-- The host decoder answers operations the host may issue (30_encoding.md R95). -/
theorem hostIssuable_of_decodeHost {det : Bool} {w : Word16} {i : Instr} (h : decodeHost det w = .ok i) :
    hostIssuable true i = true := by
  unfold decodeHost at h
  repeat' split at h
  all_goals cases h
  all_goals rfl

/-- A word of a K-PKE operation is none of the host's. -/
theorem decode_of_kpkeWord {w : Word16} (h : kpkeWord w = true) :
    ∃ i, decode w = .ok i ∧ i.wellFormed = true ∧ hostIssuable true i = false := by
  unfold kpkeWord at h
  split at h
  case h_4 => cases h
  all_goals exact ⟨_, by assumption, wellFormed_of_decode (by assumption), rfl⟩

/-! ### The path of a word (45_mlkem_fsm.md R231) -/

theorem firstState_onPath {op : Instr} (hi : hostIssuable true op = true) :
    firstState op ∈ wordStates op ∧ firstState op ≠ .idle := by
  cases op with
  | keygen k | keygenDet k | encaps k | encapsDet k | decaps k | clear mask => simp [firstState, wordStates, wordPath]
  | _ => cases hi

/-- A word that is not at CLR can fail. -/
theorem fail_onPath {op : Instr} {f : Fsm} (hf : f ∈ wordStates op) (hidle : f ≠ .idle) (hclr : f ≠ .clr) :
    .fail ∈ wordStates op := by
  cases op with
  | clear mask => simp_all [wordStates, wordPath]
  | _ => exact List.mem_cons_self

/-- On the path of a word every state but WIPE, CLR and IDLE has a successor on it, and none enters CLR or, but for WIPE,
IDLE. -/
theorem nextState_onPath {op : Instr} {f : Fsm} (hi : hostIssuable true op = true) (hf : f ∈ wordStates op)
    (hidle : f ≠ .idle) (hwipe : f ≠ .wipe) (hclr : f ≠ .clr) :
    ∃ g, nextState f op = some g ∧ g ∈ wordStates op ∧ g ≠ .idle ∧ g ≠ .clr := by
  cases op with
  | keygen k | keygenDet k | encaps k | encapsDet k | decaps k | clear mask =>
    cases f <;> simp_all [wordStates, wordPath, nextState]
  | _ => cases hi

/-- A state of the path but IDLE has transactions to make (45_mlkem_fsm.md R232 to R241). -/
theorem stateTxns_ne_nil {op : Instr} {f : Fsm} {w : Word16} (hd : decode w = .ok op) (hf : f ∈ wordStates op)
    (hidle : f ≠ .idle) : stateTxns f w ≠ [] := by
  simp only [stateTxns, hd]
  cases f with
  | idle => exact absurd rfl hidle
  | unused => cases op <;> simp [wordStates, wordPath] at hf
  | fetchRnd => cases op <;> simp [wordStates, wordPath] at hf <;> simp [stateSeq, drawCount]
  | hashEk | encrypt =>
    simp only [stateSeq]
    split <;> exact List.cons_ne_nil _ _
  | _ => exact List.cons_ne_nil _ _

/-! ### The sequencer (10_state.md R27, R36) -/

theorem ends_of_kpkeState {f : Fsm} (h : kpkeState f = true) : f ≠ .wipe ∧ f ≠ .clr := by
  constructor <;> rintro rfl <;> cases h

/-- A state with a transaction that does not end the word is neither WIPE nor CLR. -/
theorem not_end_of_belongs {t : Txn} {f : Fsm} (ht : t.ends = false) (h : belongs f t = true) : f ≠ .wipe ∧ f ≠ .clr := by
  refine ⟨fun hf => ?_, fun hf => ?_⟩
  · simp [ends_of_belongs (.inl hf) h] at ht
  · simp [ends_of_belongs (.inr hf) h] at ht

theorem State.setTodo_self {s : State} {ts : List Txn} (h : s.todo = ts) : s.setTodo ts = s := by
  rw [← h]
  rfl

theorem SameControl.setTodo {s t : State} (h : SameControl s t) (ts : List Txn) :
    SameControl (s.setTodo ts) (t.setTodo ts) := { h with todo := rfl }

/-- The end of a step that has a successor. -/
theorem State.advance_of_next {s : State} {op : Instr} {f : Fsm} (ht : s.todo = []) (hd : decode s.opw = .ok op)
    (hf : nextState s.fsm op = some f) : s.advance = s.goto f := by
  unfold State.advance
  rw [ht]
  simp only [hd, hf]

/-- `pc <- S` for a state of the path of the word in OPW. -/
theorem BusyOk.goto {s : State} {op : Instr} {f : Fsm} (hs : s.status = statusTaken) (hd : decode s.opw = .ok op)
    (hi : hostIssuable true op = true) (hf : f ∈ wordStates op) (hidle : f ≠ .idle)
    (hclr : f = .clr → s.ecode = .none ∧ s.work = Work.zero) : BusyOk (s.goto f) where
  status := hs
  path := ⟨op, hd, hf, hidle, hi⟩
  todo := stateTxns_ne_nil hd hf hidle
  belongs := belongs_stateTxns f s.opw
  clr := hclr

/-- An idle block that takes a word is at work on it (45_mlkem_fsm.md R230). -/
theorem IdleOk.take {s : State} (h : IdleOk s) {op : Instr} (hw : op.wellFormed = true)
    (hi : hostIssuable true op = true) : BusyOk (s.take op) := by
  obtain ⟨hf, hidle⟩ := firstState_onPath hi
  exact BusyOk.goto rfl (decode_encode_of_hostIssuable hw hi) hi hf hidle fun _ => ⟨rfl, h.work⟩

/-- An error leads to FAIL (60_exceptions.md R277). -/
theorem BusyOk.raiseError {s u : State} (h : BusyOk s) (hc : s.fsm ≠ .clr) (hs : u.status = s.status)
    (hw : u.opw = s.opw) (e : Err) : BusyOk (u.raiseError e) := by
  obtain ⟨op, hd, hf, hidle, hi⟩ := h.path
  exact
    { status := hs.trans h.status
      path := ⟨op, hw ▸ hd, fail_onPath hf hidle hc, Fsm.noConfusion, hi⟩
      todo := List.cons_ne_nil _ _
      belongs := by simp [Machine.belongs]
      clr := Fsm.noConfusion }

/-- A block stays at work in its state while transactions of it are left. -/
theorem BusyOk.stay {s u : State} {ts : List Txn} (h : BusyOk s) (hu : SameControl (s.setTodo ts) u)
    (hts : ∀ t ∈ ts, Machine.belongs s.fsm t = true) (hclr : s.fsm ≠ .clr) (hne : ts ≠ []) : BusyOk u := by
  obtain ⟨op, hd, hf, hidle, hi⟩ := h.path
  have hfsm : u.fsm = s.fsm := hu.fsm
  have htodo : u.todo = ts := hu.todo
  exact
    { status := hu.status.trans h.status
      path := ⟨op, (congrArg decode hu.opw).trans hd, hfsm ▸ hf, hfsm ▸ hidle, hi⟩
      todo := htodo ▸ hne
      belongs := by rwa [htodo, hfsm]
      clr := fun hc => absurd (hfsm ▸ hc) hclr }

/-- A transaction that does not end the word leaves the block at work: in its state with what is left, or in the next state of
the path (10_state.md R27; 45_mlkem_fsm.md R231). -/
theorem BusyOk.advance {s u : State} {ts : List Txn} (h : BusyOk s) (hu : SameControl (s.setTodo ts) u)
    (hts : ∀ t ∈ ts, Machine.belongs s.fsm t = true) (hend : s.fsm ≠ .wipe ∧ s.fsm ≠ .clr) : BusyOk u.advance := by
  have htodo : u.todo = ts := hu.todo
  by_cases hnil : ts = []
  · obtain ⟨op, hd, hf, hidle, hi⟩ := h.path
    obtain ⟨g, hg, hgf, hgi, hgc⟩ := nextState_onPath hi hf hidle hend.1 hend.2
    have hfsm : u.fsm = s.fsm := hu.fsm
    have hopw : decode u.opw = .ok op := (congrArg decode hu.opw).trans hd
    rw [State.advance_of_next (htodo.trans hnil) hopw (hfsm ▸ hg)]
    exact BusyOk.goto (hu.status.trans h.status) hopw hi hgf hgi fun hc => absurd hc hgc
  · rw [State.advance_of_todo (htodo ▸ hnil)]
    exact h.stay hu hts hend.2 hnil

/-- A word at the head of the transactions is run by its unit, and what is left of it stands before the others. -/
theorem BusyOk.opUnit {s : State} {w : Word16} {ts : List Txn} {i : Instr} {P : Provider} {r : State × List Txn}
    (h : BusyOk s) (ht : s.todo = .op w :: ts) (hw : i.wellFormed = true)
    (he : Machine.opUnit P i ((s.setTodo ts).log (.unit w 1)) = r) : BusyOk (r.1.setTodo (r.2 ++ ts)).advance := by
  subst he
  obtain ⟨hhead, hts⟩ := List.forall_mem_cons.1 (ht ▸ h.belongs)
  have hk : kpkeState s.fsm = true := (Bool.and_eq_true_iff.1 hhead).1
  have hr := ((SameControl.refl (s.setTodo ts)).log (.unit w 1)).trans (opUnit_control P i _)
  refine h.advance (hr.setTodo _) (fun t ht => ?_) (ends_of_kpkeState hk)
  rcases List.mem_append.1 ht with ht | ht
  · rcases opUnit_left P i _ t ht with hkpke | ⟨-, hill⟩
    · rw [belongs_of_kpke hkpke, hk]
    · simp [hw] at hill
  · exact hts t ht

/-- The two transactions that end a word lead to a clean IDLE (45_mlkem_fsm.md R239, R241). -/
theorem BusyOk.ends {s u : State} {t : Txn} {ts : List Txn} {P : Provider} (h : BusyOk s) (ht : s.todo = t :: ts)
    (he : t.ends = true) (hd : doTxn P t (s.setTodo ts) = .done u) : IdleOk u := by
  obtain ⟨hhead, -⟩ := List.forall_mem_cons.1 (ht ▸ h.belongs)
  cases t with
  | wipe op =>
    obtain rfl : (s.setTodo ts).wipe op = u := TxnResult.done.inj hd
    exact ⟨rfl, rfl, rfl, rfl, rfl, rfl⟩
  | clr mask =>
    obtain rfl : (s.setTodo ts).clear mask = u := TxnResult.done.inj hd
    obtain ⟨hecode, hwork⟩ := h.clr (by simpa [Machine.belongs] using hhead)
    exact ⟨rfl, rfl, rfl, rfl, hecode, hwork⟩
  | _ => cases he

theorem opTxn_control (P : Provider) (w : Word16) (s : State) : SameControl s (opTxn P w s).1 := by
  unfold opTxn
  split
  · exact ((SameControl.refl s).log _).trans (opUnit_control P _ _)
  · exact SameControl.refl s

theorem opTxn_of_decode {w : Word16} {i : Instr} (hd : decode w = .ok i) (P : Provider) (s : State) :
    opTxn P w s = opUnit P i (s.log (.unit w 1)) := by
  simp only [opTxn, hd]

/-- One transaction of a block at work. -/
theorem BusyOk.blockStep {s : State} (h : BusyOk s) (P : Provider) : SequencerOk (blockStep P s).state := by
  rcases blockStep_cases P s with ⟨ht, -⟩ | ⟨w, ts, ht, hr, hb⟩ | ⟨w, ts, u, us, ht, hr, hb⟩ | ⟨t, ts, u, ht, hd, hb⟩ |
    ⟨ts, ht, hb⟩ | ⟨op, ts, ht, hb⟩ | ⟨op, i, ts, ht, hb⟩
  · exact absurd ht h.todo
  all_goals
    rw [hb]
    obtain ⟨hhead, hts⟩ := List.forall_mem_cons.1 (ht ▸ h.belongs)
  · obtain ⟨i, hi, hw, -⟩ := decode_of_kpkeWord (Bool.and_eq_true_iff.1 hhead).2
    have hu := h.opUnit ht hw (opTxn_of_decode hi P _).symm
    have htodo : (opTxn P w (s.setTodo ts)).1.todo = ts := (opTxn_control P w (s.setTodo ts)).todo
    rw [hr, List.nil_append, State.setTodo_self htodo] at hu
    exact .inr hu
  · obtain ⟨i, hi, hw, -⟩ := decode_of_kpkeWord (Bool.and_eq_true_iff.1 hhead).2
    have hu := h.opUnit ht hw (opTxn_of_decode hi P _).symm
    rw [hr, State.advance_of_todo (List.cons_ne_nil _ _)] at hu
    exact .inr hu
  · cases he : t.ends with
    | true =>
      have hu := h.ends ht he hd
      show SequencerOk u.advance
      rw [State.advance_idle hu.fsm]
      exact .inl hu
    | false =>
      have hu := doTxn_control P t (s.setTodo ts) he
      rw [hd] at hu
      exact .inr (h.advance hu hts (not_end_of_belongs he hhead))
  · have hu : SameControl (s.setTodo ts) (sampleTurn P (s.setTodo ts)) := (SameControl.refl _).setSampler _
    exact .inr (h.stay (hu.setTodo (.sampleLoop :: ts)) (ht ▸ h.belongs) (not_end_of_belongs rfl hhead).2
      (List.cons_ne_nil _ _))
  · have hclr := (not_end_of_belongs rfl hhead).2
    exact .inr (h.raiseError (u := (s.setTodo ts).clearOutputs) hclr rfl rfl _)
  · have hclr := (not_end_of_belongs rfl hhead).2
    exact .inr (h.raiseError (u := (s.setTodo ts).drawn) hclr rfl rfl _)

theorem SequencerOk.blockStep {s : State} (h : SequencerOk s) (P : Provider) : SequencerOk (blockStep P s).state := by
  rcases h with h | h
  · have hb : Machine.blockStep P s = .rest s := by
      unfold Machine.blockStep
      rw [h.todo]
    rw [hb]
    exact .inl h
  · exact h.blockStep P

theorem SequencerOk.settle {s : State} (h : SequencerOk s) (P : Provider) (n : Nat) : SequencerOk (settle P n s) :=
  settle_keeps P SequencerOk (fun _ hu => hu.blockStep P) n s h

/-- The invariant speaks of these six fields only. -/
theorem SequencerOk.congr {s t : State} (h : SequencerOk s)
    (e : (t.status, t.fsm, t.opw, t.ecode, t.work, t.todo) = (s.status, s.fsm, s.opw, s.ecode, s.work, s.todo)) :
    SequencerOk t := by
  simp only [Prod.mk.injEq] at e
  obtain ⟨status, fsm, opw, ecode, work, todo⟩ := e
  rcases h with h | h
  · left
    constructor <;> simp only [status, fsm, opw, ecode, work, todo, h.busy, h.fsm, h.opw, h.ecode, h.work, h.todo]
  · right
    constructor
    · rw [status, h.status]
    · rw [opw, fsm]
      exact h.path
    · rw [todo]
      exact h.todo
    · rw [todo, fsm]
      exact h.belongs
    · rw [fsm, ecode, work]
      exact h.clr

theorem SequencerOk.idle {s : State} (h : SequencerOk s) (hb : s.status.busy = false) : IdleOk s := by
  rcases h with h | h
  · exact h
  · rw [h.status] at hb
    cases hb

/-- A turn of the block: with a word at the head of the transactions it is at work. -/
theorem SequencerOk.blockTurn {s t : State} (h : SequencerOk s) (ht : blockTurn s = .next t) : SequencerOk t := by
  rcases (blockTurn_cases ht).2 with ⟨w, ts, i, u, htodo, hd, he, rfl⟩ | ⟨-, rfl⟩
  · rcases h with h | h
    · rw [h.todo] at htodo
      cases htodo
    · obtain ⟨hhead, -⟩ := List.forall_mem_cons.1 (htodo ▸ h.belongs)
      obtain ⟨j, hj, hw, hi⟩ := decode_of_kpkeWord (Bool.and_eq_true_iff.1 hhead).2
      obtain rfl : i = j := Except.ok.inj (hd.symm.trans hj)
      rw [exec_unit _ hw hi] at he
      obtain rfl := Host.Outcome.next.inj he
      exact .inr (h.opUnit htodo hw rfl)
  · exact h.settle _ _

theorem SequencerOk.hostPush {s : State} (h : SequencerOk s) (b : InName) (v : Byte) : SequencerOk (hostPush b v s) := by
  unfold Machine.hostPush
  split
  · exact h
  · cases b <;> exact h.congr rfl

/-- A host word is taken by an idle block only (10_state.md R20). -/
theorem IdleOk.exec {s t : State} (h : IdleOk s) {i : Instr} (hi : hostIssuable true i = true)
    (he : exec i s = .next t) : SequencerOk t := by
  obtain ⟨hw, -⟩ := exec_next_cases he
  rw [exec_word s hw hi] at he
  obtain rfl := Host.Outcome.next.inj he
  rw [runWord, if_neg (by simp [h.busy])]
  exact SequencerOk.settle (.inr (h.take hw hi)) _ _

/-- Settles O53: every transaction leaves the block at work on the path of its word, but for the two that end it. -/
theorem stepKeepsSequencer : Obligations.StepKeepsSequencer := by
  intro s t h ht
  have hu : SequencerOk (s.setAgenda s.agenda.tail) := h.congr rfl
  rcases step_cases ht with rfl | ⟨b, v, rfl⟩ | ⟨b, i, rfl⟩ | rfl | ⟨-, rfl⟩ | ⟨hb, rfl⟩ | ⟨w, i, hb, hd, he⟩ | hbt
  · exact .inl ⟨rfl, rfl, rfl, rfl, rfl, rfl⟩
  · exact hu.hostPush b v
  · exact hu.congr rfl
  · exact hu.congr rfl
  · exact hu
  · obtain ⟨hfsm, -, htodo, hopw, hecode, hwork⟩ := hu.idle hb
    exact .inl ⟨hfsm, rfl, htodo, hopw, hecode, hwork⟩
  · exact (hu.idle hb).exec (hostIssuable_of_decodeHost hd) he
  · exact hu.blockTurn hbt

/-- Settles O54: by the two cases of the invariant. -/
theorem sequencerMeaning : Obligations.SequencerMeaning := by
  intro s h
  have code : ∀ f : Fsm, (fsmCode f = 0#4 ↔ f = .idle) ∧ (fsmCode f = 15#4 ↔ f = .unused) := by
    intro f
    cases f <;> decide
  rw [(code s.fsm).1, Ne, (code s.fsm).2]
  rcases h with h | h
  · simp [h.fsm, h.busy, h.work, h.opw, h.ecode]
  · obtain ⟨op, -, hf, hidle, -⟩ := h.path
    refine ⟨?_, ?_, ?_, fun hf => absurd hf hidle⟩
    · simp [hidle, h.status, statusTaken]
    · simp [h.status, statusTaken]
    · intro hu
      rw [hu] at hf
      cases op <;> simp [wordStates, wordPath] at hf

/-! ### The host's actions (10_state.md R21 to R25) -/

theorem hostPush_of_busy {s : State} (h : s.status.busy = true) (b : InName) (v : Byte) : hostPush b v s = s := by
  rw [hostPush, if_pos h]

theorem hostPush_of_idle {s : State} (h : s.status.busy = false) (b : InName) (v : Byte) :
    hostPush b v s = s.setInBuf b ((s.inBuf b).push (inCap b) v) := by
  rw [hostPush, if_neg (by simp [h])]

/-- Settles O45: the two sides of the capacity, by what a push of one buffer can do. -/
theorem pushResult : Obligations.PushResult := by
  intro b v s
  refine ⟨fun hb => hostPush_of_busy hb b v, fun hb => ?_⟩
  rw [hostPush_of_idle hb, State.inBuf_setInBuf]
  refine ⟨rfl, fun hlt hok => ?_, fun hle => ?_⟩
  · rcases InBuf.push_cases (inCap b) (s.inBuf b) v with ⟨-, hp⟩ | ⟨hle, -⟩
    · rw [hp]
      exact ⟨rfl, Memory.read_write (hok.inBuf b).1 _ v⟩
    · omega
  · rcases InBuf.push_cases (inCap b) (s.inBuf b) v with ⟨hlt, -⟩ | ⟨-, hp⟩
    · omega
    · rw [hp]
      exact ⟨rfl, rfl⟩

/-- A host action on the agenda is the next step (20_memory.md R74). -/
theorem step_of_host {s : State} {a : HostAction} {es : List Event} (h : s.agenda = .host a :: es) :
    step s = hostAction a (s.setAgenda es) := by
  simp only [step, nextEvent, h]

/-- Settles O46: a read writes the reply and nothing else. -/
theorem readResult : Obligations.ReadResult := by
  intro b i s es h
  rw [step_of_host h]
  cases b <;> rfl

theorem statusWord_fields (st : Status) :
    (statusWord st).getLsbD 0 = st.busy ∧ (statusWord st).getLsbD 1 = st.done ∧
      (statusWord st).extractLsb' 2 3 = errCode st.err ∧ (statusWord st).extractLsb' 5 11 = 0 := by
  obtain ⟨busy, done, err⟩ := st
  cases busy <;> cases done <;> cases err <;> decide

/-- Settles O47: a status request writes the reply and nothing else, and the fields of STATUS stand where R21 has them. -/
theorem statusResult : Obligations.StatusResult := by
  intro s es h
  obtain ⟨hbusy, hdone, herr, hzero⟩ := statusWord_fields s.status
  exact ⟨statusWord s.status, step_of_host h, hbusy, hdone, herr, hzero, hdone.symm⟩

/-! ### Reset (10_state.md R52) -/

/-- Settles O49: field by field, a register of zeros being read element by element. -/
theorem resetValues : Obligations.ResetValues := by
  have normal : ∀ r i, coeff (State.reset.work.getN r).c i = 0 := fun r i => by
    rw [show State.reset.work = Work.zero from rfl, Work.getN_zero]
    exact coeff_zero i
  have ntt : ∀ r i, coeff (State.reset.work.getH r).c i = 0 := fun r i => by
    rw [show State.reset.work = Work.zero from rfl, Work.getH_zero]
    exact coeff_zero i
  have inBuf : ∀ b, (State.reset.inBuf b).cnt = 0 ∧ ∀ a, (State.reset.inBuf b).mem.read a = 0 := fun b => by
    cases b <;> exact ⟨rfl, Memory.read_nil⟩
  have outBuf : ∀ b, (State.reset.outBuf b).len = 0 ∧ ∀ a, (State.reset.outBuf b).mem.read a = 0 := fun b => by
    cases b <;> exact ⟨rfl, Memory.read_nil⟩
  refine ⟨rfl, rfl, rfl, rfl, rfl, inBuf, outBuf, normal, ntt, coeff_zero, ?_, ?_, ?_, ?_, ?_, ?_, ?_, ?_, rfl, ?_, ?_,
    Memory.read_nil, rfl, rfl, rfl⟩
  all_goals exact Vector.toList_replicate

theorem IdleOk.reset : IdleOk State.reset := ⟨rfl, rfl, rfl, rfl, rfl, rfl⟩

/-- Settles O50: each invariant at reset. -/
theorem resetInvariants : Obligations.ResetInvariants := ⟨BuffersOk.reset, RegsCanonical.reset, .inl IdleOk.reset⟩

end Sys2Proof.Machine
end

section
/-! PROOFS. The statements of 30_encoding.md: the word of an operation and the operation of a word, at the units and at the host,
and what a step does with a word. -/

namespace Sys2Proof.Machine

open Sys2Proof

/-! ### A word and its fields (30_encoding.md R90) -/

/-- A word is its four fields, from bit 15 down. -/
theorem fields_append (w : Word16) : zeroField w ++ unitField w ++ funcField w ++ argField w = w := by
  simp only [zeroField, unitField, funcField, argField, BitVec.extractLsb'_append_extractLsb'_eq_extractLsb']
  simp

/-! ### The word of an operation (30_encoding.md R90 to R93) -/

/-- The opcode map has every existing operation at its UNIT, FUNC and ARG (30_encoding.md R92). -/
theorem decodeFields_fields {i : Instr} (hw : i.wellFormed = true) : decodeFields i.unit i.func i.arg = .ok i := by
  cases i with
  | add | sub | mul | ntt | intt | pwm | samplentt | clear => rfl
  | _ => exact if_pos hw

/-- Settles O1: the word's fields are the operation's, and there the map has the operation. -/
theorem decodeEncode : Obligations.DecodeEncode := fun i hw =>
  (Laws.Fields.decode_encode i).trans (decodeFields_fields hw)

/-! ### The operation of a word (30_encoding.md R92, R94, R96) -/

/-- Whatever a decoder answers is an operation with this UNIT, FUNC and ARG. -/
def AnswersFields (unit func arg : BitVec 4) (r : Except DecodeError Instr) : Prop :=
  ∀ i, r = .ok i → i.unit = unit ∧ i.func = func ∧ i.arg = arg

theorem answersFields_error (unit func arg : BitVec 4) (e : DecodeError) : AnswersFields unit func arg (.error e) :=
  fun _ h => nomatch h

theorem answersFields_withNoArg {unit func arg : BitVec 4} {i : Instr} (hu : i.unit = unit) (hf : i.func = func)
    (ha : i.arg = 0#4) : AnswersFields unit func arg (withNoArg arg i) := by
  intro j h
  unfold withNoArg at h
  split at h
  case isTrue harg => exact Except.ok.inj h ▸ ⟨hu, hf, ha.trans harg.symm⟩
  case isFalse => cases h

theorem answersFields_withLegalArg {unit func arg : BitVec 4} {i : Instr} (hu : i.unit = unit) (hf : i.func = func)
    (ha : i.arg = arg) : AnswersFields unit func arg (withLegalArg i) := by
  intro j h
  unfold withLegalArg at h
  split at h
  case isTrue => exact Except.ok.inj h ▸ ⟨hu, hf, ha⟩
  case isFalse => cases h

/-- The opcode map answers, for a UNIT, a FUNC and an ARG, an operation with these fields (30_encoding.md R92): each row of it
has tested UNIT and FUNC for the codes of its operation. -/
theorem answersFields_decodeFields (unit func arg : BitVec 4) :
    AnswersFields unit func arg (decodeFields unit func arg) := by
  unfold decodeFields
  repeat' split
  all_goals first
    | exact answersFields_error _ _ _ _
    | exact answersFields_withLegalArg (BitVec.eq_of_toNat_eq (by simp [Instr.unit, *]))
        (BitVec.eq_of_toNat_eq (by simp [Instr.func, *])) rfl
    | exact answersFields_withNoArg (BitVec.eq_of_toNat_eq (by simp [Instr.unit, *]))
        (BitVec.eq_of_toNat_eq (by simp [Instr.func, *])) rfl

/-- A word that decodes to an operation is its word. -/
theorem encode_of_decode {w : Word16} {i : Instr} (h : decode w = .ok i) : encode i = w := by
  unfold decode at h
  split at h
  case isTrue hz =>
    obtain ⟨hu, hf, ha⟩ := answersFields_decodeFields _ _ _ i h
    rw [encode, hu, hf, ha, ← hz, fields_append]
  case isFalse => cases h

/-- Settles O2: the map answers existing operations only, each at its own fields, and a word is its fields. -/
theorem encodeDecode : Obligations.EncodeDecode := fun _ _ h => ⟨wellFormed_of_decode h, encode_of_decode h⟩

/-! ### The host decoder (30_encoding.md R94, R95, R101) -/

/-- The host decoder accepts the word of an operation the host may issue. -/
theorem decodeHost_encode {det : Bool} {i : Instr} (hw : i.wellFormed = true) (hi : hostIssuable det i = true) :
    decodeHost det (encode i) = .ok i := by
  obtain ⟨hz, hu, hf, ha⟩ := Laws.Fields.fields i
  unfold decodeHost
  rw [hz, hu, hf, ha]
  cases i with
  | keygen k | encaps k | decaps k => simp [show legalRank k = true from hw, Instr.unit, Instr.func, Instr.arg]
  | keygenDet k | encapsDet k =>
    simp [show legalRank k = true from hw, show det = true from hi, Instr.unit, Instr.func, Instr.arg]
  | clear mask => rfl
  | _ => cases hi

/-- A word with the fields of an existing operation decodes to it. -/
theorem decode_of_fields {w : Word16} {i : Instr} (hw : i.wellFormed = true) (hz : zeroField w = 0#4)
    (hu : unitField w = i.unit) (hf : funcField w = i.func) (ha : argField w = i.arg) : decode w = .ok i := by
  rw [decode, if_pos hz, hu, hf, ha, decodeFields_fields hw]

/-- Whatever the host decoder accepts is the operation of the word and one the host may issue, line by line of R95. -/
theorem decode_of_decodeHost {det : Bool} {w : Word16} {i : Instr} (h : decodeHost det w = .ok i) :
    decode w = .ok i ∧ hostIssuable det i = true := by
  have func : ∀ {b : BitVec 4}, (funcField w).toNat = b.toNat → funcField w = b := BitVec.eq_of_toNat_eq
  unfold decodeHost at h
  split at h
  · cases h
  split at h
  · cases h
  split at h
  · cases h
  next hz hu hle =>
  have hz := Decidable.not_not.mp hz
  have hu := Decidable.not_not.mp hu
  split at h
  case isTrue h5 =>
    obtain rfl := Except.ok.inj h
    exact ⟨decode_of_fields rfl hz hu h5 rfl, rfl⟩
  case isFalse h5 =>
    split at h
    · cases h
    split at h
    · cases h
    next hlegal hdet =>
    have hlegal : legalRank (argField w) = true := by simpa using hlegal
    split at h <;> obtain rfl := Except.ok.inj h
    case h_1 hf | h_3 hf => exact ⟨decode_of_fields hlegal hz hu (func hf) rfl, rfl⟩
    case h_2 hf =>
      exact ⟨decode_of_fields hlegal hz hu (func hf) rfl, by simpa [hostIssuable, func (b := 1#4) hf] using hdet⟩
    case h_4 hf =>
      exact ⟨decode_of_fields hlegal hz hu (func hf) rfl, by simpa [hostIssuable, func (b := 3#4) hf] using hdet⟩
    case h_5 h0 h1 h2 h3 =>
      have h5 : (funcField w).toNat ≠ 5 := fun h => h5 (func h)
      simp only [imp_false] at h0 h1 h2 h3
      have hf : funcField w = 4#4 := func (show _ = 4 by omega)
      exact ⟨decode_of_fields hlegal hz hu hf rfl, rfl⟩

/-- Settles O3: what the host decoder accepts is a host's operation of the word; and a word that decodes to a host's operation is
the word of that operation, which the host decoder accepts. -/
theorem hostDecoder : Obligations.HostDecoder := by
  refine fun det w i => ⟨decode_of_decodeHost, fun ⟨hd, hi⟩ => ?_⟩
  rw [← encode_of_decode hd]
  exact decodeHost_encode (wellFormed_of_decode hd) hi

/-! ### How many words are legal (30_encoding.md R92, R95) -/

/-- The sixteen values of ARG. -/
def nibbles : List (BitVec 4) := (List.range 16).map (BitVec.ofNat 4)

theorem mem_nibbles (a : BitVec 4) : a ∈ nibbles :=
  List.mem_map.mpr ⟨a.toNat, List.mem_range.mpr a.isLt, by simp⟩

/-- The operations without a parameter, in the order of the opcode map (30_encoding.md R92, R93). -/
def opsWithoutArg : List Instr := [.add, .sub, .mul, .ntt, .intt, .pwm, .samplentt]

/-- The operation terms with the ARG nibble given, in the order of the opcode map (30_encoding.md R92). -/
def termsWithArg (a : BitVec 4) : List Instr :=
  [.cbd a, .compress a, .decompress a, .byteenc a, .bytedec a, .kpkeEnc a, .kpkeDec a, .keygen a, .keygenDet a, .encaps a,
    .encapsDet a, .decaps a, .clear a, .kpkeKeygen a]

/-- The existing operations (30_encoding.md R92, R93). -/
def existingOps : List Instr :=
  (opsWithoutArg ++ nibbles.flatMap termsWithArg).filter Instr.wellFormed

theorem mem_existingOps {i : Instr} : i ∈ existingOps ↔ i.wellFormed = true := by
  refine List.mem_filter.trans (and_iff_right (List.mem_append.mpr ?_))
  have withArg (a : BitVec 4) (h : i ∈ termsWithArg a) : i ∈ nibbles.flatMap termsWithArg :=
    List.mem_flatMap.mpr ⟨a, mem_nibbles a, h⟩
  cases i with
  | add | sub | mul | ntt | intt | pwm | samplentt => exact .inl (by decide)
  | _ a => exact .inr (withArg a (by simp [termsWithArg]))

theorem nodup_existingOps : existingOps.Nodup := by decide +kernel

/-- Existing operations have different words. -/
theorem encode_injOn {i j : Instr} (hi : i.wellFormed = true) (hj : j.wellFormed = true) (h : encode i = encode j) :
    i = j :=
  Except.ok.inj ((decodeEncode i hi).symm.trans (h ▸ decodeEncode j hj))

theorem isOk_iff {r : Except DecodeError Instr} : r.isOk = true ↔ ∃ i, r = .ok i := by
  cases r with
  | ok i => simp [Except.isOk, Except.toBool]
  | error e => simp [Except.isOk, Except.toBool]

/-- A decoder that accepts the words of the operations with a property accepts as many words as there are such operations. -/
theorem countP_accepted {D : Word16 → Except DecodeError Instr} {p : Instr → Bool}
    (hD : ∀ w i, D w = .ok i ↔ decode w = .ok i ∧ p i = true) :
    ((List.range 65536).countP fun w => (D (BitVec.ofNat 16 w)).isOk) = existingOps.countP p := by
  rw [List.countP_eq_length_filter, List.countP_eq_length_filter, ← List.length_map (fun i => (encode i).toNat)]
  refine List.Perm.length_eq ((List.perm_ext_iff_of_nodup (List.nodup_range.filter _) ?_).mpr fun n => ?_)
  · refine List.pairwise_map.mpr ((nodup_existingOps.filter _).imp_of_mem fun hi hj hne h => hne ?_)
    exact encode_injOn (mem_existingOps.mp (List.mem_filter.mp hi).1) (mem_existingOps.mp (List.mem_filter.mp hj).1)
      (BitVec.eq_of_toNat_eq h)
  · simp only [List.mem_filter, List.mem_range, List.mem_map, mem_existingOps]
    constructor
    · rintro ⟨hn, hok⟩
      obtain ⟨i, hi⟩ := isOk_iff.mp hok
      obtain ⟨hd, hp⟩ := (hD _ _).mp hi
      exact ⟨i, ⟨wellFormed_of_decode hd, hp⟩, by rw [encode_of_decode hd, BitVec.toNat_ofNat, Nat.mod_eq_of_lt hn]⟩
    · rintro ⟨i, ⟨hw, hp⟩, rfl⟩
      have hi : D (encode i) = .ok i := (hD _ _).mpr ⟨decodeEncode i hw, hp⟩
      refine ⟨(encode i).isLt, ?_⟩
      rw [BitVec.ofNat_toNat, BitVec.setWidth_eq, hi]
      rfl

/-- Settles O4: the existing operations, those the host may issue, and those it may issue without `DET_API`, counted. -/
theorem legalWordCounts : Obligations.LegalWordCounts :=
  ⟨(countP_accepted (p := fun _ => true) fun w i => by simp).trans (by decide +kernel),
    (countP_accepted (hostDecoder true)).trans (by decide +kernel),
    (countP_accepted (hostDecoder false)).trans (by decide +kernel)⟩

/-- Settles O5: the word of an existing operation decodes to it; the other two have no operation. -/
theorem decodeWords : Obligations.DecodeWords :=
  ⟨decodeEncode .sub rfl, decodeEncode .ntt rfl, decodeEncode (.cbd 3#4) rfl, decodeEncode (.byteenc 12#4) rfl,
    decodeEncode (.decaps 4#4) rfl, decodeEncode (.clear 15#4) rfl, rfl, rfl⟩

/-! ### A word at the block (30_encoding.md R100; 10_state.md R20; 45_mlkem_fsm.md R230) -/

/-- A turn of the block is the next step where the agenda names one, and where it is empty. -/
theorem step_of_turn {s : State} {es : List Event} (h : s.agenda = .block :: es ∨ (s.agenda = [] ∧ es = [])) :
    step s = blockTurn (s.setAgenda es) := by
  rcases h with h | ⟨h, rfl⟩
  · simp only [step, nextEvent, h]
  · have hs : s.setAgenda [] = s := by rw [← h]; rfl
    simp only [step, nextEvent, h, hs]

/-- A word of an operation at the head of the transactions is executed, on the block's turn (30_encoding.md R100). -/
theorem blockTurn_of_decode {s : State} {w : Word16} {i : Instr} {ts : List Txn} (hf : s.fsm ≠ .unused)
    (ht : s.todo = .op w :: ts) (hd : decode w = .ok i) :
    blockTurn s = afterOp (exec i ((s.setTodo ts).log (.unit w 1))) := by
  simp only [blockTurn, if_neg hf, ht, hd]

/-- A word that is no operation is refused there by name (93_implementation_defined.md U6). -/
theorem blockTurn_of_decode_error {s : State} {w : Word16} {e : DecodeError} {ts : List Txn} (hf : s.fsm ≠ .unused)
    (ht : s.todo = .op w :: ts) (hd : decode w = .error e) : blockTurn s = .refused (.notAnOperation w) := by
  simp only [blockTurn, if_neg hf, ht, hd]

/-- A word at the CMD port of an idle block that the host decoder accepts is executed (45_mlkem_fsm.md R230). -/
theorem hostCmd_of_decodeHost {s : State} {det : Bool} {w : Word16} {i : Instr} (hb : s.status.busy = false)
    (hd : decodeHost det w = .ok i) : hostCmd det w s = exec i s := by
  simp only [hostCmd, hb, hd, Bool.false_eq_true, if_false]

/-- Settles O6: the block's turn at the head of the transactions, and the host's command at an idle block. -/
theorem stepRunsInstr : Obligations.StepRunsInstr := by
  refine ⟨fun s w i ts es hf ha ht hd => ?_, fun s w i es hb ha hd => ?_⟩
  · exact (step_of_turn ha).trans (blockTurn_of_decode (s := s.setAgenda es) hf ht hd)
  · exact (step_of_host ha).trans (hostCmd_of_decodeHost (s := s.setAgenda es) hb hd)

/-! ### What is no operation (93_implementation_defined.md U6) -/

theorem rankOfArg_of_illegal : ∀ {k : BitVec 4}, legalRank k = false → rankOfArg k = none := by decide

theorem etaOfArg_of_illegal : ∀ {eta : BitVec 4}, legalEta eta = false → etaOfArg eta = none := by decide

theorem rankedWord_of_illegal (op : Instr) {k : BitVec 4} (s : State) (h : legalRank k = false) :
    rankedWord op k s = .refused .illegalArg := by
  simp only [rankedWord, rankOfArg_of_illegal h]

/-- An operation term with an illegal ARG is refused by name (93_implementation_defined.md U6). -/
theorem exec_of_illegalArg {i : Instr} (s : State) (h : i.wellFormed = false) : exec i s = .refused .illegalArg := by
  cases i with
  | add | sub | mul | ntt | intt | pwm | samplentt | clear mask => cases h
  | cbd eta => simp only [exec, execCbd, etaOfArg_of_illegal h]
  | compress d | decompress d | byteenc d | bytedec d => exact if_neg (Bool.not_eq_true _ ▸ h)
  | kpkeEnc k => simp only [exec, execKpkeEnc, rankOfArg_of_illegal h]
  | kpkeDec k => simp only [exec, execKpkeDec, rankOfArg_of_illegal h]
  | kpkeKeygen k => simp only [exec, execKpkeKeygen, rankOfArg_of_illegal h]
  | keygen k | keygenDet k | encaps k | encapsDet k | decaps k => exact rankedWord_of_illegal _ s h

/-- Settles O43: an illegal term at `exec`, and a word that is no operation on the block's turn. -/
theorem noSuchOperation : Obligations.NoSuchOperation := by
  refine ⟨fun i s h => exec_of_illegalArg s h, fun s w e ts hf ha ht hd => ?_⟩
  rw [step_of_turn (.inr ⟨ha, rfl⟩)]
  exact blockTurn_of_decode_error hf ht hd

end Sys2Proof.Machine
end

section
/-! PROOFS. The statements of 40_field_arith.md: what the field units answer on canonical operands, and that every unit runs on
every operand and changes only its wires. -/

namespace Sys2Proof.Machine

open Sys2Proof

/-! ### The field units on canonical operands (40_field_arith.md R121 to R123) -/

/-- An element is the word of its value. -/
theorem eq_ofNat_of_toNat_eq {x : Elem} {n : Nat} (h : x.toNat = n) : x = BitVec.ofNat 12 n := by
  rw [← h, BitVec.ofNat_toNat, BitVec.setWidth_eq]

theorem addElem_eq_ofNat {a b : Elem} (ha : a.toNat < q) (hb : b.toNat < q) :
    addElem a b = BitVec.ofNat 12 ((a.toNat + b.toNat) % q) :=
  (addElem_eq ha hb).trans (eq_ofNat_of_toNat_eq (addq_toNat ha hb))

/-- A difference mod q, as an integer and, with the modulus added first, as a natural number. -/
theorem toNat_sub_emod_q (a : Nat) {b : Nat} (hb : b < q) :
    (((a : Int) - b) % (q : Int)).toNat = (a + q - b) % q := by
  simp only [q_eq] at *
  omega

theorem subElem_eq_ofNat {a b : Elem} (ha : a.toNat < q) (hb : b.toNat < q) :
    subElem a b = BitVec.ofNat 12 ((((a.toNat : Int) - b.toNat) % (q : Int)).toNat) :=
  (subElem_eq ha hb).trans (eq_ofNat_of_toNat_eq ((subq_toNat ha hb).trans (toNat_sub_emod_q _ hb).symm))

theorem mulElem_eq_ofNat {a b : Elem} (ha : a.toNat < q) (hb : b.toNat < q) :
    mulElem a b = BitVec.ofNat 12 (a.toNat * b.toNat % q) :=
  (mulElem_eq ha hb).trans (eq_ofNat_of_toNat_eq (mulq_toNat a b))

/-! ### An operation is one transaction of its unit (10_state.md R43) -/

theorem exec_add (s : State) : exec .add s = .next (addUnit s) := rfl
theorem exec_sub (s : State) : exec .sub s = .next (subUnit s) := rfl
theorem exec_mul (s : State) : exec .mul s = .next (mulUnit s) := rfl
theorem exec_ntt (s : State) : exec .ntt s = .next (nttUnit s) := rfl
theorem exec_intt (s : State) : exec .intt s = .next (inttUnit s) := rfl
theorem exec_pwm (s : State) : exec .pwm s = .next (pwmUnit s) := rfl

theorem exec_compress {d : BitVec 4} (s : State) (hd : legalCompressWidth d = true) :
    exec (.compress d) s = .next (compressUnit d.toNat s) := if_pos hd

theorem exec_decompress {d : BitVec 4} (s : State) (hd : legalCompressWidth d = true) :
    exec (.decompress d) s = .next (decompressUnit d.toNat s) := if_pos hd

theorem exec_byteenc {d : BitVec 4} (s : State) (hd : legalByteWidth d = true) :
    exec (.byteenc d) s = .next (byteencUnit d.toNat s) := if_pos hd

theorem legalCompressWidth_iff (d : BitVec 4) : legalCompressWidth d = true ↔ 1 ≤ d.toNat ∧ d.toNat ≤ 11 := by
  simp [legalCompressWidth]

theorem legalByteWidth_iff (d : BitVec 4) : legalByteWidth d = true ↔ 1 ≤ d.toNat ∧ d.toNat ≤ 12 := by
  simp [legalByteWidth]

/-- Settles O7: the adder with function input 0. -/
theorem addResult : Obligations.AddResult := by
  refine ⟨decodeEncode .add rfl, fun s ha hb => ?_⟩
  rw [exec_add, addUnit, addElem_eq_ofNat ha hb]
  rfl

/-- Settles O8: the adder with function input 1. -/
theorem subResult : Obligations.SubResult := by
  refine ⟨decodeEncode .sub rfl, fun s ha hb => ?_⟩
  rw [exec_sub, subUnit, subElem_eq_ofNat ha hb]
  rfl

/-- Settles O9: the multiplier. -/
theorem mulResult : Obligations.MulResult := by
  refine ⟨decodeEncode .mul rfl, fun s ha hb => ?_⟩
  rw [exec_mul, mulUnit, mulElem_eq_ofNat ha hb]
  rfl

/-! ### The units on every operand (40_field_arith.md R130; 93_implementation_defined.md U1 to U3) -/

/-- The bytes of a register behind a field written into it are kept. -/
theorem writeField_getElem?_of_le {n : Nat} (v : Bytes n) (off : Nat) (B : List Byte) {i : Nat}
    (h : off + B.length ≤ i) (hi : i < n) : (writeField v off B).toList[i]? = v.toList[i]? := by
  rw [Vector.getElem?_toList, Vector.getElem?_toList, Vector.getElem?_eq_getElem hi, Vector.getElem?_eq_getElem hi,
    getElem_writeField v off B i hi, if_neg (by omega)]

/-- `BYTEENC d` keeps its port's bytes beyond the 32 d of the result, on every operand (43_compress_encode.md R185). -/
theorem byteencUnit_keeps_rest (s : State) {d i : Nat} (hd : d ≤ 12) (h : 32 * d ≤ i) (hi : i < 384) :
    (byteencUnit d s).ports.bencOut.toList[i]? = s.ports.bencOut.toList[i]? := by
  refine writeField_getElem?_of_le _ 0 _ ?_ hi
  rwa [byteEncode_length d _ hd, Nat.zero_add]

/-- Settles O10: each operation is one transaction of its unit, which writes the unit's wires, whatever is on its operands. -/
theorem unitsRun : Obligations.UnitsRun := by
  refine fun s => ⟨⟨_, exec_add s⟩, ⟨_, exec_sub s⟩, ⟨_, exec_mul s⟩, ⟨_, exec_ntt s⟩, ⟨_, exec_intt s⟩, ⟨_, exec_pwm s⟩,
    fun d h1 h11 => ?_, fun d h1 h12 => ?_⟩
  · have hd := (legalCompressWidth_iff d).mpr ⟨h1, h11⟩
    exact ⟨⟨_, exec_compress s hd⟩, ⟨_, exec_decompress s hd⟩⟩
  · have hd := (legalByteWidth_iff d).mpr ⟨h1, h12⟩
    exact ⟨_, exec_byteenc s hd, fun i hi => byteencUnit_keeps_rest s h12 hi⟩

end Sys2Proof.Machine
end

section
/-! PROOFS. The statements of 41_ntt.md. The transform is read over the integers mod q: the layers of `NTT` take the coefficients
of the remainder on division by `X^(2 len) - z^2` to those on division by `X^len - z` and by `X^len + z`, from `X^256 + 1` down to
the 128 polynomials `X^2 - GAMMA[i]`; each layer of `INTT` undoes one layer of `NTT` up to a factor 2. -/

namespace Sys2Proof.Machine

open Sys2Proof

/-! ### The integers mod q (00_scope.md R10) -/

/-- The integers mod q. -/
abbrev Zq := Fin q

/-- An integer mod q. -/
def zq (a : Int) : Zq := Fin.ofNat q (a % (q : Int)).toNat

theorem val_zq (a : Int) : ((zq a).val : Int) = a % (q : Int) := by
  simp only [zq, Fin.ofNat, q_eq]
  omega

theorem zq_eq_iff (a b : Int) : zq a = zq b ↔ a % (q : Int) = b % (q : Int) := by
  rw [← val_zq, ← val_zq, Int.ofNat_inj, Fin.ext_iff]

theorem zq_add (a b : Int) : zq (a + b) = zq a + zq b := by
  apply Fin.ext
  apply Int.ofNat_inj.1
  rw [val_zq, Fin.val_add, Int.natCast_emod, Int.natCast_add, val_zq, val_zq, ← Int.add_emod]

theorem zq_mul (a b : Int) : zq (a * b) = zq a * zq b := by
  apply Fin.ext
  apply Int.ofNat_inj.1
  rw [val_zq, Fin.val_mul, Int.natCast_emod, Int.natCast_mul, val_zq, val_zq, ← Int.mul_emod]

theorem zq_emod (a : Int) : zq (a % (q : Int)) = zq a := (zq_eq_iff _ _).2 (Int.emod_emod _ _)

theorem zq_neg (a : Int) : zq (-a) = -zq a := by
  have h : zq (-a) + zq a = 0 := by
    rw [← zq_add, Int.add_left_neg]
    rfl
  grind

/-- A power, by repeated multiplication. -/
def pw (c : Zq) : Nat → Zq
  | 0 => 1
  | n + 1 => pw c n * c

theorem pw_add (c : Zq) (n m : Nat) : pw c (n + m) = pw c n * pw c m := by
  induction m with
  | zero => grind [pw]
  | succ m ih => grind [pw]

theorem pw_two_mul (c : Zq) (n : Nat) : pw c (2 * n) = pw (c * c) n := by
  induction n with
  | zero => rfl
  | succ n ih => grind [pw]

theorem zq_pow (a n : Nat) : zq ((a ^ n : Nat) : Int) = pw (zq a) n := by
  induction n with
  | zero => rfl
  | succ n ih => rw [Nat.pow_succ, Int.natCast_mul, zq_mul, ih, pw]

/-! ### Sums mod q -/

/-- `a 0 + ... + a (n - 1)`. -/
def sumTo : Nat → (Nat → Zq) → Zq
  | 0, _ => 0
  | n + 1, a => sumTo n a + a n

theorem sumTo_congr {n : Nat} {a b : Nat → Zq} (h : ∀ j < n, a j = b j) : sumTo n a = sumTo n b := by
  induction n with
  | zero => rfl
  | succ n ih => rw [sumTo, sumTo, ih fun j hj => h j (by omega), h n (by omega)]

theorem sumTo_add (n : Nat) (a b : Nat → Zq) : sumTo n (fun j => a j + b j) = sumTo n a + sumTo n b := by
  induction n with
  | zero => rfl
  | succ n ih => grind [sumTo]

theorem sumTo_mul (n : Nat) (z : Zq) (a : Nat → Zq) : sumTo n (fun j => z * a j) = z * sumTo n a := by
  induction n with
  | zero => grind [sumTo]
  | succ n ih => grind [sumTo]

theorem sumTo_zero (n : Nat) : sumTo n (fun _ => 0) = 0 := by
  induction n with
  | zero => rfl
  | succ n ih => grind [sumTo]

theorem sumTo_comm (n m : Nat) (a : Nat → Nat → Zq) :
    sumTo n (fun i => sumTo m (a i)) = sumTo m fun j => sumTo n fun i => a i j := by
  induction n with
  | zero => exact (sumTo_zero m).symm
  | succ n ih =>
    simp only [sumTo]
    rw [ih, ← sumTo_add]

theorem sumTo_append (n m : Nat) (a : Nat → Zq) : sumTo (n + m) a = sumTo n a + sumTo m fun j => a (n + j) := by
  induction m with
  | zero => grind [sumTo]
  | succ m ih =>
    rw [← Nat.add_assoc, sumTo, sumTo, ih]
    grind

/-- A sum over an even number of terms, two by two. -/
theorem sumTo_two_mul (n : Nat) (a : Nat → Zq) :
    sumTo (2 * n) a = sumTo n (fun j => a (2 * j)) + sumTo n fun j => a (2 * j + 1) := by
  induction n with
  | zero => rfl
  | succ n ih =>
    rw [Nat.mul_succ, sumTo, sumTo, sumTo, sumTo, ih]
    grind

theorem zq_natSum (n : Nat) (f : Nat → Nat) : zq (((List.range n).map f).sum : Nat) = sumTo n fun i => zq (f i) := by
  induction n with
  | zero => rfl
  | succ n ih =>
    rw [List.range_succ, List.map_append, List.sum_append_nat, Int.natCast_add, zq_add, ih, sumTo, List.map_singleton,
      List.sum_singleton]

theorem zq_intSum (n : Nat) (f : Nat → Int) : zq ((List.range n).map f).sum = sumTo n fun i => zq (f i) := by
  induction n with
  | zero => rfl
  | succ n ih =>
    rw [List.range_succ, List.map_append, List.sum_append_int, zq_add, ih, sumTo, List.map_singleton, List.sum_singleton]

/-! ### Elements as integers mod q (40_field_arith.md R121 to R123) -/

/-- An element as an integer mod q. -/
def toZq (x : Elem) : Zq := zq x.toNat

theorem toZq_eq_iff {x : Elem} (hx : x.toNat < q) (n : Nat) : toZq x = zq n ↔ x.toNat = n % q := by
  rw [toZq, zq_eq_iff, ← Int.natCast_emod, ← Int.natCast_emod, Int.ofNat_inj, Nat.mod_eq_of_lt hx]

theorem eq_of_toZq_eq {x y : Elem} (hx : x.toNat < q) (hy : y.toNat < q) (h : toZq x = toZq y) : x = y :=
  BitVec.eq_of_toNat_eq (((toZq_eq_iff hx y.toNat).1 h).trans (Nat.mod_eq_of_lt hy))

/-- Two canonical polynomials that agree mod q in every lane are the same. -/
theorem coeffs_eq_of_toZq_eq {f g : Coeffs} (hf : canonical f = true) (hg : canonical g = true)
    (h : ∀ i, i < 256 → toZq (coeff f i) = toZq (coeff g i)) : f = g :=
  coeff_ext fun i hi => eq_of_toZq_eq (coeff_lt hf i) (coeff_lt hg i) (h i hi)

theorem toZq_addq {a b : Elem} (ha : a.toNat < q) (hb : b.toNat < q) : toZq (addq a b) = toZq a + toZq b := by
  rw [toZq, addq_toNat ha hb, Int.natCast_emod, zq_emod, Int.natCast_add, zq_add, toZq, toZq]

theorem toZq_subq {a b : Elem} (ha : a.toNat < q) (hb : b.toNat < q) : toZq (subq a b) = toZq a - toZq b := by
  have h : toZq (subq a b) + toZq b = toZq a := by
    rw [toZq, subq_toNat ha hb, toZq, ← zq_add, toZq, zq_eq_iff]
    simp only [q_eq] at *
    omega
  grind

theorem toZq_mulq (a b : Elem) : toZq (mulq a b) = toZq a * toZq b := by
  rw [toZq, mulq_toNat, Int.natCast_emod, zq_emod, Int.natCast_mul, zq_mul, toZq, toZq]

/-! ### The constants (41_ntt.md R140 to R143) -/

/-- Settles O16: the printed tables against their formulas, entry by entry. -/
theorem constantTables : Obligations.ConstantTables := by
  unfold Obligations.ConstantTables
  decide +kernel

theorem pw_two_seven_mul_ninv : pw 2 7 * toZq ninv = 1 := by decide +kernel

/-- `X^2 - GAMMA[i]` divides `X^256 + 1` (41_ntt.md R141). -/
theorem pw_gamma : ∀ i, i < 128 → pw (toZq (gamma i)) 128 = -1 := by decide +kernel

/-- The constant c of node k in the tree of the moduli `X^len - c`: node 1 is `X^256 + 1`, and node k < 128, with the constant
`ZETA[k]^2`, has below it the nodes 2 k with `ZETA[k]` and 2 k + 1 with `-ZETA[k]`. -/
def nodeConst (k : Nat) : Zq := if k % 2 = 0 then toZq (zeta (k / 2)) else -toZq (zeta (k / 2))

theorem nodeConst_even (k : Nat) : nodeConst (2 * k) = toZq (zeta k) := by
  rw [nodeConst, if_pos (by omega), show 2 * k / 2 = k by omega]

theorem nodeConst_odd (k : Nat) : nodeConst (2 * k + 1) = -toZq (zeta k) := by
  rw [nodeConst, if_neg (by omega), show (2 * k + 1) / 2 = k by omega]

theorem zeta_mul_self : ∀ k, k < 128 → 1 ≤ k → toZq (zeta k) * toZq (zeta k) = nodeConst k := by decide +kernel

/-- The leaves of the tree (41_ntt.md R141). -/
theorem nodeConst_leaf : ∀ i, i < 128 → nodeConst (128 + i) = toZq (gamma i) := by decide +kernel

/-- The two constants of a block, in `NTT` and in `INTT` (41_ntt.md R144, R145): in the layer of n blocks, block b reads
`ZETA[n + b]` and `ZETA[2 n - 1 - b]`. -/
theorem zeta_mul_zeta : ∀ n, n ≤ 64 → 128 % n = 0 → ∀ b, b < n →
    toZq (zeta (2 * n - 1 - b)) * toZq (zeta (n + b)) = -1 := by
  decide +kernel

/-! ### One layer, pair by pair (41_ntt.md R144, R145) -/

/-- A layer of the transforms: n blocks of len pairs. -/
structure Layer (n len : Nat) : Prop where
  pairs : n * len = 128
  two_le : 2 ≤ len

theorem layer_of_mem {len : Nat} (h : len ∈ [128, 64, 32, 16, 8, 4, 2]) : Layer (128 / len) len := by
  have hall : ∀ len ∈ [128, 64, 32, 16, 8, 4, 2], 128 / len * len = 128 ∧ 2 ≤ len := by decide
  exact ⟨(hall len h).1, (hall len h).2⟩

namespace Layer

variable {n len b r : Nat}

theorem pos (hl : Layer n len) : 0 < len := Nat.lt_of_lt_of_le Nat.two_pos hl.two_le

theorem div_eq (hl : Layer n len) : 128 / len = n := Nat.div_eq_of_eq_mul_left hl.pos hl.pairs.symm

theorem le_64 (hl : Layer n len) : n ≤ 64 := by
  have := Nat.mul_le_mul_left n hl.two_le
  have := hl.pairs
  omega

theorem mod_eq_zero (hl : Layer n len) : 128 % n = 0 := Nat.mod_eq_zero_of_dvd ⟨len, hl.pairs.symm⟩

theorem index_lt (hl : Layer n len) (hb : b < n) (hr : r < len) : 2 * len * b + r + len < 256 := by
  have hblock : b * len + len ≤ n * len := Nat.succ_mul b len ▸ Nat.mul_le_mul_right len hb
  have := hl.pairs
  rw [Nat.mul_assoc, Nat.mul_comm len b]
  omega

/-- Every lane is the lower or the upper one of a pair. -/
theorem exists_pair (hl : Layer n len) {i : Nat} (hi : i < 256) :
    ∃ b < n, ∃ r < len, i = 2 * len * b + r ∨ i = 2 * len * b + r + len := by
  have hpos := hl.pos
  have hb : i / (2 * len) < n := by
    rw [Nat.div_lt_iff_lt_mul (by omega), ← Nat.mul_assoc, Nat.mul_right_comm, hl.pairs]
    exact hi
  have hdm := Nat.div_add_mod i (2 * len)
  have hm := Nat.mod_lt i (show 0 < 2 * len by omega)
  by_cases h : i % (2 * len) < len
  · exact ⟨_, hb, _, h, .inl hdm.symm⟩
  · exact ⟨_, hb, i % (2 * len) - len, by omega, .inr (by omega)⟩

theorem block_of_low (hr : r < len) : (2 * len * b + r) / (2 * len) = b ∧ (2 * len * b + r) % (2 * len) = r :=
  (Nat.div_mod_unique (by omega)).2 ⟨by omega, by omega⟩

theorem block_of_high (hr : r < len) :
    (2 * len * b + r + len) / (2 * len) = b ∧ (2 * len * b + r + len) % (2 * len) = r + len :=
  (Nat.div_mod_unique (by omega)).2 ⟨by omega, by omega⟩

end Layer

section
variable {n len b r : Nat} {f : Coeffs} (hl : Layer n len) (hf : canonical f = true) (hb : b < n) (hr : r < len)
include hl hf hb hr

theorem toZq_nttLayer_low : toZq (coeff (nttLayer f len) (2 * len * b + r)) =
    toZq (coeff f (2 * len * b + r)) + toZq (zeta (n + b)) * toZq (coeff f (2 * len * b + r + len)) := by
  obtain ⟨hdiv, hmod⟩ := Layer.block_of_low (b := b) hr
  have hi := hl.index_lt hb hr
  rw [coeff_nttLayer f len hl.pos (by rw [hl.div_eq, hl.pairs]) (by omega), hdiv, hmod, if_pos hr, hl.div_eq,
    toZq_addq (coeff_lt hf _) (mulq_lt _ _), toZq_mulq]

theorem toZq_nttLayer_high : toZq (coeff (nttLayer f len) (2 * len * b + r + len)) =
    toZq (coeff f (2 * len * b + r)) - toZq (zeta (n + b)) * toZq (coeff f (2 * len * b + r + len)) := by
  obtain ⟨hdiv, hmod⟩ := Layer.block_of_high (b := b) hr
  have hi := hl.index_lt hb hr
  rw [coeff_nttLayer f len hl.pos (by rw [hl.div_eq, hl.pairs]) hi, hdiv, hmod, if_neg (by omega), hl.div_eq,
    Nat.add_sub_cancel, toZq_subq (coeff_lt hf _) (mulq_lt _ _), toZq_mulq]

theorem toZq_inverseLayer_low : toZq (coeff (inverseLayer f len) (2 * len * b + r)) =
    toZq (coeff f (2 * len * b + r)) + toZq (coeff f (2 * len * b + r + len)) := by
  obtain ⟨-, hmod⟩ := Layer.block_of_low (b := b) hr
  have hi := hl.index_lt hb hr
  rw [coeff_inverseLayer f len hl.pos (by rw [hl.div_eq, hl.pairs]) (by omega), hmod, if_pos hr,
    toZq_addq (coeff_lt hf _) (coeff_lt hf _)]

theorem toZq_inverseLayer_high : toZq (coeff (inverseLayer f len) (2 * len * b + r + len)) =
    toZq (zeta (2 * n - 1 - b)) * (toZq (coeff f (2 * len * b + r + len)) - toZq (coeff f (2 * len * b + r))) := by
  obtain ⟨hdiv, hmod⟩ := Layer.block_of_high (b := b) hr
  have hi := hl.index_lt hb hr
  have h2n : 256 / len = 2 * n := Nat.div_eq_of_eq_mul_left hl.pos (by rw [Nat.mul_assoc, hl.pairs])
  rw [coeff_inverseLayer f len hl.pos (by rw [hl.div_eq, hl.pairs]) hi, hdiv, hmod, if_neg (by omega), h2n,
    Nat.add_sub_cancel, toZq_mulq, toZq_subq (coeff_lt hf _) (coeff_lt hf _)]

end

/-! ### `INTT` undoes `NTT`, and `NTT` undoes `INTT` (41_ntt.md R148) -/

/-- g is c times f, lane by lane mod q. -/
def Scaled (c : Zq) (g f : Coeffs) : Prop := ∀ i, i < 256 → toZq (coeff g i) = c * toZq (coeff f i)

theorem Scaled.refl (f : Coeffs) : Scaled 1 f f := fun _ _ => by grind

theorem Scaled.trans {c d : Zq} {h g f : Coeffs} (hhg : Scaled c h g) (hgf : Scaled d g f) : Scaled (c * d) h f :=
  fun i hi => by rw [hhg i hi, hgf i hi]; grind

/-- A canonical polynomial scaled by 1 is the polynomial itself. -/
theorem Scaled.eq {c : Zq} {g f : Coeffs} (h : Scaled c g f) (hc : c = 1) (hg : canonical g = true)
    (hf : canonical f = true) : g = f :=
  coeffs_eq_of_toZq_eq hg hf fun i hi => by rw [h i hi, hc]; grind

/-- The layers with len of `L'` undo those of `L` up to a factor 2. -/
def Undoes (L' L : Coeffs → Nat → Coeffs) (len : Nat) : Prop :=
  ∀ c f g, canonical f = true → canonical g = true → Scaled c g (L f len) → Scaled (2 * c) (L' g len) f

theorem inverseLayer_undoes_nttLayer {n len : Nat} (hl : Layer n len) : Undoes inverseLayer nttLayer len := by
  intro c f g hf hg h i hi
  obtain ⟨b, hb, r, hr, hpair⟩ := hl.exists_pair hi
  have hlt := hl.index_lt hb hr
  have hlow := (h _ (by omega)).trans (congrArg (c * ·) (toZq_nttLayer_low hl hf hb hr))
  have hhigh := (h _ hlt).trans (congrArg (c * ·) (toZq_nttLayer_high hl hf hb hr))
  have hz := zeta_mul_zeta n hl.le_64 hl.mod_eq_zero b hb
  obtain rfl | rfl := hpair
  · rw [toZq_inverseLayer_low hl hg hb hr, hlow, hhigh]
    grind
  · rw [toZq_inverseLayer_high hl hg hb hr, hlow, hhigh]
    grind

theorem nttLayer_undoes_inverseLayer {n len : Nat} (hl : Layer n len) : Undoes nttLayer inverseLayer len := by
  intro c f g hf hg h i hi
  obtain ⟨b, hb, r, hr, hpair⟩ := hl.exists_pair hi
  have hlt := hl.index_lt hb hr
  have hlow := (h _ (by omega)).trans (congrArg (c * ·) (toZq_inverseLayer_low hl hf hb hr))
  have hhigh := (h _ hlt).trans (congrArg (c * ·) (toZq_inverseLayer_high hl hf hb hr))
  have hz := zeta_mul_zeta n hl.le_64 hl.mod_eq_zero b hb
  obtain rfl | rfl := hpair
  · rw [toZq_nttLayer_low hl hg hb hr, hlow, hhigh]
    grind
  · rw [toZq_nttLayer_high hl hg hb hr, hlow, hhigh]
    grind

/-- Layers undone one by one, the last one first, are undone together, with a factor 2 for each. -/
theorem scaled_foldl_reverse {L L' : Coeffs → Nat → Coeffs}
    (hL : ∀ f len, canonical f = true → canonical (L f len) = true)
    (hL' : ∀ f len, canonical f = true → canonical (L' f len) = true)
    (lens : List Nat) (hu : ∀ len ∈ lens, Undoes L' L len) {c : Zq} {f g : Coeffs}
    (hf : canonical f = true) (hg : canonical g = true) (h : Scaled c g (lens.foldl L f)) :
    Scaled (pw 2 lens.length * c) (lens.reverse.foldl L' g) f := by
  induction lens generalizing f with
  | nil => exact fun i hi => (h i hi).trans (by grind [pw])
  | cons len lens ih =>
    have hlast := ih (fun l hm => hu l (List.mem_cons_of_mem _ hm)) (hL f len hf) h
    have hc : canonical (lens.reverse.foldl L' g) = true := foldl_inv (fun g => canonical g = true) _ _ g hg hL'
    have hfirst := hu len List.mem_cons_self _ f _ hf hc hlast
    rw [List.reverse_cons, List.foldl_append, List.length_cons]
    exact (show 2 * (pw 2 lens.length * c) = pw 2 (lens.length + 1) * c by grind [pw]) ▸ hfirst

/-- The layers of `INTT`, before the final scaling (41_ntt.md R145). -/
def inverseLayers (f : Coeffs) : Coeffs := [2, 4, 8, 16, 32, 64, 128].foldl inverseLayer f

theorem inttCore_scaled (f : Coeffs) : Scaled (toZq ninv) (inttCore f) (inverseLayers f) := fun i hi => by
  unfold inttCore inverseLayers
  rw [coeff_tabulate _ hi, toZq_mulq]
  grind

theorem inttCore_nttCore {f : Coeffs} (hf : canonical f = true) : inttCore (nttCore f) = f := by
  have hu : ∀ len ∈ [128, 64, 32, 16, 8, 4, 2], Undoes inverseLayer nttLayer len := fun _ hm =>
    inverseLayer_undoes_nttLayer (layer_of_mem hm)
  have hlayers : Scaled (pw 2 7 * 1) (inverseLayers (nttCore f)) f :=
    scaled_foldl_reverse canonical_nttLayer canonical_inverseLayer _ hu hf (canonical_nttCore f hf) (.refl _)
  exact ((inttCore_scaled _).trans hlayers).eq (by grind [pw_two_seven_mul_ninv]) (canonical_inttCore _) hf

theorem nttCore_inttCore {f : Coeffs} (hf : canonical f = true) : nttCore (inttCore f) = f := by
  have hu : ∀ len ∈ [2, 4, 8, 16, 32, 64, 128], Undoes nttLayer inverseLayer len := fun _ hm =>
    nttLayer_undoes_inverseLayer (layer_of_mem (List.mem_reverse.1 hm))
  have hlayers : Scaled (pw 2 7 * toZq ninv) (nttCore (inttCore f)) f :=
    scaled_foldl_reverse canonical_inverseLayer canonical_nttLayer _ hu hf (canonical_inttCore f) (inttCore_scaled f)
  exact hlayers.eq pw_two_seven_mul_ninv (canonical_nttCore _ (canonical_inttCore f)) hf

theorem intt_ntt {f : NPoly} (hf : canonical f.c = true) : intt (ntt f) = f := by
  have h : (intt (ntt f)).c = f.c := by rw [intt_eq (canonical_ntt hf), ntt_eq hf, inttCore_nttCore hf]
  exact congrArg NPoly.mk h

theorem ntt_intt {f : HPoly} (hf : canonical f.c = true) : ntt (intt f) = f := by
  have h : (ntt (intt f)).c = f.c := by rw [ntt_eq (canonical_intt hf), intt_eq hf, nttCore_inttCore hf]
  exact congrArg HPoly.mk h

/-- Settles O12: the preimage is `INTT` of the operand, and `INTT` takes every preimage to itself. -/
theorem inttResult : Obligations.InttResult := fun s h =>
  ⟨intt s.ports.inttIn, exec_intt s, canonical_intt h, ntt_intt h, fun _ hg hn => (intt_ntt hg).symm.trans (congrArg intt hn)⟩

/-- Settles O13: the two units one after the other. -/
theorem nttInvolution : Obligations.NttInvolution := fun s h =>
  ⟨nttUnit s, _, exec_ntt s, exec_intt _, intt_ntt h⟩

/-! ### `NTT` as remainders (41_ntt.md R144) -/

/-- The elements of a polynomial mod q. -/
def elemsZq (f : Coeffs) (t : Nat) : Zq := toZq (coeff f t)

/-- The coefficient of `X^r` in the remainder, on division by `X^len - c`, of the polynomial with the coefficients `a t` for
t < n len. -/
def remainderCoeff (a : Nat → Zq) (n len : Nat) (c : Zq) (r : Nat) : Zq := sumTo n fun j => a (len * j + r) * pw c j

/-- The remainder on division by `X^len - z` from the one on division by `X^(2 len) - z^2`. -/
theorem remainderCoeff_two_mul (a : Nat → Zq) (n len : Nat) (z : Zq) (r : Nat) :
    remainderCoeff a (2 * n) len z r =
      remainderCoeff a n (2 * len) (z * z) r + z * remainderCoeff a n (2 * len) (z * z) (r + len) := by
  have heven : ∀ j < n, a (len * (2 * j) + r) * pw z (2 * j) = a (2 * len * j + r) * pw (z * z) j := fun j _ => by
    rw [pw_two_mul, ← Nat.mul_assoc, Nat.mul_comm len 2]
  have hodd : ∀ j < n,
      a (len * (2 * j + 1) + r) * pw z (2 * j + 1) = z * (a (2 * len * j + (r + len)) * pw (z * z) j) := fun j _ => by
    rw [pw, pw_two_mul, show len * (2 * j + 1) + r = 2 * len * j + (r + len) by grind]
    grind
  unfold remainderCoeff
  rw [sumTo_two_mul, sumTo_congr heven, sumTo_congr hodd, sumTo_mul]

/-- Block b of f is the remainder of the polynomial with the coefficients a on division by `X^len - c`, c the constant of node
n + b, for each of the n blocks. -/
def HoldsRemainders (a : Nat → Zq) (n len : Nat) (f : Coeffs) : Prop :=
  ∀ b < n, ∀ r < len, toZq (coeff f (len * b + r)) = remainderCoeff a n len (nodeConst (n + b)) r

theorem holdsRemainders_start (f : Coeffs) : HoldsRemainders (elemsZq f) 1 256 f := by
  intro b hb r _
  obtain rfl : b = 0 := by omega
  rw [remainderCoeff, sumTo, sumTo, pw, elemsZq]
  grind

/-- One layer of `NTT` goes one level down the tree of the moduli. -/
theorem nttLayer_holdsRemainders {a : Nat → Zq} {n len : Nat} (hl : Layer n len) {f : Coeffs} (hf : canonical f = true)
    (h : HoldsRemainders a n (2 * len) f) : HoldsRemainders a (2 * n) len (nttLayer f len) := by
  intro b' hb' r hr
  obtain ⟨b, hpar⟩ : ∃ b, b' = 2 * b ∨ b' = 2 * b + 1 := ⟨b' / 2, by omega⟩
  have hb : b < n := by omega
  have hn := hl.le_64
  have hlow := h b hb r (by omega)
  have hhigh := h b hb (r + len) (by omega)
  rw [← Nat.add_assoc] at hhigh
  have hsq := zeta_mul_self (n + b) (by omega) (by omega)
  obtain rfl | rfl := hpar
  · rw [← Nat.mul_add, nodeConst_even, remainderCoeff_two_mul, hsq, ← hlow, ← hhigh, ← Nat.mul_assoc, Nat.mul_comm len 2,
      toZq_nttLayer_low hl hf hb hr]
  · have hneg : -toZq (zeta (n + b)) * -toZq (zeta (n + b)) = nodeConst (n + b) := by grind
    rw [← Nat.add_assoc, ← Nat.mul_add, nodeConst_odd, remainderCoeff_two_mul, hneg, ← hlow, ← hhigh,
      show len * (2 * b + 1) + r = 2 * len * b + r + len by grind, toZq_nttLayer_high hl hf hb hr]
    grind

/-- The first k layers of `NTT` go k levels down (41_ntt.md R144). -/
theorem nttLayers_holdsRemainders {f : Coeffs} (hf : canonical f = true) (k : Nat) (hk : k ≤ 7) :
    HoldsRemainders (elemsZq f) (2 ^ k) (2 ^ (8 - k)) (((List.range k).map fun i => 2 ^ (7 - i)).foldl nttLayer f) := by
  induction k with
  | zero => exact holdsRemainders_start f
  | succ k ih =>
    have hl : Layer (2 ^ k) (2 ^ (7 - k)) :=
      ⟨by rw [← Nat.pow_add, Nat.add_sub_cancel' (by omega)], Nat.le_self_pow (by omega) 2⟩
    have h := ih (by omega)
    rw [show 8 - k = 7 - k + 1 by omega, Nat.pow_succ'] at h
    rw [List.range_succ, List.map_append, List.foldl_append, Nat.pow_succ', Nat.add_sub_add_right 7 1 k]
    exact nttLayer_holdsRemainders hl (canonical_nttLayers _ f hf) h

theorem nttCore_holdsRemainders {f : Coeffs} (hf : canonical f = true) : HoldsRemainders (elemsZq f) 128 2 (nttCore f) :=
  nttLayers_holdsRemainders hf 7 (by decide)

/-- Element par of pair i of `NTT`, mod q. -/
theorem elemsZq_nttCore {f : Coeffs} (hf : canonical f = true) {i par : Nat} (hi : i < 128) (hp : par < 2) :
    elemsZq (nttCore f) (2 * i + par) = remainderCoeff (elemsZq f) 128 2 (toZq (gamma i)) par := by
  rw [elemsZq, nttCore_holdsRemainders hf i hi par hp, nodeConst_leaf i hi]

theorem zq_residue (f : Coeffs) (par gam : Nat) :
    zq (residue f par gam) = remainderCoeff (elemsZq f) 128 2 (zq gam) par := by
  rw [residue, zq_natSum, remainderCoeff]
  exact sumTo_congr fun j _ => by rw [Int.natCast_mul, zq_mul, zq_pow, elemsZq, toZq]

theorem nttCore_residue {f : Coeffs} (hf : canonical f = true) {i par : Nat} (hi : i < 128) (hp : par < 2) :
    (coeff (nttCore f) (2 * i + par)).toNat = residue f par (gamma i).toNat % q := by
  rw [← toZq_eq_iff (coeff_lt (canonical_nttCore f hf) _), zq_residue]
  exact elemsZq_nttCore hf hi hp

/-- Settles O11: seven levels of the tree, from `X^256 + 1` to its leaves. -/
theorem nttResidues : Obligations.NttResidues := fun s h => by
  refine ⟨ntt s.ports.nttIn, exec_ntt s, canonical_ntt h, fun i hi => ?_⟩
  rw [ntt_eq h]
  exact ⟨nttCore_residue h hi Nat.two_pos, nttCore_residue h hi Nat.one_lt_two⟩

/-! ### `PWM` as products of pairs (41_ntt.md R146, R147) -/

theorem toZq_pwmCore_even (f g : Coeffs) {i : Nat} (hi : i < 128) :
    toZq (coeff (pwmCore f g) (2 * i)) =
      elemsZq f (2 * i) * elemsZq g (2 * i) + elemsZq f (2 * i + 1) * elemsZq g (2 * i + 1) * toZq (gamma i) := by
  unfold pwmCore
  rw [coeff_tabulate _ (by omega), if_pos (by omega), show 2 * i / 2 = i by omega, baseMul0,
    toZq_addq (mulq_lt _ _) (mulq_lt _ _), toZq_mulq, toZq_mulq, toZq_mulq]
  rfl

theorem toZq_pwmCore_odd (f g : Coeffs) {i : Nat} (hi : i < 128) :
    toZq (coeff (pwmCore f g) (2 * i + 1)) =
      elemsZq f (2 * i) * elemsZq g (2 * i + 1) + elemsZq f (2 * i + 1) * elemsZq g (2 * i) := by
  unfold pwmCore
  rw [coeff_tabulate _ (by omega), if_neg (by omega), show (2 * i + 1) / 2 = i by omega, baseMul1,
    toZq_addq (mulq_lt _ _) (mulq_lt _ _), toZq_mulq, toZq_mulq]
  rfl

/-- Settles O15: the pair products, read mod q. -/
theorem pwmResult : Obligations.PwmResult := fun s hf hg => by
  refine ⟨pwm s.ports.pwmF s.ports.pwmG, exec_pwm s, canonical_pwm hf hg, fun i hi => ?_⟩
  have hlt := fun j => coeff_lt (canonical_pwmCore s.ports.pwmF.c s.ports.pwmG.c) j
  rw [pwm_eq hf hg]
  constructor
  · rw [← toZq_eq_iff (hlt _), toZq_pwmCore_even _ _ hi]
    simp only [Int.natCast_add, Int.natCast_mul, zq_add, zq_mul, elemsZq, toZq]
  · rw [← toZq_eq_iff (hlt _), toZq_pwmCore_odd _ _ hi]
    simp only [Int.natCast_add, Int.natCast_mul, zq_add, zq_mul, elemsZq, toZq]

/-! ### The product modulo `X^n + 1` (40_field_arith.md R128) -/

/-- The coefficient of `X^t` in `X^i` times a polynomial, modulo `X^n + 1`: moved up by i, and negated where it wraps around. -/
def shifted (n : Nat) (b : Nat → Zq) (i t : Nat) : Zq := if i ≤ t then b (t - i) else -b (t + n - i)

/-- The coefficient of `X^t` in the product of two polynomials modulo `X^n + 1`. -/
def negacyclic (n : Nat) (a b : Nat → Zq) (t : Nat) : Zq := sumTo n fun i => a i * shifted n b i t

/-- The value at c of a shifted polynomial, where `c^n = -1`. -/
theorem sumTo_shifted {n : Nat} {c : Zq} (hc : pw c n = -1) (b : Nat → Zq) {i : Nat} (hi : i ≤ n) :
    sumTo n (fun t => shifted n b i t * pw c t) = pw c i * sumTo n fun j => b j * pw c j := by
  obtain ⟨k, rfl⟩ := Nat.exists_eq_add_of_le hi
  have hwrap : ∀ t < i, shifted (i + k) b i t * pw c t = pw c i * (b (k + t) * pw c (k + t)) := fun t ht => by
    rw [shifted, if_neg (by omega), show t + (i + k) - i = k + t by omega, pw_add c k t]
    rw [pw_add] at hc
    grind
  have hkeep : ∀ t < k, shifted (i + k) b i (i + t) * pw c (i + t) = pw c i * (b t * pw c t) := fun t _ => by
    rw [shifted, if_pos (by omega), Nat.add_sub_cancel_left, pw_add]
    grind
  rw [sumTo_append, sumTo_congr hwrap, sumTo_congr hkeep, Nat.add_comm i k, sumTo_append, sumTo_mul, sumTo_mul]
  grind

section
variable {n j : Nat} {c : Zq} (hc : pw c n = -1) (b : Nat → Zq)
include hc

/-- `X^(2 j) = c^j` modulo `X^2 - c`. -/
theorem remainderCoeff_shifted_even (hj : j ≤ n) {par : Nat} (hp : par < 2) :
    remainderCoeff (shifted (2 * n) b (2 * j)) n 2 c par = pw c j * remainderCoeff b n 2 c par := by
  refine Eq.trans (sumTo_congr fun m _ => ?_) (sumTo_shifted hc (fun m => b (2 * m + par)) hj)
  rw [shifted, shifted]
  by_cases h : j ≤ m
  · rw [if_pos (by omega), if_pos h, show 2 * m + par - 2 * j = 2 * (m - j) + par by omega]
  · rw [if_neg (by omega), if_neg h, show 2 * m + par + 2 * n - 2 * j = 2 * (m + n - j) + par by omega]

/-- `X^(2 j + 1) = c^j X` modulo `X^2 - c`, on the even part of a polynomial. -/
theorem remainderCoeff_shifted_odd_one (hj : j ≤ n) :
    remainderCoeff (shifted (2 * n) b (2 * j + 1)) n 2 c 1 = pw c j * remainderCoeff b n 2 c 0 := by
  refine Eq.trans (sumTo_congr fun m _ => ?_) (sumTo_shifted hc (fun m => b (2 * m + 0)) hj)
  rw [shifted, shifted]
  by_cases h : j ≤ m
  · rw [if_pos (by omega), if_pos h, show 2 * m + 1 - (2 * j + 1) = 2 * (m - j) + 0 by omega]
  · rw [if_neg (by omega), if_neg h, show 2 * m + 1 + 2 * n - (2 * j + 1) = 2 * (m + n - j) + 0 by omega]

/-- `X^(2 j + 1) X = c^(j + 1)` modulo `X^2 - c`, on the odd part of a polynomial. -/
theorem remainderCoeff_shifted_odd_zero (hj : j + 1 ≤ n) :
    remainderCoeff (shifted (2 * n) b (2 * j + 1)) n 2 c 0 = pw c (j + 1) * remainderCoeff b n 2 c 1 := by
  refine Eq.trans (sumTo_congr fun m _ => ?_) (sumTo_shifted hc (fun m => b (2 * m + 1)) hj)
  rw [shifted, shifted]
  by_cases h : j + 1 ≤ m
  · rw [if_pos (by omega), if_pos h, show 2 * m + 0 - (2 * j + 1) = 2 * (m - (j + 1)) + 1 by omega]
  · rw [if_neg (by omega), if_neg h, show 2 * m + 0 + 2 * n - (2 * j + 1) = 2 * (m + n - (j + 1)) + 1 by omega]

end

/-- The remainder of a product, term by term of its first factor. -/
theorem remainderCoeff_negacyclic (a b : Nat → Zq) (n m : Nat) (c : Zq) (par : Nat) :
    remainderCoeff (negacyclic m a b) n 2 c par = sumTo m fun i => a i * remainderCoeff (shifted m b i) n 2 c par := by
  have hterm : ∀ j < n, negacyclic m a b (2 * j + par) * pw c j =
      sumTo m fun i => a i * (shifted m b i (2 * j + par) * pw c j) := fun j _ => by
    rw [negacyclic, show ∀ x y : Zq, x * y = y * x by grind, ← sumTo_mul]
    exact sumTo_congr fun i _ => by grind
  rw [remainderCoeff, sumTo_congr hterm, sumTo_comm]
  exact sumTo_congr fun i _ => sumTo_mul _ _ _

section
variable {n : Nat} {c : Zq} (hc : pw c n = -1) (a b : Nat → Zq)
include hc

/-- Element 0 of the product of two remainders modulo `X^2 - c`, a factor of `X^(2 n) + 1` (41_ntt.md R147). -/
theorem remainderCoeff_negacyclic_zero :
    remainderCoeff (negacyclic (2 * n) a b) n 2 c 0 =
      remainderCoeff a n 2 c 0 * remainderCoeff b n 2 c 0 + remainderCoeff a n 2 c 1 * remainderCoeff b n 2 c 1 * c := by
  have heven : ∀ j < n, a (2 * j) * remainderCoeff (shifted (2 * n) b (2 * j)) n 2 c 0 =
      remainderCoeff b n 2 c 0 * (a (2 * j + 0) * pw c j) := fun j hj => by
    rw [remainderCoeff_shifted_even hc b (by omega) (by decide), Nat.add_zero]
    grind
  have hodd : ∀ j < n, a (2 * j + 1) * remainderCoeff (shifted (2 * n) b (2 * j + 1)) n 2 c 0 =
      c * remainderCoeff b n 2 c 1 * (a (2 * j + 1) * pw c j) := fun j hj => by
    rw [remainderCoeff_shifted_odd_zero hc b hj, pw]
    grind
  rw [remainderCoeff_negacyclic, sumTo_two_mul, sumTo_congr heven, sumTo_congr hodd, sumTo_mul, sumTo_mul,
    ← remainderCoeff, ← remainderCoeff]
  grind

/-- Element 1 of the product of two remainders modulo `X^2 - c`, a factor of `X^(2 n) + 1` (41_ntt.md R147). -/
theorem remainderCoeff_negacyclic_one :
    remainderCoeff (negacyclic (2 * n) a b) n 2 c 1 =
      remainderCoeff a n 2 c 0 * remainderCoeff b n 2 c 1 + remainderCoeff a n 2 c 1 * remainderCoeff b n 2 c 0 := by
  have heven : ∀ j < n, a (2 * j) * remainderCoeff (shifted (2 * n) b (2 * j)) n 2 c 1 =
      remainderCoeff b n 2 c 1 * (a (2 * j + 0) * pw c j) := fun j hj => by
    rw [remainderCoeff_shifted_even hc b (by omega) (by decide), Nat.add_zero]
    grind
  have hodd : ∀ j < n, a (2 * j + 1) * remainderCoeff (shifted (2 * n) b (2 * j + 1)) n 2 c 1 =
      remainderCoeff b n 2 c 0 * (a (2 * j + 1) * pw c j) := fun j hj => by
    rw [remainderCoeff_shifted_odd_one hc b (by omega)]
    grind
  rw [remainderCoeff_negacyclic, sumTo_two_mul, sumTo_congr heven, sumTo_congr hodd, sumTo_mul, sumTo_mul,
    ← remainderCoeff, ← remainderCoeff]
  grind

end

/-! ### `PWM` multiplies in the ring (41_ntt.md R148; 40_field_arith.md R128) -/

/-- The ring product as a canonical polynomial (40_field_arith.md R128). -/
def ringProductCoeffs (f g : Coeffs) : Coeffs := tabulate fun t => BitVec.ofNat 12 (ringProduct f g t % (q : Int)).toNat

theorem toNat_coeff_ringProductCoeffs (f g : Coeffs) {t : Nat} (ht : t < 256) :
    ((coeff (ringProductCoeffs f g) t).toNat : Int) = ringProduct f g t % (q : Int) := by
  rw [ringProductCoeffs, coeff_tabulate _ ht, BitVec.toNat_ofNat]
  simp only [q_eq]
  omega

theorem canonical_ringProductCoeffs (f g : Coeffs) : canonical (ringProductCoeffs f g) = true := by
  rw [canonical_iff]
  intro t ht
  have h := toNat_coeff_ringProductCoeffs f g ht
  simp only [q_eq] at *
  omega

theorem zq_ringProduct (f g : Coeffs) (t : Nat) :
    zq (ringProduct f g t) = negacyclic 256 (elemsZq f) (elemsZq g) t := by
  rw [ringProduct, zq_intSum, negacyclic]
  refine sumTo_congr fun i _ => ?_
  rw [shifted]
  by_cases h : i ≤ t
  · rw [if_pos h, if_pos h, zq_mul, elemsZq, elemsZq, toZq, toZq]
  · rw [if_neg h, if_neg h, zq_neg, zq_mul, elemsZq, elemsZq, toZq, toZq]
    grind

theorem elemsZq_ringProductCoeffs (f g : Coeffs) {t : Nat} (ht : t < 256) :
    elemsZq (ringProductCoeffs f g) t = negacyclic 256 (elemsZq f) (elemsZq g) t := by
  rw [elemsZq, toZq, toNat_coeff_ringProductCoeffs f g ht, zq_emod, zq_ringProduct]

/-- Element par of pair i of the `NTT` of the ring product. -/
theorem elemsZq_nttCore_ringProductCoeffs (f g : Coeffs) {i par : Nat} (hi : i < 128) (hp : par < 2) :
    elemsZq (nttCore (ringProductCoeffs f g)) (2 * i + par) =
      remainderCoeff (negacyclic (2 * 128) (elemsZq f) (elemsZq g)) 128 2 (toZq (gamma i)) par := by
  rw [elemsZq_nttCore (canonical_ringProductCoeffs f g) hi hp]
  exact sumTo_congr fun j hj => by rw [elemsZq_ringProductCoeffs f g (by omega)]

/-- `NTT` takes the ring product to the pair products (41_ntt.md R148). -/
theorem nttCore_ringProductCoeffs {f g : Coeffs} (hf : canonical f = true) (hg : canonical g = true) :
    nttCore (ringProductCoeffs f g) = pwmCore (nttCore f) (nttCore g) := by
  have hp := canonical_ringProductCoeffs f g
  refine coeffs_eq_of_toZq_eq (canonical_nttCore _ hp) (canonical_pwmCore _ _) fun j hj => ?_
  obtain ⟨i, hpar⟩ : ∃ i, j = 2 * i + 0 ∨ j = 2 * i + 1 := ⟨j / 2, by omega⟩
  have hi : i < 128 := by omega
  have heven {f : Coeffs} (hf : canonical f = true) := elemsZq_nttCore hf hi Nat.two_pos
  have hodd {f : Coeffs} (hf : canonical f = true) := elemsZq_nttCore hf hi Nat.one_lt_two
  obtain rfl | rfl := hpar
  · refine (elemsZq_nttCore_ringProductCoeffs f g hi Nat.two_pos).trans ?_
    rw [remainderCoeff_negacyclic_zero (pw_gamma i hi), ← heven hf, ← heven hg, ← hodd hf, ← hodd hg]
    exact (toZq_pwmCore_even _ _ hi).symm
  · refine (elemsZq_nttCore_ringProductCoeffs f g hi Nat.one_lt_two).trans ?_
    rw [remainderCoeff_negacyclic_one (pw_gamma i hi), ← heven hf, ← heven hg, ← hodd hf, ← hodd hg]
    exact (toZq_pwmCore_odd _ _ hi).symm

/-- Settles O14: `INTT` gives back the ring product, whose `NTT` the pair products are. -/
theorem nttHomomorphism : Obligations.NttHomomorphism := fun f g hf hg t ht => by
  have hp := canonical_ringProductCoeffs f.c g.c
  rw [intt_eq (canonical_pwm (canonical_ntt hf) (canonical_ntt hg)), pwm_eq (canonical_ntt hf) (canonical_ntt hg),
    ntt_eq hf, ntt_eq hg, ← nttCore_ringProductCoeffs hf hg, inttCore_nttCore hp]
  exact toNat_coeff_ringProductCoeffs f.c g.c ht

end Sys2Proof.Machine
end

section
/-! PROOFS. The statements of 42_sampling.md. A sampler that has taken candidates in is the list of those below q: the first 256
of them are its elements. So the loop of `SAMPLENTT` stands, after any number of groups, where the kept candidates of the groups
it has read put it, and it has read all of them or as many as yield 256. -/

namespace Sys2Proof.Machine

open Sys2Proof

/-! ### The kept candidates (42_sampling.md R161) -/

/-- The group of three bytes behind the first n. -/
theorem accepted_succ (S : Nat → Byte) (n : Nat) :
    accepted S (n + 1) = accepted S n ++
      [candidate1 (S (3 * n)) (S (3 * n + 1))].filter (fun d => decide (d.toNat < q)) ++
      [candidate2 (S (3 * n + 1)) (S (3 * n + 2))].filter (fun d => decide (d.toNat < q)) := by
  rw [accepted, candidates, List.range_succ, List.flatMap_append, List.flatMap_singleton, List.filter_append,
    ← candidates, ← accepted, List.append_assoc, ← List.filter_append, List.singleton_append]

/-- More groups add candidates behind those kept. -/
theorem accepted_prefix (S : Nat → Byte) {g n : Nat} (h : g ≤ n) : accepted S g <+: accepted S n := by
  induction h with
  | refl => exact List.prefix_rfl
  | step _ ih =>
    rw [accepted_succ, List.append_assoc]
    exact ih.trans (List.prefix_append _ _)

/-- No candidate of a stream of 0xFF bytes is below q: each is 4095 (42_sampling.md R162). -/
theorem accepted_allOnes (n : Nat) : accepted (fun _ => 0xFF#8) n = [] := by
  induction n with
  | zero => rfl
  | succ n ih =>
    rw [accepted_succ, ih]
    decide

/-! ### The sampler as the list of what it kept (42_sampling.md R161) -/

/-- The sampler at a cursor with the candidates `l` kept, of which it has room for 256. -/
def Sampler.holding (cur : Nat) (l : List Elem) : Sampler :=
  { cur := cur, cnt := min l.length 256, a := tabulate fun i => l[i]?.getD 0 }

@[simp] theorem Sampler.holding_cur (cur : Nat) (l : List Elem) : (Sampler.holding cur l).cur = cur := rfl

@[simp] theorem Sampler.holding_cnt (cur : Nat) (l : List Elem) : (Sampler.holding cur l).cnt = min l.length 256 := rfl

theorem Sampler.coeff_holding (cur : Nat) (l : List Elem) {i : Nat} (hi : i < 256) :
    coeff (Sampler.holding cur l).a i = l[i]?.getD 0 := by
  rw [Sampler.holding, coeff_tabulate _ hi]

theorem Sampler.start_eq_holding : Sampler.start = Sampler.holding 0 [] := by
  rw [Sampler.start, Sampler.holding, Sampler.mk.injEq]
  exact ⟨rfl, rfl, coeff_ext fun i hi => (coeff_zero i).trans (by rw [coeff_tabulate _ hi]; rfl)⟩

/-- A sampler with room writes a kept candidate behind the others. -/
theorem Sampler.holding_append_of_lt (cur : Nat) {l : List Elem} (d : Elem) (h : l.length < 256) :
    Sampler.holding cur (l ++ [d]) =
      { cur := cur, cnt := l.length + 1, a := setCoeff (Sampler.holding cur l).a l.length d } := by
  rw [Sampler.holding, Sampler.mk.injEq]
  refine ⟨rfl, ?_, coeff_ext fun i hi => ?_⟩
  · rw [List.length_append, List.length_singleton]
    omega
  · rw [coeff_tabulate _ hi, coeff_setCoeff _ _ _ h, Sampler.coeff_holding cur l hi]
    split
    next hend =>
      rw [hend, List.getElem?_concat_length, Option.getD_some]
    next hne =>
      rcases Nat.lt_or_ge i l.length with hl | hl
      · rw [List.getElem?_append_left hl]
      · have hend : (l ++ [d]).length ≤ i := by
          rw [List.length_append, List.length_singleton]
          omega
        rw [List.getElem?_eq_none hl, List.getElem?_eq_none hend]

/-- A sampler without room keeps its elements. -/
theorem Sampler.holding_append_of_ge (cur : Nat) {l : List Elem} (l' : List Elem) (h : 256 ≤ l.length) :
    Sampler.holding cur (l ++ l') = Sampler.holding cur l := by
  rw [Sampler.holding, Sampler.holding, Sampler.mk.injEq]
  refine ⟨rfl, ?_, coeff_ext fun i hi => ?_⟩
  · rw [List.length_append]
    omega
  · rw [coeff_tabulate _ hi, coeff_tabulate _ hi, List.getElem?_append_left (by omega)]

/-- An offer appends the candidate if it is below q. -/
theorem Sampler.offer_holding (cur : Nat) (l : List Elem) (d : Elem) :
    (Sampler.holding cur l).offer d = Sampler.holding cur (l ++ [d].filter fun d => decide (d.toNat < q)) := by
  rcases Sampler.offer_cases (Sampler.holding cur l) d with ⟨hd, hroom, ho⟩ | ⟨hno, ho⟩ <;> rw [ho]
  · rw [Sampler.holding_cnt] at hroom
    have hl : l.length < 256 := by omega
    rw [List.filter_cons_of_pos (by rwa [decide_eq_true_eq]), List.filter_nil, Sampler.holding_cnt,
      Nat.min_eq_left (Nat.le_of_lt hl)]
    exact (Sampler.holding_append_of_lt cur d hl).symm
  · by_cases hd : d.toNat < q
    · rw [Sampler.holding_cnt] at hno
      exact (Sampler.holding_append_of_ge cur _ (by omega)).symm
    · rw [List.filter_cons_of_neg (by rwa [decide_eq_true_eq]), List.filter_nil, List.append_nil]

/-- One turn of the loop takes in one group. -/
theorem Sampler.group_holding (S : Nat → Byte) (g : Nat) :
    (Sampler.holding (3 * g) (accepted S g)).group S = Sampler.holding (3 * (g + 1)) (accepted S (g + 1)) := by
  rw [accepted_succ, ← Sampler.offer_holding, ← Sampler.offer_holding]
  rfl

/-! ### The loop from its start (42_sampling.md R161 to R163) -/

/-- Where the loop stands after at most n groups: it has read the least number that yields 256 elements, or all n. -/
theorem Sampler.run_start (S : Nat → Byte) (n : Nat) :
    ∃ g, g ≤ n ∧ Sampler.run S n Sampler.start = Sampler.holding (3 * g) (accepted S g) ∧
      (∀ g', g' < g → (accepted S g').length < 256) ∧ (g = n ∨ 256 ≤ (accepted S g).length) := by
  induction n with
  | zero =>
    exact ⟨0, Nat.le_refl 0, Sampler.start_eq_holding, fun g' h => absurd h (Nat.not_lt_zero g'), .inl rfl⟩
  | succ n ih =>
    obtain ⟨g, hg, hrun, hleast, hend⟩ := ih
    rw [Sampler.run_add, hrun]
    rcases Nat.lt_or_ge (accepted S g).length 256 with hroom | hfull
    · obtain rfl : g = n := hend.resolve_right (by omega)
      refine ⟨g + 1, Nat.le_refl _, ?_, fun g' hg' => ?_, .inl rfl⟩
      · rw [Sampler.run, if_pos (by rw [Sampler.holding_cnt]; omega), Sampler.run, Sampler.group_holding]
      · rcases Nat.lt_succ_iff_lt_or_eq.mp hg' with hlt | rfl
        · exact hleast g' hlt
        · exact hroom
    · refine ⟨g, Nat.le_succ_of_le hg, ?_, hleast, .inr hfull⟩
      exact Sampler.run_of_full S 1 _ (by rw [Sampler.holding_cnt]; omega)

/-- The loop that n groups do not end. -/
theorem Sampler.run_start_of_lt {S : Nat → Byte} {n : Nat} (h : (accepted S n).length < 256) :
    Sampler.run S n Sampler.start = Sampler.holding (3 * n) (accepted S n) := by
  obtain ⟨g, hg, hrun, -, rfl | hfull⟩ := Sampler.run_start S n
  · exact hrun
  · exact absurd (accepted_prefix S hg).length_le (by omega)

/-- The loop that ends within n groups: the least number of groups that yields 256 elements has been read. -/
theorem Sampler.run_start_of_ge {S : Nat → Byte} {n : Nat} (h : 256 ≤ (accepted S n).length) :
    ∃ g, g ≤ n ∧ Sampler.run S n Sampler.start = Sampler.holding (3 * g) (accepted S g) ∧
      256 ≤ (accepted S g).length ∧ ∀ g', g' < g → (accepted S g').length < 256 := by
  obtain ⟨g, hg, hrun, hleast, rfl | hfull⟩ := Sampler.run_start S n
  · exact ⟨g, hg, hrun, h, hleast⟩
  · exact ⟨g, hg, hrun, hfull, hleast⟩

/-- The loop has ended exactly if the groups yield 256 candidates below q. -/
theorem Sampler.run_start_full_iff (S : Nat → Byte) (n : Nat) :
    256 ≤ (Sampler.run S n Sampler.start).cnt ↔ 256 ≤ (accepted S n).length := by
  constructor
  · refine fun hcnt => Nat.not_lt.mp fun hlt => ?_
    rw [Sampler.run_start_of_lt hlt, Sampler.holding_cnt] at hcnt
    omega
  · intro h
    obtain ⟨g, -, hrun, hfull, -⟩ := Sampler.run_start_of_ge h
    rw [hrun, Sampler.holding_cnt]
    omega

/-- The answers of `SAMPLENTT` as a function. -/
theorem sampleNtt_eq_some_iff (S : Nat → Byte) (n : Nat) (r : HPoly × Nat) :
    sampleNtt S n = some r ↔ 256 ≤ (Sampler.run S n Sampler.start).cnt ∧
      ({ c := (Sampler.run S n Sampler.start).a }, (Sampler.run S n Sampler.start).cur) = r := by
  have hdef : sampleNtt S n = if (Sampler.run S n Sampler.start).cnt < 256 then none
      else some ({ c := (Sampler.run S n Sampler.start).a }, (Sampler.run S n Sampler.start).cur) := rfl
  by_cases h : (Sampler.run S n Sampler.start).cnt < 256
  · rw [hdef, if_pos h]
    exact ⟨fun hr => (nomatch hr), fun ⟨hfull, _⟩ => absurd h (Nat.not_lt_of_le hfull)⟩
  · rw [hdef, if_neg h, Option.some.injEq]
    exact ⟨fun hr => ⟨Nat.le_of_not_lt h, hr⟩, fun ⟨_, hr⟩ => hr⟩

theorem sampleNtt_eq_none_iff (S : Nat → Byte) (n : Nat) : sampleNtt S n = none ↔ (accepted S n).length < 256 := by
  rw [← Nat.not_le, ← Sampler.run_start_full_iff, Option.eq_none_iff_forall_ne_some]
  simp only [ne_eq, sampleNtt_eq_some_iff, not_and]
  exact ⟨fun h hfull => h _ hfull rfl, fun h r hfull => absurd hfull h⟩

/-- Settles O18: a loop that has ended stays as it is. -/
theorem sampleDeterministic : Obligations.SampleDeterministic := fun S n m r hr hnm => by
  have hfull := ((sampleNtt_eq_some_iff S n r).mp hr).1
  have hrun : Sampler.run S m Sampler.start = Sampler.run S n Sampler.start := by
    rw [← Nat.add_sub_cancel' hnm, Sampler.run_add, Sampler.run_of_full S _ _ hfull]
  rw [sampleNtt_eq_some_iff, hrun, ← sampleNtt_eq_some_iff]
  exact hr

/-- Settles O19: no candidate is ever kept. -/
theorem sampleHang : Obligations.SampleHang := fun n => by
  rw [sampleNtt_eq_none_iff, accepted_allOnes]
  decide

/-! ### `SAMPLENTT` on the machine (42_sampling.md R161, R162) -/

/-- The sampler after the first turn of a `SAMPLENTT` on the operand at the port. -/
def State.firstTurn (P : Provider) (s : State) : Sampler := Sampler.run (P.XOF s.ports.smpIn) s.groups Sampler.start

/-- Everything the operation can do: it finishes within the turn, or its loop is left. -/
theorem exec_samplentt_cases (s : State) :
    let x := s.firstTurn Config.provider
    let u := (s.setSampler x).log (.reqXof 34)
    (256 ≤ x.cnt ∧ exec .samplentt s = .next (u.log (.stream x.cur))) ∨
      (x.cnt < 256 ∧ exec .samplentt s = .next (u.setTodo (.sampleLoop :: s.todo))) := by
  intro x u
  have hexec : exec .samplentt s = unfinished s (sampleResult u) := rfl
  rw [hexec]
  by_cases h : u.ports.smpCnt < 256
  · exact .inr ⟨h, by rw [sampleResult, if_pos h]; rfl⟩
  · exact .inl ⟨Nat.le_of_not_lt h, by rw [sampleResult, if_neg h]; rfl⟩

/-- Settles O17: where the loop from its start stands, put on the port and in XOFCUR. -/
theorem sampleNttResult : Obligations.SampleNttResult := fun s => by
  have hx := Sampler.run_start_full_iff (Config.provider.XOF s.ports.smpIn) s.groups
  rcases exec_samplentt_cases s with ⟨hcnt, hexec⟩ | ⟨hcnt, hexec⟩ <;> refine ⟨_, hexec, rfl, fun h => ?_, fun h => ?_⟩
  · obtain ⟨g, hg, hrun, hfull, hleast⟩ := Sampler.run_start_of_ge h
    have hturn : s.firstTurn Config.provider = _ := hrun
    rw [hturn]
    refine ⟨rfl, Nat.min_eq_right hfull, fun i hi => ?_, g, hg, rfl, hfull, hleast⟩
    have hi' : i < (accepted (Config.provider.XOF s.ports.smpIn) g).length := by omega
    have hcoeff := Sampler.coeff_holding (3 * g) (accepted (Config.provider.XOF s.ports.smpIn) g) hi
    rw [List.getElem?_eq_getElem hi', Option.getD_some] at hcoeff
    rw [List.prefix_iff_getElem?.mp (accepted_prefix _ hg) i hi']
    exact congrArg some hcoeff
  · exact absurd (hx.mp hcnt) (Nat.not_le_of_lt h)
  · exact absurd (hx.mpr h) (Nat.not_le_of_lt hcnt)
  · have hturn : s.firstTurn Config.provider = _ := Sampler.run_start_of_lt h
    rw [hturn]
    exact ⟨rfl, rfl, Nat.min_eq_left (Nat.le_of_lt h)⟩

/-! ### A word that waits (42_sampling.md R162; 60_exceptions.md R288) -/

/-- While the loop at the head does not end, a turn of the block is a turn of the sampler. -/
theorem settle_sampleLoop_of_wait {P : Provider} {s : State} {ts : List Txn} (n : Nat) (ht : s.todo = .sampleLoop :: ts)
    (hw : (sampleTurn P s).ports.smpCnt < 256) : settle P (n + 1) s = sampleTurn P s := by
  have hwait : doTxn P .sampleLoop (s.setTodo ts) = .wait (sampleTurn P (s.setTodo ts)) := by
    rcases sampleLoopTxn_cases P (s.setTodo ts) with ⟨hfull, -⟩ | ⟨-, hwait⟩
    · exact absurd hw (Nat.not_lt_of_le hfull)
    · exact hwait
  refine settle_succ_of_rest ?_
  simp only [blockStep, ht, hwait]
  rw [← ht]
  rfl

/-- A turn with the sampler's loop at the head of the transactions. -/
theorem blockTurn_of_sampleLoop {s : State} {ts : List Txn} (hf : s.fsm ≠ .unused) (ht : s.todo = .sampleLoop :: ts) :
    blockTurn s = .next (settle Config.provider (s.burst + 1) s) := by
  simp only [blockTurn, if_neg hf, ht]

/-- A turn of a loop that stands where n groups from the start put it reads on from there. -/
theorem sampleTurn_eq_setSampler {P : Provider} {s : State} {n : Nat}
    (h : s.sampler = Sampler.run (P.XOF s.ports.smpIn) n Sampler.start) :
    sampleTurn P s = s.setSampler (Sampler.run (P.XOF s.ports.smpIn) (n + s.groups) Sampler.start) := by
  rw [sampleTurn, h, ← Sampler.run_add]
  rfl

/-- Settles O59: a turn reads some groups more, and the loop stands where all that is read puts it. -/
theorem hangStaysBusy : Obligations.HangStaysBusy := by
  refine ⟨fun P n s ts ht hs hlt => ?_, fun s ts hf ha ht => ?_⟩
  · have hrun (m : Nat) := Sampler.run_start_of_lt (hlt m)
    have hturn := sampleTurn_eq_setSampler hs
    rw [hrun] at hturn
    have hwait : (sampleTurn P s).ports.smpCnt < 256 := by
      rw [hturn]
      exact Nat.lt_of_le_of_lt (Nat.min_le_left _ _) (hlt _)
    refine ⟨_, settle_sampleLoop_of_wait n ht hwait, ?_⟩
    rw [hturn]
    refine ⟨rfl, ?_, ?_⟩
    · simp only [State.sampler_setSampler, State.setSampler_work, State.setSampler_ports, Sampler.holding_cur]
      rw [Nat.mul_div_cancel_left _ (by decide), hrun]
    · have hcur : s.sampler.cur = 3 * (s.work.xofcur / 3) := by rw [hs, hrun, Sampler.holding_cur]
      have hmore : 3 * (s.work.xofcur / 3) < 3 * (s.work.xofcur / 3 + s.groups) := by
        rw [State.groups]
        omega
      exact Nat.lt_of_le_of_lt (Nat.le_of_eq hcur) hmore
  · rw [step_of_turn (.inr ⟨ha, rfl⟩)]
    exact (blockTurn_of_sampleLoop (s := s.setAgenda []) hf ht).trans (by rw [← ha]; rfl)

/-! ### `CBD eta` (42_sampling.md R166) -/

theorem countBits_lt_q (b : Nat → Bool) (eta : Eta) : countBits b eta.val < q :=
  Nat.lt_of_le_of_lt (Nat.le_trans (countBits_le b eta.val) (eta_le eta).2) (by decide)

/-- A count of at most eta bits as an element. -/
theorem toNat_ofNat_countBits (b : Nat → Bool) (eta : Eta) :
    (BitVec.ofNat 12 (countBits b eta.val)).toNat = countBits b eta.val :=
  (BitVec.toNat_ofNat _ _).trans (Nat.mod_eq_of_lt (Nat.lt_trans (countBits_lt_q b eta) (by decide)))

/-- Coefficient i as the difference of two counts of bits mod q. -/
theorem toNat_coeff_cbd (eta : Eta) (B : List Byte) {i : Nat} (hi : i < 256) :
    ((coeff (cbd eta B).c i).toNat : Int) =
      ((countBits (fun j => bitAt B (2 * i * eta.val + j)) eta.val : Int)
        - countBits (fun j => bitAt B (2 * i * eta.val + eta.val + j)) eta.val) % (q : Int) := by
  have hlt (b : Nat → Bool) : (BitVec.ofNat 12 (countBits b eta.val)).toNat < q := by
    rw [toNat_ofNat_countBits]
    exact countBits_lt_q b eta
  rw [coeff_cbd eta B hi, subq_toNat (hlt _) (hlt _), ← toNat_sub_emod_q _ (hlt _), toNat_ofNat_countBits,
    toNat_ofNat_countBits, Int.toNat_of_nonneg (Int.emod_nonneg _ (by decide))]

/-- `CBD eta` depends on no byte beyond the first 64 eta. -/
theorem cbd_slice (eta : Eta) (B : List Byte) : cbd eta (slice B 0 (64 * eta.val)) = cbd eta B := by
  refine congrArg NPoly.mk (coeff_ext (f := (cbd eta _).c) (g := (cbd eta B).c) fun i hi => ?_)
  have hbits (m : Nat) (hm : m < 512 * eta.val) : bitAt (slice B 0 (64 * eta.val)) m = bitAt B m := by
    rw [bitAt_slice _ _ _ _ (by omega), Nat.mul_zero, Nat.zero_add]
  have hlane : 2 * i * eta.val + 2 * eta.val ≤ 512 * eta.val := by
    rw [← Nat.add_mul]
    exact Nat.mul_le_mul_right _ (by omega)
  rw [coeff_cbd _ _ hi, coeff_cbd _ _ hi, countBits_congr fun j hj => hbits _ (by omega),
    countBits_congr fun j hj => hbits (2 * i * eta.val + eta.val + j) (by omega)]

theorem legalEta_etaArg (eta : Eta) : legalEta (etaArg eta) = true := by cases eta <;> rfl

/-- The word of `CBD eta` (30_encoding.md R92). -/
theorem encode_cbd (eta : Eta) : encode (.cbd (etaArg eta)) = 0x0700#16 + (etaArg eta).zeroExtend 16 := by
  cases eta <;> rfl

theorem exec_cbd (eta : Eta) (s : State) : exec (.cbd (etaArg eta)) s = .next (cbdUnit eta s) := by
  simp only [exec, execCbd, etaOfArg_etaArg]

/-- Settles O20: the unit's result is `CBD eta` of its whole port. -/
theorem cbdResult : Obligations.CbdResult := fun eta s => by
  refine ⟨cbd eta s.ports.cbdIn.toList, ?_, ?_, fun i hi => ?_⟩
  · rw [← encode_cbd]
    exact decodeEncode _ (legalEta_etaArg eta)
  · rw [exec_cbd, cbdUnit, cbd_slice]
    rfl
  · rw [toNat_coeff_cbd eta _ hi, countBits_eq_countP, countBits_eq_countP]

/-- Settles O21: each count is at most eta. -/
theorem cbdRange : Obligations.CbdRange := fun eta B i hi => by
  have hdiff := toNat_coeff_cbd eta B hi
  have hx := countBits_le (fun j => bitAt B (2 * i * eta.val + j)) eta.val
  have hy := countBits_le (fun j => bitAt B (2 * i * eta.val + eta.val + j)) eta.val
  have heta := (eta_le eta).2
  rw [q_eq] at *
  omega

end Sys2Proof.Machine
end

section
/-! PROOFS. The statements of 43_compress_encode.md. Rounding is read as its two inequalities, so that the error of `COMPRESS d`
followed by `DECOMPRESS d` is the sum of two errors; byte strings are read bit by bit. -/

namespace Sys2Proof.Machine

open Sys2Proof

/-! ### Rounding (43_compress_encode.md R180) -/

theorem le_roundDiv_iff {b : Nat} (hb : 0 < b) (a r : Nat) : r ≤ roundDiv a b ↔ 2 * (r * b) ≤ 2 * a + b := by
  rw [roundDiv, Nat.le_div_iff_mul_le (by omega), Nat.mul_left_comm]

theorem roundDiv_lt_iff {b : Nat} (hb : 0 < b) (a r : Nat) : roundDiv a b < r ↔ 2 * a + b < 2 * (r * b) := by
  rw [← Nat.not_le, le_roundDiv_iff hb, Nat.not_le]

/-- A quotient is rounded by at most a half, down by less. -/
theorem roundDiv_error {b : Nat} (hb : 0 < b) (a : Nat) :
    2 * (roundDiv a b * b) ≤ 2 * a + b ∧ 2 * a < 2 * (roundDiv a b * b) + b := by
  have hup := (le_roundDiv_iff hb a _).mp (Nat.le_refl _)
  have hdown := (roundDiv_lt_iff hb a _).mp (Nat.lt_succ_self _)
  rw [Nat.succ_mul (roundDiv a b)] at hdown
  omega

/-- The only number within a half of the quotient. -/
theorem roundDiv_eq_of_error {a b r : Nat} (hb : 0 < b) (hup : 2 * (r * b) ≤ 2 * a + b) (hdown : 2 * a < 2 * (r * b) + b) :
    roundDiv a b = r := by
  refine Nat.le_antisymm (Nat.le_of_lt_succ ?_) ((le_roundDiv_iff hb a r).mpr hup)
  rw [roundDiv_lt_iff hb, Nat.succ_mul r]
  omega

theorem roundDiv_add_mul {b : Nat} (hb : 0 < b) (a k : Nat) : roundDiv (a + k * b) b = roundDiv a b + k := by
  obtain ⟨hup, hdown⟩ := roundDiv_error hb a
  apply roundDiv_eq_of_error hb <;> rw [Nat.add_mul] <;> omega

/-- Numbers that are apart by at most `a / b` and a half are apart by at most `round(a / b)`. -/
theorem le_add_roundDiv {a b x y : Nat} (hb : 0 < b) (h : 2 * (y * b) ≤ 2 * (x * b) + (2 * a + b)) :
    y ≤ x + roundDiv a b := by
  have hdiff : y - x ≤ roundDiv a b := by
    rw [le_roundDiv_iff hb, Nat.sub_mul]
    omega
  omega

/-! ### The lanes (43_compress_encode.md R181, R182) -/

theorem two_pow_lt_q {d : Nat} (hd : d ≤ 11) : 2 ^ d < q :=
  Nat.lt_of_le_of_lt (Nat.pow_le_pow_right (by decide) hd) (by decide)

theorem toNat_compressElem {d : Nat} (hd : d ≤ 11) (x : Elem) :
    (compressElem d x).toNat = roundDiv (x.toNat * 2 ^ d) q % 2 ^ d := by
  have hlt := Nat.mod_lt (roundDiv (x.toNat * 2 ^ d) q) (Nat.two_pow_pos d)
  have hq : q < 2 ^ 12 := by decide
  rw [compressElem, BitVec.toNat_ofNat, Nat.mod_eq_of_lt (Nat.lt_trans hlt (Nat.lt_trans (two_pow_lt_q hd) hq))]

/-- A d-bit value is decompressed to a number below q. -/
theorem roundDiv_mul_q_lt {d y : Nat} (hd : d ≤ 11) (hy : y < 2 ^ d) : roundDiv (y * q) (2 ^ d) < q := by
  have hlane : (y + 1) * q ≤ 2 ^ d * q := Nat.mul_le_mul_right q hy
  have hpow := two_pow_lt_q hd
  rw [roundDiv_lt_iff (Nat.two_pow_pos d), Nat.mul_comm q]
  rw [Nat.succ_mul y] at hlane
  omega

theorem toNat_decompressElem {d : Nat} {y : Elem} (hd : d ≤ 11) (hy : y.toNat < 2 ^ d) :
    (decompressElem d y).toNat = roundDiv (y.toNat * q) (2 ^ d) := by
  rw [decompressElem, BitVec.toNat_ofNat, Nat.mod_eq_of_lt (Nat.lt_trans (roundDiv_mul_q_lt hd hy) (by decide))]

/-- Settles O25: a decompressed value is within a half of `y q / 2^d`, so compressed it is within `2^d / (2 q)`, which is less
than a half, of y. -/
theorem compressDecompress : Obligations.CompressDecompress := fun d y _ hd hy => by
  obtain ⟨hup, hdown⟩ := roundDiv_error (Nat.two_pow_pos d) (y.toNat * q)
  have hpow := two_pow_lt_q hd
  apply BitVec.eq_of_toNat_eq
  rw [toNat_compressElem hd, toNat_decompressElem hd hy, roundDiv_eq_of_error (r := y.toNat) (by decide) (by omega) (by omega),
    Nat.mod_eq_of_lt hy]

/-- What `DECOMPRESS d` makes of a number reduced mod 2^d is, mod q, what it would make of the number itself. -/
theorem roundDiv_mod_mul_q {d : Nat} (hd : d ≤ 11) (c : Nat) :
    roundDiv (c % 2 ^ d * q) (2 ^ d) = roundDiv (c * q) (2 ^ d) % q := by
  have hsplit : c * q = c % 2 ^ d * q + c / 2 ^ d * q * 2 ^ d := by
    rw [Nat.mul_right_comm, ← Nat.add_mul, Nat.mod_add_div']
  have hlt := roundDiv_mul_q_lt hd (Nat.mod_lt c (Nat.two_pow_pos d))
  rw [hsplit, roundDiv_add_mul (Nat.two_pow_pos d), Nat.add_mul_mod_self_right, Nat.mod_eq_of_lt hlt]

/-- The way around the circle of q elements from b up to a is at most the way along a line. -/
theorem add_sub_mod_q_le {a b B : Nat} (hba : b ≤ a) (hB : a ≤ b + B) : (a + q - b) % q ≤ B := by
  rw [Nat.sub_add_comm hba, Nat.add_mod_right]
  exact Nat.le_trans (Nat.mod_le _ _) (Nat.sub_le_iff_le_add'.mpr hB)

/-- The distance around the circle is at most the distance along a line (43_compress_encode.md R184). -/
theorem circle_distance_le {x X B : Nat} (hx : x < q) (hX : X ≤ x + B) (hx' : x ≤ X + B) :
    min ((X % q + q - x) % q) ((x + q - X % q) % q) ≤ B := by
  rcases Nat.le_total x X with hle | hle
  · have hmod : (X % q + q - x) % q = (X + q - x) % q := by
      rw [Nat.add_sub_assoc (Nat.le_of_lt hx), Nat.add_sub_assoc (Nat.le_of_lt hx), Nat.mod_add_mod]
    exact Nat.le_trans (Nat.min_le_left _ _) (hmod ▸ add_sub_mod_q_le hle hX)
  · rw [Nat.mod_eq_of_lt (Nat.lt_of_le_of_lt hle hx)]
    exact Nat.le_trans (Nat.min_le_right _ _) (add_sub_mod_q_le hle hx')

/-- Settles O24: the error is the sum of those of two roundings, `q / 2^(d+1)` in the scale of the coefficients and a half. -/
theorem compressionBound : Obligations.CompressionBound := fun d x _ hd hx => by
  have hpos : 0 < 2 ^ (d + 1) := Nat.two_pow_pos _
  have hcompressed := Nat.mod_lt (roundDiv (x.toNat * 2 ^ d) q) (Nat.two_pow_pos d)
  simp only [toNat_decompressElem hd (toNat_compressElem hd x ▸ hcompressed), toNat_compressElem hd, roundDiv_mod_mul_q hd]
  obtain ⟨hup, hdown⟩ := roundDiv_error (show 0 < q by decide) (x.toNat * 2 ^ d)
  obtain ⟨hup', hdown'⟩ := roundDiv_error (Nat.two_pow_pos d) (roundDiv (x.toNat * 2 ^ d) q * q)
  have hscale (n : Nat) : n * 2 ^ (d + 1) = 2 * (n * 2 ^ d) := by rw [Nat.pow_succ', Nat.mul_left_comm]
  refine circle_distance_le hx (le_add_roundDiv hpos ?_) (le_add_roundDiv hpos ?_) <;>
    rw [hscale, hscale, Nat.pow_succ] <;> omega

/-! ### The words of the unit (30_encoding.md R92) -/

theorem encode_compress : ∀ d : BitVec 4, encode (.compress d) = 0x0800#16 + d.zeroExtend 16 := by decide
theorem encode_decompress : ∀ d : BitVec 4, encode (.decompress d) = 0x0810#16 + d.zeroExtend 16 := by decide
theorem encode_byteenc : ∀ d : BitVec 4, encode (.byteenc d) = 0x0820#16 + d.zeroExtend 16 := by decide
theorem encode_bytedec : ∀ d : BitVec 4, encode (.bytedec d) = 0x0830#16 + d.zeroExtend 16 := by decide

/-- The word of an existing operation, however it is written, decodes to it. -/
theorem decode_of_encode_eq {i : Instr} {w : Word16} (he : encode i = w) (hw : i.wellFormed = true) : decode w = .ok i :=
  he ▸ decodeEncode i hw

theorem exec_bytedec {d : BitVec 4} (s : State) (hd : legalByteWidth d = true) :
    exec (.bytedec d) s = .next (bytedecUnit d.toNat s) := if_pos hd

/-! ### `COMPRESS d` and `DECOMPRESS d` (43_compress_encode.md R181, R182) -/

theorem coeff_compress (d : Nat) {f : NPoly} (hf : canonical f.c = true) {i : Nat} (hi : i < 256) :
    coeff (compress d f) i = compressElem d (coeff f.c i) := by
  rw [compress, if_pos hf, coeff_tabulate _ hi]

theorem coeff_decompress {d : Nat} {y : Coeffs} (hy : fitsBits d y = true) {i : Nat} (hi : i < 256) :
    coeff (decompress d y).c i = decompressElem d (coeff y i) := by
  rw [decompress, if_pos hy, coeff_tabulate _ hi]

/-- Settles O22: the lanes of the unit's result, with `2 x 2^d` written as `2^(d+1) x`. -/
theorem compressResult : Obligations.CompressResult := fun d s h1 h11 hf => by
  have hd := (legalCompressWidth_iff d).mpr ⟨h1, h11⟩
  refine ⟨decode_of_encode_eq (encode_compress d) hd, _, exec_compress s hd, fun i hi => ?_⟩
  have hscale (x : Nat) : 2 * (x * 2 ^ d.toNat) = 2 ^ (d.toNat + 1) * x := by
    rw [Nat.mul_left_comm, ← Nat.pow_succ', Nat.mul_comm]
  rw [coeff_compress _ hf hi, toNat_compressElem h11, roundDiv, hscale]

/-- Settles O23: the lanes of the unit's result, the fraction reduced by 2. -/
theorem decompressResult : Obligations.DecompressResult := fun d s h1 h11 hy => by
  have hd := (legalCompressWidth_iff d).mpr ⟨h1, h11⟩
  refine ⟨decode_of_encode_eq (encode_decompress d) hd, _, exec_decompress s hd, canonical_decompress _ _ h11 hy,
    fun i hi => ?_⟩
  have hhalf : 2 * 2 ^ (d.toNat - 1) = 2 ^ d.toNat := by rw [← Nat.pow_succ', Nat.succ_eq_add_one, Nat.sub_add_cancel h1]
  rw [coeff_decompress hy hi, toNat_decompressElem h11 ((fitsBits_iff _ _).mp hy i hi), roundDiv, Nat.mul_comm q,
    ← Nat.mul_div_mul_left (_ * q + _) _ Nat.two_pos, Nat.mul_add, hhalf]

/-! ### The bits of a byte string (43_compress_encode.md R185) -/

/-- Byte strings of the same length with the same bits are the same. -/
theorem eq_of_bitAt_eq {A B : List Byte} (hlen : A.length = B.length) (h : ∀ m, m < 8 * B.length → bitAt A m = bitAt B m) :
    A = B := by
  refine List.ext_getElem hlen fun t hA hB => BitVec.eq_of_getLsbD_eq fun j hj => ?_
  have hbit := h (8 * t + j) (by omega)
  simp only [bitAt, show (8 * t + j) / 8 = t by omega, show (8 * t + j) % 8 = j by omega, ← List.getElem_eq_getD (h := hA),
    ← List.getElem_eq_getD (h := hB)] at hbit
  exact hbit

/-- The bits of a register in a field written at its start. -/
theorem bitAt_writeField {n : Nat} (v : Bytes n) (B : List Byte) (hn : B.length ≤ n) {m : Nat} (hm : m < 8 * B.length) :
    bitAt (writeField v 0 B).toList m = bitAt B m := by
  have hfield := bitAt_slice (writeField v 0 B).toList 0 B.length m hm
  rwa [slice_writeField v 0 B (by omega), Nat.mul_zero, Nat.zero_add, eq_comm] at hfield

/-- Bit m of `BYTEENC d` is bit (m mod d) of element floor(m / d). -/
theorem bitAt_byteEncode {d : Nat} {F : Coeffs} (hF : encodable d F = true) {m : Nat} (hm : m < 256 * d) :
    bitAt (byteEncode d F) m = (coeff F (m / d)).getLsbD (m % d) := by
  have hbyte : (byteEncode d F).getD (m / 8) 0 = encodedByte d F (m / 8) := by
    have ht : m / 8 < 32 * d := by omega
    rw [byteEncode, if_pos hF, ← List.getElem_eq_getD (h := by simpa using ht), List.getElem_map, List.getElem_range]
  rw [bitAt, hbyte, encodedByte_getLsbD _ _ _ _ (Nat.mod_lt m (by decide)), Nat.div_add_mod]

/-- Settles O26: the bits of the field the unit writes, and the bytes behind it. -/
theorem byteencResult : Obligations.ByteencResult := fun d s h1 h12 hF => by
  have hd := (legalByteWidth_iff d).mpr ⟨h1, h12⟩
  have hlen := byteEncode_length d.toNat s.ports.bencIn h12
  refine ⟨decode_of_encode_eq (encode_byteenc d) hd, _, exec_byteenc s hd, fun m hm => ?_,
    fun i hi => byteencUnit_keeps_rest s h12 hi⟩
  rw [bitAt_writeField _ _ (by omega) (by omega), bitAt_byteEncode hF hm]

/-! ### The groups of d bits (43_compress_encode.md R186) -/

theorem decodedValue_lt {d : Nat} (hd : d ≤ 12) (B : List Byte) (i : Nat) : decodedValue d B i < 2 ^ 12 :=
  Nat.lt_of_lt_of_le (bitsToNat_lt _ d) (Nat.pow_le_pow_right (by decide) hd)

theorem toNat_coeff_byteDecode {d : Nat} (hd : d ≤ 12) (B : List Byte) {i : Nat} (hi : i < 256) :
    (coeff (byteDecode d B) i).toNat = if d = 12 then decodedValue d B i % q else decodedValue d B i := by
  have hlt := decodedValue_lt hd B i
  rw [byteDecode, coeff_tabulate _ hi, BitVec.toNat_ofNat, Nat.mod_eq_of_lt]
  split
  · exact Nat.lt_of_le_of_lt (Nat.mod_le _ _) hlt
  · exact hlt

/-- Settles O27: the groups of the port's first 32 d bytes are those of the whole port. -/
theorem bytedecResult : Obligations.BytedecResult := fun d s h1 h12 => by
  have hd := (legalByteWidth_iff d).mpr ⟨h1, h12⟩
  refine ⟨decode_of_encode_eq (encode_bytedec d) hd, _, exec_bytedec s hd, fun i hi => ?_⟩
  rw [byteDecode_slice, toNat_coeff_byteDecode h12 _ hi, decodedValue, bitsToNat_eq_sum]

/-! ### The round trips (43_compress_encode.md R187) -/

/-- An element of an operand of `BYTEENC d` has at most d bits. -/
theorem coeff_lt_of_encodable {d : Nat} {F : Coeffs} (hF : encodable d F = true) {i : Nat} (hi : i < 256) :
    (coeff F i).toNat < 2 ^ d := by
  unfold encodable at hF
  split at hF
  next h12 => exact h12 ▸ (coeff F i).isLt
  next => exact (fitsBits_iff d F).mp hF i hi

/-- The groups of `BYTEENC d` are the elements. -/
theorem decodedValue_byteEncode {d : Nat} {F : Coeffs} (hF : encodable d F = true) {i : Nat} (hi : i < 256) :
    decodedValue d (byteEncode d F) i = (coeff F i).toNat := by
  have hlane : i * d + d ≤ 256 * d := Nat.succ_mul i d ▸ Nat.mul_le_mul_right d hi
  calc decodedValue d (byteEncode d F) i = bitsToNat (coeff F i).toNat.testBit d := by
        refine bitsToNat_congr fun j hj => ?_
        obtain ⟨hdiv, hmod⟩ := (Nat.div_mod_unique (a := i * d + j) (by omega)).mpr ⟨by rw [Nat.mul_comm, Nat.add_comm], hj⟩
        rw [bitAt_byteEncode hF (by omega), hdiv, hmod, BitVec.testBit_toNat]
    _ = (coeff F i).toNat := by rw [bitsToNat_testBit, Nat.mod_eq_of_lt (coeff_lt_of_encodable hF hi)]

/-- Settles O28: each group is the element, which for d = 12 is below q. -/
theorem byteRoundTrip : Obligations.ByteRoundTrip := fun d F _ hd hF => by
  refine ⟨byteEncode_length d F hd, coeff_ext fun i hi => BitVec.eq_of_toNat_eq ?_⟩
  rw [toNat_coeff_byteDecode hd _ hi, decodedValue_byteEncode hF hi]
  split
  next h12 =>
    rw [encodable, if_pos h12] at hF
    exact Nat.mod_eq_of_lt (coeff_lt hF i)
  next => rfl

/-- Bit j of a group is a bit of the string. -/
theorem getLsbD_coeff_byteDecode {d : Nat} (hd : d ≤ 11) (B : List Byte) {i j : Nat} (hi : i < 256) (hj : j < d) :
    (coeff (byteDecode d B) i).getLsbD j = bitAt B (i * d + j) := by
  rw [← BitVec.testBit_toNat, toNat_coeff_byteDecode (by omega) B hi, if_neg (by omega), decodedValue, testBit_bitsToNat]
  simp [hj]

/-- Settles O29: every bit of the string is in one group. -/
theorem byteRoundTripBack : Obligations.ByteRoundTripBack := fun d B h1 hd hB => by
  have hF : encodable d (byteDecode d B) = true := by
    rw [encodable, if_neg (by omega)]
    exact fitsBits_byteDecode d B hd
  refine eq_of_bitAt_eq ((byteEncode_length d _ (by omega)).trans hB.symm) fun m hm => ?_
  have hm : m < 256 * d := by omega
  rw [bitAt_byteEncode hF hm, getLsbD_coeff_byteDecode hd B ((Nat.div_lt_iff_lt_mul h1).mpr hm) (Nat.mod_lt m h1),
    Nat.div_add_mod']

end Sys2Proof.Machine
end


section
/-! PROOFS. The statements of 44_kpke.md. A sequence of transactions is read as a computation: it runs to its end where the
function has an answer, and stops where it has none. Its loops are the maps of the function over the indices of a rank. -/

namespace Sys2Proof.Machine

open Sys2Proof

/-! ### A sequence as a computation -/

/-- The sequence runs to its end, in a state of which `Q` holds. -/
def Runs (P : Provider) (ts : List Txn) (s : State) (Q : State → Prop) : Prop := ∃ t, runSeq P ts s = (t, []) ∧ Q t

/-- The sequence computes an answer: where there is one it runs to its end, in a state of which `Q` holds with the answer, and
where there is none it stops before its end. -/
def Computes {α : Type} (P : Provider) (ts : List Txn) (s : State) : Option α → (α → State → Prop) → Prop
  | some a, Q => Runs P ts s (Q a)
  | none, _ => (runSeq P ts s).2 ≠ []

section
variable {α β : Type} {P : Provider} {ts us : List Txn} {s : State}

theorem runSeq_append_of_done {t : State} (h : runSeq P ts s = (t, [])) : runSeq P (ts ++ us) s = runSeq P us t := by
  rw [runSeq_append, h]

theorem runSeq_append_ne_nil (h : (runSeq P ts s).2 ≠ []) : (runSeq P (ts ++ us) s).2 ≠ [] := by
  rw [runSeq_append]
  split
  next hr => exact absurd (congrArg Prod.snd hr) h
  next => exact List.cons_ne_nil _ _

theorem Runs.imp {Q R : State → Prop} (h : Runs P ts s Q) (h' : ∀ t, Q t → R t) : Runs P ts s R := by
  obtain ⟨t, hr, hQ⟩ := h
  exact ⟨t, hr, h' t hQ⟩

theorem Runs.and {Q R : State → Prop} (h : Runs P ts s Q) (h' : Runs P ts s R) : Runs P ts s fun t => Q t ∧ R t := by
  obtain ⟨t, hr, hQ⟩ := h
  obtain ⟨u, hu, hR⟩ := h'
  obtain rfl : t = u := congrArg Prod.fst (hr.symm.trans hu)
  exact ⟨t, hr, hQ, hR⟩

theorem Runs.append {Q R : State → Prop} (h : Runs P ts s Q) (h' : ∀ t, Q t → Runs P us t R) : Runs P (ts ++ us) s R := by
  obtain ⟨t, hr, hQ⟩ := h
  obtain ⟨u, hu, hR⟩ := h' t hQ
  exact ⟨u, (runSeq_append_of_done hr).trans hu, hR⟩

/-- A computation behind a sequence that runs to its end. -/
theorem Runs.then {Q : State → Prop} {o : Option α} {R : α → State → Prop} (h : Runs P ts s Q)
    (h' : ∀ t, Q t → Computes P us t o R) : Computes P (ts ++ us) s o R := by
  cases o with
  | some a => exact h.append h'
  | none =>
    obtain ⟨t, hr, hQ⟩ := h
    rw [Computes, runSeq_append_of_done hr]
    exact h' t hQ

/-- Two computations, the second one of the first one's answer. -/
theorem Computes.bind {o : Option α} {f : α → Option β} {Q : α → State → Prop} {R : β → State → Prop}
    (h : Computes P ts s o Q) (h' : ∀ a t, Q a t → Computes P us t (f a) R) : Computes P (ts ++ us) s (o.bind f) R := by
  cases o with
  | some a => exact Runs.then h (h' a)
  | none => exact runSeq_append_ne_nil h

/-- A computation and a sequence that runs to its end behind it. -/
theorem Computes.append {o : Option α} {Q R : α → State → Prop} (h : Computes P ts s o Q)
    (h' : ∀ a t, Q a t → Runs P us t (R a)) : Computes P (ts ++ us) s o R := by
  rw [← Option.bind_fun_some o]
  exact h.bind h'

/-- A computation whose answer is mapped. -/
theorem Computes.map {o : Option α} (g : α → β) {R : β → State → Prop} (h : Computes P ts s o fun a => R (g a)) :
    Computes P ts s (o.map g) R := by
  cases o <;> exact h

theorem Computes.imp {o : Option α} {Q R : α → State → Prop} (h : Computes P ts s o Q) (h' : ∀ a t, Q a t → R a t) :
    Computes P ts s o R := by
  cases o with
  | some a => exact Runs.imp h (h' a)
  | none => exact h

end

/-! ### The loops over a rank -/

theorem length_rankIdx (k : Rank) : (rankIdx k).length = rankVal k := by cases k <;> rfl

theorem map_val_rankIdx (k : Rank) : (rankIdx k).map Fin.val = List.range' 0 (rankIdx k).length := by cases k <;> rfl

theorem val_getElem_rankIdx {k : Rank} {n : Nat} (hn : n < (rankIdx k).length) : (rankIdx k)[n].val = n := by
  have h := congrArg (fun l => l[n]?) (map_val_rankIdx k)
  simpa [hn] using h

theorem lt_rankVal {k : Rank} {i : Fin 4} (hi : i ∈ rankIdx k) : i.val < rankVal k := by
  obtain ⟨n, hn, rfl⟩ := List.getElem_of_mem hi
  rw [val_getElem_rankIdx, ← length_rankIdx]
  exact hn

/-- Entry i of a list over the indices of a rank. -/
theorem getElem?_map_rankIdx {β : Type} {k : Rank} {i : Fin 4} (hi : i ∈ rankIdx k) (g : Fin 4 → β) :
    ((rankIdx k).map g)[i.val]? = some (g i) := by
  obtain ⟨n, hn, rfl⟩ := List.getElem_of_mem hi
  rw [val_getElem_rankIdx, List.getElem?_map, List.getElem?_eq_getElem hn, Option.map_some]

/-- A list with an entry for each index of a rank. -/
theorem map_rankIdx_eq {β : Type} {k : Rank} {l : List β} {g : Fin 4 → β} (hl : l.length = (rankIdx k).length)
    (h : ∀ i ∈ rankIdx k, l[i.val]? = some (g i)) : (rankIdx k).map g = l := by
  refine List.ext_getElem (by rw [List.length_map, hl]) fun n h1 h2 => ?_
  have hn : n < (rankIdx k).length := hl ▸ h2
  have hentry := h _ (List.getElem_mem hn)
  rw [val_getElem_rankIdx, List.getElem?_eq_getElem h2, Option.some.injEq] at hentry
  rw [List.getElem_map, hentry]

section
variable {α : Type} {P : Provider} {body : Fin 4 → List Txn} {f : Fin 4 → Option α} {Inv : List α → State → Prop}

/-- A loop over consecutive indices, from the answers it already has. -/
theorem Computes.loop_from {is : List (Fin 4)} {as : List α} {s : State}
    (hbody : ∀ i ∈ is, ∀ as u, as.length = i.val → Inv as u → Computes P (body i) u (f i) fun a => Inv (as ++ [a]))
    (his : is.map Fin.val = List.range' as.length is.length) (h0 : Inv as s) :
    Computes P (is.flatMap body) s (is.mapM f) fun bs t => bs.length = is.length ∧ Inv (as ++ bs) t := by
  induction is generalizing as s with
  | nil => exact ⟨s, rfl, rfl, (List.append_nil as).symm ▸ h0⟩
  | cons i is ih =>
    obtain ⟨hi, his⟩ : i.val = as.length ∧ is.map Fin.val = List.range' (as.length + 1) is.length := by
      simpa [List.range'_succ] using his
    have hmapM : (i :: is).mapM f = (f i).bind fun a => (is.mapM f).map (a :: ·) := by
      rw [List.mapM_cons]
      cases f i <;> cases is.mapM f <;> rfl
    rw [hmapM]
    refine (hbody i List.mem_cons_self as s hi.symm h0).bind fun a t ht => ?_
    have hrest := ih (as := as ++ [a]) (fun j hj => hbody j (List.mem_cons_of_mem i hj)) (by simpa using his) ht
    refine .map _ (hrest.imp fun bs t ⟨hlen, hInv⟩ => ⟨by simpa using hlen, ?_⟩)
    rwa [List.append_cons]

/-- A loop over the indices of a rank: `Inv` of the answers so far is kept by each turn. -/
theorem Computes.loop {k : Rank} {s : State} (h0 : Inv [] s)
    (hbody : ∀ i ∈ rankIdx k, ∀ as u, as.length = i.val → Inv as u →
      Computes P (body i) u (f i) fun a => Inv (as ++ [a])) :
    Computes P ((rankIdx k).flatMap body) s ((rankIdx k).mapM f) fun as t => as.length = rankVal k ∧ Inv as t :=
  length_rankIdx k ▸ Computes.loop_from (as := []) hbody (map_val_rankIdx k) h0

end

/-- The registers of a four-entry group that a rank uses, in order (10_state.md R32). -/
def regs {β : Type} (k : Rank) (v : Vector β 4) : List β := (rankIdx k).map fun i => v[i]

theorem getElem_of_regs_eq {β : Type} {k : Rank} {v : Vector β 4} {g : Fin 4 → β} (h : regs k v = (rankIdx k).map g)
    {i : Fin 4} (hi : i ∈ rankIdx k) : v[i] = g i :=
  List.map_inj_left.mp h i hi

section
variable {β : Type} {P : Provider} {body : Fin 4 → List Txn} {k : Rank} {s : State} {grp : State → Vector β 4}
  {R : Nat → State → Prop}

/-- A loop that computes one register of a group after the other. -/
theorem Computes.group {f : Fin 4 → Option β} (h0 : R 0 s)
    (hbody : ∀ i ∈ rankIdx k, ∀ u, R i.val u →
      Computes P (body i) u (f i) fun a t => grp t = (grp u).set i a ∧ R (i.val + 1) t) :
    Computes P ((rankIdx k).flatMap body) s ((rankIdx k).mapM f) fun as t => regs k (grp t) = as ∧ R (rankVal k) t := by
  have hloop := Computes.loop (k := k) (f := f) (body := body) (P := P) (s := s)
    (Inv := fun as u => (∀ j : Fin 4, j.val < as.length → as[j.val]? = some (grp u)[j]) ∧ R as.length u)
    ⟨fun j hj => absurd hj (Nat.not_lt_zero _), h0⟩ fun i hi as u hlen ⟨hgroup, hR⟩ => by
      refine (hbody i hi u (hlen ▸ hR)).imp fun a t ⟨hset, hR'⟩ => ⟨fun j hj => ?_, by simpa [hlen] using hR'⟩
      rw [List.length_append, List.length_singleton] at hj
      rw [hset]
      by_cases hji : j = i
      · subst hji
        simp [← hlen]
      · have hlt : j.val < as.length := by
          have := Fin.val_ne_of_ne hji
          omega
        rw [List.getElem?_append_left hlt, hgroup j hlt]
        simp [Fin.val_ne_of_ne (Ne.symm hji)]
  refine hloop.imp fun as t ⟨hlen, hgroup, hR⟩ => ⟨?_, hlen ▸ hR⟩
  exact map_rankIdx_eq (hlen.trans (length_rankIdx k).symm) fun i hi => hgroup i (hlen ▸ lt_rankVal hi)

/-- A loop that writes one register of a group after the other. -/
theorem Runs.group {v : Fin 4 → β} (h0 : R 0 s)
    (hbody : ∀ i ∈ rankIdx k, ∀ u, R i.val u →
      Runs P (body i) u fun t => grp t = (grp u).set i (v i) ∧ R (i.val + 1) t) :
    Runs P ((rankIdx k).flatMap body) s fun t => regs k (grp t) = (rankIdx k).map v ∧ R (rankVal k) t := by
  have hloop := Computes.group (f := fun i => pure (v i)) h0 hbody
  rwa [List.mapM_pure] at hloop

end

/-! ### `SamplePRF` (44_kpke.md R201) -/

/-- The small polynomial read from PRFBUF is the one of SIGMA and NCTR. -/
theorem cbd_prfTxn {P : Provider} {eta : Eta} {s : State} {sigma : List Byte} {N : Nat}
    (hs : s.work.sigma = bytesOfList 32 sigma) (hn : s.work.nctr = BitVec.ofNat 8 N) :
    cbd eta (slice (prfTxn P eta s).work.prfbuf.toList 0 (64 * eta.val)) = smallPoly P eta sigma N := by
  have hfield := slice_writeField s.work.prfbuf 0 (P.PRF eta s.work.sigma s.work.nctr).toList
    (by have := (eta_le eta).2; rw [Vector.length_toList]; omega)
  rw [Vector.length_toList] at hfield
  rw [smallPoly, ← hs, ← hn]
  exact congrArg (cbd eta) hfield

/-- The state after `SamplePRF` has put a polynomial into a register, with what it leaves in PRFBUF and the trace. -/
def State.sampled (s : State) (dst : NReg) (f : NPoly) (buf : Bytes 192) (tr : List TraceItem) : State :=
  { s with work := { s.work.setN dst f with prfbuf := buf, nctr := s.work.nctr + 1 }, trace := tr }

theorem Work.setN_prfbuf_nctr (w : Work) (dst : NReg) (f : NPoly) (buf : Bytes 192) (n : Byte) :
    ({ ({ w with prfbuf := buf } : Work).setN dst f with nctr := n } : Work) =
      { w.setN dst f with prfbuf := buf, nctr := n } := by
  cases dst <;> rfl

theorem cbdTxn_eq_sampled (eta : Eta) (dst : NReg) (buf : Bytes 192) (x : TraceItem) (s : State) :
    cbdTxn eta dst ((s.setWork { s.work with prfbuf := buf }).log x) =
      s.sampled dst (cbd eta (slice buf.toList 0 (64 * eta.val))) buf (.unit (encode (.cbd (etaArg eta))) 1 :: x :: s.trace) := by
  rw [cbdTxn, State.log_work, State.setWork_work]
  generalize cbd eta _ = f
  rw [Work.setN_prfbuf_nctr]
  rfl

/-- One `SamplePRF` of the seed in SIGMA and the counter. -/
theorem samplePrfSeq_runs (P : Provider) {s : State} {sigma : List Byte} {N : Nat}
    (hs : s.work.sigma = bytesOfList 32 sigma) (hn : s.work.nctr = BitVec.ofNat 8 N) (eta : Eta) (dst : NReg) :
    Runs P (samplePrfSeq eta dst) s fun t =>
      ∃ f buf tr, f = smallPoly P eta sigma N ∧ t = s.sampled dst f buf tr := by
  rw [← cbd_prfTxn hs hn]
  exact ⟨_, rfl, _, _, _, rfl, cbdTxn_eq_sampled eta dst _ _ s⟩

/-- `SamplePRF(eta)` into each register of a group. -/
theorem samplePrf_runs {P : Provider} {k : Rank} {s : State} {eta : Eta} {dst : Fin 4 → NReg} {grp : State → Vector NPoly 4}
    {sigma : List Byte} {N : Nat} {R : State → Prop} (hs : s.work.sigma = bytesOfList 32 sigma)
    (hn : s.work.nctr = BitVec.ofNat 8 N) (h0 : R s)
    (hgrp : ∀ u (i : Fin 4) f buf tr, grp (u.sampled (dst i) f buf tr) = (grp u).set i f)
    (hR : ∀ u i f buf tr, R u → R (u.sampled (dst i) f buf tr)) :
    Runs P ((rankIdx k).flatMap fun i => samplePrfSeq eta (dst i)) s fun t =>
      regs k (grp t) = (rankIdx k).map (fun i => smallPoly P eta sigma (N + i.val)) ∧
        t.work.sigma = bytesOfList 32 sigma ∧ t.work.nctr = BitVec.ofNat 8 (N + rankVal k) ∧ R t := by
  refine Runs.group (R := fun n u => u.work.sigma = bytesOfList 32 sigma ∧ u.work.nctr = BitVec.ofNat 8 (N + n) ∧ R u)
    ⟨hs, hn, h0⟩ fun i _ u ⟨hs, hn, hu⟩ => ?_
  refine (samplePrfSeq_runs P hs hn eta (dst i)).imp ?_
  rintro t ⟨f, buf, tr, rfl, rfl⟩
  refine ⟨hgrp u i _ buf tr, (Work.setN_sigma _ _ _).trans hs, ?_, hR u i _ buf tr hu⟩
  exact (congrArg (· + 1) hn).trans (BitVec.ofNat_add _ 1).symm

/-! ### `GenEntry` (44_kpke.md R200) and `Dot` (44_kpke.md R202) -/

/-- The state with what a `Dot` of sampled entries writes as another state has it. -/
def dotFrame (s t : State) : State :=
  { s with
    work := { s.work with
      xofin := t.work.xofin, xofcur := t.work.xofcur, aij := t.work.aij, prodh := t.work.prodh, acch := t.work.acch }
    ports := { s.ports with smpIn := t.ports.smpIn, smpOut := t.ports.smpOut, smpCnt := t.ports.smpCnt }
    trace := t.trace }

theorem dotFrame_trans {s t u : State} (h : t = dotFrame s t) (h' : u = dotFrame t u) : u = dotFrame s u := by
  have hs : dotFrame t u = dotFrame (dotFrame s t) u := congrArg (dotFrame · u) h
  exact h'.trans hs

/-- The loop of `SAMPLENTT` from its start. -/
theorem sampleLoop_computes (P : Provider) {s : State} (h : s.sampler = Sampler.start) :
    Computes P [.sampleLoop] s ((sampleNtt (P.XOF s.ports.smpIn) s.groups).map fun r => r.1) fun a t =>
      ∃ x : Sampler, a = { c := x.a } ∧ t = (s.setSampler x).log (.stream x.cur) := by
  have hturn : sampleTurn P s = s.setSampler (Sampler.run (P.XOF s.ports.smpIn) s.groups Sampler.start) := by
    rw [← h]
    rfl
  rcases sampleLoopTxn_cases P s with ⟨hfull, hloop⟩ | ⟨hwait, hloop⟩ <;> rw [hturn] at *
  · rw [(sampleNtt_eq_some_iff _ _ _).mpr ⟨hfull, rfl⟩]
    exact ⟨_, by rw [runSeq, doTxn, hloop]; rfl, _, rfl, rfl⟩
  · rw [(sampleNtt_eq_none_iff _ _).mpr (Nat.lt_of_not_le (mt (Sampler.run_start_full_iff _ _).mpr (Nat.not_le_of_lt hwait)))]
    show (runSeq P [.sampleLoop] s).2 ≠ []
    rw [runSeq, doTxn, hloop]
    exact List.cons_ne_nil _ _

/-- The result of a `SAMPLENTT` into AIJ. -/
theorem sampleTake_of_loop (s : State) (x : Sampler) (i : TraceItem) :
    ∃ t, sampleTakeTxn ((s.setSampler x).log i) = t ∧ t.work.aij = { c := x.a } ∧ t.work.acch = s.work.acch ∧
      t = dotFrame s t := by
  refine ⟨_, rfl, rfl, rfl, ?_⟩
  simp only [sampleTakeTxn, dotFrame, State.setSampler, State.setPorts, State.setH, State.setWork, Work.setH, State.log]

/-- The start of a `SAMPLENTT` on XOFIN. -/
theorem sampleStart_of_xofin (row col : Fin 4) (s : State) :
    ∃ t, sampleStartTxn (xofinTxn row col s) = t ∧ t.sampler = Sampler.start ∧ t.patience = s.patience ∧
      t.ports.smpIn = bytesOfList 34 (s.work.rho.toList ++ [BitVec.ofNat 8 col.val, BitVec.ofNat 8 row.val]) ∧
      t.work.acch = s.work.acch ∧ t = dotFrame s t := by
  refine ⟨_, rfl, rfl, ?_⟩
  simp only [sampleStartTxn, sampleStart, xofinTxn, dotFrame, State.setSampler, State.setPorts, State.setWork, State.log,
    and_self]

/-- `GenEntry` leaves the sampled entry in AIJ, or stops where it is not sampled within the groups of one turn. -/
theorem genEntry_computes (P : Provider) (row col : Fin 4) (s : State) :
    Computes P (genEntrySeq row col) s (matrixEntry P s.groups s.work.rho.toList row col) fun a t =>
      t.work.aij = a ∧ t.work.acch = s.work.acch ∧ t = dotFrame s t := by
  obtain ⟨u, hu, hsampler, hpatience, hin, hacc, hframe⟩ := sampleStart_of_xofin row col s
  have hstart : Runs P [.xofin row col, .sampleStart] s (· = u) := ⟨_, rfl, hu⟩
  rw [matrixEntry, ← hin, State.groups, ← hpatience, ← State.groups]
  refine hstart.then (us := [Txn.sampleLoop] ++ [Txn.sampleTake]) fun _ h => ?_
  subst h
  refine (sampleLoop_computes P hsampler).append ?_
  rintro a t ⟨x, rfl, rfl⟩
  obtain ⟨t, ht, haij, hacc', hframe'⟩ := sampleTake_of_loop _ x (.stream x.cur)
  exact ⟨t, congrArg (·, []) ht, haij, hacc'.trans hacc, dotFrame_trans hframe hframe'⟩

theorem zip_concat {α β : Type} {as : List α} {ys : List β} (a : α) {y : β} (h : ys[as.length]? = some y) :
    (as ++ [a]).zip ys = as.zip ys ++ [(a, y)] := by
  induction as generalizing ys with
  | nil => cases ys <;> simp_all
  | cons b as ih => cases ys <;> simp_all

/-- One product more. -/
theorem dotProduct_concat {as ys : List HPoly} {a y : HPoly} (h : ys[as.length]? = some y) :
    dotProduct (as ++ [a]) ys = polyAddH (dotProduct as ys) (pwm a y) := by
  rw [dotProduct, zip_concat a h, List.foldl_append]
  rfl

/-- A `Dot` whose turns each compute one factor and add its product to ACCH. -/
theorem dot_computes {P : Provider} {k : Rank} {s : State} {body : Fin 4 → List Txn} {f : Fin 4 → Option HPoly}
    {y : Fin 4 → HPoly} {R : State → Prop} (h0 : R (s.setH .acch HPoly.zero))
    (hbody : ∀ i ∈ rankIdx k, ∀ u, R u →
      Computes P (body i) u (f i) fun a t => t.work.acch = polyAddH u.work.acch (pwm a (y i)) ∧ R t) :
    Computes P (.clearAcc :: (rankIdx k).flatMap body) s ((rankIdx k).mapM f) fun as t =>
      t.work.acch = dotProduct as ((rankIdx k).map y) ∧ R t := by
  have hclear : Runs P [.clearAcc] s (· = s.setH .acch HPoly.zero) := ⟨_, rfl, rfl⟩
  refine hclear.then fun u hu => ?_
  subst hu
  refine (Computes.loop (Inv := fun as u => u.work.acch = dotProduct as ((rankIdx k).map y) ∧ R u) ⟨rfl, h0⟩
    fun i hi as u hlen ⟨hacc, hu⟩ => (hbody i hi u hu).imp fun a t ⟨ht, hR⟩ => ⟨?_, hR⟩).imp fun _ _ h => h.2
  rw [ht, hacc, dotProduct_concat (hlen ▸ getElem?_map_rankIdx hi y)]

/-- One turn of a `Dot`. -/
theorem pwmAdd_runs (P : Provider) (a b : HReg) (s : State) :
    Runs P [.pwm a b, .addH .acch .prodh .acch] s fun t =>
      t.work.acch = polyAddH s.work.acch (pwm (s.work.getH a) (s.work.getH b)) ∧ t = dotFrame s t := by
  refine ⟨_, rfl, ?_⟩
  simp only [addHTxn, pwmTxn, State.setH, State.setWork, State.log, Work.setH, Work.getH, dotFrame, and_self]

/-- `Dot` of sampled entries with SH. -/
theorem matrixDot_computes (P : Provider) (k : Rank) (row col : Fin 4 → Fin 4) (s : State) :
    Computes P
      (.clearAcc :: (rankIdx k).flatMap fun j =>
        genEntrySeq (row j) (col j) ++ [Txn.pwm .aij (.sh j), Txn.addH .acch .prodh .acch]) s
      ((rankIdx k).mapM fun j => matrixEntry P s.groups s.work.rho.toList (row j) (col j)) fun as t =>
      t.work.acch = dotProduct as (regs k s.work.sh) ∧ t = dotFrame s t := by
  refine dot_computes (R := fun u => u = dotFrame s u) rfl fun j _ u hu => ?_
  have hentry := genEntry_computes P (row j) (col j) u
  have hgroups : u.groups = s.groups := by rw [hu]; rfl
  have hrho : u.work.rho = s.work.rho := by rw [hu]; rfl
  rw [hgroups, hrho] at hentry
  refine hentry.append fun a t ⟨haij, hacc, ht⟩ => (pwmAdd_runs P .aij (.sh j) t).imp fun v ⟨hv, hframe⟩ => ⟨?_, ?_⟩
  · have hsh : t.work.sh = s.work.sh := by rw [ht, hu]; rfl
    rw [hv, hacc, Work.getH, Work.getH, haij, hsh]
  · exact dotFrame_trans hu (dotFrame_trans ht hframe)

/-! ### The noise of a key and of a ciphertext (44_kpke.md R201, R203, R204) -/

/-- SN and EN sampled, the counter starting from 0. -/
theorem noise_runs {P : Provider} {k : Rank} {s : State} {eta eta' : Eta} {sigma : List Byte} {R : State → Prop}
    (hs : s.work.sigma = bytesOfList 32 sigma) (hn : s.work.nctr = BitVec.ofNat 8 0) (h0 : R s)
    (hR : ∀ u dst f buf tr, R u → R (u.sampled dst f buf tr)) :
    Runs P ((rankIdx k).flatMap (fun i => samplePrfSeq eta (.sn i)) ++
        (rankIdx k).flatMap (fun i => samplePrfSeq eta' (.en i))) s fun t =>
      regs k t.work.sn = (rankIdx k).map (fun i => smallPoly P eta sigma i.val) ∧
        regs k t.work.en = (rankIdx k).map (fun i => smallPoly P eta' sigma (rankVal k + i.val)) ∧
        t.work.sigma = bytesOfList 32 sigma ∧ t.work.nctr = BitVec.ofNat 8 (2 * rankVal k) ∧ R t := by
  have hsn := samplePrf_runs (P := P) (k := k) (dst := .sn) (grp := fun u => u.work.sn) (eta := eta) hs hn h0
    (fun _ _ _ _ _ => rfl) (fun u i => hR u (.sn i))
  refine hsn.append fun u ⟨hsn, hs, hn, hu⟩ => ?_
  have hen := samplePrf_runs (P := P) (k := k) (dst := .en) (grp := fun u => u.work.en) (eta := eta')
    (R := fun t => t.work.sn = u.work.sn ∧ R t) hs hn ⟨rfl, hu⟩
    (fun _ _ _ _ _ => rfl) (fun u i f buf tr h => ⟨h.1, hR u (.en i) f buf tr h.2⟩)
  simp only [Nat.zero_add] at hsn hen
  exact hen.imp fun t ⟨hen, hs, hn, hsn', ht⟩ => ⟨hsn' ▸ hsn, hen, hs, (Nat.two_mul _).symm ▸ hn, ht⟩

/-! ### A vector encoded into a buffer (43_compress_encode.md R185) -/

theorem encodeVector_append (v w : List HPoly) : encodeVector (v ++ w) = encodeVector v ++ encodeVector w :=
  List.flatMap_append

theorem encodeVector_singleton (f : HPoly) : encodeVector [f] = byteEncode 12 f.c := List.flatMap_singleton _ _

theorem encodeVector_length (v : List HPoly) : (encodeVector v).length = 384 * v.length := by
  induction v with
  | nil => rfl
  | cons f v ih =>
    rw [encodeVector, List.flatMap_cons, List.length_append, ← encodeVector, ih, byteEncode_length 12 _ (by decide),
      List.length_cons]
    omega

/-- The registers of a group encoded one after the other into a buffer. -/
theorem encodeVector_runs {P : Provider} {k : Rank} {s : State} {enc : Fin 4 → Txn} {mem : State → Memory}
    {v : Vector HPoly 4} {R : State → Prop} (h0 : R s)
    (hbody : ∀ i u, R u → Runs P [enc i] u fun t =>
      mem t = (mem u).writeBytes (384 * i.val) (byteEncode 12 v[i].c) ∧ R t) :
    Runs P ((rankIdx k).map enc) s fun t => mem t = (mem s).writeBytes 0 (encodeVector (regs k v)) ∧ R t := by
  have hloop := Computes.loop (P := P) (k := k) (s := s) (body := fun i => [enc i]) (f := fun i => pure v[i])
    (Inv := fun as u => mem u = (mem s).writeBytes 0 (encodeVector as) ∧ R u) ⟨rfl, h0⟩
    fun i _ as u hlen ⟨hmem, hu⟩ => by
      refine (hbody i u hu).imp fun t ⟨ht, hR⟩ => ⟨?_, hR⟩
      rw [ht, hmem, encodeVector_append, Memory.writeBytes_append, encodeVector_length, hlen, Nat.zero_add,
        encodeVector_singleton]
  rw [List.mapM_pure] at hloop
  rw [List.map_eq_flatMap]
  exact hloop.imp fun _ _ h => h.2

/-! ### What a sequence writes -/

/-- What each transaction of a sequence leaves alone, the sequence leaves alone. -/
theorem runSeq_frame {P : Provider} {F : State → State → State} {p : Txn → Bool} (hrefl : ∀ s, s = F s s)
    (htrans : ∀ s t u, F (F s t) u = F s u)
    (hstep : ∀ t, p t = true → ∀ u, (doTxn P t u).state = F u (doTxn P t u).state) {ts : List Txn}
    (h : ∀ t ∈ ts, p t = true) (s : State) : (runSeq P ts s).1 = F s (runSeq P ts s).1 := by
  refine runSeq_inv P (fun u => u = F s u) ts s (hrefl s) fun t ht u hu => ?_
  have hu' : F u (doTxn P t u).state = F (F s u) (doTxn P t u).state := congrArg (F · (doTxn P t u).state) hu
  exact (hstep t (h t ht) u).trans (hu'.trans (htrans s u _))

/-- The transactions of a `Dot` of sampled entries. -/
def Txn.ofDot : Txn → Bool
  | .xofin _ _ | .sampleStart | .sampleLoop | .sampleTake | .clearAcc | .pwm _ _ | .addH _ _ .acch => true
  | _ => false

section
variable {s t : State}

theorem dotFrame_log (h : t = dotFrame s t) (x : TraceItem) : t.log x = dotFrame s (t.log x) := congrArg (State.log · x) h

theorem dotFrame_setSampler (h : t = dotFrame s t) (x : Sampler) : t.setSampler x = dotFrame s (t.setSampler x) :=
  congrArg (State.setSampler · x) h

theorem dotFrame_setPorts (h : t = dotFrame s t) {x : Bytes 34} {f : HPoly} {n : Nat} :
    t.setPorts { t.ports with smpIn := x, smpOut := f, smpCnt := n } =
      dotFrame s (t.setPorts { t.ports with smpIn := x, smpOut := f, smpCnt := n }) :=
  congrArg (fun u : State => u.setPorts { u.ports with smpIn := x, smpOut := f, smpCnt := n }) h

theorem dotFrame_setWork (s : State) {x : Bytes 34} {a p c : HPoly} :
    s.setWork { s.work with xofin := x, aij := a, prodh := p, acch := c } =
      dotFrame s (s.setWork { s.work with xofin := x, aij := a, prodh := p, acch := c }) := rfl

end

theorem doTxn_dotFrame {P : Provider} {t : Txn} (h : t.ofDot = true) (s : State) :
    (doTxn P t s).state = dotFrame s (doTxn P t s).state := by
  unfold Txn.ofDot at h
  split at h
  · exact dotFrame_setWork s
  · exact dotFrame_log (dotFrame_setSampler (dotFrame_log (dotFrame_setPorts rfl) _) _) _
  · rcases sampleLoopTxn_cases P s with ⟨-, hloop⟩ | ⟨-, hloop⟩ <;> rw [doTxn, hloop]
    · exact dotFrame_log (dotFrame_setSampler rfl _) _
    · exact dotFrame_setSampler rfl _
  · exact dotFrame_setPorts (dotFrame_setWork s)
  · exact dotFrame_setWork s
  · exact dotFrame_log (dotFrame_setWork s) _
  · exact dotFrame_log (dotFrame_setWork s) _
  · cases h

/-- The state with what `KPKE_KEYGEN k` writes as another state has it (44_kpke.md R203). -/
def keygenFrame (s t : State) : State :=
  { s with
    eko := { s.eko with mem := t.eko.mem }
    dko := { s.dko with mem := t.dko.mem }
    work := { s.work with
      kr := t.work.kr, rho := t.work.rho, sigma := t.work.sigma, nctr := t.work.nctr
      prfbuf := t.work.prfbuf, xofin := t.work.xofin, xofcur := t.work.xofcur
      aij := t.work.aij, sh := t.work.sh, eh := t.work.eh, th := t.work.th
      acch := t.work.acch, prodh := t.work.prodh, sn := t.work.sn, en := t.work.en }
    ports := { s.ports with smpIn := t.ports.smpIn, smpOut := t.ports.smpOut, smpCnt := t.ports.smpCnt }
    todo := t.todo
    trace := t.trace }

/-- The transactions of `KPKE_KEYGEN k`. -/
def Txn.ofKeygen : Txn → Bool
  | .seedG _ | .splitSeeds | .prf _ | .cbd _ (.sn _) | .cbd _ (.en _) | .ntt _ (.sh _) | .ntt _ (.eh _) => true
  | .addH _ _ (.th _) | .encodeT _ | .writeRho _ | .encodeS _ => true
  | t => t.ofDot

theorem kpkeKeygenSeq_ofKeygen (k : Rank) : ∀ t ∈ kpkeKeygenSeq k, t.ofKeygen = true := by
  cases k <;> exact List.all_eq_true.mp rfl

section
variable {s t : State}

theorem keygenFrame_log (h : t = keygenFrame s t) (x : TraceItem) : t.log x = keygenFrame s (t.log x) :=
  congrArg (State.log · x) h

theorem keygenFrame_setTodo (h : t = keygenFrame s t) (ts : List Txn) :
    t.setTodo ts = keygenFrame s (t.setTodo ts) := congrArg (State.setTodo · ts) h

theorem keygenFrame_setEko (s : State) {m : Memory} :
    s.setOutBuf .eko { s.eko with mem := m } = keygenFrame s (s.setOutBuf .eko { s.eko with mem := m }) := rfl

theorem keygenFrame_setDko (s : State) {m : Memory} :
    s.setOutBuf .dko { s.dko with mem := m } = keygenFrame s (s.setOutBuf .dko { s.dko with mem := m }) := rfl

theorem keygenFrame_setWork (s : State) {kr : Bytes 64} {rho sigma : Bytes 32} {nctr : Byte} {prfbuf : Bytes 192}
    {sh eh th : Vector HPoly 4} {sn en : Vector NPoly 4} {w : Work}
    (hw : w = { s.work with
      kr := kr, rho := rho, sigma := sigma, nctr := nctr, prfbuf := prfbuf
      sh := sh, eh := eh, th := th, sn := sn, en := en }) :
    s.setWork w = keygenFrame s (s.setWork w) := hw ▸ rfl

end

theorem doTxn_keygenFrame {P : Provider} {t : Txn} (h : t.ofKeygen = true) (s : State) :
    (doTxn P t s).state = keygenFrame s (doTxn P t s).state := by
  unfold Txn.ofKeygen at h
  split at h
  -- `.splitSeeds`
  case h_2 => exact keygenFrame_setWork s rfl
  -- `.encodeT`
  case h_9 => exact keygenFrame_log (keygenFrame_setEko s) _
  -- `.writeRho`
  case h_10 => exact keygenFrame_setEko s
  -- `.encodeS`
  case h_11 => exact keygenFrame_log (keygenFrame_setDko s) _
  -- a transaction of a `Dot`
  case h_12 =>
    rw [doTxn_dotFrame h s]
    rfl
  all_goals exact keygenFrame_log (keygenFrame_setWork s rfl) _

/-- `KPKE_KEYGEN k` writes within its frame. -/
theorem kpkeKeygenSeq_frame (P : Provider) (k : Rank) (s : State) :
    (runSeq P (kpkeKeygenSeq k) s).1 = keygenFrame s (runSeq P (kpkeKeygenSeq k) s).1 :=
  runSeq_frame (F := keygenFrame) (fun _ => rfl) (fun _ _ _ => rfl) (fun _ => doTxn_keygenFrame) (kpkeKeygenSeq_ofKeygen k) s

/-- The state with what `KPKE_ENC k` writes as another state has it (44_kpke.md R204). -/
def encFrame (s t : State) : State :=
  { s with
    work := { s.work with
      rho := t.work.rho, sigma := t.work.sigma, nctr := t.work.nctr
      prfbuf := t.work.prfbuf, xofin := t.work.xofin, xofcur := t.work.xofcur
      aij := t.work.aij, sh := t.work.sh, th := t.work.th
      acch := t.work.acch, prodh := t.work.prodh, sn := t.work.sn, en := t.work.en, un := t.work.un
      e2n := t.work.e2n, mun := t.work.mun, vn := t.work.vn, wn := t.work.wn, cz := t.work.cz }
    ports := { s.ports with
      encC := t.ports.encC
      smpIn := t.ports.smpIn, smpOut := t.ports.smpOut, smpCnt := t.ports.smpCnt }
    todo := t.todo
    trace := t.trace }

/-- The transactions of `KPKE_ENC k`. -/
def Txn.ofEnc : Txn → Bool
  | .decodeT _ | .encSeeds _ | .prf _ | .cbd _ _ | .ntt _ (.sh _) => true
  | .intt _ .wn | .addN _ _ (.un _) | .addN _ _ .vn | .message | .packU _ _ | .packV _ => true
  | t => t.ofDot

theorem kpkeEncSeq_ofEnc (k : Rank) : ∀ t ∈ kpkeEncSeq k, t.ofEnc = true := by
  cases k <;> exact List.all_eq_true.mp rfl

section
variable {s t : State}

theorem encFrame_log (h : t = encFrame s t) (x : TraceItem) : t.log x = encFrame s (t.log x) := congrArg (State.log · x) h

theorem encFrame_setTodo (h : t = encFrame s t) (ts : List Txn) :
    t.setTodo ts = encFrame s (t.setTodo ts) := congrArg (State.setTodo · ts) h

theorem encFrame_setPorts (h : t = encFrame s t) {c : Bytes 1568} :
    t.setPorts { t.ports with encC := c } = encFrame s (t.setPorts { t.ports with encC := c }) :=
  congrArg (fun u : State => u.setPorts { u.ports with encC := c }) h

theorem encFrame_setWork (s : State) {rho sigma : Bytes 32} {nctr : Byte} {prfbuf : Bytes 192} {sh th : Vector HPoly 4}
    {sn en un : Vector NPoly 4} {e2n mun vn wn : NPoly} {cz : Coeffs} {w : Work}
    (hw : w = { s.work with
      rho := rho, sigma := sigma, nctr := nctr, prfbuf := prfbuf, sh := sh, th := th
      sn := sn, en := en, un := un, e2n := e2n, mun := mun, vn := vn, wn := wn, cz := cz }) :
    s.setWork w = encFrame s (s.setWork w) := hw ▸ rfl

theorem encFrame_setCounted (s : State) (r : NReg) (f : NPoly) (n : Byte) :
    s.setWork { s.work.setN r f with nctr := n } = encFrame s (s.setWork { s.work.setN r f with nctr := n }) := by
  cases r <;> rfl

end

theorem doTxn_encFrame {P : Provider} {t : Txn} (h : t.ofEnc = true) (s : State) :
    (doTxn P t s).state = encFrame s (doTxn P t s).state := by
  unfold Txn.ofEnc at h
  split at h
  -- `.encSeeds`
  case h_2 => exact encFrame_setWork s rfl
  -- `.cbd`
  case h_4 => exact encFrame_log (encFrame_setCounted s _ _ _) _
  -- `.message`
  case h_9 => exact encFrame_log (encFrame_log (encFrame_setWork s rfl) _) _
  -- `.packU`
  case h_10 => exact encFrame_log (encFrame_log (encFrame_setPorts (encFrame_setWork s rfl)) _) _
  -- `.packV`
  case h_11 => exact encFrame_log (encFrame_log (encFrame_setPorts (encFrame_setWork s rfl)) _) _
  -- a transaction of a `Dot`
  case h_12 =>
    rw [doTxn_dotFrame h s]
    rfl
  all_goals exact encFrame_log (encFrame_setWork s rfl) _

/-- `KPKE_ENC k` writes within its frame. -/
theorem kpkeEncSeq_frame (P : Provider) (k : Rank) (s : State) :
    (runSeq P (kpkeEncSeq k) s).1 = encFrame s (runSeq P (kpkeEncSeq k) s).1 :=
  runSeq_frame (F := encFrame) (fun _ => rfl) (fun _ _ _ => rfl) (fun _ => doTxn_encFrame) (kpkeEncSeq_ofEnc k) s

/-- The state with what `KPKE_DEC k` writes as another state has it (44_kpke.md R205). -/
def decFrame (s t : State) : State :=
  { s with
    work := { s.work with
      sh := t.work.sh, acch := t.work.acch, prodh := t.work.prodh, uh := t.work.uh
      un := t.work.un, vn := t.work.vn, wn := t.work.wn, cz := t.work.cz }
    ports := { s.ports with decM := t.ports.decM }
    trace := t.trace }

/-- The transactions of `KPKE_DEC k`. -/
def Txn.ofDec : Txn → Bool
  | .unpackU _ _ | .unpackV _ | .decodeS _ | .clearAcc | .ntt _ .uh | .pwm _ _ | .addH _ _ .acch => true
  | .intt _ .wn | .subN _ _ .wn | .recover => true
  | _ => false

theorem kpkeDecSeq_ofDec (k : Rank) : ∀ t ∈ kpkeDecSeq k, t.ofDec = true := by
  cases k <;> exact List.all_eq_true.mp rfl

/-- What `KPKE_DEC k` keeps: everything but what it writes, and the requests made. -/
def DecKeeps (s t : State) : Prop := t = decFrame s t ∧ tracedRequests t.trace = tracedRequests s.trace

theorem DecKeeps.trans {s t u : State} (h : DecKeeps s t) (h' : DecKeeps t u) : DecKeeps s u := by
  have hframe : decFrame t u = decFrame (decFrame s t) u := congrArg (decFrame · u) h.1
  exact ⟨h'.1.trans hframe, h'.2.trans h.2⟩

section
variable {s t : State}

/-- The presentation of a word to a unit is no request. -/
theorem DecKeeps.log (h : DecKeeps s t) (w : Word16) (n : Nat) : DecKeeps s (t.log (.unit w n)) := by
  refine ⟨congrArg (State.log · (.unit w n)) h.1, Eq.trans ?_ h.2⟩
  simp [tracedRequests]

theorem DecKeeps.setPorts (h : DecKeeps s t) {m : Bytes 32} : DecKeeps s (t.setPorts { t.ports with decM := m }) :=
  ⟨congrArg (fun u : State => u.setPorts { u.ports with decM := m }) h.1, h.2⟩

theorem decKeeps_setWork (s : State) {sh : Vector HPoly 4} {acch prodh uh : HPoly} {un : Vector NPoly 4} {vn wn : NPoly}
    {cz : Coeffs} {w : Work}
    (hw : w = { s.work with sh := sh, acch := acch, prodh := prodh, uh := uh, un := un, vn := vn, wn := wn, cz := cz }) :
    DecKeeps s (s.setWork w) := ⟨hw ▸ rfl, rfl⟩

end

theorem doTxn_decKeeps {P : Provider} {t : Txn} (h : t.ofDec = true) (s : State) : DecKeeps s (doTxn P t s).state := by
  unfold Txn.ofDec at h
  split at h
  -- `.unpackU`
  case h_1 => exact ((decKeeps_setWork s rfl).log _ _).log _ _
  -- `.unpackV`
  case h_2 => exact ((decKeeps_setWork s rfl).log _ _).log _ _
  -- `.clearAcc`
  case h_4 => exact decKeeps_setWork s rfl
  -- `.recover`
  case h_10 => exact ((decKeeps_setWork s rfl).setPorts.log _ _).log _ _
  -- any other transaction
  case h_11 => cases h
  all_goals exact (decKeeps_setWork s rfl).log _ _

theorem kpkeDecSeq_keeps (P : Provider) (k : Rank) (s : State) : DecKeeps s (runSeq P (kpkeDecSeq k) s).1 :=
  runSeq_inv P (DecKeeps s) _ s ⟨rfl, rfl⟩ fun t ht u hu => hu.trans (doTxn_decKeeps (kpkeDecSeq_ofDec k t ht) u)

/-! ### `KPKE_KEYGEN k` (44_kpke.md R203) -/

/-- What a key generation keeps while it fills its polynomial registers. -/
def KeygenHeld (s : State) (rho : Bytes 32) (u : State) : Prop :=
  u.work.rho = rho ∧ u.patience = s.patience ∧ u.eko.mem = s.eko.mem ∧ u.dko.mem = s.dko.mem

/-- SN into SH and EN into EH. -/
theorem keygenTransforms_runs {P : Provider} {k : Rank} {s s0 : State} {rho : Bytes 32} (h0 : KeygenHeld s0 rho s) :
    Runs P ((rankIdx k).flatMap fun i => [.ntt (.sn i) (.sh i), .ntt (.en i) (.eh i)]) s fun t =>
      (regs k t.work.sh = (rankIdx k).map (fun i => ntt s.work.sn[i]) ∧ KeygenHeld s0 rho t) ∧
      regs k t.work.eh = (rankIdx k).map (fun i => ntt s.work.en[i]) := by
  have hbody : ∀ i u, Runs P [.ntt (.sn i) (.sh i), .ntt (.en i) (.eh i)] u
      (· = nttTxn (.en i) (.eh i) (nttTxn (.sn i) (.sh i) u)) := fun _ _ => ⟨_, rfl, rfl⟩
  have hsh := Runs.group (P := P) (k := k) (s := s) (grp := fun u => u.work.sh)
    (body := fun i => [.ntt (.sn i) (.sh i), .ntt (.en i) (.eh i)]) (v := fun i => ntt s.work.sn[i])
    (R := fun _ u => u.work.sn = s.work.sn ∧ KeygenHeld s0 rho u) ⟨rfl, h0⟩ fun i _ u ⟨hsn, hu⟩ =>
      (hbody i u).imp fun t ht => by
        rw [ht, ← hsn]
        exact ⟨rfl, rfl, hu⟩
  have heh := Runs.group (P := P) (k := k) (s := s) (grp := fun u => u.work.eh)
    (body := fun i => [.ntt (.sn i) (.sh i), .ntt (.en i) (.eh i)]) (v := fun i => ntt s.work.en[i])
    (R := fun _ u => u.work.en = s.work.en) rfl fun i _ u hen =>
      (hbody i u).imp fun t ht => by
        rw [ht, ← hen]
        exact ⟨rfl, rfl⟩
  exact (hsh.and heh).imp fun t ⟨⟨h1, _, h2⟩, h3, _⟩ => ⟨⟨h1, h2⟩, h3⟩

/-- `TH[i] <- Dot(row i, SH) + EH[i]` for each row. -/
theorem keygenRows_computes {P : Provider} {k : Rank} {s s0 : State} {rho : List Byte} {sh : List HPoly} {eh : Fin 4 → HPoly}
    (hsh : regs k s.work.sh = sh) (heh : regs k s.work.eh = (rankIdx k).map eh) (hrho : rho.length = 32)
    (h0 : KeygenHeld s0 (bytesOfList 32 rho) s) :
    Computes P ((rankIdx k).flatMap fun i => dotRowSeq k i ++ [Txn.addH .acch (.eh i) (.th i)]) s
      ((rankIdx k).mapM fun i => (matrixRow P s0.groups k rho i).map fun a => polyAddH (dotProduct a sh) (eh i)) fun th t =>
      regs k t.work.th = th ∧ regs k t.work.sh = sh ∧ KeygenHeld s0 (bytesOfList 32 rho) t := by
  refine (Computes.group (grp := fun u => u.work.th)
    (R := fun _ u => (u.work.sh = s.work.sh ∧ u.work.eh = s.work.eh) ∧ KeygenHeld s0 (bytesOfList 32 rho) u)
    ⟨⟨rfl, rfl⟩, h0⟩ fun i hi u ⟨⟨hsh', heh'⟩, hu⟩ => ?_).imp
      fun th t ⟨hth, ⟨hsh', _⟩, ht⟩ => ⟨hth, hsh' ▸ hsh, ht⟩
  have hdot := matrixDot_computes P k (fun _ => i) id u
  have hgroups : u.groups = s0.groups := congrArg (· + 1) hu.2.1
  rw [hgroups, hu.1, bytesOfList_toList hrho] at hdot
  refine .map _ (hdot.append fun a t ⟨hacc, hframe⟩ => ⟨_, rfl, ?_, ?_, ?_⟩)
  · have hth : t.work.th = u.work.th := by rw [hframe]; rfl
    have heh'' : t.work.eh = u.work.eh := by rw [hframe]; rfl
    rw [← getElem_of_regs_eq heh hi, ← hsh, ← hsh', ← hacc, ← heh', ← heh'', ← hth]
    rfl
  · rw [hframe]
    exact ⟨hsh', heh'⟩
  · rw [hframe]
    exact hu

/-- The keys into EKO and DKO. -/
theorem keygenOutputs_runs (P : Provider) {k : Rank} {s s0 : State} {rho : List Byte} (hrho : rho.length = 32)
    (h : KeygenHeld s0 (bytesOfList 32 rho) s) :
    Runs P ((rankIdx k).map (fun i => Txn.encodeT i) ++ ([Txn.writeRho k] ++ (rankIdx k).map fun i => Txn.encodeS i)) s fun t =>
      t.eko.mem = s0.eko.mem.writeBytes 0 (encodeVector (regs k s.work.th) ++ rho) ∧
        t.dko.mem = s0.dko.mem.writeBytes 0 (encodeVector (regs k s.work.sh)) := by
  obtain ⟨hrho', _, heko, hdko⟩ := h
  have hth := encodeVector_runs (P := P) (k := k) (enc := fun i => .encodeT i) (mem := fun u => u.eko.mem) (v := s.work.th)
    (R := fun u => u.dko.mem = s.dko.mem ∧ u.work = s.work) ⟨rfl, rfl⟩ fun i u ⟨hdko, hw⟩ =>
      ⟨_, rfl, by rw [← hw]; rfl, hdko, hw⟩
  refine hth.append fun u ⟨hu, hdko', hw⟩ => ?_
  have hsh := encodeVector_runs (P := P) (k := k) (s := writeRhoTxn k u) (enc := fun i => .encodeS i) (mem := fun u => u.dko.mem)
    (v := s.work.sh) (R := fun v => v.eko.mem = u.eko.mem.writeBytes (384 * rankVal k) rho ∧ v.work = s.work)
    ⟨?_, hw⟩ fun i u ⟨hdko, hw⟩ => ⟨_, rfl, by rw [← hw]; rfl, hdko, hw⟩
  · have hwrite : Runs P [.writeRho k] u (· = writeRhoTxn k u) := ⟨_, rfl, rfl⟩
    refine hwrite.append fun v hv => hv ▸ hsh.imp fun t ⟨ht, ht', _⟩ => ⟨?_, ?_⟩
    · rw [ht', hu, heko, Memory.writeBytes_append, encodeVector_length, regs, List.length_map, length_rankIdx, Nat.zero_add]
    · rw [ht, ← hdko, ← hdko']
      rfl
  · rw [← bytesOfList_toList hrho, ← hrho', ← hw]
    rfl

/-- `KPKE_KEYGEN k` computes the key pair, or stops where the matrix is not sampled within the groups of one turn. -/
theorem kpkeKeygen_computes (P : Provider) (k : Rank) (s : State) :
    Computes P (kpkeKeygenSeq k) s (kpkeKeyGen P s.groups k s.work.dseed.toList) fun r t =>
      t.eko.mem = s.eko.mem.writeBytes 0 r.1 ∧ t.dko.mem = s.dko.mem.writeBytes 0 r.2 := by
  let g := (P.G (s.work.dseed.toList ++ [BitVec.ofNat 8 (rankVal k)])).toList
  have hseeds : Runs P [.seedG k, .splitSeeds] s fun t => t.work.sigma = bytesOfList 32 (slice g 32 32) ∧
      t.work.nctr = BitVec.ofNat 8 0 ∧ KeygenHeld s (bytesOfList 32 (slice g 0 32)) t := by
    refine ⟨_, rfl, ?_⟩
    simp [splitSeedsTxn, seedGTxn, KeygenHeld, g]
  have hrho : (slice g 0 32).length = 32 := slice_length _ _ _ (by simp [g])
  unfold kpkeKeygenSeq kpkeKeyGen
  simp only [List.append_assoc]
  refine hseeds.then fun u ⟨hsigma, hn, hu⟩ => ?_
  rw [← List.append_assoc]
  refine (noise_runs hsigma hn hu fun u dst _ _ _ h => by cases dst <;> exact h).then fun v ⟨hsn, hen, _, _, hv⟩ => ?_
  refine (keygenTransforms_runs hv).then fun w ⟨⟨hsh, hw⟩, heh⟩ => ?_
  rw [List.map_congr_left fun i hi => congrArg ntt (getElem_of_regs_eq hsn hi)] at hsh
  rw [List.map_congr_left fun i hi => congrArg ntt (getElem_of_regs_eq hen hi)] at heh
  refine .map _ ((keygenRows_computes hsh heh hrho hw).append fun th t ⟨hth, hsh', ht⟩ => ?_)
  rw [← hth, ← hsh']
  exact keygenOutputs_runs P hrho ht

/-! ### `KPKE_ENC k` (44_kpke.md R204) -/

/-- What an encryption keeps while it fills its polynomial registers. -/
def EncHeld (k : Rank) (s : State) (th : List HPoly) (rho : Bytes 32) (u : State) : Prop :=
  u.work.rho = rho ∧ u.patience = s.patience ∧ u.ports.encM = s.ports.encM ∧ regs k u.work.th = th

/-- The key decoded into TH, and the seeds. -/
theorem encInputs_runs (P : Provider) (k : Rank) (s : State) :
    Runs P ((rankIdx k).map (fun i => Txn.decodeT i) ++ [Txn.encSeeds k]) s fun t =>
      t.work.sigma = bytesOfList 32 s.ports.encR.toList ∧ t.work.nctr = BitVec.ofNat 8 0 ∧
      EncHeld k s ((rankIdx k).map fun i => { c := byteDecode 12 (slice s.ports.encEk.toList (384 * i.val) 384) })
        (bytesOfList 32 (slice s.ports.encEk.toList (384 * rankVal k) 32)) t := by
  rw [List.map_eq_flatMap]
  have hth := Runs.group (P := P) (k := k) (s := s) (grp := fun u => u.work.th) (body := fun i => [.decodeT i])
    (v := fun i => { c := byteDecode 12 (slice s.ports.encEk.toList (384 * i.val) 384) })
    (R := fun _ u => u.ports = s.ports ∧ u.patience = s.patience) ⟨rfl, rfl⟩ fun i _ u ⟨hports, hp⟩ =>
      ⟨_, rfl, by rw [← hports]; rfl, hports, hp⟩
  refine hth.append fun u ⟨hth, hports, hp⟩ => ⟨_, rfl, ?_⟩
  simp [encSeedsTxn, EncHeld, hth, hports, hp]

/-- SN into SH. -/
theorem encTransforms_runs {P : Provider} {k : Rank} {s s0 : State} {th : List HPoly} {rho : Bytes 32}
    (h : EncHeld k s0 th rho s) :
    Runs P ((rankIdx k).map fun i => .ntt (.sn i) (.sh i)) s fun t =>
      regs k t.work.sh = (rankIdx k).map (fun i => ntt s.work.sn[i]) ∧ t.work.en = s.work.en ∧ t.work.e2n = s.work.e2n ∧
        EncHeld k s0 th rho t := by
  rw [List.map_eq_flatMap]
  refine (Runs.group (v := fun i => ntt s.work.sn[i]) (grp := fun u => u.work.sh) (R := fun _ u => u.work.sn = s.work.sn ∧
    u.work.en = s.work.en ∧ u.work.e2n = s.work.e2n ∧ EncHeld k s0 th rho u) ⟨rfl, rfl, rfl, h⟩
    fun i _ u ⟨hsn, hu⟩ => ⟨nttTxn (.sn i) (.sh i) u, rfl, ?_, hsn, hu⟩).imp fun t ⟨hsh, _, ht⟩ => ⟨hsh, ht⟩
  rw [← hsn]
  rfl

/-- `UN[i] <- INTT(ACCH) + EN[i]`. -/
theorem inttAdd_runs (P : Provider) (i : Fin 4) (s : State) :
    Runs P [.intt .acch .wn, .addN .wn (.en i) (.un i)] s fun t =>
      t.work.un = s.work.un.set i (polyAddN (intt s.work.acch) s.work.en[i]) ∧
        t = { s with work := { s.work with wn := t.work.wn, un := t.work.un }, trace := t.trace } := by
  refine ⟨_, rfl, ?_⟩
  simp only [addNTxn, inttTxn, State.setN, State.setWork, State.log, Work.setN, Work.getN, Work.getH, and_self]

/-- `UN[i] <- INTT(Dot(column i, SH)) + EN[i]` for each column. -/
theorem encColumns_computes {P : Provider} {k : Rank} {s : State} {rho : List Byte} {sh : List HPoly} {en : Fin 4 → NPoly}
    (hsh : regs k s.work.sh = sh) (hen : regs k s.work.en = (rankIdx k).map en) (hrho : rho.length = 32)
    (hrho' : s.work.rho = bytesOfList 32 rho) :
    Computes P ((rankIdx k).flatMap fun i => dotColSeq k i ++ [Txn.intt .acch .wn, Txn.addN .wn (.en i) (.un i)]) s
      ((rankIdx k).mapM fun i => (matrixCol P s.groups k rho i).map fun a => polyAddN (intt (dotProduct a sh)) (en i)) fun un t =>
      regs k t.work.un = un ∧ t.work.sh = s.work.sh ∧ t.work.th = s.work.th ∧ t.work.e2n = s.work.e2n ∧
        t.ports.encM = s.ports.encM := by
  refine (Computes.group (grp := fun u => u.work.un)
    (R := fun _ u => (u.work.sh = s.work.sh ∧ u.work.en = s.work.en ∧ u.work.rho = s.work.rho ∧ u.patience = s.patience) ∧
      u.work.sh = s.work.sh ∧ u.work.th = s.work.th ∧ u.work.e2n = s.work.e2n ∧ u.ports.encM = s.ports.encM)
    ⟨⟨rfl, rfl, rfl, rfl⟩, rfl, rfl, rfl, rfl⟩ fun i hi u ⟨⟨hsh', hen', hr, hp⟩, hu⟩ => ?_).imp
      fun th t ⟨hth, _, ht⟩ => ⟨hth, ht⟩
  have hdot := matrixDot_computes P k id (fun _ => i) u
  have hgroups : u.groups = s.groups := congrArg (· + 1) hp
  rw [hgroups, hr, hrho', bytesOfList_toList hrho] at hdot
  refine .map _ (hdot.append fun a t ⟨hacc, ht⟩ => (inttAdd_runs P i t).imp fun v ⟨hun, hv⟩ => ⟨?_, ?_⟩)
  · rw [hun, hacc, ← getElem_of_regs_eq hen hi, ← hsh, ← hsh', ← hen', ht]
    rfl
  · rw [hv, ht]
    exact ⟨⟨hsh', hen', hr, hp⟩, hu⟩

/-- `Dot(TH, SH)`. -/
theorem dotT_runs (P : Provider) (k : Rank) (s : State) :
    Runs P (dotTSeq k) s fun t =>
      t.work.acch = dotProduct (regs k s.work.th) (regs k s.work.sh) ∧ t = dotFrame s t := by
  have hdot := dot_computes (P := P) (k := k) (s := s) (f := fun j => pure s.work.th[j]) (y := fun j => s.work.sh[j])
    (body := fun j => [.pwm (.th j) (.sh j), .addH .acch .prodh .acch]) (R := fun u => u = dotFrame s u) rfl fun j _ u hu =>
      (pwmAdd_runs P (.th j) (.sh j) u).imp fun t ⟨hacc, ht⟩ => ⟨by rw [hacc, hu]; rfl, dotFrame_trans hu ht⟩
  rwa [List.mapM_pure] at hdot

/-- The message as a polynomial in MUN. -/
theorem message_runs (P : Provider) (s : State) :
    Runs P [.message] s fun t => t.work.mun = decompress 1 (byteDecode 1 s.ports.encM.toList) ∧
      t = { s with work := { s.work with cz := t.work.cz, mun := t.work.mun }, trace := t.trace } := by
  refine ⟨_, rfl, ?_⟩
  simp only [unpackTxn, logDecompress, logBytedec, State.setWork, State.log, Work.setN, and_self]

/-- The sums into VN. -/
theorem encSums_runs (P : Provider) (s : State) :
    Runs P [.intt .acch .wn, .addN .wn .e2n .vn, .addN .vn .mun .vn] s fun t =>
      t.work.vn = polyAddN (polyAddN (intt s.work.acch) s.work.e2n) s.work.mun ∧
        t = { s with work := { s.work with wn := t.work.wn, vn := t.work.vn }, trace := t.trace } := by
  refine ⟨_, rfl, ?_⟩
  simp only [addNTxn, inttTxn, State.setN, State.setWork, State.log, Work.setN, Work.getN, Work.getH, and_self]

/-- `VN <- INTT(Dot(TH, SH)) + E2N + MUN`. -/
theorem encSecond_runs (P : Provider) (k : Rank) (s : State) :
    Runs P ([Txn.message] ++ dotTSeq k ++ [Txn.intt .acch .wn, Txn.addN .wn .e2n .vn, Txn.addN .vn .mun .vn]) s fun t =>
      t.work.vn = polyAddN (polyAddN (intt (dotProduct (regs k s.work.th) (regs k s.work.sh))) s.work.e2n)
          (decompress 1 (byteDecode 1 s.ports.encM.toList)) ∧ t.work.un = s.work.un := by
  rw [List.append_assoc]
  refine (message_runs P s).append fun u ⟨hmun, hu⟩ => (dotT_runs P k u).append fun v ⟨hacc, hv⟩ =>
    (encSums_runs P v).imp fun t ⟨hvn, ht⟩ => ⟨?_, ?_⟩
  · have he2n : v.work.e2n = s.work.e2n := by rw [hv, hu]; rfl
    have hmun' : v.work.mun = u.work.mun := by rw [hv]; rfl
    rw [hvn, hacc, he2n, hmun', hmun, hu]
  · rw [ht, hv, hu]
    rfl

/-! #### The ciphertext -/

/-- A field written behind the first bytes of a register. -/
theorem slice_writeField_behind {n off : Nat} (v : Bytes n) {A B : List Byte} (hA : slice v.toList 0 off = A)
    (hn : off + B.length ≤ n) : slice (writeField v off B).toList 0 (off + B.length) = A ++ B := by
  rw [slice_add, Nat.zero_add, slice_writeField v off B hn,
    slice_writeField_of_disjoint v off B 0 off (by omega) (.inl (by omega)), hA]

/-- One polynomial packed behind what the result port holds. -/
theorem packTxn_runs (P : Provider) {t : Txn} {d off : Nat} {src : NReg} {s : State}
    (ht : ∀ s, doTxn P t s = .done (packTxn d off src s)) (hd : d ≤ 12) (hn : off + 32 * d ≤ 1568) {A : List Byte}
    (hA : slice s.ports.encC.toList 0 off = A) :
    Runs P [t] s fun t => slice t.ports.encC.toList 0 (off + 32 * d) = A ++ byteEncode d (compress d (s.work.getN src)) ∧
      t.work.un = s.work.un ∧ t.work.vn = s.work.vn := by
  refine ⟨packTxn d off src s, by rw [runSeq, ht]; rfl, ?_⟩
  have hlen := byteEncode_length d (compress d (s.work.getN src)) hd
  rw [← hlen] at hn ⊢
  simp only [packTxn, logByteenc, logCompress, State.setWork, State.setPorts, State.log, and_true]
  exact slice_writeField_behind _ hA hn

theorem ctLen_eq (k : Rank) : ctLen k = 32 * du k * rankVal k + 32 * dv k := by
  rw [ctLen, Nat.mul_add, Nat.mul_assoc]

/-- UN and VN packed into the result port. -/
theorem encOutputs_runs (P : Provider) (k : Rank) (s : State) :
    Runs P ((rankIdx k).map (fun i => Txn.packU k i) ++ [Txn.packV k]) s fun t =>
      slice t.ports.encC.toList 0 (ctLen k) =
        (regs k s.work.un).flatMap (fun f => byteEncode (du k) (compress (du k) f)) ++
          byteEncode (dv k) (compress (dv k) s.work.vn) := by
  have hcap := ctLen_le k
  rw [ctLen_eq] at hcap ⊢
  have hu := Computes.loop (P := P) (k := k) (s := s) (body := fun i => [.packU k i]) (f := fun i => pure s.work.un[i])
    (Inv := fun as u => slice u.ports.encC.toList 0 (32 * du k * as.length) =
      as.flatMap (fun f => byteEncode (du k) (compress (du k) f)) ∧ u.work.un = s.work.un ∧ u.work.vn = s.work.vn)
    ⟨rfl, rfl, rfl⟩ fun i hi as u hlen ⟨hA, hun, hvn⟩ => by
      have hoff : 32 * du k * i.val + 32 * du k ≤ 32 * du k * rankVal k := Nat.mul_le_mul_left (32 * du k) (lt_rankVal hi)
      rw [hlen] at hA
      refine (packTxn_runs P (t := .packU k i) (fun _ => rfl) (Nat.le_succ_of_le (du_le k)) (by omega) hA).imp
        fun t ⟨ht, hun', hvn'⟩ => ⟨?_, hun'.trans hun, hvn'.trans hvn⟩
      rw [List.length_append, List.length_singleton, hlen, List.flatMap_append, List.flatMap_singleton, ← hun]
      exact ht
  rw [List.mapM_pure] at hu
  rw [List.map_eq_flatMap]
  refine Runs.append hu fun u ⟨hlen, hA, _, hvn⟩ => ?_
  rw [hlen] at hA
  refine (packTxn_runs P (t := .packV k) (fun _ => rfl) (Nat.le_succ_of_le (dv_le k)) hcap hA).imp fun t ⟨ht, _⟩ => ?_
  rw [ht, ← hvn]
  rfl

/-- E2N sampled behind SN and EN. -/
theorem encE2_runs (P : Provider) {k : Rank} {s u : State} {eta : Eta} {sigma : List Byte} {N : Nat} {th : List HPoly}
    {rho : Bytes 32} (hs : u.work.sigma = bytesOfList 32 sigma) (hn : u.work.nctr = BitVec.ofNat 8 N)
    (h : EncHeld k s th rho u) :
    Runs P (samplePrfSeq eta .e2n) u fun t => t.work.e2n = smallPoly P eta sigma N ∧ t.work.sn = u.work.sn ∧
      t.work.en = u.work.en ∧ EncHeld k s th rho t := by
  refine (samplePrfSeq_runs P hs hn eta .e2n).imp ?_
  rintro _ ⟨f, buf, tr, hf, rfl⟩
  exact ⟨hf, rfl, rfl, h⟩

/-- `KPKE_ENC k` computes the ciphertext, or stops where the matrix is not sampled within the groups of one turn. -/
theorem kpkeEnc_computes (P : Provider) (k : Rank) (s : State) :
    Computes P (kpkeEncSeq k) s
      (kpkeEncrypt P s.groups k s.ports.encEk.toList s.ports.encM.toList s.ports.encR.toList) fun c t =>
      slice t.ports.encC.toList 0 (ctLen k) = c := by
  have hek := ekLen_le k
  have hrho : (slice s.ports.encEk.toList (384 * rankVal k) 32).length = 32 :=
    slice_length _ _ _ (by rw [Vector.length_toList]; exact hek)
  unfold kpkeEncSeq kpkeEncrypt
  simp only [List.append_assoc]
  rw [← List.append_assoc]
  refine (encInputs_runs P k s).then fun t1 ⟨hsigma, hn, h1⟩ => ?_
  rw [← List.append_assoc]
  refine (noise_runs hsigma hn h1 fun u dst _ _ _ h => by cases dst <;> exact h).then fun t2 ⟨hsn, hen, hsigma, hn, h2⟩ => ?_
  refine (encE2_runs P hsigma hn h2).then fun t3 ⟨he2n, hsn', hen', h3⟩ => ?_
  rw [← hsn'] at hsn
  rw [← hen'] at hen
  refine (encTransforms_runs h3).then fun t4 ⟨hsh, hen4, he2n4, hrho4, hp, hm, hth⟩ => ?_
  rw [List.map_congr_left fun i hi => congrArg ntt (getElem_of_regs_eq hsn hi)] at hsh
  have hgroups : s.groups = t4.groups := congrArg (· + 1) hp.symm
  rw [hgroups]
  rw [← hen4] at hen
  refine .map _ ((encColumns_computes hsh hen hrho hrho4).append fun us t5 ⟨hun, hsh', hth', he2n', hm'⟩ => ?_)
  rw [← List.append_assoc, ← List.append_assoc]
  refine (encSecond_runs P k t5).append fun t6 ⟨hvn, hun'⟩ => (encOutputs_runs P k t6).imp fun t ht => ?_
  rw [ht, hun', hun, hvn, hth', hth, hsh', hsh, he2n', he2n4, he2n, hm', hm]

/-! ### `KPKE_DEC k` (44_kpke.md R205) -/

/-- One polynomial unpacked into a register. -/
theorem unpackTxn_runs (P : Provider) {t : Txn} {d : Nat} {B : List Byte} {dst : NReg} {s : State}
    (ht : doTxn P t s = .done (unpackTxn d B dst s)) :
    Runs P [t] s fun u => u.ports = s.ports ∧
      u.work = { s.work with cz := u.work.cz }.setN dst (decompress d (byteDecode d B)) := by
  refine ⟨unpackTxn d B dst s, by rw [runSeq, ht]; rfl, ?_⟩
  simp only [unpackTxn, logDecompress, logBytedec, State.setWork, State.log, Work.setN_cz, and_self]

/-- The ciphertext unpacked into UN and VN, and the key decoded into SH. -/
theorem decInputs_runs (P : Provider) (k : Rank) (s : State) :
    Runs P ((rankIdx k).map (fun i => Txn.unpackU k i) ++ ([Txn.unpackV k] ++ (rankIdx k).map fun i => Txn.decodeS i)) s fun t =>
      regs k t.work.un = (rankIdx k).map (fun i =>
        decompress (du k) (byteDecode (du k) (slice s.ports.decC.toList (32 * du k * i.val) (32 * du k)))) ∧
      t.work.vn = decompress (dv k) (byteDecode (dv k) (slice s.ports.decC.toList (32 * du k * rankVal k) (32 * dv k))) ∧
      regs k t.work.sh = (rankIdx k).map fun i => { c := byteDecode 12 (slice s.ports.decDkp.toList (384 * i.val) 384) } := by
  rw [List.map_eq_flatMap, List.map_eq_flatMap]
  have hun := Runs.group (P := P) (k := k) (s := s) (grp := fun u => u.work.un) (body := fun i => [.unpackU k i])
    (v := fun i => decompress (du k) (byteDecode (du k) (slice s.ports.decC.toList (32 * du k * i.val) (32 * du k))))
    (R := fun _ u => u.ports = s.ports) rfl fun i _ u hports => by
      refine (unpackTxn_runs P rfl).imp fun t ⟨ht, hw⟩ => ⟨?_, ht.trans hports⟩
      rw [hw, hports]
      rfl
  refine hun.append fun u ⟨hun, hu⟩ => ?_
  refine Runs.append (ts := [.unpackV k]) (unpackTxn_runs P rfl) fun v ⟨hv, hvn⟩ => ?_
  have hsh := Runs.group (P := P) (k := k) (s := v) (grp := fun u => u.work.sh) (body := fun i => [.decodeS i])
    (v := fun i => { c := byteDecode 12 (slice s.ports.decDkp.toList (384 * i.val) 384) })
    (R := fun _ t => t.work.un = v.work.un ∧ t.work.vn = v.work.vn ∧ t.ports = s.ports) ⟨rfl, rfl, hv.trans hu⟩
    fun i _ u ⟨hun, hvn, hports⟩ => ⟨_, rfl, by rw [← hports]; rfl, hun, hvn, hports⟩
  refine hsh.imp fun t ⟨hsh, hun', hvn', _⟩ => ⟨?_, ?_, hsh⟩
  · rw [hun', hvn, Work.setN]
    exact hun
  · rw [hvn', hvn, hu, Work.setN]

/-- `Dot(SH, NTT(UN))`. -/
theorem decDot_runs (P : Provider) (k : Rank) (s : State) :
    Runs P (.clearAcc :: (rankIdx k).flatMap fun j => [.ntt (.un j) .uh, .pwm (.sh j) .uh, .addH .acch .prodh .acch]) s fun t =>
      t.work.acch = dotProduct (regs k s.work.sh) ((regs k s.work.un).map ntt) ∧ t.work.vn = s.work.vn := by
  have hdot := dot_computes (P := P) (k := k) (s := s) (f := fun j => pure s.work.sh[j]) (y := fun j => ntt s.work.un[j])
    (body := fun j => [.ntt (.un j) .uh, .pwm (.sh j) .uh, .addH .acch .prodh .acch])
    (R := fun u => u.work.sh = s.work.sh ∧ u.work.un = s.work.un ∧ u.work.vn = s.work.vn) ⟨rfl, rfl, rfl⟩
    fun j _ u ⟨hsh, hun, hvn⟩ => by
      have huh : Runs P [.ntt (.un j) .uh] u (· = nttTxn (.un j) .uh u) := ⟨_, rfl, rfl⟩
      refine huh.append fun v hv => (pwmAdd_runs P (.sh j) .uh v).imp fun t ⟨hacc, ht⟩ => ⟨?_, ?_⟩
      · rw [hacc, hv, ← hsh, ← hun]
        rfl
      · rw [ht, hv]
        exact ⟨hsh, hun, hvn⟩
  rw [List.mapM_pure] at hdot
  rw [regs, regs, List.map_map]
  exact Runs.imp hdot fun t ⟨hacc, _, _, hvn⟩ => ⟨hacc, hvn⟩

/-- The message of VN and the product in ACCH. -/
theorem recover_runs (P : Provider) (s : State) :
    Runs P [.intt .acch .wn, .subN .vn .wn .wn, .recover] s fun t =>
      t.ports.decM = bytesOfList 32 (byteEncode 1 (compress 1 (polySubN s.work.vn (intt s.work.acch)))) := by
  refine ⟨_, rfl, ?_⟩
  simp only [recoverTxn, subNTxn, inttTxn, logByteenc, logCompress, State.setN, State.setWork, State.setPorts, State.log,
    Work.setN, Work.getN, Work.getH]

/-- `KPKE_DEC k` runs to its end and leaves the message. -/
theorem kpkeDec_runs (P : Provider) (k : Rank) (s : State) :
    Runs P (kpkeDecSeq k) s fun t => t.ports.decM.toList = kpkeDecrypt k s.ports.decDkp.toList s.ports.decC.toList := by
  unfold kpkeDecSeq
  simp only [List.append_assoc]
  rw [← List.append_assoc [_], ← List.append_assoc]
  refine (decInputs_runs P k s).append fun t ⟨hun, hvn, hsh⟩ => ?_
  rw [← List.append_assoc]
  refine Runs.append (decDot_runs P k t) fun u ⟨hacc, hvn'⟩ => (recover_runs P u).imp fun v hv => ?_
  rw [hv, bytesOfList_toList (byteEncode_length 1 _ (by decide)), hacc, hvn', hvn, hsh, hun]
  rfl

/-! ### The K-PKE operations on the machine -/

theorem exec_kpkeKeygen (k : Rank) (s : State) :
    exec (.kpkeKeygen (rankArg k)) s = unfinished s (runSeq Config.provider (kpkeKeygenSeq k) s) := by
  simp only [exec, execKpkeKeygen, rankOfArg_rankArg]

theorem exec_kpkeEnc (k : Rank) (s : State) :
    exec (.kpkeEnc (rankArg k)) s = unfinished s (runSeq Config.provider (kpkeEncSeq k) s) := by
  simp only [exec, execKpkeEnc, rankOfArg_rankArg]

theorem exec_kpkeDec (k : Rank) (s : State) :
    exec (.kpkeDec (rankArg k)) s = unfinished s (runSeq Config.provider (kpkeDecSeq k) s) := by
  simp only [exec, execKpkeDec, rankOfArg_rankArg]

/-- What is left of a sequence that stops before its end stands before the other transactions. -/
theorem todo_of_stopped {P : Provider} {ts us : List Txn} {s : State} (h : (runSeq P ts s).2 ≠ []) :
    ∃ x xs, (runSeq P ts s).2 ++ us = x :: xs ++ us := by
  obtain ⟨x, xs, hx⟩ := List.exists_cons_of_ne_nil h
  exact ⟨x, xs, congrArg (· ++ us) hx⟩

/-- Settles O30: the sequence computes the keys, and each of its transactions writes within the named registers. -/
theorem kpkeKeygenResult : Obligations.KpkeKeygenResult := fun k s => by
  have hrun := kpkeKeygen_computes Config.provider k s
  have hframe := keygenFrame_setTodo (kpkeKeygenSeq_frame Config.provider k s)
    ((runSeq Config.provider (kpkeKeygenSeq k) s).2 ++ s.todo)
  refine ⟨_, exec_kpkeKeygen k s, hframe, ?_⟩
  generalize kpkeKeyGen Config.provider s.groups k s.work.dseed.toList = r at hrun
  cases r with
  | none => exact todo_of_stopped hrun
  | some r =>
    obtain ⟨t, ht, heko, hdko⟩ := hrun
    rw [ht]
    exact ⟨rfl, heko, hdko⟩

/-- Settles O31: the sequence computes the ciphertext, and each of its transactions writes within the named registers. -/
theorem kpkeEncResult : Obligations.KpkeEncResult := fun k s => by
  have hrun := kpkeEnc_computes Config.provider k s
  have hframe := encFrame_setTodo (kpkeEncSeq_frame Config.provider k s)
    ((runSeq Config.provider (kpkeEncSeq k) s).2 ++ s.todo)
  refine ⟨_, exec_kpkeEnc k s, hframe, ?_⟩
  generalize kpkeEncrypt Config.provider s.groups k s.ports.encEk.toList s.ports.encM.toList s.ports.encR.toList = r at hrun
  cases r with
  | none => exact todo_of_stopped hrun
  | some c =>
    obtain ⟨t, ht, hc⟩ := hrun
    rw [ht]
    exact ⟨rfl, hc⟩

/-- Settles O32: the sequence runs to its end, and each of its transactions writes within the named registers and makes no
request. -/
theorem kpkeDecResult : Obligations.KpkeDecResult := fun k s => by
  obtain ⟨t, ht, hm⟩ := kpkeDec_runs Config.provider k s
  obtain ⟨hframe, hreq⟩ := kpkeDecSeq_keeps Config.provider k s
  have hexec := exec_kpkeDec k s
  rw [ht] at hframe hreq hexec
  exact ⟨t.setTodo s.todo, hexec, congrArg (State.setTodo · s.todo) hframe, hm, hreq⟩

end Sys2Proof.Machine
end

section
/-! PROOFS. The statements of 60_exceptions.md. An error leaves the step it is raised in for FAIL and WIPE, from any state of a
word; and no step from a state of the invariant is refused or faults. -/

namespace Sys2Proof.Machine

open Sys2Proof

/-! ### Every step answers (60_exceptions.md R274) -/

/-- An existing operation answers a next state, on every state. -/
theorem exec_answers {i : Instr} (hw : i.wellFormed = true) (s : State) : ∃ t, exec i s = .next t := by
  cases hi : hostIssuable true i with
  | true => exact ⟨_, exec_word s hw hi⟩
  | false => exact ⟨_, exec_unit s hw hi⟩

/-- A word at the CMD port that is no word for the host completes at once (60_exceptions.md R273). -/
theorem hostCmd_of_decodeHost_error {s : State} {det : Bool} {w : Word16} {e : DecodeError} (hb : s.status.busy = false)
    (hd : decodeHost det w = .error e) : hostCmd det w s = .next (illegalWord s) := by
  simp only [hostCmd, hb, hd, Bool.false_eq_true, if_false]

/-- Whatever word stands at the CMD port, the block answers (30_encoding.md R95, R97). -/
theorem hostCmd_answers (det : Bool) (w : Word16) (s : State) : ∃ t, hostCmd det w s = .next t := by
  cases hb : s.status.busy with
  | true => exact ⟨s, if_pos hb⟩
  | false =>
    cases hd : decodeHost det w with
    | error e => exact ⟨_, hostCmd_of_decodeHost_error hb hd⟩
    | ok i =>
      rw [hostCmd_of_decodeHost hb hd]
      exact exec_answers (wellFormed_of_decode (decode_of_decodeHost hd).1) s

/-- A turn of the block meets no state it cannot leave: FSM is not 15, and a word at the head of the transactions is an
operation's (10_state.md R27; 93_implementation_defined.md U6). -/
theorem SequencerOk.blockTurn_answers {s : State} (h : SequencerOk s) : ∃ t, Machine.blockTurn s = .next t := by
  obtain ⟨-, -, hcode, -⟩ := sequencerMeaning s h
  have hf : s.fsm ≠ .unused := fun hf => hcode (congrArg fsmCode hf)
  by_cases hop : ∃ w ts, s.todo = .op w :: ts
  · obtain ⟨w, ts, ht⟩ := hop
    have hb : BusyOk s := h.resolve_left fun hidle => by simp [hidle.todo] at ht
    have hhead : belongs s.fsm (.op w) = true := hb.belongs _ (by simp [ht])
    obtain ⟨i, hd, hw, -⟩ := decode_of_kpkeWord (Bool.and_eq_true_iff.1 hhead).2
    obtain ⟨u, hu⟩ := exec_answers hw ((s.setTodo ts).log (.unit w 1))
    exact ⟨u.advance, by rw [blockTurn_of_decode hf ht hd, hu, afterOp]⟩
  · refine ⟨Machine.settle Config.provider (s.burst + 1) s, ?_⟩
    unfold Machine.blockTurn
    rw [if_neg hf]
    split
    next w ts ht => exact absurd ⟨w, ts, ht⟩ hop
    next => rfl

/-- Settles O55: a host action is answered in every state, a turn of the block in every state of the invariant. -/
theorem everyStepAnswers : Obligations.EveryStepAnswers := fun s h => by
  cases ha : s.agenda with
  | nil =>
    rw [step_of_turn (.inr ⟨ha, rfl⟩)]
    exact SequencerOk.blockTurn_answers (h.congr rfl)
  | cons e es =>
    cases e with
    | block =>
      rw [step_of_turn (.inl ha)]
      exact SequencerOk.blockTurn_answers (h.congr rfl)
    | host a =>
      rw [step_of_host ha]
      cases a with
      | cmd w => exact hostCmd_answers _ w _
      | reset | push b v | read b i | status => exact ⟨_, rfl⟩

/-! ### ERR_CMD (60_exceptions.md R273) -/

/-- Settles O42: the completion of an illegal word, and its STATUS. -/
theorem illegalWord_completes : Obligations.IllegalWord := fun _ _ _ _ hb hd =>
  ⟨hostCmd_of_decodeHost_error hb hd, by decide⟩

/-! ### One transaction of the block -/

section
variable {P : Provider} {s u : State} {t : Txn} {ts : List Txn}

/-- A transaction that is finished. -/
theorem blockStep_of_done (ht : s.todo = t :: ts) (hd : doTxn P t (s.setTodo ts) = .done u) :
    blockStep P s = .moved u.advance := by
  cases t with
  | op w => cases hd
  | _ => simp only [blockStep, ht, hd]

/-- A transaction that raises an error (60_exceptions.md R277). -/
theorem blockStep_of_raise {e : Err} (ht : s.todo = t :: ts) (hd : doTxn P t (s.setTodo ts) = .raise e u) :
    blockStep P s = .moved (u.raiseError e) := by
  cases t with
  | op w => cases hd
  | _ => simp only [blockStep, ht, hd]

end

/-! ### From an error to IDLE (60_exceptions.md R277, R278) -/

/-- What FAIL and WIPE leave of the state in which a word raised an error (60_exceptions.md R277; 45_mlkem_fsm.md R241). -/
def State.failed (s : State) (op : Instr) (e : Err) : State :=
  { ({ s with ecode := e } : State).clearOutputs.wipe op with
    trace := .state .idle :: .state .wipe :: .state .fail :: s.trace }

/-- Two transactions lead from an error to IDLE: the outputs are discarded and the registers wiped. -/
theorem settle_raiseError {P : Provider} {s : State} {op : Instr} (hd : decode s.opw = .ok op) (e : Err) (n : Nat) :
    settle P (n + 2) (s.raiseError e) = s.failed op e := by
  have hfail : blockStep P (s.raiseError e) = .moved (((s.raiseError e).setTodo []).clearOutputs.goto .wipe) :=
    (blockStep_of_done rfl rfl).trans (congrArg BlockResult.moved (State.advance_of_next rfl hd rfl))
  have htodo : (((s.raiseError e).setTodo []).clearOutputs.goto .wipe).todo = [.wipe op] := by
    show stateTxns .wipe s.opw = _
    simp only [stateTxns, hd, stateSeq]
  have hwipe := blockStep_of_done (P := P) htodo rfl
  rw [settle_succ_of_moved hfail, settle_succ_of_moved hwipe, State.advance_idle rfl, settle_of_todo_nil P n _ rfl]
  rfl

/-- `s` with what CHECK and FETCH_RND of a word write taken from `t`, the draws aside; the input buffers, the ports and the world
outside stay (45_mlkem_fsm.md R232, R233). -/
def wordFrame (s t : State) : State :=
  { s with
    status := t.status
    eko := t.eko
    dko := t.dko
    cto := t.cto
    sso := t.sso
    fsm := t.fsm
    opw := t.opw
    ecode := t.ecode
    work := t.work
    todo := t.todo
    trace := t.trace }

/-- A ready block holds nothing of a word (10_state.md R36). -/
theorem State.Ready.eq_clean {s : State} (h : s.Ready) :
    { s with fsm := .idle, opw := 0, ecode := .none, work := Work.zero, todo := [] } = s := by
  obtain ⟨-, hfsm, hopw, hecode, hwork, htodo, -⟩ := h
  rw [← hfsm, ← hopw, ← hecode, ← hwork, ← htodo]

/-- A word that failed leaves the block as it was ready, but for its STATUS, the empty outputs and SEED (60_exceptions.md
R278). -/
theorem State.Ready.failed {s t : State} (h : s.Ready) (ht : t = wordFrame s t) (op : Instr) (e : Err) :
    ∃ tr, t.failed op e = { errorDone (if wipesSeed op then s.seedWiped else s) e with trace := tr } := by
  have hclean := congrArg (fun u => errorDone (if wipesSeed op then State.seedWiped u else u) e) h.eq_clean
  refine ⟨(t.failed op e).trace, ?_⟩
  rw [← hclean, ht, State.failed, State.wipe]
  cases wipesSeed op <;> rfl

/-- An error in a word of a ready block ends in IDLE, two transactions later. -/
theorem State.Ready.settle_raiseError {P : Provider} {s t : State} {op : Instr} (h : s.Ready) (ht : t = wordFrame s t)
    (hd : decode t.opw = .ok op) (e : Err) (n : Nat) :
    ∃ tr, settle P (n + 2) (t.raiseError e) =
      { errorDone (if wipesSeed op then s.seedWiped else s) e with trace := tr } := by
  rw [Machine.settle_raiseError hd]
  exact h.failed ht op e

theorem State.Ready.afterDraws {s : State} (h : s.Ready) (n : Nat) (rest : List (Option Byte)) :
    (s.afterDraws n rest).Ready := { h with }

/-! ### CHECK of a word (45_mlkem_fsm.md R230, R232) -/

/-- A ready block takes a host word, and makes as many transactions of it as one turn allows. -/
theorem State.Ready.exec_word {s : State} {op : Instr} (hs : s.Ready) (hw : op.wellFormed = true)
    (hi : hostIssuable true op = true) : exec op s = .next (settle Config.provider s.burst (s.take op)) := by
  rw [Machine.exec_word s hw hi, runWord, hs.busy]
  rfl

/-- The state on which CHECK of a word is made: the word is taken, and nothing else is left to do. -/
def State.checking (s : State) (op : Instr) : State :=
  { s with status := statusTaken, opw := encode op, ecode := .none, fsm := .check, todo := [], trace := [.state .check] }

section
variable {P : Provider} {s : State} {op : Instr} {k : Rank}

/-- The length test reads the counters of the input buffers only. -/
theorem lengthsOk_checking : lengthsOk op k (s.checking op) = lengthsOk op k s := by cases op <;> rfl

/-- A word that begins in CHECK is taken, and CHECK is still to be made. -/
theorem State.take_eq_checking (hd : decode (encode op) = .ok op) (hf : firstState op = .check) :
    s.take op = (s.checking op).setTodo [.check op] := by
  rw [State.take, hf, State.goto, show stateTxns .check (encode op) = [.check op] by simp only [stateTxns, hd, stateSeq]]
  rfl

/-- CHECK of a word whose lengths are right. -/
theorem blockStep_take_of_lengthsOk (hd : decode (encode op) = .ok op) (hf : firstState op = .check)
    (hk : rankOfArg op.arg = some k) (hl : lengthsOk op k s = true) :
    blockStep P (s.take op) = .moved (loadInputs op k (s.checking op).clearOutputs).advance := by
  have hcheck : doTxn P (.check op) (s.checking op) = .done (loadInputs op k (s.checking op).clearOutputs) := by
    simp only [doTxn, checkTxn, hk, lengthsOk_checking, hl, if_true]
  rw [State.take_eq_checking hd hf]
  exact blockStep_of_done rfl hcheck

/-- CHECK of a word whose length test fails. -/
theorem blockStep_take_of_not_lengthsOk (hd : decode (encode op) = .ok op) (hf : firstState op = .check)
    (hk : rankOfArg op.arg = some k) (hl : lengthsOk op k s = false) :
    blockStep P (s.take op) = .moved ((s.checking op).clearOutputs.raiseError .length) := by
  have hcheck : doTxn P (.check op) (s.checking op) = .raise .length (s.checking op).clearOutputs := by
    simp only [doTxn, checkTxn, hk, lengthsOk_checking, hl, Bool.false_eq_true, if_false]
  rw [State.take_eq_checking hd hf]
  exact blockStep_of_raise rfl hcheck

end

/-! ### ERR_LENGTH (60_exceptions.md R271) -/

/-- A word whose length test fails makes three transactions: CHECK, FAIL and WIPE. -/
theorem exec_of_not_lengthsOk {s : State} {op : Instr} {k : Rank} (hs : s.Ready) (hb : wordTxns ≤ s.burst)
    (hi : hostIssuable true op = true) (hf : firstState op = .check) (hw : op.wellFormed = true)
    (hk : rankOfArg op.arg = some k) (hl : lengthsOk op k s = false) :
    ∃ tr, exec op s = .next { errorDone (if wipesSeed op then s.seedWiped else s) .length with trace := tr } := by
  have hd := decode_encode_of_hostIssuable hw hi
  obtain ⟨n, hn⟩ : ∃ n, s.burst = n + 2 + 1 := ⟨s.burst - 3, by unfold wordTxns at hb; omega⟩
  rw [hs.exec_word hw hi, hn, settle_succ_of_moved (blockStep_take_of_not_lengthsOk hd hf hk hl)]
  obtain ⟨tr, htr⟩ := hs.settle_raiseError (t := (s.checking op).clearOutputs) rfl hd .length n
  exact ⟨tr, congrArg _ htr⟩

theorem legalRank_rankArg (k : Rank) : legalRank (rankArg k) = true := by cases k <;> rfl

/-- Settles O40: each word's length test, with the counters of the input buffers it reads. -/
theorem lengthError : Obligations.LengthError := fun k s hs hb => by
  have hk := rankOfArg_rankArg k
  have hw := legalRank_rankArg k
  refine ⟨fun h => ?_, fun h => ?_, fun h => ?_, fun h => ?_, by decide⟩
  · exact exec_of_not_lengthsOk hs hb rfl rfl hw hk (by simp [lengthsOk, h])
  · exact exec_of_not_lengthsOk hs hb rfl rfl hw hk (by simp [lengthsOk, h])
  · exact exec_of_not_lengthsOk hs hb rfl rfl hw hk (Bool.and_eq_false_iff.mpr (h.imp beq_false_of_ne beq_false_of_ne))
  · exact exec_of_not_lengthsOk hs hb rfl rfl hw hk (Bool.and_eq_false_iff.mpr (h.imp beq_false_of_ne beq_false_of_ne))

/-! ### ERR_RNG (60_exceptions.md R272) -/

/-- A state after `n` draws, with what they put into the working registers and the trace (45_mlkem_fsm.md R233). -/
def State.afterFetch (s : State) (n : Nat) (rest : List (Option Byte)) (w : Work) (tr : List TraceItem) : State :=
  { s.afterDraws n rest with work := w, trace := tr }

section
variable {P : Provider} {s : State} {op : Instr} {rest : List (Option Byte)}

/-- A draw that is answered fail (00_scope.md R14). -/
theorem drawTxn_of_fail (op : Instr) (i : Nat) (hr : s.rng = none :: rest) :
    drawTxn op i s = .raise .rng (s.afterFetch 1 rest s.work (.draw :: s.trace)) := by
  simp only [drawTxn, State.rngByte, State.drawn, hr, List.tail_cons, State.afterFetch, State.afterDraws]

/-- A draw that is answered with a byte (00_scope.md R14; 45_mlkem_fsm.md R233). -/
theorem drawTxn_of_byte (op : Instr) (i : Nat) {b : Byte} (hr : s.rng = some b :: rest) :
    drawTxn op i s = .done (s.afterFetch 1 rest (storeDraw op i b s.work) (.draw :: s.trace)) := by
  simp only [drawTxn, State.rngByte, State.drawn, hr, List.tail_cons, State.afterFetch, State.afterDraws, State.setWork]

theorem State.afterFetch_afterFetch (s : State) (m n : Nat) (rest rest' : List (Option Byte)) (w w' : Work)
    (tr tr' : List TraceItem) :
    (s.afterFetch m rest' w' tr').afterFetch n rest w tr = s.afterFetch (m + n) rest w tr := by
  simp only [State.afterFetch, State.afterDraws, Nat.add_assoc]

/-- The draws of a step up to the one that is answered fail, which ends the step (45_mlkem_fsm.md R233). -/
theorem settle_draws {bs : List Byte} (n : Nat) {i m : Nat} (ht : s.todo = (List.range' i m).map (.draw op))
    (hm : bs.length < m) (hr : s.rng = bs.map some ++ none :: rest) :
    ∃ w tr, settle P (n + (bs.length + 1)) s = settle P n ((s.afterFetch (bs.length + 1) rest w tr).raiseError .rng) := by
  obtain ⟨m, rfl⟩ := Nat.exists_eq_add_one.2 (Nat.zero_lt_of_lt hm)
  rw [List.range'_succ, List.map_cons] at ht
  induction bs generalizing i m s with
  | nil =>
    have hstep := blockStep_of_raise (P := P) ht (drawTxn_of_fail (s := s.setTodo _) op i hr)
    exact ⟨s.work, .draw :: s.trace, settle_succ_of_moved hstep⟩
  | cons b bs ih =>
    obtain ⟨m, rfl⟩ := Nat.exists_eq_add_one.2 (Nat.zero_lt_of_lt (Nat.lt_of_succ_lt_succ hm))
    have hstep := blockStep_of_done (P := P) ht (drawTxn_of_byte (s := s.setTodo _) op i hr)
    rw [State.advance_of_todo (List.cons_ne_nil _ _)] at hstep
    obtain ⟨w, tr, h⟩ := ih (s := (s.setTodo _).afterFetch 1 (bs.map some ++ none :: rest) (storeDraw op i b s.work)
      (.draw :: s.trace)) rfl m rfl (Nat.lt_of_succ_lt_succ hm)
    refine ⟨w, tr, (settle_succ_of_moved hstep).trans (h.trans ?_)⟩
    rw [State.afterFetch_afterFetch, Nat.add_comm 1]
    rfl

end

/-- The words that draw have no inputs to load and do not wipe SEED, and draw at most 64 bytes (45_mlkem_fsm.md R232, R233,
R241). -/
theorem fetches_of_nextState {op : Instr} (hn : nextState .check op = some .fetchRnd) :
    hostIssuable true op = true ∧ firstState op = .check ∧ wipesSeed op = false ∧ drawCount op ≤ 64 ∧
      ∀ k s, loadInputs op k s = s := by
  cases op with
  | keygen k | encaps k => exact ⟨rfl, rfl, rfl, by simp [drawCount], fun _ _ => rfl⟩
  | _ => cases hn

/-- A word of which a draw fails makes CHECK, the draws with the failed one as their last, FAIL and WIPE. -/
theorem exec_of_failed_draw {s : State} {op : Instr} {k : Rank} {bs : List Byte} {rest : List (Option Byte)} (hs : s.Ready)
    (hb : wordTxns ≤ s.burst) (hr : s.rng = bs.map some ++ none :: rest) (hn : nextState .check op = some .fetchRnd)
    (hw : op.wellFormed = true) (hk : rankOfArg op.arg = some k) (hl : lengthsOk op k s = true) (hbs : bs.length < drawCount op) :
    ∃ tr, exec op s = .next { errorDone (s.afterDraws (bs.length + 1) rest) .rng with trace := tr } := by
  obtain ⟨hi, hf, hseed, hcount, hload⟩ := fetches_of_nextState hn
  have hd := decode_encode_of_hostIssuable hw hi
  have htodo : stateTxns .fetchRnd (encode op) = (List.range' 0 (drawCount op)).map (.draw op) := by
    simp only [stateTxns, hd, stateSeq, List.range_eq_range']
  have hcheck := blockStep_take_of_lengthsOk (P := Config.provider) hd hf hk hl
  rw [hload, State.advance_of_next (s := (s.checking op).clearOutputs) rfl hd hn] at hcheck
  obtain ⟨n, hfuel⟩ : ∃ n, s.burst = n + 2 + (bs.length + 1) + 1 :=
    ⟨s.burst - (bs.length + 4), by unfold wordTxns at hb; omega⟩
  obtain ⟨w, tr, hdraws⟩ := settle_draws (P := Config.provider) (n + 2)
    (s := (s.checking op).clearOutputs.goto .fetchRnd) htodo hbs hr
  rw [hs.exec_word hw hi, hfuel, settle_succ_of_moved hcheck, hdraws]
  obtain ⟨tr', htr⟩ := (hs.afterDraws (bs.length + 1) rest).settle_raiseError
    (t := ((s.checking op).clearOutputs.goto .fetchRnd).afterFetch (bs.length + 1) rest w tr) rfl hd .rng n
  rw [hseed] at htr
  exact ⟨tr', congrArg _ htr⟩

/-- Settles O41: `KEYGEN` draws whatever the buffers hold, `ENCAPS` when KEY has the length of its rank. -/
theorem rngError : Obligations.RngError := fun k s bs rest hs hb hr => by
  have hk := rankOfArg_rankArg k
  have hw := legalRank_rankArg k
  refine ⟨fun h => ?_, fun h hkey => ?_, by decide⟩
  · exact exec_of_failed_draw hs hb hr rfl hw hk rfl h
  · exact exec_of_failed_draw hs hb hr rfl hw hk (by simp [lengthsOk, hkey]) h

end Sys2Proof.Machine
end

section
/-! PROOFS. The statements of 70_reset_and_hazards.md: reset, the host's actions while BUSY, and constant time. `DECAPS k` is
followed on two blocks that agree on what is public, transaction by transaction: each leaves them in agreement. -/

namespace Sys2Proof.Machine

open Sys2Proof

/-! ### Reset and BUSY -/

/-- Settles O48: the block after the action is the block after reset, with the world outside kept. -/
theorem resetResult : Obligations.ResetResult := fun s es h => by
  obtain ⟨hstatus, hirq, -, hopw, hecode, hin, hout, -⟩ := resetValues
  have inBuf : ∀ u b, (hostReset u).inBuf b = State.reset.inBuf b := fun u b => by cases b <;> rfl
  have outBuf : ∀ u b, (hostReset u).outBuf b = State.reset.outBuf b := fun u b => by cases b <;> rfl
  refine ⟨hostReset (s.setAgenda es), step_of_host h, hstatus, hirq, rfl, hopw, hecode, fun b => ?_, fun b => ?_, rfl, rfl,
    rfl, rfl⟩
  · rw [inBuf]
    exact hin b
  · rw [outBuf]
    exact hout b

/-- Settles O44: each of the three actions asks for BUSY first. -/
theorem busyIgnored : Obligations.BusyIgnored := fun s hb => by
  have hread : ∀ b i, hostReadByte b i s = 0 := fun b i => if_neg fun h => by simp [hb] at h
  exact ⟨fun _ => if_pos hb, hostPush_of_busy hb, fun b i => by rw [hostRead, hread]⟩

/-! ### The words and transactions of `DECAPS k` (45_mlkem_fsm.md R231, R238) -/

/-- The transactions a block makes for `DECAPS k`; those that move rho are of its own rank. -/
def Txn.ofDecaps (k : Rank) : Txn → Bool
  | .check (.decaps _) | .decryptIn _ | .decryptOut | .derive | .rejKey _ | .reencOut _ | .compare _ | .select => true
  | .discard | .wipe _ => true
  | .op w => w == encode (.kpkeEnc (rankArg k)) || w == encode (.kpkeDec (rankArg k))
  | .reencIn r | .encSeeds r => r == k
  | t => t.ofEnc || t.ofDec

theorem kpkeEncSeq_ofDecaps (k : Rank) : ∀ t ∈ kpkeEncSeq k, t.ofDecaps k = true := by
  cases k <;> exact List.all_eq_true.mp rfl

theorem kpkeDecSeq_ofDecaps (k : Rank) : ∀ t ∈ kpkeDecSeq k, t.ofDecaps k = true := by
  cases k <;> exact List.all_eq_true.mp rfl

theorem decode_encode_decaps (k : Rank) : decode (encode (.decaps (rankArg k))) = .ok (.decaps (rankArg k)) :=
  decode_encode_of_hostIssuable (legalRank_rankArg k) rfl

/-- The steps on the path of `DECAPS k` consist of its transactions. -/
theorem stateTxns_ofDecaps {k : Rank} {f : Fsm} (hf : f ∈ wordStates (.decaps (rankArg k))) :
    ∀ t ∈ stateTxns f (encode (.decaps (rankArg k))), t.ofDecaps k = true := by
  have hseq : stateTxns f (encode (.decaps (rankArg k))) = stateSeq f (.decaps (rankArg k)) k := by
    simp only [stateTxns, decode_encode_decaps, Instr.arg, rankOfArg_rankArg, Option.getD_some]
  rw [hseq]
  simp only [wordStates, wordPath, List.mem_cons, List.not_mem_nil, or_false] at hf
  rcases hf with rfl | rfl | rfl | rfl | rfl | rfl | rfl | rfl | rfl | rfl <;> cases k <;> exact List.all_eq_true.mp rfl

/-- The successor of a state on the path of `DECAPS k` is on it. -/
theorem nextState_of_decaps {k : Rank} {f g : Fsm} (hf : f ∈ wordStates (.decaps (rankArg k)))
    (hg : nextState f (.decaps (rankArg k)) = some g) : g ∈ wordStates (.decaps (rankArg k)) := by
  cases f <;> simp_all [wordStates, wordPath, nextState, eq_comm]

/-- A word a block presents in `DECAPS k` starts a sequence of its transactions. -/
theorem opTxn_ofDecaps {k : Rank} {w : Word16} (hw : (Txn.op w).ofDecaps k = true) :
    ∃ ts, (∀ t ∈ ts, t.ofDecaps k = true) ∧ ∀ P s, opTxn P w s = runSeq P ts (s.log (.unit w 1)) := by
  rcases Bool.or_eq_true_iff.1 hw with hw | hw <;> obtain rfl := eq_of_beq hw
  · refine ⟨kpkeEncSeq k, kpkeEncSeq_ofDecaps k, fun P s => ?_⟩
    rw [opTxn_of_decode (decodeEncode (.kpkeEnc (rankArg k)) (legalRank_rankArg k))]
    simp only [opUnit, rankOfArg_rankArg]
  · refine ⟨kpkeDecSeq k, kpkeDecSeq_ofDecaps k, fun P s => ?_⟩
    rw [opTxn_of_decode (decodeEncode (.kpkeDec (rankArg k)) (legalRank_rankArg k))]
    simp only [opUnit, rankOfArg_rankArg]

/-! ### One transaction of the block -/

section
variable {P : Provider} {s u : State} {w : Word16} {ts : List Txn}

/-- A word that its unit finishes. -/
theorem blockStep_of_op_done (ht : s.todo = .op w :: ts) (hr : (opTxn P w (s.setTodo ts)).2 = []) :
    blockStep P s = .moved (opTxn P w (s.setTodo ts)).1.advance := by
  simp only [blockStep, ht, hr]

/-- A word of which its unit leaves transactions. -/
theorem blockStep_of_op_left {x : Txn} {us : List Txn} (ht : s.todo = .op w :: ts)
    (hr : (opTxn P w (s.setTodo ts)).2 = x :: us) :
    blockStep P s = .rest ((opTxn P w (s.setTodo ts)).1.setTodo (x :: us ++ ts)) := by
  simp only [blockStep, ht, hr]

/-- A `SAMPLENTT` that does not end in this turn (42_sampling.md R162). -/
theorem blockStep_of_wait (ht : s.todo = .sampleLoop :: ts) (hd : doTxn P .sampleLoop (s.setTodo ts) = .wait u) :
    blockStep P s = .rest (u.setTodo (.sampleLoop :: ts)) := by
  simp only [blockStep, ht, hd]

end

/-! ### Blocks that look alike -/

/-- The registers on the way from rho to the sampler are the same (44_kpke.md R200). -/
structure Work.SamePublic (v w : Work) : Prop where
  rho : v.rho = w.rho
  xofin : v.xofin = w.xofin
  xofcur : v.xofcur = w.xofcur

/-- The ports of the sampler are the same, and so is rho inside the ek at `k_pke_encryptor`. -/
structure Ports.SamePublic (k : Rank) (p r : Ports) : Prop where
  smpIn : p.smpIn = r.smpIn
  smpOut : p.smpOut = r.smpOut
  smpCnt : p.smpCnt = r.smpCnt
  ekRho : slice p.encEk.toList (384 * rankVal k) 32 = slice r.encEk.toList (384 * rankVal k) 32

/-- Two blocks at work on `DECAPS k`, or through with it, that agree on all that is public: the sequencer and its schedule, the
trace, the counters, and rho wherever it stands on its way to the sampler. -/
structure DecapsAlike (k : Rank) (s t : State) : Prop where
  status : s.status = t.status
  fsm : s.fsm = t.fsm
  opw : s.opw = t.opw
  ecode : s.ecode = t.ecode
  todo : s.todo = t.todo
  patience : s.patience = t.patience
  trace : s.trace = t.trace
  keyCnt : s.key.cnt = t.key.cnt
  ctCnt : s.ct.cnt = t.ct.cnt
  ssoLen : s.sso.len = t.sso.len
  keyRho : s.key.mem.readBytes (768 * rankVal k) 32 = t.key.mem.readBytes (768 * rankVal k) 32
  work : s.work.SamePublic t.work
  ports : s.ports.SamePublic k t.ports
  word : s.opw = 0 ∨ (s.opw = encode (.decaps (rankArg k)) ∧ s.fsm ∈ wordStates (.decaps (rankArg k)))
  txns : ∀ x ∈ s.todo, x.ofDecaps k = true

/-- Two transactions end in the same way, and in related states. -/
inductive TxnResult.Alike (R : State → State → Prop) : TxnResult → TxnResult → Prop
  | done {s t : State} : R s t → Alike R (.done s) (.done t)
  | wait {s t : State} : R s t → Alike R (.wait s) (.wait t)
  | raise {s t : State} (e : Err) : R s t → Alike R (.raise e s) (.raise e t)

/-- Two transactions of the block end in the same way, and in related states. -/
inductive BlockResult.Alike (R : State → State → Prop) : BlockResult → BlockResult → Prop
  | moved {s t : State} : R s t → Alike R (.moved s) (.moved t)
  | rest {s t : State} : R s t → Alike R (.rest s) (.rest t)

theorem Work.samePublic_setN (w : Work) (r : NReg) (f : NPoly) : (w.setN r f).SamePublic w :=
  ⟨Work.setN_rho w r f, Work.setN_xofin w r f, Work.setN_xofcur w r f⟩

theorem Work.samePublic_setN_nctr (w : Work) (r : NReg) (f : NPoly) (n : Byte) :
    ({ w.setN r f with nctr := n } : Work).SamePublic w := { w.samePublic_setN r f with }

theorem Work.samePublic_setN_cz (w : Work) (r : NReg) (f : NPoly) (y : Coeffs) :
    (({ w with cz := y } : Work).setN r f).SamePublic w := { Work.samePublic_setN { w with cz := y } r f with }

theorem Work.samePublic_setH (w : Work) (r : HReg) (f : HPoly) : (w.setH r f).SamePublic w :=
  ⟨Work.setH_rho w r f, Work.setH_xofin w r f, Work.setH_xofcur w r f⟩

/-- Where rho stands in the ek that a decapsulation takes from dk (20_memory.md R69). -/
theorem slice_readBytes_rho (m : Memory) (k : Rank) :
    slice (bytesOfList 1568 (m.readBytes (384 * rankVal k) (ekLen k))).toList (384 * rankVal k) 32 =
      m.readBytes (768 * rankVal k) 32 := by
  have hlen := ekLen_le k
  unfold ekLen at hlen ⊢
  rw [slice_bytesOfList _ _ _ _ (by simp) hlen, Memory.readBytes_add, ← Nat.add_mul, slice,
    List.drop_left' (Memory.readBytes_length _ _ _), List.take_of_length_le (Nat.le_of_eq (Memory.readBytes_length _ _ _))]

namespace DecapsAlike

variable {k : Rank} {s t : State}

/-- The sampler works on public data. -/
theorem sampler (h : DecapsAlike k s t) : s.sampler = t.sampler := by
  simp only [State.sampler, h.work.xofcur, h.ports.smpCnt, h.ports.smpOut]

theorem setTodo (h : DecapsAlike k s t) {ts : List Txn} (hts : ∀ x ∈ ts, x.ofDecaps k = true) :
    DecapsAlike k (s.setTodo ts) (t.setTodo ts) := { h with todo := rfl, txns := hts }

theorem log (h : DecapsAlike k s t) (x : TraceItem) : DecapsAlike k (s.log x) (t.log x) :=
  { h with trace := congrArg (x :: ·) h.trace }

theorem setWork (h : DecapsAlike k s t) {v w : Work} (hvw : v.SamePublic w) :
    DecapsAlike k (s.setWork v) (t.setWork w) := { h with work := hvw }

/-- Secrets written into the working registers. -/
theorem setSecrets (h : DecapsAlike k s t) {v w : Work} (hv : v.SamePublic s.work := by exact ⟨rfl, rfl, rfl⟩)
    (hw : w.SamePublic t.work := by exact ⟨rfl, rfl, rfl⟩) : DecapsAlike k (s.setWork v) (t.setWork w) :=
  h.setWork
    { rho := hv.rho.trans (h.work.rho.trans hw.rho.symm)
      xofin := hv.xofin.trans (h.work.xofin.trans hw.xofin.symm)
      xofcur := hv.xofcur.trans (h.work.xofcur.trans hw.xofcur.symm) }

theorem setN (h : DecapsAlike k s t) (r : NReg) (f g : NPoly) : DecapsAlike k (s.setN r f) (t.setN r g) :=
  h.setSecrets (Work.samePublic_setN _ r f) (Work.samePublic_setN _ r g)

theorem setH (h : DecapsAlike k s t) (r : HReg) (f g : HPoly) : DecapsAlike k (s.setH r f) (t.setH r g) :=
  h.setSecrets (Work.samePublic_setH _ r f) (Work.samePublic_setH _ r g)

theorem setPorts (h : DecapsAlike k s t) {p r : Ports} (hpr : p.SamePublic k r) :
    DecapsAlike k (s.setPorts p) (t.setPorts r) := { h with ports := hpr }

/-- Secrets presented at the ports of the K-PKE units. -/
theorem setPortSecrets (h : DecapsAlike k s t) {p r : Ports}
    (hp : p.SamePublic k s.ports := by exact ⟨rfl, rfl, rfl, rfl⟩)
    (hr : r.SamePublic k t.ports := by exact ⟨rfl, rfl, rfl, rfl⟩) : DecapsAlike k (s.setPorts p) (t.setPorts r) :=
  h.setPorts
    { smpIn := hp.smpIn.trans (h.ports.smpIn.trans hr.smpIn.symm)
      smpOut := hp.smpOut.trans (h.ports.smpOut.trans hr.smpOut.symm)
      smpCnt := hp.smpCnt.trans (h.ports.smpCnt.trans hr.smpCnt.symm)
      ekRho := hp.ekRho.trans (h.ports.ekRho.trans hr.ekRho.symm) }

theorem setSampler (h : DecapsAlike k s t) (x : Sampler) : DecapsAlike k (s.setSampler x) (t.setSampler x) :=
  { h with work := { h.work with xofcur := rfl }, ports := { h.ports with smpOut := rfl, smpCnt := rfl } }

theorem setSso (h : DecapsAlike k s t) {m m' : Memory} {n : Nat} :
    DecapsAlike k (s.setOutBuf .sso { mem := m, len := n }) (t.setOutBuf .sso { mem := m', len := n }) :=
  { h with ssoLen := rfl }

theorem clearOutputs (h : DecapsAlike k s t) : DecapsAlike k s.clearOutputs t.clearOutputs := { h with ssoLen := rfl }

theorem wipe (h : DecapsAlike k s t) (op : Instr) : DecapsAlike k (s.wipe op) (t.wipe op) :=
  { h with
    status := congrArg statusDone h.ecode
    fsm := rfl
    opw := rfl
    ecode := rfl
    todo := rfl
    trace := congrArg (TraceItem.state .idle :: ·) h.trace
    work := ⟨rfl, rfl, rfl⟩
    word := .inl rfl
    txns := fun _ hx => absurd hx List.not_mem_nil }

/-- The length test of CHECK reads counters, which are public; what is loaded is secret (45_mlkem_fsm.md R232). -/
theorem checkTxn (h : DecapsAlike k s t) (a : BitVec 4) :
    (checkTxn (.decaps a) s).Alike (DecapsAlike k) (checkTxn (.decaps a) t) := by
  have hlengths : ∀ r, lengthsOk (.decaps a) r s = lengthsOk (.decaps a) r t := fun r => by
    simp only [lengthsOk, h.keyCnt, h.ctCnt]
  unfold Machine.checkTxn
  split
  next => exact .raise _ h.clearOutputs
  next r _ =>
    rw [hlengths]
    split
    · exact .done h.clearOutputs.setSecrets
    · exact .raise _ h.clearOutputs

/-- Whether a `SAMPLENTT` ends in a turn, and with how many bytes read, is public (42_sampling.md R161). -/
theorem sampleLoopTxn (h : DecapsAlike k s t) (P : Provider) :
    (sampleLoopTxn P s).Alike (DecapsAlike k) (sampleLoopTxn P t) := by
  have hturn : DecapsAlike k (sampleTurn P s) (sampleTurn P t) := by
    unfold sampleTurn
    rw [h.sampler, h.ports.smpIn, h.patience]
    exact h.setSampler _
  have hcnt := hturn.ports.smpCnt
  rcases sampleLoopTxn_cases P s with ⟨hs, hloop⟩ | ⟨hs, hloop⟩ <;> rw [hloop] <;>
    rcases sampleLoopTxn_cases P t with ⟨ht, hloop'⟩ | ⟨ht, hloop'⟩ <;> rw [hloop']
  · rw [hturn.work.xofcur]
    exact .done (hturn.log _)
  · omega
  · omega
  · exact .wait hturn

/-- The ek that a decapsulation presents, and its release after (45_mlkem_fsm.md R238). -/
theorem presentEnc (h : DecapsAlike k s t) : DecapsAlike k
    (presentEnc (s.key.mem.readBytes (384 * rankVal k) (ekLen k)) s)
    (presentEnc (t.key.mem.readBytes (384 * rankVal k) (ekLen k)) t) := by
  refine h.setPorts ⟨h.ports.smpIn, h.ports.smpOut, h.ports.smpCnt, ?_⟩
  rw [slice_readBytes_rho, slice_readBytes_rho, h.keyRho]

theorem releaseEnc (h : DecapsAlike k s t) : DecapsAlike k (releaseEnc s) (releaseEnc t) :=
  h.setPorts ⟨h.ports.smpIn, h.ports.smpOut, h.ports.smpCnt, rfl⟩

/-- RHO is taken from the ek presented (44_kpke.md R204). -/
theorem encSeedsTxn (h : DecapsAlike k s t) : DecapsAlike k (encSeedsTxn k s) (encSeedsTxn k t) :=
  h.setWork { h.work with rho := congrArg (bytesOfList 32) h.ports.ekRho }

theorem xofinTxn (h : DecapsAlike k s t) (row col : Fin 4) : DecapsAlike k (xofinTxn row col s) (xofinTxn row col t) := by
  refine h.setWork ⟨h.work.rho, ?_, h.work.xofcur⟩
  rw [h.work.rho]

theorem sampleStartTxn (h : DecapsAlike k s t) : DecapsAlike k (sampleStartTxn s) (sampleStartTxn t) := by
  have hports : DecapsAlike k (s.setPorts { s.ports with smpIn := s.work.xofin })
      (t.setPorts { t.ports with smpIn := t.work.xofin }) := h.setPorts { h.ports with smpIn := h.work.xofin }
  exact ((hports.log _).setSampler _).log _

theorem sampleTakeTxn (h : DecapsAlike k s t) : DecapsAlike k (sampleTakeTxn s) (sampleTakeTxn t) :=
  (h.setH _ _ _).setPorts { h.ports with smpIn := rfl, smpOut := rfl, smpCnt := rfl }

/-- What a transaction of `DECAPS k` shows does not depend on the secrets it moves. -/
theorem doTxn (h : DecapsAlike k s t) (P : Provider) {x : Txn} (hx : x.ofDecaps k = true) :
    (doTxn P x s).Alike (DecapsAlike k) (doTxn P x t) := by
  cases x with
  | check op =>
    cases op with
    | decaps a => exact h.checkTxn a
    | _ => cases hx
  | sampleLoop => exact h.sampleLoopTxn P
  | op w => exact .wait h
  | wipe op => exact .done (h.wipe op)
  | discard => exact .done h.clearOutputs
  | select => exact .done h.setSso
  | decryptIn r => exact .done h.setPortSecrets
  | decryptOut => exact .done h.setSecrets.setPortSecrets
  | reencIn r =>
    obtain rfl := eq_of_beq hx
    exact .done h.presentEnc
  | reencOut r => exact .done h.setSecrets.releaseEnc
  | compare r => exact .done h.setSecrets
  | encSeeds r =>
    obtain rfl := eq_of_beq hx
    exact .done h.encSeedsTxn
  | xofin row col => exact .done (h.xofinTxn row col)
  | sampleStart => exact .done h.sampleStartTxn
  | sampleTake => exact .done h.sampleTakeTxn
  | derive | rejKey r | prf eta => exact .done (h.setSecrets.log _)
  | cbd eta dst =>
    exact .done (.log (h.setSecrets (Work.samePublic_setN_nctr _ _ _ _) (Work.samePublic_setN_nctr _ _ _ _)) _)
  | clearAcc => exact .done (h.setH _ _ _)
  | ntt src dst | pwm a b | addH a b dst | decodeT i | decodeS i => exact .done ((h.setH _ _ _).log _)
  | intt src dst | addN a b dst | subN a b dst => exact .done ((h.setN _ _ _).log _)
  | message | unpackU r i | unpackV r =>
    exact .done (.log (.log (h.setSecrets (Work.samePublic_setN_cz _ _ _ _) (Work.samePublic_setN_cz _ _ _ _)) _) _)
  | packU r i | packV r | recover => exact .done (.log (.log (.setPortSecrets h.setSecrets) _) _)
  | _ => cases hx

/-- What is left of a sequence of `DECAPS k` is public (70_reset_and_hazards.md R318). -/
theorem runSeq (P : Provider) {ts : List Txn} (hts : ∀ x ∈ ts, x.ofDecaps k = true) (h : DecapsAlike k s t) :
    DecapsAlike k (runSeq P ts s).1 (runSeq P ts t).1 ∧ (runSeq P ts s).2 = (runSeq P ts t).2 := by
  induction ts generalizing s t with
  | nil => exact ⟨h, rfl⟩
  | cons x ts ih =>
    obtain ⟨hx, hts⟩ := List.forall_mem_cons.1 hts
    have hend := h.doTxn P hx
    rw [Machine.runSeq, Machine.runSeq]
    generalize Machine.doTxn P x s = a, Machine.doTxn P x t = b at hend
    cases hend with
    | done hu => exact ih hts hu
    | wait hu => exact ⟨hu, rfl⟩
    | raise e hu => exact ⟨hu, rfl⟩

/-- A word presented to a unit starts a sequence, of which the same is left on both sides. -/
theorem opTxn (h : DecapsAlike k s t) (P : Provider) {w : Word16} (hw : (Txn.op w).ofDecaps k = true) :
    DecapsAlike k (opTxn P w s).1 (opTxn P w t).1 ∧ (opTxn P w s).2 = (opTxn P w t).2 ∧
      ∀ x ∈ (Machine.opTxn P w s).2, x.ofDecaps k = true := by
  obtain ⟨ts, hts, hrun⟩ := opTxn_ofDecaps hw
  rw [hrun, hrun]
  obtain ⟨hu, hleft⟩ := (h.log (.unit w 1)).runSeq P hts
  exact ⟨hu, hleft, fun x hx => hts x ((runSeq_suffix P ts _).subset hx)⟩

/-- `pc <- S` along the path of `DECAPS k`. -/
theorem goto (h : DecapsAlike k s t) {f : Fsm} (hw : s.opw = encode (.decaps (rankArg k)))
    (hf : f ∈ wordStates (.decaps (rankArg k))) : DecapsAlike k (s.goto f) (t.goto f) :=
  { h with
    fsm := rfl
    todo := congrArg (stateTxns f) h.opw
    trace := congrArg (TraceItem.state f :: ·) h.trace
    word := .inr ⟨hw, hf⟩
    txns := by
      rw [State.goto_todo, hw]
      exact stateTxns_ofDecaps hf }

theorem raiseError (h : DecapsAlike k s t) (e : Err) : DecapsAlike k (s.raiseError e) (t.raiseError e) :=
  { h with
    fsm := rfl
    ecode := rfl
    todo := rfl
    trace := congrArg (TraceItem.state .fail :: ·) h.trace
    word := h.word.imp_right fun ⟨hw, _⟩ => ⟨hw, List.mem_cons_self⟩
    txns := List.forall_mem_singleton.2 rfl }

/-- Whether a step is over, and what follows it, is public (45_mlkem_fsm.md R231). -/
theorem advance_cases (h : DecapsAlike k s t) :
    (s.advance = s ∧ t.advance = t) ∨
      ∃ op f, decode s.opw = .ok op ∧ nextState s.fsm op = some f ∧ s.advance = s.goto f ∧ t.advance = t.goto f := by
  unfold State.advance
  rw [← h.todo, ← h.opw, ← h.fsm]
  split
  · exact .inl ⟨rfl, rfl⟩
  · split
    next op hd =>
      split
      next f hf => exact .inr ⟨op, f, hd, hf, rfl, rfl⟩
      next => exact .inl ⟨rfl, rfl⟩
    next => exact .inl ⟨rfl, rfl⟩

theorem advance (h : DecapsAlike k s t) : DecapsAlike k s.advance t.advance := by
  rcases h.advance_cases with ⟨hs, ht⟩ | ⟨op, f, hd, hnext, hs, ht⟩ <;> rw [hs, ht]
  · exact h
  · rcases h.word with hw | ⟨hw, hf⟩ <;> rw [hw] at hd
    · cases hd
    · obtain rfl := Except.ok.inj ((decode_encode_decaps k).symm.trans hd)
      exact h.goto hw (nextState_of_decaps hf hnext)

/-- A word at the head of the transactions. -/
theorem blockStep_of_op (h : DecapsAlike k s t) (P : Provider) {w : Word16} {ts : List Txn} (hs : s.todo = .op w :: ts) :
    (blockStep P s).Alike (DecapsAlike k) (blockStep P t) := by
  have ht := h.todo.symm.trans hs
  obtain ⟨hw, hts⟩ := List.forall_mem_cons.1 (hs ▸ h.txns)
  obtain ⟨hu, hleft, hus⟩ := (h.setTodo hts).opTxn P hw
  cases hr : (Machine.opTxn P w (s.setTodo ts)).2 with
  | nil =>
    rw [blockStep_of_op_done hs hr, blockStep_of_op_done ht (hleft.symm.trans hr)]
    exact .moved hu.advance
  | cons x us =>
    rw [blockStep_of_op_left hs hr, blockStep_of_op_left ht (hleft.symm.trans hr)]
    exact .rest (hu.setTodo (List.forall_mem_append.2 ⟨hr ▸ hus, hts⟩))

/-- Any other transaction at the head. -/
theorem blockStep_of_txn (h : DecapsAlike k s t) (P : Provider) {x : Txn} {ts : List Txn} (hs : s.todo = x :: ts)
    (hop : ∀ w, x ≠ .op w) : (blockStep P s).Alike (DecapsAlike k) (blockStep P t) := by
  have ht := h.todo.symm.trans hs
  obtain ⟨hx, hts⟩ := List.forall_mem_cons.1 (hs ▸ h.txns)
  have hend := (h.setTodo hts).doTxn P hx
  generalize hds : Machine.doTxn P x (s.setTodo ts) = a, hdt : Machine.doTxn P x (t.setTodo ts) = b at hend
  cases hend with
  | done hu =>
    rw [blockStep_of_done hs hds, blockStep_of_done ht hdt]
    exact .moved hu.advance
  | raise e hu =>
    rw [blockStep_of_raise hs hds, blockStep_of_raise ht hdt]
    exact .moved (hu.raiseError e)
  | wait hu =>
    rcases doTxn_wait hds with ⟨rfl, -⟩ | ⟨w, hw, -⟩
    · rw [blockStep_of_wait hs hds, blockStep_of_wait ht hdt]
      exact .rest (hu.setTodo (hs ▸ h.txns))
    · exact absurd hw (hop w)

/-- One transaction of the block, if there is one to make (20_memory.md R74). -/
theorem blockStep (h : DecapsAlike k s t) (P : Provider) : (blockStep P s).Alike (DecapsAlike k) (blockStep P t) := by
  cases hs : s.todo with
  | nil =>
    simp only [Machine.blockStep, hs, h.todo.symm.trans hs]
    exact .rest h
  | cons x ts =>
    by_cases hop : ∃ w, x = .op w
    · obtain ⟨w, rfl⟩ := hop
      exact h.blockStep_of_op P hs
    · exact h.blockStep_of_txn P hs (not_exists.1 hop)

/-- A turn, of however many transactions (45_mlkem_fsm.md R244). -/
theorem settle (P : Provider) (n : Nat) (h : DecapsAlike k s t) : DecapsAlike k (settle P n s) (settle P n t) := by
  induction n generalizing s t with
  | zero => exact h
  | succ n ih =>
    have hstep := h.blockStep P
    rw [Machine.settle, Machine.settle]
    generalize Machine.blockStep P s = a, Machine.blockStep P t = b at hstep
    cases hstep with
    | moved hu => exact ih hu
    | rest hu => exact hu

end DecapsAlike

/-- Two ready blocks that agree on what is public take `DECAPS k` alike: they differ in KEY outside rho and in CT only. -/
theorem DecapsPublic.take {k : Rank} {s t : State} (h : DecapsPublic k s t) :
    DecapsAlike k (s.take (.decaps (rankArg k))) (t.take (.decaps (rankArg k))) := by
  obtain ⟨ht, hrho⟩ := h
  generalize t.key.mem = m, t.ct.mem = c at ht hrho
  subst ht
  exact
    { status := rfl, fsm := rfl, opw := rfl, ecode := rfl, todo := rfl, patience := rfl, trace := rfl
      keyCnt := rfl, ctCnt := rfl, ssoLen := rfl
      keyRho := hrho
      work := ⟨rfl, rfl, rfl⟩
      ports := ⟨rfl, rfl, rfl, rfl⟩
      word := .inr ⟨rfl, by simp [firstState, wordStates, wordPath]⟩
      txns := stateTxns_ofDecaps (by simp [firstState, wordStates, wordPath]) }

theorem DecapsPublic.ready {k : Rank} {s t : State} (h : DecapsPublic k s t) (hs : s.Ready) : t.Ready := by
  rw [h.1]
  exact { hs with }

/-- Settles O58: two ready blocks that take the word alike are alike after the turn, however long it is. -/
theorem decapsConstantTime : Obligations.DecapsConstantTime := fun k s₁ s₂ t₁ t₂ hs hpublic he₁ he₂ => by
  have hw : (Instr.decaps (rankArg k)).wellFormed = true := legalRank_rankArg k
  have hburst : s₂.burst = s₁.burst := by rw [hpublic.1]
  rw [hs.exec_word hw rfl] at he₁
  rw [(hpublic.ready hs).exec_word hw rfl, hburst] at he₂
  obtain rfl := Host.Outcome.next.inj he₁
  obtain rfl := Host.Outcome.next.inj he₂
  have h := hpublic.take.settle Config.provider s₁.burst
  exact ⟨h.trace, h.status, h.fsm, h.todo, h.ssoLen⟩

end Sys2Proof.Machine
end

section
/-! PROOFS. The host words of 45_mlkem_fsm.md, as functions (R247). A word of a ready block is followed from state to state of FSM:
each state's transactions lead the block, with a base state for all that is not the sequencer's, to the next one. -/

namespace Sys2Proof.Machine

open Sys2Proof

/-! ### Transactions that lead from one state to another -/

/-- `n` transactions lead the block from one state to another, in every turn that allows so many. -/
def Leads (P : Provider) (n : Nat) (s t : State) : Prop := ∀ m, settle P (m + n) s = settle P m t

/-- In `n` transactions a word computes an answer: where there is one they lead to a state of which `Q` holds with the answer,
and where there is none every turn that allows so many ends waiting, in a state of which `W` holds. -/
def Settles {α : Type} (P : Provider) (n : Nat) (W : State → Prop) (s : State) : Option α → (α → State → Prop) → Prop
  | some a, Q => ∃ t, Leads P n s t ∧ Q a t
  | none, _ => ∀ m, W (settle P (m + n) s)

section
variable {α β : Type} {P : Provider} {n n' : Nat} {s t u : State} {W : State → Prop}

theorem Leads.trans (h : Leads P n s t) (h' : Leads P n' t u) : Leads P (n' + n) s u := fun m => by
  rw [← Nat.add_assoc, h, h']

theorem leads_of_moved (h : blockStep P s = .moved t) : Leads P 1 s t := fun _ => settle_succ_of_moved h

theorem Leads.settles {o : Option α} {Q : α → State → Prop} (h : Leads P n s t) (h' : Settles P n' W t o Q) :
    Settles P (n' + n) W s o Q := by
  cases o with
  | some a =>
    obtain ⟨u, hu, hQ⟩ := h'
    exact ⟨u, h.trans hu, hQ⟩
  | none => exact fun m => by rw [← Nat.add_assoc, h]; exact h' m

/-- An answer, and transactions that lead on from it. -/
theorem Settles.leads {o : Option α} {Q R : α → State → Prop} (h : Settles P n W s o Q)
    (h' : ∀ a t, o = some a → Q a t → ∃ u, Leads P n' t u ∧ R a u) : Settles P (n' + n) W s o R := by
  cases o with
  | some a =>
    obtain ⟨t, ht, hQ⟩ := h
    obtain ⟨u, hu, hR⟩ := h' a t rfl hQ
    exact ⟨u, ht.trans hu, hR⟩
  | none => exact fun m => by rw [Nat.add_comm n', ← Nat.add_assoc, Nat.add_right_comm]; exact h (m + n')

/-- An answer that is mapped. -/
theorem Settles.map {o : Option α} (g : α → β) {Q : β → State → Prop} (h : Settles P n W s o fun a => Q (g a)) :
    Settles P n W s (o.map g) Q := by
  cases o <;> exact h

theorem Settles.imp {o : Option α} {Q R : α → State → Prop} (h : Settles P n W s o Q) (h' : ∀ a t, Q a t → R a t) :
    Settles P n W s o R := by
  cases o with
  | some a =>
    obtain ⟨t, ht, hQ⟩ := h
    exact ⟨t, ht, h' a t hQ⟩
  | none => exact h

/-- Transactions that lead to IDLE make a whole turn, however many more it allows. -/
theorem Leads.settle_eq (h : Leads P n s t) (ht : t.todo = []) {N : Nat} (hN : n ≤ N) : settle P N s = t := by
  obtain ⟨m, rfl⟩ := Nat.exists_eq_add_of_le' hN
  rw [h, settle_of_todo_nil P m t ht]

end

/-! ### The block at work on a word -/

/-- The operation is what its word decodes to, and of rank k (30_encoding.md R92, R93). -/
structure OfRank (op : Instr) (k : Rank) : Prop where
  word : decode (encode op) = .ok op
  rank : rankOfArg op.arg = some k

/-- A base state at work on a word: the sequencer's own state put in (10_state.md R41, R230). -/
def State.working (b : State) (op : Instr) (f : Fsm) (ts : List Txn) (w : Work) (tr : List TraceItem) : State :=
  { b with status := statusTaken, opw := encode op, ecode := .none, fsm := f, todo := ts, work := w, trace := tr }

/-- A base state at work on a word, at the beginning of a step. -/
def State.atStep (b : State) (op : Instr) (k : Rank) (f : Fsm) (w : Work) (tr : List TraceItem) : State :=
  b.working op f (stateSeq f op k) w tr

section
variable {P : Provider} {op : Instr} {k : Rank} {f g : Fsm} {b b' x : State} {w w' : Work} {tr tr' : List TraceItem} {t : Txn}
  {ts : List Txn}

theorem OfRank.stateTxns (h : OfRank op k) (f : Fsm) : Machine.stateTxns f (encode op) = stateSeq f op k := by
  simp only [Machine.stateTxns, h.word, h.rank, Option.getD_some]

/-- The end of a step of a word (45_mlkem_fsm.md R231). -/
theorem OfRank.advance (h : OfRank op k) (hn : nextState f op = some g) :
    (b.working op f [] w tr).advance = b.atStep op k g w (.state g :: tr) := by
  rw [State.advance_of_next (s := b.working op f [] w tr) rfl h.word hn, State.atStep, ← h.stateTxns]
  rfl

/-- A transaction that is not the last one of its step. -/
theorem leads_of_done (hd : doTxn P t (b.working op f ts w tr) = .done x) (hx : x.todo ≠ []) :
    Leads P 1 (b.working op f (t :: ts) w tr) x :=
  leads_of_moved ((blockStep_of_done rfl hd).trans (congrArg _ (State.advance_of_todo hx)))

/-- The last transaction of a step. -/
theorem leads_of_last (h : OfRank op k) (hn : nextState f op = some g)
    (hd : doTxn P t (b.working op f [] w tr) = .done (b'.working op f [] w' tr')) :
    Leads P 1 (b.working op f [t] w tr) (b'.atStep op k g w' (.state g :: tr')) :=
  leads_of_moved ((blockStep_of_done rfl hd).trans (congrArg _ (h.advance hn)))

/-! ### CHECK and FETCH_RND (45_mlkem_fsm.md R232, R233) -/

/-- A ready block takes a word whose lengths are right, and CHECK loads its registers. -/
theorem leads_check {s : State} (h : OfRank op k) (hf : firstState op = .check) (hl : lengthsOk op k s = true)
    (hn : nextState .check op = some g)
    (hload : loadInputs op k (s.clearOutputs.working op .check [] s.work [.state .check]) =
      s.clearOutputs.working op .check [] w [.state .check]) :
    Leads P 1 (s.take op) (s.clearOutputs.atStep op k g w [.state g, .state .check]) := by
  have hcheck := blockStep_take_of_lengthsOk (P := P) h.word hf h.rank hl
  rw [show (s.checking op).clearOutputs = s.clearOutputs.working op .check [] s.work [.state .check] from rfl, hload,
    h.advance hn] at hcheck
  exact leads_of_moved hcheck

/-- The working registers after the bytes of consecutive draws are stored, from the `i`-th draw on. -/
def storeDraws (op : Instr) : Nat → List Byte → Work → Work
  | _, [], w => w
  | i, v :: bs, w => storeDraws op (i + 1) bs (storeDraw op i v w)

theorem storeDraws_append (op : Instr) (i : Nat) (as bs : List Byte) (w : Work) :
    storeDraws op i (as ++ bs) w = storeDraws op (i + as.length) bs (storeDraws op i as w) := by
  induction as generalizing i w with
  | nil => rfl
  | cons a as ih =>
    rw [List.cons_append, storeDraws, storeDraws, ih, List.length_cons, Nat.add_assoc, Nat.add_comm 1]

/-- Draws that are all answered fill their registers, and FETCH_RND is over with the last one. -/
theorem leads_draws (h : OfRank op k) (hn : nextState .fetchRnd op = some g) {v : Byte} {bs : List Byte}
    {rest : List (Option Byte)} (i : Nat) (hr : b.rng = (v :: bs).map some ++ rest) :
    ∃ tr', Leads P (bs.length + 1)
      (b.working op .fetchRnd ((List.range' i (bs.length + 1)).map (.draw op)) w tr)
      ((b.afterDraws (bs.length + 1) rest).atStep op k g (storeDraws op i (v :: bs) w) tr') := by
  induction bs generalizing i b w tr v with
  | nil => exact ⟨_, leads_of_last h hn (drawTxn_of_byte (s := b.working op .fetchRnd [] w tr) op i hr)⟩
  | cons v' bs ih =>
    have hfirst := leads_of_done (P := P) (t := .draw op i) (f := .fetchRnd) (w := w) (tr := tr)
      (ts := (List.range' (i + 1) (bs.length + 1)).map (.draw op)) (drawTxn_of_byte (s := b.working op .fetchRnd _ w tr) op i hr)
      (List.cons_ne_nil _ _)
    obtain ⟨tr', hrest⟩ := ih (b := b.afterDraws 1 ((v' :: bs).map some ++ rest)) (w := storeDraw op i v w)
      (tr := .draw :: tr) (i + 1) rfl
    have hdraws : (b.afterDraws 1 ((v' :: bs).map some ++ rest)).afterDraws (bs.length + 1) rest =
        b.afterDraws (bs.length + 1 + 1) rest := by
      simp only [State.afterDraws, Nat.add_assoc, Nat.add_comm 1]
    rw [hdraws] at hrest
    exact ⟨tr', hfirst.trans hrest⟩

end

/-! #### Where the bytes go (20_memory.md R71) -/

theorem writeField_nil {n : Nat} (v : Bytes n) (off : Nat) : writeField v off [] = v := by
  refine Vector.ext fun i hi => ?_
  rw [getElem_writeField, if_neg (by simp)]

/-- A byte written in front of a field. -/
theorem writeField_setIfInBounds {n : Nat} (v : Bytes n) (i : Nat) (b : Byte) (bs : List Byte) :
    writeField (v.setIfInBounds i b) (i + 1) bs = writeField v i (b :: bs) := by
  refine Vector.ext fun j hj => ?_
  rw [getElem_writeField _ _ _ _ hj, getElem_writeField _ _ _ _ hj, Vector.getElem_setIfInBounds hj, List.length_cons]
  rcases Nat.lt_trichotomy j i with hlt | rfl | hgt
  · rw [if_neg fun h => Nat.not_le.2 (Nat.lt_succ_of_lt hlt) h.1, if_neg hlt.ne', if_neg fun h => Nat.not_le.2 hlt h.1]
  · rw [if_neg fun h => Nat.not_succ_le_self j h.1, if_pos rfl,
      if_pos ⟨Nat.le_refl j, Nat.lt_add_of_pos_right (Nat.succ_pos _)⟩, Nat.sub_self, List.getD_cons_zero]
  · have hsub : j - i = j - (i + 1) + 1 := (Nat.sub_add_cancel (Nat.sub_pos_of_lt hgt)).symm
    rw [if_neg hgt.ne, hsub, List.getD_cons_succ, Nat.add_right_comm]
    exact if_congr (and_congr_left' ⟨Nat.le_of_succ_le, fun _ => hgt⟩) rfl rfl

theorem writeField_toList {n : Nat} (v d : Bytes n) : writeField v 0 d.toList = d := by
  refine Vector.ext fun i hi => ?_
  rw [getElem_writeField _ _ _ _ hi, if_pos (by simpa using hi)]
  simp [hi]

theorem storeDraws_keygen_dseed (a : BitVec 4) {i : Nat} {bs : List Byte} (hi : i + bs.length ≤ 32) (w : Work) :
    storeDraws (.keygen a) i bs w = { w with dseed := writeField w.dseed i bs } := by
  induction bs generalizing i w with
  | nil => rw [storeDraws, writeField_nil]
  | cons v bs ih =>
    rw [List.length_cons] at hi
    have hstep : storeDraw (.keygen a) i v w = { w with dseed := w.dseed.setIfInBounds i v } := if_pos (by omega)
    rw [storeDraws, ih (by omega), hstep, writeField_setIfInBounds]

theorem storeDraws_keygen_zseed (a : BitVec 4) {i : Nat} {bs : List Byte} (hi : 32 ≤ i) (w : Work) :
    storeDraws (.keygen a) i bs w = { w with zseed := writeField w.zseed (i - 32) bs } := by
  induction bs generalizing i w with
  | nil => rw [storeDraws, writeField_nil]
  | cons v bs ih =>
    have hstep : storeDraw (.keygen a) i v w = { w with zseed := w.zseed.setIfInBounds (i - 32) v } := if_neg (by omega)
    rw [storeDraws, ih (by omega), hstep, Nat.sub_add_comm hi, writeField_setIfInBounds]

/-- The 64 bytes of a key generation: d into DSEED, z into ZSEED. -/
theorem storeDraws_keygen (a : BitVec 4) (d z : Bytes 32) (w : Work) :
    storeDraws (.keygen a) 0 (d.toList ++ z.toList) w = { w with dseed := d, zseed := z } := by
  have hd : 0 + d.toList.length = 32 := by simp
  rw [storeDraws_append, storeDraws_keygen_dseed a hd.le, storeDraws_keygen_zseed a hd.ge, hd, writeField_toList,
    writeField_toList]

/-- The bytes of an encapsulation: m into MSG. -/
theorem storeDraws_encaps (a : BitVec 4) (i : Nat) (bs : List Byte) (w : Work) :
    storeDraws (.encaps a) i bs w = { w with msg := writeField w.msg i bs } := by
  induction bs generalizing i w with
  | nil => rw [storeDraws, writeField_nil]
  | cons v bs ih =>
    have hstep : storeDraw (.encaps a) i v w = { w with msg := w.msg.setIfInBounds i v } := rfl
    rw [storeDraws, ih, hstep, writeField_setIfInBounds]

/-! ### The ports of the sampler (44_kpke.md R200) -/

/-- The ports of `rejection_sampler` carry nothing, as between two of its transactions. -/
structure Ports.SamplerFree (p : Ports) : Prop where
  smpIn : p.smpIn = Vector.replicate 34 0
  smpOut : p.smpOut = HPoly.zero
  smpCnt : p.smpCnt = 0

theorem Ports.Released.samplerFree {p : Ports} (h : p.Released) : p.SamplerFree := ⟨h.smpIn, h.smpOut, h.smpCnt⟩

/-- Whether the ports of the sampler carry nothing after a transaction, given whether they did before it. -/
def Txn.freesSampler (free : Bool) : Txn → Bool
  | .sampleTake => true
  | .sampleStart | .sampleLoop => false
  | _ => free

section
variable {P : Provider} {s u : State} {t : Txn} {free : Bool}

theorem samplerFree_log (h : s.ports.SamplerFree) (x : TraceItem) : (s.log x).ports.SamplerFree := h

theorem samplerFree_setWork (h : s.ports.SamplerFree) (w : Work) : (s.setWork w).ports.SamplerFree := h

theorem samplerFree_setOutBuf (h : s.ports.SamplerFree) (n : OutName) (o : OutBuf) : (s.setOutBuf n o).ports.SamplerFree := by
  cases n <;> exact h

/-- Results of the K-PKE units at their ports. -/
theorem samplerFree_setResults (h : s.ports.SamplerFree) {c : Bytes 1568} {m : Bytes 32} :
    (s.setPorts { s.ports with encC := c, decM := m }).ports.SamplerFree := { h with }

/-- Operands and a result of `k_pke_encryptor` at its ports. -/
theorem samplerFree_setEnc (h : s.ports.SamplerFree) {ek c : Bytes 1568} {m r : Bytes 32} :
    (s.setPorts { s.ports with encEk := ek, encM := m, encR := r, encC := c }).ports.SamplerFree := { h with }

theorem doTxn_samplerFree (ht : t.kpke = true) (h : free = true → s.ports.SamplerFree) (hfree : t.freesSampler free = true) :
    (doTxn P t s).state.ports.SamplerFree := by
  cases t with
  | sampleTake => exact ⟨rfl, rfl, rfl⟩
  | sampleStart | sampleLoop => cases hfree
  | splitSeeds | encSeeds k | xofin row col | clearAcc => exact samplerFree_setWork (h hfree) _
  | writeRho k => exact samplerFree_setOutBuf (h hfree) .eko _
  | encodeT i | encodeS i => exact samplerFree_log (samplerFree_setOutBuf (h hfree) _ _) _
  | message | unpackU k i | unpackV k => exact samplerFree_log (samplerFree_log (samplerFree_setWork (h hfree) _) _) _
  | packU k i | packV k | recover =>
    exact samplerFree_log (samplerFree_log (samplerFree_setResults (samplerFree_setWork (h hfree) _)) _) _
  | seedG k | prf eta | cbd eta dst | ntt src dst | intt src dst | pwm a b | addH a b dst | addN a b dst | subN a b dst
  | decodeT i | decodeS i => exact samplerFree_log (samplerFree_setWork (h hfree) _) _
  | _ => exact absurd ht Bool.false_ne_true

/-- A sequence that takes the result of every `SAMPLENTT` it starts leaves the ports of the sampler as it found them. -/
theorem runSeq_samplerFree {ts : List Txn} (hts : ∀ t ∈ ts, t.kpke = true) (hr : runSeq P ts s = (u, []))
    (h : free = true → s.ports.SamplerFree) (hfree : ts.foldl Txn.freesSampler free = true) : u.ports.SamplerFree := by
  induction ts generalizing s free with
  | nil =>
    cases hr
    exact h hfree
  | cons t ts ih =>
    obtain ⟨ht, hts⟩ := List.forall_mem_cons.1 hts
    have hfirst : t.freesSampler free = true → (doTxn P t s).state.ports.SamplerFree := doTxn_samplerFree ht h
    rw [runSeq] at hr
    cases hd : doTxn P t s with
    | done v =>
      rw [hd] at hr hfirst
      exact ih hts hr hfirst hfree
    | wait v | raise e v =>
      rw [hd] at hr
      cases hr

end

theorem kpkeKeygenSeq_freesSampler (k : Rank) : (kpkeKeygenSeq k).foldl Txn.freesSampler true = true := by cases k <;> rfl

theorem kpkeEncSeq_freesSampler (k : Rank) : (kpkeEncSeq k).foldl Txn.freesSampler true = true := by cases k <;> rfl

/-! ### The words of K-PKE in a step (45_mlkem_fsm.md R234, R236, R238) -/

section
variable {P : Provider} {op : Instr} {f : Fsm} {b : State} {w : Work} {tr : List TraceItem} {i : Instr} {ts seq : List Txn}

/-- A word whose sequence runs to its end in the step of a state. -/
theorem leads_of_word {t : State} (hi : ∀ s, opTxn P (encode i) s = runSeq P seq (s.log (.unit (encode i) 1)))
    (hr : runSeq P seq ((b.working op f ts w tr).log (.unit (encode i) 1)) = (t, [])) :
    Leads P 1 (b.working op f (.op (encode i) :: ts) w tr) t.advance := by
  have hword : opTxn P (encode i) (b.working op f ts w tr) = (t, []) := (hi _).trans hr
  have hmoved := blockStep_of_op_done (P := P) (s := b.working op f (.op (encode i) :: ts) w tr) rfl (congrArg Prod.snd hword)
  rw [show (b.working op f (.op (encode i) :: ts) w tr).setTodo ts = b.working op f ts w tr from rfl, hword] at hmoved
  exact leads_of_moved hmoved

/-- A word whose sequence stops before its end leaves the block waiting in the step, whatever it delivers later. -/
theorem waiting_of_word (hi : ∀ s, opTxn P (encode i) s = runSeq P seq (s.log (.unit (encode i) 1)))
    (hkpke : ∀ t ∈ seq, t.kpke = true)
    (hr : (runSeq P seq ((b.working op f ts w tr).log (.unit (encode i) 1))).2 ≠ [])
    (hout : ∀ n, ((runSeq P seq ((b.working op f ts w tr).log (.unit (encode i) 1))).1.outBuf n).len = 0) (m : Nat) :
    Waiting b (settle P (m + 1) (b.working op f (.op (encode i) :: ts) w tr)) f := by
  have hcontrol := runSeq_control P seq ((b.working op f ts w tr).log (.unit (encode i) 1)) fun t ht =>
    Txn.ends_of_kpke (hkpke t ht)
  generalize hrun : runSeq P seq ((b.working op f ts w tr).log (.unit (encode i) 1)) = r at hr hout hcontrol
  obtain ⟨x, us, hleft⟩ := List.exists_cons_of_ne_nil hr
  have hword : opTxn P (encode i) (b.working op f ts w tr) = r := (hi _).trans hrun
  have hrest := blockStep_of_op_left (P := P) (s := b.working op f (.op (encode i) :: ts) w tr) (x := x) (us := us) rfl
    ((congrArg Prod.snd hword).trans hleft)
  rw [show (b.working op f (.op (encode i) :: ts) w tr).setTodo ts = b.working op f ts w tr from rfl, hword] at hrest
  rw [settle_succ_of_rest hrest]
  exact ⟨hcontrol.status, hcontrol.fsm, List.cons_ne_nil _ _, hcontrol.key, hcontrol.ct, hcontrol.seed,
    hout .eko, hout .dko, hout .cto, hout .sso⟩

end

/-! ### WIPE (45_mlkem_fsm.md R241) -/

section
variable {P : Provider} {op : Instr} {k : Rank} {b : State} {w : Work} {tr : List TraceItem}

/-- WIPE ends the word. -/
theorem leads_wipe : Leads P 1 (b.atStep op k .wipe w tr) ((b.working op .wipe [] w tr).wipe op) :=
  leads_of_moved ((blockStep_of_done rfl rfl).trans (congrArg _ (State.advance_idle rfl)))

/-- A base state with the given output buffers. -/
def State.withOutputs (b : State) (eko dko cto sso : OutBuf) : State := { b with eko := eko, dko := dko, cto := cto, sso := sso }

/-- A word of a ready block that has come to WIPE leaves its outputs and STATUS, and SEED wiped if it is deterministic. -/
theorem State.Ready.wipe {u : State} (h : u.Ready) (f : Fsm) (ts : List Txn) (eko dko cto sso : OutBuf) :
    ((u.withOutputs eko dko cto sso).working op f ts w tr).wipe op =
      { (if wipesSeed op then u.seedWiped else u).withOutputs eko dko cto sso with
        status := statusDone .none, trace := .state .idle :: tr } := by
  have hclean := congrArg (fun v : State => { (if wipesSeed op then v.seedWiped else v).withOutputs eko dko cto sso with
    status := statusDone .none, trace := .state .idle :: tr }) h.eq_clean
  rw [← hclean, State.wipe]
  cases wipesSeed op <;> rfl

end

/-! ### Key generation (45_mlkem_fsm.md R234, R235) -/

theorem opTxn_kpkeKeygen (P : Provider) (k : Rank) (s : State) :
    opTxn P (encode (.kpkeKeygen (rankArg k))) s =
      runSeq P (kpkeKeygenSeq k) (s.log (.unit (encode (.kpkeKeygen (rankArg k))) 1)) := by
  rw [opTxn_of_decode (decodeEncode (.kpkeKeygen (rankArg k)) (legalRank_rankArg k))]
  simp only [opUnit, rankOfArg_rankArg]

/-- Ports that differ at the sampler's only, where both carry nothing. -/
theorem Ports.SamplerFree.eq {p r : Ports} (hp : p.SamplerFree) (hr : r.SamplerFree) :
    { p with smpIn := r.smpIn, smpOut := r.smpOut, smpCnt := r.smpCnt } = p := by
  rw [hr.smpIn, hr.smpOut, hr.smpCnt, ← hp.smpIn, ← hp.smpOut, ← hp.smpCnt]

section
variable {P : Provider} {op : Instr} {k : Rank} {b : State} {w : Work} {tr : List TraceItem}

/-- The base state with the keys of K-PKE in EKO and DKO. -/
def State.withKeys (b : State) (ek dkp : List Byte) : State :=
  { b with
    eko := { b.eko with mem := b.eko.mem.writeBytes 0 ek }
    dko := { b.dko with mem := b.dko.mem.writeBytes 0 dkp } }

/-- KPKE_KG computes the keys of K-PKE from DSEED, or waits. -/
theorem settles_kpkeKg (h : OfRank op k) (hp : b.ports.SamplerFree) (hlen : ∀ n, (b.outBuf n).len = 0) :
    Settles P 1 (Waiting b · .kpkeKg) (b.atStep op k .kpkeKg w tr) (kpkeKeyGen P b.groups k w.dseed.toList) fun r t =>
      ∃ w' tr', w'.zseed = w.zseed ∧ t = (b.withKeys r.1 r.2).atStep op k .hashEk w' tr' := by
  let s := (b.working op .kpkeKg [] w tr).log (.unit (encode (.kpkeKeygen (rankArg k))) 1)
  have hrun : Computes P (kpkeKeygenSeq k) s (kpkeKeyGen P b.groups k w.dseed.toList) _ := kpkeKeygen_computes P k s
  have hframe := kpkeKeygenSeq_frame P k s
  generalize kpkeKeyGen P b.groups k w.dseed.toList = o at hrun
  cases o with
  | none =>
    refine waiting_of_word (opTxn_kpkeKeygen P k) (kpkeKeygenSeq_kpke k) hrun fun n => ?_
    rw [hframe]
    cases n with
    | eko => exact hlen .eko
    | dko => exact hlen .dko
    | cto => exact hlen .cto
    | sso => exact hlen .sso
  | some r =>
    obtain ⟨t, hr, heko, hdko⟩ := hrun
    have hfree : t.ports.SamplerFree :=
      runSeq_samplerFree (kpkeKeygenSeq_kpke k) hr (fun _ => hp) (kpkeKeygenSeq_freesSampler k)
    have htodo := (runSeq_control P (kpkeKeygenSeq k) s fun t ht => Txn.ends_of_kpke (kpkeKeygenSeq_kpke k t ht)).todo
    rw [hr] at hframe htodo
    have hwork : (keygenFrame s t).work = t.work := congrArg State.work hframe.symm
    have hports : (keygenFrame s t).ports = b.ports := hp.eq hfree
    have ht : t = State.working
        { b with
          eko := { b.eko with mem := t.eko.mem }, dko := { b.dko with mem := t.dko.mem }, ports := (keygenFrame s t).ports }
        op .kpkeKg t.todo (keygenFrame s t).work t.trace := hframe
    rw [hwork, hports, heko, hdko, htodo] at ht
    exact ⟨_, leads_of_word (opTxn_kpkeKeygen P k) hr, t.work, _, congrArg (·.work.zseed) hframe,
      (congrArg State.advance ht).trans (h.advance rfl)⟩

/-- HASH_EK of a key generation. -/
theorem leads_hashEko (h : OfRank op k) (hk : isKeygen op = true) (hn : nextState .hashEk op = some .assembleDk) :
    ∃ tr', Leads P 1 (b.atStep op k .hashEk w tr)
      (b.atStep op k .assembleDk { w with hek := P.H (b.eko.mem.readBytes 0 (ekLen k)) } tr') := by
  have hseq : stateSeq .hashEk op k = [.hashEko k] := if_pos hk
  rw [State.atStep, hseq]
  exact ⟨_, leads_of_last h hn rfl⟩

/-- ASSEMBLE_DK. -/
theorem leads_assembleDk (h : OfRank op k) :
    Leads P 1 (b.atStep op k .assembleDk w tr)
      ((b.withOutputs { b.eko with len := ekLen k }
        { mem := ((b.dko.mem.writeBytes (384 * rankVal k) (b.eko.mem.readBytes 0 (ekLen k))).writeBytes
            (768 * rankVal k + 32) w.hek.toList).writeBytes (768 * rankVal k + 64) w.zseed.toList
          len := dkLen k } b.cto b.sso).atStep op k .wipe w (.state .wipe :: tr)) :=
  leads_of_last h rfl rfl

/-! #### The keys and their lengths (00_scope.md R12) -/

theorem length_of_mapM_eq_some {α β : Type} {f : α → Option β} {l : List α} {bs : List β} (h : l.mapM f = some bs) :
    bs.length = l.length := by
  induction l generalizing bs with
  | nil =>
    cases h
    rfl
  | cons a l ih =>
    rw [List.mapM_cons] at h
    obtain ⟨b, -, h⟩ := Option.bind_eq_some_iff.1 h
    obtain ⟨cs, hcs, h⟩ := Option.bind_eq_some_iff.1 h
    cases h
    rw [List.length_cons, List.length_cons, ih hcs]

theorem kpkeKeyGen_length {n : Nat} {d : List Byte} {r : List Byte × List Byte} (h : kpkeKeyGen P n k d = some r) :
    r.1.length = ekLen k ∧ r.2.length = 384 * rankVal k := by
  obtain ⟨th, hth, rfl⟩ := Option.map_eq_some_iff.1 h
  rw [List.length_append, encodeVector_length, encodeVector_length, length_of_mapM_eq_some hth, List.length_map, length_rankIdx,
    slice_length _ _ _ (by rw [Vector.length_toList]; decide)]
  exact ⟨rfl, rfl⟩

/-- A string written into an empty buffer reads back. -/
theorem readBytes_writeBytes_nil (B : List Byte) : (Memory.writeBytes [] 0 B).readBytes 0 B.length = B :=
  Memory.readBytes_writeBytes (Memory.wf_nil B.length) (Nat.zero_add _).le

/-- The parts of dk one after the other in DKO (20_memory.md R69). -/
theorem dko_eq_holding {ek dkp : List Byte} (hek : ek.length = ekLen k) (hdkp : dkp.length = 384 * rankVal k) (h z : Bytes 32) :
    { mem := (((Memory.writeBytes [] 0 dkp).writeBytes (384 * rankVal k) ek).writeBytes (768 * rankVal k + 32)
        h.toList).writeBytes (768 * rankVal k + 64) z.toList, len := dkLen k } =
      OutBuf.holding (dkp ++ ek ++ h.toList ++ z.toList) := by
  have hekAt : 0 + dkp.length = 384 * rankVal k := (Nat.zero_add _).trans hdkp
  have hhAt : 0 + (dkp ++ ek).length = 768 * rankVal k + 32 := by
    rw [List.length_append, hek, hdkp, ekLen]
    omega
  have hzAt : 0 + (dkp ++ ek ++ h.toList).length = 768 * rankVal k + 64 := by
    rw [List.length_append, Vector.length_toList]
    omega
  have hlen : (dkp ++ ek ++ h.toList ++ z.toList).length = dkLen k := by
    rw [List.length_append, Vector.length_toList, dkLen]
    omega
  rw [OutBuf.holding, hlen, Memory.writeBytes_append, Memory.writeBytes_append, Memory.writeBytes_append, hekAt, hhAt, hzAt]

/-- A key generation of a ready block, from KPKE_KG on: HASH_EK, ASSEMBLE_DK and WIPE follow the keys of K-PKE. -/
theorem settles_keygen (h : OfRank op k) (hk : isKeygen op = true) (hn : nextState .hashEk op = some .assembleDk) {u : State}
    (hu : u.Ready) :
    Settles P 4 (Waiting u.clearOutputs · .kpkeKg) (u.clearOutputs.atStep op k .kpkeKg w tr)
      (mlkemKeyGen P u.groups k w.dseed.toList w.zseed.toList) fun r t =>
      t = { keygenDone (if wipesSeed op then u.seedWiped else u) r.1 r.2 with trace := t.trace } := by
  have hkeys := settles_kpkeKg (P := P) (b := u.clearOutputs) (w := w) (tr := tr) h hu.ports.samplerFree fun n => by
    cases n <;> rfl
  refine .map _ (hkeys.leads (n' := 3) ?_)
  rintro ⟨ek, dkp⟩ t hr ⟨w', tr', hz, rfl⟩
  rw [← hz]
  obtain ⟨hek, hdkp⟩ : ek.length = ekLen k ∧ dkp.length = 384 * rankVal k := kpkeKeyGen_length hr
  let b := u.clearOutputs.withKeys ek dkp
  have hread : b.eko.mem.readBytes 0 (ekLen k) = ek := hek ▸ readBytes_writeBytes_nil ek
  obtain ⟨tr'', hhash⟩ := leads_hashEko (P := P) (b := b) (w := w') (tr := tr') h hk hn
  have hassemble := leads_assembleDk (P := P) (b := b) (w := { w' with hek := P.H ek }) (tr := tr'') h
  have heko : ({ b.eko with len := ekLen k } : OutBuf) = .holding ek := hek ▸ rfl
  have hdko := dko_eq_holding hek hdkp (P.H ek) w'.zseed
  rw [hread] at hhash hassemble
  rw [heko, show b.dko.mem = Memory.writeBytes [] 0 dkp from rfl, hdko] at hassemble
  have hrest := (hhash.trans hassemble).trans leads_wipe
  exact ⟨_, hrest, hu.wipe .wipe [] (.holding ek) (.holding _) .empty .empty⟩

end

/-! ### The words of a ready block -/

/-- All the draws of FETCH_RND, answered with bytes (45_mlkem_fsm.md R233). -/
theorem leads_fetch {P : Provider} {op : Instr} {k : Rank} {g : Fsm} {b : State} {w : Work} {tr : List TraceItem}
    {bs : List Byte} {rest : List (Option Byte)} (h : OfRank op k) (hn : nextState .fetchRnd op = some g)
    (hr : b.rng = bs.map some ++ rest) (hlen : bs.length = drawCount op) (hpos : 0 < drawCount op) :
    ∃ tr', Leads P (drawCount op) (b.atStep op k .fetchRnd w tr)
      ((b.afterDraws (drawCount op) rest).atStep op k g (storeDraws op 0 bs w) tr') := by
  rw [← hlen] at hpos
  obtain ⟨v, bs, rfl⟩ := List.exists_cons_of_length_pos hpos
  rw [State.atStep, stateSeq, List.range_eq_range', ← hlen]
  exact leads_draws h hn 0 hr

/-- A word of a ready block that computes an answer, on the machine: it completes with the answer, or waits. -/
theorem State.Ready.exec_of_settles {α : Type} {s : State} {op : Instr} {n : Nat} {W : State → Prop} {o : Option α}
    {Q : α → State → Prop} (hs : s.Ready) (hb : wordTxns ≤ s.burst) (hw : op.wellFormed = true)
    (hi : hostIssuable true op = true) (hn : n ≤ wordTxns) (h : Settles Config.provider n W (s.take op) o Q)
    (hQ : ∀ a t, Q a t → t.todo = []) :
    ∃ t, exec op s = .next t ∧ (∀ a, o = some a → Q a t) ∧ (o = none → W t) := by
  have hburst := hn.trans hb
  refine ⟨_, hs.exec_word hw hi, ?_⟩
  cases o with
  | some a =>
    obtain ⟨t, ht, hQa⟩ := h
    rw [ht.settle_eq (hQ a t hQa) hburst]
    exact ⟨fun _ ha => Option.some.inj ha ▸ hQa, nofun⟩
  | none =>
    obtain ⟨m, hm⟩ := Nat.exists_eq_add_of_le' hburst
    rw [hm]
    exact ⟨nofun, fun _ => h m⟩

theorem ofRank_of_arg {op : Instr} {k : Rank} (hw : op.wellFormed = true) (hi : hostIssuable true op = true)
    (ha : op.arg = rankArg k) : OfRank op k := ⟨decode_encode_of_hostIssuable hw hi, ha ▸ rankOfArg_rankArg k⟩

theorem todo_of_keygenDone {u t : State} {ek dk : List Byte} (hu : u.Ready)
    (h : t = { keygenDone u ek dk with trace := t.trace }) : t.todo = [] := (congrArg State.todo h).trans hu.todo

/-- Settles O33: the 64 draws fill DSEED and ZSEED, and the key generation from them follows. -/
theorem keygenResult : Obligations.KeygenResult := fun k s d z rest hs hb hr => by
  have hw : (Instr.keygen (rankArg k)).wellFormed = true := legalRank_rankArg k
  have h := ofRank_of_arg hw rfl rfl
  have hcheck := leads_check (P := Config.provider) h rfl rfl rfl (w := s.work) rfl
  obtain ⟨tr, hfetch⟩ := leads_fetch (P := Config.provider) (b := s.clearOutputs) (w := s.work) h rfl hr
    (by simp [drawCount]) (by simp [drawCount])
  rw [storeDraws_keygen] at hfetch
  have hready := hs.afterDraws 64 rest
  obtain ⟨t, ht, hdone, hwait⟩ := hs.exec_of_settles hb hw rfl (by simp [drawCount, wordTxns])
    ((hcheck.trans hfetch).settles (settles_keygen h rfl rfl hready)) fun _ _ hQ => todo_of_keygenDone hready hQ
  refine ⟨t, ht, ?_⟩
  split
  next ho => exact hdone _ ho
  next ho => exact hwait ho

/-- Settles O34: CHECK loads DSEED and ZSEED from SEED, and the key generation from them follows. -/
theorem keygenDetResult : Obligations.KeygenDetResult := fun k s hs hb hseed => by
  have hw : (Instr.keygenDet (rankArg k)).wellFormed = true := legalRank_rankArg k
  have h := ofRank_of_arg hw rfl rfl
  have hcheck := leads_check (P := Config.provider) (s := s) h rfl (beq_iff_eq.2 hseed) rfl (w := { s.work with
      dseed := bytesOfList 32 (s.seed.mem.readBytes 0 32), zseed := bytesOfList 32 (s.seed.mem.readBytes 32 32) }) rfl
  have hkeygen := settles_keygen (P := Config.provider) (w := { s.work with
      dseed := bytesOfList 32 (s.seed.mem.readBytes 0 32), zseed := bytesOfList 32 (s.seed.mem.readBytes 32 32) })
      (tr := [.state .kpkeKg, .state .check]) h rfl rfl hs
  rw [bytesOfList_toList (by simp), bytesOfList_toList (by simp)] at hkeygen
  obtain ⟨t, ht, hdone, hwait⟩ := hs.exec_of_settles hb hw rfl (by decide) (hcheck.settles hkeygen) fun _ _ hQ =>
    todo_of_keygenDone (u := s.seedWiped) { hs with } hQ
  refine ⟨t, ht, ?_⟩
  split
  next ho => exact hdone _ ho
  next ho => exact hwait ho

/-! ### Encapsulation (45_mlkem_fsm.md R236, R237) -/

theorem opTxn_kpkeEnc (P : Provider) (k : Rank) (s : State) :
    opTxn P (encode (.kpkeEnc (rankArg k))) s = runSeq P (kpkeEncSeq k) (s.log (.unit (encode (.kpkeEnc (rankArg k))) 1)) := by
  rw [opTxn_of_decode (decodeEncode (.kpkeEnc (rankArg k)) (legalRank_rankArg k))]
  simp only [opUnit, rankOfArg_rankArg]

/-- A part of a vector at the beginning of a port is that part of the string put there. -/
theorem slice_part_bytesOfList {n d : Nat} {k : Rank} {B : List Byte} {i : Fin 4} (hi : i ∈ rankIdx k)
    (hB : d * rankVal k ≤ B.length) (hn : B.length ≤ n) :
    slice (bytesOfList n B).toList (d * i.val) d = slice B (d * i.val) d := by
  have hle : d * i.val + d ≤ B.length := (Nat.mul_le_mul_left d (lt_rankVal hi)).trans hB
  exact slice_bytesOfList _ _ _ _ hle (hle.trans hn)

/-- An encryption reads EKLEN(k) bytes of its port for ek. -/
theorem kpkeEncrypt_bytesOfList {P : Provider} {n : Nat} {k : Rank} {ek : List Byte} (hek : ek.length = ekLen k) (m r : List Byte) :
    kpkeEncrypt P n k (bytesOfList 1568 ek).toList m r = kpkeEncrypt P n k ek m r := by
  have hcap : ek.length ≤ 1568 := hek.trans_le (ekLen_le k)
  have hvector : 384 * rankVal k ≤ ek.length := hek ▸ Nat.le_add_right _ 32
  have hth : ∀ i ∈ rankIdx k,
      ({ c := byteDecode 12 (slice (bytesOfList 1568 ek).toList (384 * i.val) 384) } : HPoly) =
        { c := byteDecode 12 (slice ek (384 * i.val) 384) } := fun i hi => by
    rw [slice_part_bytesOfList hi hvector hcap]
  unfold kpkeEncrypt
  rw [List.map_congr_left hth, slice_bytesOfList _ _ _ _ hek.ge (ekLen_le k)]

section
variable {P : Provider} {op : Instr} {k : Rank} {f g : Fsm} {b : State} {w : Work} {tr : List TraceItem} {ts : List Txn}

theorem State.outBuf_setPorts (s : State) (p : Ports) (n : OutName) : (s.setPorts p).outBuf n = s.outBuf n := by
  cases n <;> rfl

/-- `KPKE_ENC k` computes the ciphertext of the operands at its ports, or waits; it leaves the keys and CT2 alone. -/
theorem settles_encWord (hts : ts ≠ []) (hp : b.ports.SamplerFree) (hlen : ∀ n, (b.outBuf n).len = 0)
    {o : Option (List Byte)}
    (ho : kpkeEncrypt P b.groups k b.ports.encEk.toList b.ports.encM.toList b.ports.encR.toList = o) :
    Settles P 1 (Waiting b · f) (b.working op f (.op (encode (.kpkeEnc (rankArg k))) :: ts) w tr) o fun c t =>
      ∃ C w' tr', t = (b.setPorts { b.ports with encC := C }).working op f ts w' tr' ∧
        encResult k (b.setPorts { b.ports with encC := C }) = c ∧
        w'.kr = w.kr ∧ w'.kbar = w.kbar ∧ w'.ct2 = w.ct2 := by
  let s := (b.working op f ts w tr).log (.unit (encode (.kpkeEnc (rankArg k))) 1)
  have hrun : Computes P (kpkeEncSeq k) s o _ := ho ▸ kpkeEnc_computes P k s
  have hframe := kpkeEncSeq_frame P k s
  cases o with
  | none =>
    refine waiting_of_word (opTxn_kpkeEnc P k) (kpkeEncSeq_kpke k) hrun fun n => ?_
    rw [hframe]
    cases n with
    | eko => exact hlen .eko
    | dko => exact hlen .dko
    | cto => exact hlen .cto
    | sso => exact hlen .sso
  | some c =>
    obtain ⟨t, hr, hc⟩ := hrun
    have hfree : t.ports.SamplerFree :=
      runSeq_samplerFree (kpkeEncSeq_kpke k) hr (fun _ => hp) (kpkeEncSeq_freesSampler k)
    have htodo := (runSeq_control P (kpkeEncSeq k) s fun t ht => Txn.ends_of_kpke (kpkeEncSeq_kpke k t ht)).todo
    rw [hr] at hframe htodo
    have hwork : (encFrame s t).work = t.work := congrArg State.work hframe.symm
    have hports : (encFrame s t).ports = { b.ports with encC := t.ports.encC } :=
      Ports.SamplerFree.eq (p := { b.ports with encC := t.ports.encC }) { hp with } hfree
    have ht : t = (b.setPorts (encFrame s t).ports).working op f t.todo (encFrame s t).work t.trace := hframe
    rw [hwork, hports, htodo] at ht
    have hmoved := leads_of_word (opTxn_kpkeEnc P k) hr
    rw [State.advance_of_todo (htodo ▸ hts)] at hmoved
    exact ⟨t, hmoved, t.ports.encC, t.work, t.trace, ht, hc, congrArg (·.work.kr) hframe, congrArg (·.work.kbar) hframe,
      congrArg (·.work.ct2) hframe⟩

/-- Released ports are released again by what is released of `k_pke_encryptor`'s. -/
theorem Ports.Released.eq_of_enc {p : Ports} (h : p.Released) :
    { p with
      encEk := Vector.replicate 1568 0, encM := Vector.replicate 32 0, encR := Vector.replicate 32 0
      encC := Vector.replicate 1568 0 } = p := by
  obtain ⟨-, -, -, hek, hm, hr, hc, -⟩ := h
  cases p
  subst hek hm hr hc
  rfl

theorem releaseEnc_setPorts (hp : b.ports.Released) {ek c : Bytes 1568} {m r : Bytes 32} :
    releaseEnc (b.setPorts { b.ports with encEk := ek, encM := m, encR := r, encC := c }) = b := by
  rw [releaseEnc, State.setPorts_ports, hp.eq_of_enc]
  rfl

/-- The operands presented to `k_pke_encryptor`, which are gone again when its ports are released. -/
theorem presentEnc_working (hp : b.ports.Released) (ek : List Byte) :
    ∃ p, presentEnc ek (b.working op f ts w tr) = (b.setPorts p).working op f ts w tr ∧ p.encEk = bytesOfList 1568 ek ∧
      p.encM = w.msg ∧ p.encR = bytesOfList 32 (slice w.kr.toList 32 32) ∧ p.SamplerFree ∧
      ∀ C, releaseEnc (b.setPorts { p with encC := C }) = b :=
  ⟨_, rfl, rfl, rfl, rfl, samplerFree_setEnc hp.samplerFree, fun _ => releaseEnc_setPorts hp⟩

/-- ENCRYPT up to its end: the operands presented, and the ciphertext at the port or the block waiting. The base state is back
when the ports are released. -/
theorem settles_presentEnc {tin tout : Txn} {ek : List Byte}
    (hin : doTxn P tin (b.working op f [.op (encode (.kpkeEnc (rankArg k))), tout] w tr) =
      .done (presentEnc ek (b.working op f [.op (encode (.kpkeEnc (rankArg k))), tout] w tr)))
    (hp : b.ports.Released) (hlen : ∀ n, (b.outBuf n).len = 0) (hek : ek.length = ekLen k) :
    Settles P 2 (Waiting b · f) (b.working op f [tin, .op (encode (.kpkeEnc (rankArg k))), tout] w tr)
      (kpkeEncrypt P b.groups k ek w.msg.toList (slice w.kr.toList 32 32)) fun c t =>
      ∃ p w' tr', t = (b.setPorts p).working op f [tout] w' tr' ∧ releaseEnc (b.setPorts p) = b ∧ encResult k (b.setPorts p) = c ∧
        w'.kr = w.kr ∧ w'.kbar = w.kbar ∧ w'.ct2 = w.ct2 := by
  obtain ⟨p, hpresent, hpek, hpm, hpr, hfree, hrelease⟩ := presentEnc_working (op := op) (f := f) (w := w) (tr := tr)
    (ts := [.op (encode (.kpkeEnc (rankArg k))), tout]) hp ek
  have hfirst := leads_of_done (P := P) (t := tin) (ts := [.op (encode (.kpkeEnc (rankArg k))), tout])
    (hin.trans (congrArg _ hpresent)) (List.cons_ne_nil _ _)
  have hr : (bytesOfList 32 (slice w.kr.toList 32 32)).toList = slice w.kr.toList 32 32 :=
    bytesOfList_toList (slice_length _ _ _ (by simp))
  have ho : kpkeEncrypt P b.groups k p.encEk.toList p.encM.toList p.encR.toList =
      kpkeEncrypt P b.groups k ek w.msg.toList (slice w.kr.toList 32 32) := by
    rw [hpek, hpm, hpr, hr, kpkeEncrypt_bytesOfList hek]
  have hword := settles_encWord (P := P) (k := k) (op := op) (f := f) (b := b.setPorts p) (w := w) (tr := tr)
    (List.cons_ne_nil tout []) hfree (fun n => (congrArg OutBuf.len (State.outBuf_setPorts b p n)).trans (hlen n)) ho
  refine hfirst.settles (hword.imp ?_)
  rintro c t ⟨C, w', tr', ht, hc, hkept⟩
  exact ⟨_, w', tr', ht, hrelease C, hc, hkept⟩

end

section
variable {P : Provider} {op : Instr} {k : Rank} {f g : Fsm} {b : State} {w : Work} {tr : List TraceItem}

/-- DERIVE (45_mlkem_fsm.md R236, R238). -/
theorem leads_derive (h : OfRank op k) (hn : nextState .derive op = some g) :
    Leads P 1 (b.atStep op k .derive w tr)
      (b.atStep op k g { w with kr := P.G (w.msg.toList ++ w.hek.toList) } (.state g :: .reqG 64 :: tr)) :=
  leads_of_last h hn rfl

/-- HASH_EK of an encapsulation (45_mlkem_fsm.md R236). -/
theorem leads_hashKey (h : OfRank op k) (hk : isKeygen op = false) (hn : nextState .hashEk op = some g) :
    Leads P 1 (b.atStep op k .hashEk w tr)
      (b.atStep op k g { w with hek := P.H (b.key.mem.readBytes 0 (ekLen k)) } (.state g :: .reqH (ekLen k) :: tr)) := by
  have hseq : stateSeq .hashEk op k = [.hashKey k] := if_neg (ne_true_of_eq_false hk)
  rw [State.atStep, hseq]
  exact leads_of_last h hn rfl

theorem outBuf_clearOutputs_len (s : State) (n : OutName) : (s.clearOutputs.outBuf n).len = 0 :=
  congrArg OutBuf.len (State.outBuf_clearOutputs s n)

/-- The words that encapsulate go from HASH_EK to DERIVE, ENCRYPT and WIPE (45_mlkem_fsm.md R231). -/
theorem encapsulates_of_nextState (hn : nextState .hashEk op = some .derive) :
    isKeygen op = false ∧ isDecaps op = false ∧ nextState .derive op = some .encrypt ∧ nextState .encrypt op = some .wipe := by
  revert hn
  cases op <;> exact of_decide_eq_true rfl

/-- The end of ENCRYPT in an encapsulation. -/
theorem encapsOutTxn_working {p : Ports} {ts : List Txn} (hrelease : releaseEnc (b.setPorts p) = b) :
    encapsOutTxn k ((b.setPorts p).working op f ts w tr) =
      (b.withOutputs b.eko b.dko { mem := b.cto.mem.writeBytes 0 (encResult k (b.setPorts p)), len := ctLen k }
        { mem := b.sso.mem.writeBytes 0 (slice w.kr.toList 0 32), len := 32 }).working op f ts w tr := by
  have hout : encapsOutTxn k ((b.setPorts p).working op f ts w tr) =
      ((releaseEnc (b.setPorts p)).withOutputs b.eko b.dko
        { mem := b.cto.mem.writeBytes 0 (encResult k (b.setPorts p)), len := ctLen k }
        { mem := b.sso.mem.writeBytes 0 (slice w.kr.toList 0 32), len := 32 }).working op f ts w tr := rfl
  rw [hout, hrelease]

/-- A string of the length in the length register. -/
theorem holding_of_length {B : List Byte} {n : Nat} (hB : B.length = n) :
    ({ mem := Memory.writeBytes [] 0 B, len := n } : OutBuf) = .holding B := hB ▸ rfl

/-- ENCRYPT of an encapsulation, on a ready block: the ciphertext in CTO and the first half of KR in SSO, or the block waiting. -/
theorem settles_encrypt_encaps (h : OfRank op k) (hk : isDecaps op = false) (hn : nextState .encrypt op = some .wipe) {u : State}
    (hu : u.Ready) :
    Settles P 3 (Waiting u.clearOutputs · .encrypt) (u.clearOutputs.atStep op k .encrypt w tr)
      (kpkeEncrypt P u.groups k (u.key.mem.readBytes 0 (ekLen k)) w.msg.toList (slice w.kr.toList 32 32)) fun c t =>
      ∃ w' tr', t = (u.withOutputs .empty .empty (.holding c) (.holding (slice w.kr.toList 0 32))).atStep op k .wipe w' tr' := by
  have hseq : stateSeq .encrypt op k = [.encapsIn k, .op (encode (.kpkeEnc (rankArg k))), .encapsOut k] :=
    if_neg (ne_true_of_eq_false hk)
  rw [State.atStep, hseq]
  have hpresent := settles_presentEnc (P := P) (op := op) (f := .encrypt) (b := u.clearOutputs) (w := w) (tr := tr)
    (tin := .encapsIn k) (tout := .encapsOut k) (ek := u.key.mem.readBytes 0 (ekLen k)) rfl hu.ports
    (outBuf_clearOutputs_len u) (Memory.readBytes_length _ _ _)
  refine hpresent.leads ?_
  rintro c t - ⟨p, w', tr', rfl, hrelease, rfl, hkr, -⟩
  have hout := encapsOutTxn_working (op := op) (f := .encrypt) (ts := []) (k := k) (w := w') (tr := tr') hrelease
  rw [show u.clearOutputs.cto.mem = [] from rfl, show u.clearOutputs.sso.mem = [] from rfl,
    holding_of_length (encResult_length k _), hkr, holding_of_length (slice_length _ 0 32 (by simp))] at hout
  exact ⟨_, leads_of_last h hn (congrArg TxnResult.done hout), _, _, rfl⟩

/-- An encapsulation of a ready block, from HASH_EK on: DERIVE, ENCRYPT and WIPE follow. -/
theorem settles_encaps (h : OfRank op k) (hn : nextState .hashEk op = some .derive) {u : State} (hu : u.Ready) :
    Settles P 6 (Waiting u.clearOutputs · .encrypt) (u.clearOutputs.atStep op k .hashEk w tr)
      (mlkemEncaps P u.groups k (u.key.mem.readBytes 0 (ekLen k)) w.msg.toList) fun r t =>
      t = { encapsDone (if wipesSeed op then u.seedWiped else u) r.1 r.2 with trace := t.trace } := by
  obtain ⟨hk, hd, hderive, hencrypt⟩ := encapsulates_of_nextState hn
  have hhash := leads_hashKey (P := P) (b := u.clearOutputs) (w := w) (tr := tr) h hk hn
  have hstart := hhash.trans (leads_derive h hderive)
  refine .map _ ((hstart.settles (settles_encrypt_encaps h hd hencrypt hu)).leads (n' := 1) ?_)
  rintro c t - ⟨w', tr', rfl⟩
  exact ⟨_, leads_wipe, hu.wipe .wipe [] .empty .empty (.holding c) (.holding _)⟩

end

/-! ### Decapsulation (45_mlkem_fsm.md R238) -/

theorem opTxn_kpkeDec (P : Provider) (k : Rank) (s : State) :
    opTxn P (encode (.kpkeDec (rankArg k))) s = runSeq P (kpkeDecSeq k) (s.log (.unit (encode (.kpkeDec (rankArg k))) 1)) := by
  rw [opTxn_of_decode (decodeEncode (.kpkeDec (rankArg k)) (legalRank_rankArg k))]
  simp only [opUnit, rankOfArg_rankArg]

/-- A decryption reads DKPLEN(k) and CTLEN(k) bytes of its ports. -/
theorem kpkeDecrypt_bytesOfList {k : Rank} {dkp c : List Byte} (hdkp : dkp.length = dkpLen k) (hc : c.length = ctLen k) :
    kpkeDecrypt k (bytesOfList 1536 dkp).toList (bytesOfList 1568 c).toList = kpkeDecrypt k dkp c := by
  have hcap : c.length ≤ 1568 := hc.trans_le (ctLen_le k)
  have hcapk : dkp.length ≤ 1536 := hdkp.trans_le (by cases k <;> decide)
  rw [ctLen_eq] at hc
  have hu : ∀ i ∈ rankIdx k, decompress (du k)
        (byteDecode (du k) (slice (bytesOfList 1568 c).toList (32 * du k * i.val) (32 * du k))) =
      decompress (du k) (byteDecode (du k) (slice c (32 * du k * i.val) (32 * du k))) := fun i hi => by
    rw [slice_part_bytesOfList hi (hc ▸ Nat.le_add_right _ _) hcap]
  have hsh : ∀ i ∈ rankIdx k,
      ({ c := byteDecode 12 (slice (bytesOfList 1536 dkp).toList (384 * i.val) 384) } : HPoly) =
        { c := byteDecode 12 (slice dkp (384 * i.val) 384) } := fun i hi => by
    rw [slice_part_bytesOfList hi hdkp.ge hcapk]
  unfold kpkeDecrypt
  rw [List.map_congr_left hu, List.map_congr_left hsh, slice_bytesOfList _ _ _ _ hc.ge (hc ▸ hcap)]

/-- A field of a field. -/
theorem slice_readBytes (m : Memory) {n off len : Nat} (h : off + len ≤ n) :
    slice (m.readBytes 0 n) off len = m.readBytes off len := by
  obtain ⟨r, rfl⟩ := Nat.exists_eq_add_of_le h
  rw [Memory.readBytes_add, Memory.readBytes_add, slice, List.append_assoc, List.drop_left' (Memory.readBytes_length _ _ _),
    List.take_left' (Memory.readBytes_length _ _ _), Nat.zero_add]

/-- A decapsulation takes dk apart in KEY (20_memory.md R69). -/
theorem mlkemDecaps_readBytes (P : Provider) (n : Nat) (k : Rank) (m : Memory) (c : List Byte) :
    mlkemDecaps P n k (m.readBytes 0 (dkLen k)) c =
      let msg := kpkeDecrypt k (m.readBytes 0 (dkpLen k)) c
      let g := (P.G (msg ++ m.readBytes (768 * rankVal k + 32) 32)).toList
      (kpkeEncrypt P n k (m.readBytes (384 * rankVal k) (ekLen k)) msg (slice g 32 32)).map fun c' =>
        if c' = c then slice g 0 32 else (P.J (m.readBytes (768 * rankVal k + 64) 32 ++ c)).toList := by
  have hdkp := slice_readBytes m (n := dkLen k) (off := 0) (len := 384 * rankVal k) (by unfold dkLen; omega)
  have hek := slice_readBytes m (n := dkLen k) (off := 384 * rankVal k) (len := ekLen k) (by unfold dkLen ekLen; omega)
  have hh := slice_readBytes m (n := dkLen k) (off := 768 * rankVal k + 32) (len := 32) (by unfold dkLen; omega)
  have hz := slice_readBytes m (n := dkLen k) (off := 768 * rankVal k + 64) (len := 32) (by unfold dkLen; omega)
  rw [mlkemDecaps, hdkp, hek, hh, hz]
  rfl

section
variable {P : Provider} {op : Instr} {k : Rank} {f g : Fsm} {b : State} {w : Work} {tr : List TraceItem} {ts : List Txn}

/-- Released ports are released again by what is released of `k_pke_decryptor`'s. -/
theorem Ports.Released.eq_of_dec {p : Ports} (h : p.Released) :
    { p with decDkp := Vector.replicate 1536 0, decC := Vector.replicate 1568 0, decM := Vector.replicate 32 0 } = p := by
  obtain ⟨-, -, -, -, -, -, -, hdkp, hc, hm⟩ := h
  cases p
  subst hdkp hc hm
  rfl

/-- The message of a decryption, taken from its port, which is released (45_mlkem_fsm.md R238). -/
theorem decryptOutTxn_working (hp : b.ports.Released) {dkp : Bytes 1536} {c : Bytes 1568} {m : Bytes 32} :
    decryptOutTxn ((b.setPorts { b.ports with decDkp := dkp, decC := c, decM := m }).working op f ts w tr) =
      b.working op f ts { w with msg := m } tr := by
  have hout : decryptOutTxn ((b.setPorts { b.ports with decDkp := dkp, decC := c, decM := m }).working op f ts w tr) =
      (b.setPorts { b.ports with
        decDkp := Vector.replicate 1536 0, decC := Vector.replicate 1568 0, decM := Vector.replicate 32 0 }).working op f ts
        { w with msg := m } tr := rfl
  rw [hout, hp.eq_of_dec]
  rfl

/-- The operands presented to `k_pke_decryptor`, and its message taken. -/
theorem presentDec_working (hp : b.ports.Released) :
    ∃ p, presentDec k (b.working op f ts w tr) = (b.setPorts p).working op f ts w tr ∧
      p.decDkp = bytesOfList 1536 (b.key.mem.readBytes 0 (dkpLen k)) ∧
      p.decC = bytesOfList 1568 (b.ct.mem.readBytes 0 (ctLen k)) ∧
      ∀ m ts w tr, decryptOutTxn ((b.setPorts { p with decM := m }).working op f ts w tr) =
        b.working op f ts { w with msg := m } tr :=
  ⟨_, rfl, rfl, rfl, fun _ _ _ _ => decryptOutTxn_working hp⟩

/-- `KPKE_DEC k` leaves the message of the operands at its ports, and all but its polynomials alone. -/
theorem leads_decWord (hts : ts ≠ []) :
    ∃ M w' tr', Leads P 1 (b.working op f (.op (encode (.kpkeDec (rankArg k))) :: ts) w tr)
        ((b.setPorts { b.ports with decM := M }).working op f ts w' tr') ∧
      M.toList = kpkeDecrypt k b.ports.decDkp.toList b.ports.decC.toList ∧
      w'.hek = w.hek ∧ w'.zseed = w.zseed ∧ w'.ct2 = w.ct2 := by
  let s := (b.working op f ts w tr).log (.unit (encode (.kpkeDec (rankArg k))) 1)
  obtain ⟨t, hr, hm⟩ := kpkeDec_runs P k s
  obtain ⟨hframe, -⟩ := kpkeDecSeq_keeps P k s
  rw [hr] at hframe
  have hwork : (decFrame s t).work = t.work := congrArg State.work hframe.symm
  have ht : t = (b.setPorts { b.ports with decM := t.ports.decM }).working op f ts (decFrame s t).work t.trace := hframe
  rw [hwork] at ht
  have hmoved := leads_of_word (opTxn_kpkeDec P k) hr
  rw [State.advance_of_todo ((congrArg State.todo ht).trans_ne hts)] at hmoved
  refine ⟨t.ports.decM, t.work, t.trace, ht ▸ hmoved, hm, congrArg (·.work.hek) hframe, congrArg (·.work.zseed) hframe,
    congrArg (·.work.ct2) hframe⟩

end

section
variable {P : Provider} {k : Rank} {b : State} {w : Work} {tr : List TraceItem} {a : BitVec 4}

/-- DECRYPT: the decryption of CT under KEY in MSG. -/
theorem leads_decrypt (h : OfRank (.decaps a) k) (hp : b.ports.Released) :
    ∃ w' tr', Leads P 3 (b.atStep (.decaps a) k .decrypt w tr) (b.atStep (.decaps a) k .derive w' tr') ∧
      w'.msg.toList = kpkeDecrypt k (b.key.mem.readBytes 0 (dkpLen k)) (b.ct.mem.readBytes 0 (ctLen k)) ∧
      w'.hek = w.hek ∧ w'.zseed = w.zseed ∧ w'.ct2 = w.ct2 := by
  obtain ⟨p, hpresent, hdkp, hc, htake⟩ := presentDec_working (op := .decaps a) (k := k) (f := .decrypt) (w := w) (tr := tr)
    (ts := [.op (encode (.kpkeDec (rankArg k))), .decryptOut]) hp
  have hfirst := leads_of_done (P := P) (t := .decryptIn k) (ts := [.op (encode (.kpkeDec (rankArg k))), .decryptOut])
    (congrArg TxnResult.done hpresent) (List.cons_ne_nil _ _)
  obtain ⟨M, w', tr', hword, hm, hhek, hz, hct2⟩ := leads_decWord (P := P) (op := .decaps a) (k := k) (f := .decrypt)
    (b := b.setPorts p) (w := w) (tr := tr) (List.cons_ne_nil .decryptOut [])
  rw [State.setPorts_ports, hdkp, hc, kpkeDecrypt_bytesOfList (Memory.readBytes_length _ _ _) (Memory.readBytes_length _ _ _)] at hm
  have hlast := leads_of_last (P := P) (t := .decryptOut) (b := b.setPorts { p with decM := M }) (g := .derive) h rfl
    (congrArg TxnResult.done (htake M [] w' tr'))
  exact ⟨_, _, (hfirst.trans hword).trans hlast, hm, hhek, hz, hct2⟩

/-- REJ_KEY. -/
theorem leads_rejKey (h : OfRank (.decaps a) k) :
    Leads P 1 (b.atStep (.decaps a) k .rejKey w tr)
      (b.atStep (.decaps a) k .encrypt { w with kbar := P.J (w.zseed.toList ++ b.ct.mem.readBytes 0 (ctLen k)) }
        (.state .encrypt :: .reqJ (32 + ctLen k) :: tr)) := leads_of_last h rfl rfl

/-- A decapsulation up to ENCRYPT: the message, the key and randomness derived from it, and the rejection value. -/
theorem leads_encrypt_decaps (h : OfRank (.decaps a) k) (hp : b.ports.Released) {m hek z : List Byte}
    (hm : kpkeDecrypt k (b.key.mem.readBytes 0 (dkpLen k)) (b.ct.mem.readBytes 0 (ctLen k)) = m) (hhek : w.hek.toList = hek)
    (hz : w.zseed.toList = z) :
    ∃ w' tr', Leads P 5 (b.atStep (.decaps a) k .decrypt w tr) (b.atStep (.decaps a) k .encrypt w' tr') ∧
      w'.msg.toList = m ∧ w'.kr = P.G (m ++ hek) ∧ w'.kbar = P.J (z ++ b.ct.mem.readBytes 0 (ctLen k)) ∧ w'.ct2 = w.ct2 := by
  obtain ⟨w', tr', hdecrypt, hm', hhek', hz', hct2⟩ := leads_decrypt (P := P) (w := w) (tr := tr) h hp
  have hG : P.G (w'.msg.toList ++ w'.hek.toList) = P.G (m ++ hek) := by rw [hm', hm, hhek', hhek]
  have hJ (c : List Byte) : P.J (w'.zseed.toList ++ c) = P.J (z ++ c) := by rw [hz', hz]
  exact ⟨_, _, (hdecrypt.trans (leads_derive h rfl)).trans (leads_rejKey h), hm'.trans hm, hG, hJ _, hct2⟩

/-- The end of ENCRYPT in a decapsulation. -/
theorem reencOutTxn_working {p : Ports} {op : Instr} {f : Fsm} {ts : List Txn} (hrelease : releaseEnc (b.setPorts p) = b) :
    reencOutTxn k ((b.setPorts p).working op f ts w tr) =
      b.working op f ts { w with ct2 := w.ct2.writeBytes 0 (encResult k (b.setPorts p)) } tr := by
  have hout : reencOutTxn k ((b.setPorts p).working op f ts w tr) = (releaseEnc (b.setPorts p)).working op f ts
      { w with ct2 := w.ct2.writeBytes 0 (encResult k (b.setPorts p)) } tr := rfl
  rw [hout, hrelease]

/-- ENCRYPT of a decapsulation: the ciphertext in CT2, or the block waiting. -/
theorem settles_encrypt_decaps (h : OfRank (.decaps a) k) (hp : b.ports.Released) (hlen : ∀ n, (b.outBuf n).len = 0)
    {m r : List Byte} (hm : w.msg.toList = m) (hr : slice w.kr.toList 32 32 = r) :
    Settles P 3 (Waiting b · .encrypt) (b.atStep (.decaps a) k .encrypt w tr)
      (kpkeEncrypt P b.groups k (b.key.mem.readBytes (384 * rankVal k) (ekLen k)) m r)
      fun c t => c.length = ctLen k ∧ ∃ w' tr', t = b.atStep (.decaps a) k .compare w' tr' ∧
        w'.kr = w.kr ∧ w'.kbar = w.kbar ∧ w'.ct2 = w.ct2.writeBytes 0 c := by
  subst hm hr
  have hpresent := settles_presentEnc (P := P) (op := .decaps a) (f := .encrypt) (b := b) (w := w) (tr := tr)
    (tin := .reencIn k) (tout := .reencOut k) (ek := b.key.mem.readBytes (384 * rankVal k) (ekLen k)) rfl hp hlen
    (Memory.readBytes_length _ _ _)
  refine hpresent.leads (n' := 1) ?_
  rintro c t - ⟨p, w', tr', rfl, hrelease, rfl, hkr, hkbar, hct2⟩
  refine ⟨_, leads_of_last h rfl (congrArg TxnResult.done (reencOutTxn_working hrelease)), encResult_length k _, _, _, rfl, hkr,
    hkbar, ?_⟩
  rw [hct2]

/-- DIFF is zero exactly when the re-encryption in CT2 is the ciphertext in CT. -/
theorem diffBytes_ct2_eq_zero {m : Memory} {c : List Byte} {n : Nat} (hc : c.length = n) :
    diffBytes m.read (Memory.writeBytes [] 0 c).read n = 0 ↔ c = m.readBytes 0 n := by
  have hread : ∀ i, i < n → (Memory.writeBytes [] 0 c).read i = c.getD i 0 := fun i hi => by
    rw [Memory.read_writeBytes (Memory.wf_nil n) (by omega), if_pos (by omega), Nat.sub_zero]
  rw [diffBytes_eq_zero]
  constructor
  · intro h
    refine List.ext_getElem (by rw [hc, Memory.readBytes_length]) fun i hi hi' => ?_
    rw [← List.getD_eq_getElem _ 0 hi, ← List.getD_eq_getElem _ 0 hi', ← hread i (hc ▸ hi), ← h i (hc ▸ hi),
      Memory.getD_readBytes _ _ _ _ (hc ▸ hi), Nat.zero_add]
  · rintro rfl i hi
    rw [hread i hi, Memory.getD_readBytes _ _ _ _ hi, Nat.zero_add]

theorem map_getD_range {B : List Byte} {n : Nat} (hn : n ≤ B.length) : (List.range n).map (B.getD · 0) = slice B 0 n := by
  refine List.ext_getElem (by simp [slice, hn]) fun i hi _ => ?_
  have hi : i < n := by simpa using hi
  simp [slice, hi.trans_le hn]

/-- SELECT takes the first bytes of KR where DIFF is zero, and KBAR where it is not. -/
theorem selected_eq (d : Byte) (A : Bytes 64) (B : Bytes 32) :
    ((List.range 32).map fun i => selectByte (maskOf d) (A.toList.getD i 0) (B.toList.getD i 0)) =
      if d = 0 then slice A.toList 0 32 else B.toList := by
  split
  next hd => simp only [hd, maskOf_zero, selectByte_zero, map_getD_range (B := A.toList) (n := 32) (by simp)]
  next hd =>
    simp only [maskOf_ne_zero d hd, selectByte_ff, map_getD_range (B := B.toList) (n := 32) (by simp)]
    exact slice_all _ _ Vector.length_toList

/-- COMPARE and SELECT, with the re-encryption in CT2: the shared secret, of 32 bytes, in SSO. -/
theorem leads_select (h : OfRank (.decaps a) k) (hsso : b.sso.mem = []) {c K : List Byte} (hc : c.length = ctLen k)
    (hct2 : w.ct2 = Memory.writeBytes [] 0 c)
    (hK : K = if c = b.ct.mem.readBytes 0 (ctLen k) then slice w.kr.toList 0 32 else w.kbar.toList) :
    K.length = 32 ∧ ∃ w' tr', Leads P 2 (b.atStep (.decaps a) k .compare w tr)
      ((b.withOutputs b.eko b.dko b.cto (.holding K)).atStep (.decaps a) k .wipe w' tr') := by
  let d := diffBytes b.ct.mem.read w.ct2.read (ctLen k)
  have hselected : ((List.range 32).map fun i => selectByte (maskOf d) (w.kr.toList.getD i 0) (w.kbar.toList.getD i 0)) = K := by
    rw [selected_eq, hK]
    refine if_congr ?_ rfl rfl
    show diffBytes b.ct.mem.read w.ct2.read (ctLen k) = 0 ↔ _
    rw [hct2, diffBytes_ct2_eq_zero hc]
  have hlen : K.length = 32 := by rw [← hselected, List.length_map, List.length_range]
  have hcompare : Leads P 1 (b.atStep (.decaps a) k .compare w tr)
      (b.atStep (.decaps a) k .select { w with diff := d, mask := maskOf d } (.state .select :: tr)) := leads_of_last h rfl rfl
  have hselect : Leads P 1 (b.atStep (.decaps a) k .select { w with diff := d, mask := maskOf d } (.state .select :: tr))
      ((b.withOutputs b.eko b.dko b.cto { mem := b.sso.mem.writeBytes 0 ((List.range 32).map fun i =>
          selectByte (maskOf d) (w.kr.toList.getD i 0) (w.kbar.toList.getD i 0)), len := 32 }).atStep
        (.decaps a) k .wipe { w with diff := d, mask := maskOf d } (.state .wipe :: .state .select :: tr)) :=
    leads_of_last h rfl rfl
  rw [hselected, hsso, holding_of_length hlen] at hselect
  exact ⟨hlen, _, _, hcompare.trans hselect⟩

/-- A decapsulation of a ready block, from DECRYPT on. -/
theorem settles_decaps (h : OfRank (.decaps a) k) {u : State} (hu : u.Ready) (hct2 : w.ct2 = [])
    (hhek : w.hek.toList = u.key.mem.readBytes (768 * rankVal k + 32) 32)
    (hz : w.zseed.toList = u.key.mem.readBytes (768 * rankVal k + 64) 32) :
    Settles P 11 (Waiting u.clearOutputs · .encrypt) (u.clearOutputs.atStep (.decaps a) k .decrypt w tr)
      (mlkemDecaps P u.groups k (u.key.mem.readBytes 0 (dkLen k)) (u.ct.mem.readBytes 0 (ctLen k))) fun K t =>
      K.length = 32 ∧ t = { decapsDone u K with trace := t.trace } := by
  obtain ⟨w1, tr1, hstart, hm, hkr1, hkbar1, hct21⟩ := leads_encrypt_decaps (P := P) (b := u.clearOutputs) (tr := tr) h hu.ports
    rfl hhek hz
  have hencrypt := hstart.settles (settles_encrypt_decaps (b := u.clearOutputs) h hu.ports (outBuf_clearOutputs_len u) hm
    (congrArg (fun g : Bytes 64 => slice g.toList 32 32) hkr1))
  rw [mlkemDecaps_readBytes]
  refine .map _ (hencrypt.leads (n' := 3) ?_)
  rintro c t - ⟨hc, w', tr', rfl, hkr, hkbar, hct2'⟩
  rw [hct21, hct2] at hct2'
  obtain ⟨hlen, w'', tr'', hselect⟩ := leads_select (P := P) (b := u.clearOutputs) (tr := tr') h rfl hc hct2' rfl
  rw [hkr, hkr1, hkbar, hkbar1] at hlen hselect
  exact ⟨_, hselect.trans leads_wipe, hlen, hu.wipe .wipe [] .empty .empty .empty (.holding _)⟩

end

theorem todo_of_encapsDone {u t : State} {r : List Byte × List Byte} (hu : u.Ready)
    (h : t = { encapsDone u r.1 r.2 with trace := t.trace }) : t.todo = [] := (congrArg State.todo h).trans hu.todo

theorem todo_of_decapsDone {u t : State} {K : List Byte} (hu : u.Ready)
    (h : t = { decapsDone u K with trace := t.trace }) : t.todo = [] := (congrArg State.todo h).trans hu.todo

/-- Settles O35: the 32 draws fill M, and the encapsulation of M follows. -/
theorem encapsResult : Obligations.EncapsResult := fun k s m rest hs hb hkey hr => by
  have hw : (Instr.encaps (rankArg k)).wellFormed = true := legalRank_rankArg k
  have h := ofRank_of_arg hw rfl rfl
  have hcheck := leads_check (P := Config.provider) (s := s) h rfl (beq_iff_eq.2 hkey) rfl (w := s.work) rfl
  obtain ⟨tr, hfetch⟩ := leads_fetch (P := Config.provider) (b := s.clearOutputs) (w := s.work) h rfl hr
    (by simp [drawCount]) (by simp [drawCount])
  rw [storeDraws_encaps, writeField_toList] at hfetch
  have hready := hs.afterDraws 32 rest
  obtain ⟨t, ht, hdone, hwait⟩ := hs.exec_of_settles hb hw rfl (by simp [drawCount, wordTxns])
    ((hcheck.trans hfetch).settles (settles_encaps h rfl hready)) fun _ _ hQ => todo_of_encapsDone hready hQ
  refine ⟨t, ht, ?_⟩
  split
  next ho => exact hdone _ ho
  next ho => exact hwait ho

/-- Settles O36: CHECK loads M from SEED, and the encapsulation of M follows. -/
theorem encapsDetResult : Obligations.EncapsDetResult := fun k s hs hb hkey hseed => by
  have hw : (Instr.encapsDet (rankArg k)).wellFormed = true := legalRank_rankArg k
  have h := ofRank_of_arg hw rfl rfl
  have hcheck := leads_check (P := Config.provider) (s := s) h rfl
    (Bool.and_eq_true_iff.2 ⟨beq_iff_eq.2 hkey, beq_iff_eq.2 hseed⟩) rfl
    (w := { s.work with msg := bytesOfList 32 (s.seed.mem.readBytes 0 32) }) rfl
  have hencaps := settles_encaps (P := Config.provider) (w := { s.work with
      msg := bytesOfList 32 (s.seed.mem.readBytes 0 32) }) (tr := [.state .hashEk, .state .check]) h rfl hs
  rw [bytesOfList_toList (by simp)] at hencaps
  obtain ⟨t, ht, hdone, hwait⟩ := hs.exec_of_settles hb hw rfl (by decide) (hcheck.settles hencaps) fun _ _ hQ =>
    todo_of_encapsDone (u := s.seedWiped) { hs with } hQ
  refine ⟨t, ht, ?_⟩
  split
  next ho => exact hdone _ ho
  next ho => exact hwait ho

/-- Settles O37: CHECK loads h and z from KEY, and the decapsulation follows. -/
theorem decapsResult : Obligations.DecapsResult := fun k s hs hb hkey hct => by
  have hw : (Instr.decaps (rankArg k)).wellFormed = true := legalRank_rankArg k
  have h := ofRank_of_arg hw rfl rfl
  have hcheck := leads_check (P := Config.provider) (s := s) h rfl
    (Bool.and_eq_true_iff.2 ⟨beq_iff_eq.2 hkey, beq_iff_eq.2 hct⟩) rfl (w := { s.work with
      hek := bytesOfList 32 (s.key.mem.readBytes (768 * rankVal k + 32) 32)
      zseed := bytesOfList 32 (s.key.mem.readBytes (768 * rankVal k + 64) 32) }) rfl
  have hdecaps := settles_decaps (P := Config.provider) (tr := [.state .decrypt, .state .check]) (w := { s.work with
      hek := bytesOfList 32 (s.key.mem.readBytes (768 * rankVal k + 32) 32)
      zseed := bytesOfList 32 (s.key.mem.readBytes (768 * rankVal k + 64) 32) }) h hs (congrArg Work.ct2 hs.work)
    (bytesOfList_toList (by simp)) (bytesOfList_toList (by simp))
  obtain ⟨t, ht, hdone, hwait⟩ := hs.exec_of_settles hb hw rfl (by decide) (hcheck.settles hdecaps) fun _ _ hQ =>
    todo_of_decapsDone hs hQ.2
  refine ⟨t, ht, ?_⟩
  split
  next ho => exact hdone _ ho
  next ho => exact hwait ho

/-! ### CLR (45_mlkem_fsm.md R239, R240) -/

/-- CLR is the whole word. -/
theorem leads_clear (P : Provider) (mask : BitVec 4) (s : State) :
    ∃ tr, Leads P 1 (s.take (.clear mask)) (({ s with ecode := .none, trace := tr } : State).clear mask) := by
  have htodo : (s.take (.clear mask)).todo = [.clr mask] := by
    change stateTxns .clr (encode (.clear mask)) = _
    rw [stateTxns, decode_encode_of_hostIssuable rfl rfl]
    rfl
  refine ⟨[.state .clr], leads_of_moved ?_⟩
  rw [blockStep_of_done htodo rfl, State.advance_idle rfl]
  rfl

/-- `CLEAR mask` on a ready block is over in one transaction. -/
theorem State.Ready.exec_clear {s : State} (hs : s.Ready) (hb : 1 ≤ s.burst) (mask : BitVec 4) :
    ∃ tr, exec (.clear mask) s = .next (({ s with trace := tr } : State).clear mask) := by
  obtain ⟨tr, hclear⟩ := leads_clear Config.provider mask s
  refine ⟨tr, ?_⟩
  rw [hs.exec_word rfl rfl, hclear.settle_eq rfl hb, ← hs.ecode]

/-- Settles O38: of the fields CLR writes, a ready block has OPW, FSM and the rest of the word empty already. -/
theorem clearResult : Obligations.ClearResult := fun mask s hs hb => by
  obtain ⟨tr, ht⟩ := hs.exec_clear hb mask
  refine ⟨_, ht, ?_, (by decide : statusWord (statusDone .none) = 0x0002#16)⟩
  rw [State.clear, ← hs.opw, ← hs.fsm, ← hs.todo]

/-- Settles O39: ZEROIZE is `CLEAR 15`, which empties every buffer; the rest is empty in a ready block. -/
theorem zeroizeResult : Obligations.ZeroizeResult := fun s hs hb => by
  have hword : decodeHost Config.detApi 0x0B5F#16 = .ok (.clear 15#4) := rfl
  obtain ⟨tr, ht⟩ := hs.exec_clear hb 15#4
  refine ⟨_, (hostCmd_of_decodeHost hs.busy hword).trans ht, ?_⟩
  simp only [State.clear, hs.ecode, hs.work]
  rfl

end Sys2Proof.Machine
end

section
/-! PROOFS. The states and the provider requests of a completed word (45_mlkem_fsm.md R231, R245; 44_kpke.md R210): every
transaction of a step makes its own requests, and the trace of a block at work is that of the path up to its state. -/

namespace Sys2Proof.Machine

open Sys2Proof

/-! ### What the trace gains -/

theorem tracedStates_append (l tr : List TraceItem) : tracedStates (l ++ tr) = tracedStates tr ++ tracedStates l :=
  (congrArg _ List.reverse_append).trans List.filterMap_append

theorem tracedRequests_append (l tr : List TraceItem) :
    tracedRequests (l ++ tr) = tracedRequests tr ++ tracedRequests l :=
  (congrArg _ List.reverse_append).trans (List.filter_append _ _)

theorem tracedStates_state (f : Fsm) (tr : List TraceItem) :
    tracedStates (.state f :: tr) = tracedStates tr ++ [f] := tracedStates_append [.state f] tr

theorem tracedRequests_state (f : Fsm) (tr : List TraceItem) : tracedRequests (.state f :: tr) = tracedRequests tr :=
  (tracedRequests_append [.state f] tr).trans (List.append_nil _)

/-- From s to t the trace gains the requests and no state, and the draws among them are counted. -/
structure Shows (rs : List TraceItem) (s t : State) : Prop where
  requests : tracedRequests t.trace = tracedRequests s.trace ++ rs
  states : tracedStates t.trace = tracedStates s.trace
  draws : t.draws = s.draws + rs.count .draw

theorem Shows.trans {rs rs' : List TraceItem} {s t u : State} (h : Shows rs s t) (h' : Shows rs' t u) :
    Shows (rs ++ rs') s u where
  requests := by rw [h'.requests, h.requests, List.append_assoc]
  states := h'.states.trans h.states
  draws := by rw [h'.draws, h.draws, List.count_append, Nat.add_assoc]

/-- The trace gains the items, of which none is a state. -/
theorem Shows.of_items (l : List TraceItem) {s t : State} (ht : t.trace = l ++ s.trace) (hl : tracedStates l = [])
    (hd : t.draws = s.draws + (tracedRequests l).count .draw) : Shows (tracedRequests l) s t where
  requests := by rw [ht, tracedRequests_append]
  states := by rw [ht, tracedStates_append, hl, List.append_nil]
  draws := hd

theorem Shows.of_drawn (s : State) : Shows [.draw] s s.drawn := .of_items [.draw] rfl rfl rfl

theorem Shows.of_setWork (s : State) (w : Work) : Shows [] s (s.setWork w) := .of_items [] rfl rfl rfl

/-- The trace gains one item that is neither a state nor a draw. -/
theorem Shows.log {rs : List TraceItem} {s t : State} (h : Shows rs s t) (x : TraceItem) (hs : tracedStates [x] = [])
    (hd : (tracedRequests [x]).count .draw = 0) : Shows (rs ++ tracedRequests [x]) s (t.log x) :=
  h.trans (.of_items [x] rfl hs (congrArg (t.draws + ·) hd.symm))

theorem Shows.of_decode (d : Nat) (B : List Byte) (dst : NReg) (s : State) : Shows [] s (unpackTxn d B dst s) :=
  .of_items [.unit (encode (.decompress (BitVec.ofNat 4 d))) 1, .unit (encode (.bytedec (BitVec.ofNat 4 d))) 1] rfl rfl rfl

/-! ### One transaction -/

/-- The provider requests of an operation word of K-PKE (44_kpke.md R210). -/
def presentedRequests (w : Word16) : List TraceItem :=
  match decode w with
  | .ok (.kpkeKeygen a) => keygenRequests ((rankOfArg a).getD .k2)
  | .ok (.kpkeEnc a) => encRequests ((rankOfArg a).getD .k2)
  | _ => []

/-- The provider requests of a transaction (45_mlkem_fsm.md R233 to R238; 44_kpke.md R200 to R203). -/
def Txn.requests : Txn → List TraceItem
  | .op w => presentedRequests w
  | .draw _ _ => [.draw]
  | .hashEko k => [.reqH (ekLen k)]
  | .hashKey k => [.reqH (ekLen k)]
  | .derive => [.reqG 64]
  | .rejKey k => [.reqJ (32 + ctLen k)]
  | .seedG _ => [.reqG 33]
  | .prf eta => [.reqPrf eta 33]
  | .sampleStart => [.reqXof 34]
  | _ => []

/-- The end of a word aside, a transaction the block makes itself shows its requests, however it ends. -/
theorem doTxn_shows (P : Provider) {t : Txn} (s : State) (ht : t.ends = false) (hop : ∀ w, t ≠ .op w) :
    Shows t.requests s (doTxn P t s).state := by
  have logged (w : Work) := (Shows.of_setWork s w).log
  cases t with
  | wipe op | clr mask => cases ht
  | op w => exact absurd rfl (hop w)
  | check op =>
    rcases checkTxn_cases op s with ⟨k, -, -, hc⟩ | hc <;> rw [doTxn, hc]
    · obtain ⟨w, hw⟩ := loadInputs_eq op k s.clearOutputs
      rw [hw]
      exact .of_items [] rfl rfl rfl
    · exact .of_items [] rfl rfl rfl
  | draw op i =>
    rcases drawTxn_cases op i s with ⟨b, -, hc⟩ | ⟨-, hc⟩ <;> rw [doTxn, hc]
    · exact (Shows.of_drawn s).trans (.of_setWork _ _)
    · exact .of_drawn s
  | sampleLoop =>
    rcases sampleLoopTxn_cases P s with ⟨-, hc⟩ | ⟨-, hc⟩ <;> rw [doTxn, hc]
    · exact .of_items [.stream _] rfl rfl rfl
    · exact .of_items [] rfl rfl rfl
  | hashEko k | hashKey k => exact logged _ (.reqH (ekLen k)) rfl rfl
  | derive => exact logged _ (.reqG 64) rfl rfl
  | rejKey k => exact logged _ (.reqJ (32 + ctLen k)) rfl rfl
  | seedG k => exact logged _ (.reqG 33) rfl rfl
  | prf eta => exact logged _ (.reqPrf eta 33) rfl rfl
  | sampleStart => exact .of_items [.reqXof 34, .unit (encode .samplentt) 1] rfl rfl rfl
  | cbd eta dst => exact logged _ (.unit (encode (.cbd (etaArg eta))) 1) rfl rfl
  | ntt src dst => exact logged _ (.unit (encode .ntt) 1) rfl rfl
  | intt src dst => exact logged _ (.unit (encode .intt) 1) rfl rfl
  | pwm a b => exact logged _ (.unit (encode .pwm) 1) rfl rfl
  | addH a b dst | addN a b dst => exact logged _ (.unit (encode .add) 256) rfl rfl
  | subN a b dst => exact logged _ (.unit (encode .sub) 256) rfl rfl
  | decodeT i | decodeS i => exact logged _ (.unit (encode (.bytedec 12#4)) 1) rfl rfl
  | encodeT i | encodeS i => exact .of_items [.unit (encode (.byteenc 12#4)) 1] rfl rfl rfl
  | message => exact .of_decode _ _ _ _
  | unpackU k i => exact .of_decode _ _ _ _
  | unpackV k => exact .of_decode _ _ _ _
  | recover | packU k i | packV k =>
    exact .of_items [.unit (encode (.byteenc _)) 1, .unit (encode (.compress _)) 1] rfl rfl rfl
  | _ => exact .of_items [] rfl rfl rfl

/-- WIPE and CLR end a word, and nothing else does. -/
theorem Txn.ends_cases {t : Txn} (ht : t.ends = true) : (∃ op, t = .wipe op) ∨ ∃ mask, t = .clr mask := by
  cases t with
  | wipe op => exact .inl ⟨op, rfl⟩
  | clr mask => exact .inr ⟨mask, rfl⟩
  | _ => exact absurd ht Bool.false_ne_true

/-! ### The words of K-PKE (44_kpke.md R203 to R205, R210) -/

/-- A sequence of K-PKE that runs to its end shows the requests of its transactions in turn. -/
theorem runSeq_shows {P : Provider} {ts : List Txn} {s t : State} (hts : ∀ x ∈ ts, x.kpke = true)
    (hr : runSeq P ts s = (t, [])) : Shows (ts.flatMap Txn.requests) s t := by
  induction ts generalizing s with
  | nil =>
    obtain rfl : s = t := congrArg Prod.fst hr
    exact .of_items [] rfl rfl rfl
  | cons x ts ih =>
    obtain ⟨hx, hts⟩ := List.forall_mem_cons.1 hts
    have hshow := doTxn_shows P s (Txn.ends_of_kpke hx) (by rintro w rfl; cases hx)
    rw [runSeq] at hr
    cases hd : doTxn P x s with
    | done u =>
      rw [hd] at hr hshow
      exact hshow.trans (ih hts hr)
    | wait u | raise e u =>
      rw [hd] at hr
      exact absurd (congrArg Prod.snd hr) (List.cons_ne_nil _ _)

theorem kpkeKeygenSeq_requests (k : Rank) : (kpkeKeygenSeq k).flatMap Txn.requests = keygenRequests k := by cases k <;> rfl

theorem kpkeEncSeq_requests (k : Rank) : (kpkeEncSeq k).flatMap Txn.requests = encRequests k := by cases k <;> rfl

theorem kpkeDecSeq_requests (k : Rank) : (kpkeDecSeq k).flatMap Txn.requests = [] := by cases k <;> rfl

/-- A word that a sequencer presents runs a sequence of K-PKE, whose requests are the word's. -/
theorem opTxn_of_kpkeWord {w : Word16} (h : kpkeWord w = true) :
    ∃ seq, (∀ t ∈ seq, t.kpke = true) ∧ seq.flatMap Txn.requests = presentedRequests w ∧
      ∀ P s, opTxn P w s = runSeq P seq (s.log (.unit w 1)) := by
  unfold kpkeWord at h
  split at h
  case h_4 => cases h
  all_goals
    rename_i a hd
    obtain ⟨k, hk, -⟩ := rankOfArg_of_legal (wellFormed_of_decode hd)
    simp only [presentedRequests, opTxn_of_decode hd, opUnit, hd, hk, Option.getD_some]
  · exact ⟨kpkeKeygenSeq k, kpkeKeygenSeq_kpke k, kpkeKeygenSeq_requests k, fun _ _ => rfl⟩
  · exact ⟨kpkeEncSeq k, kpkeEncSeq_kpke k, kpkeEncSeq_requests k, fun _ _ => rfl⟩
  · exact ⟨kpkeDecSeq k, kpkeDecSeq_kpke k, kpkeDecSeq_requests k, fun _ _ => rfl⟩

/-- A word that its unit finishes shows the word's requests. -/
theorem opTxn_shows {P : Provider} {w : Word16} {s : State} (hw : kpkeWord w = true) (hr : (opTxn P w s).2 = []) :
    Shows (presentedRequests w) s (opTxn P w s).1 := by
  obtain ⟨seq, hkpke, hrequests, hseq⟩ := opTxn_of_kpkeWord hw
  have hlog : Shows [] s (s.log (.unit w 1)) := .of_items [.unit w 1] rfl rfl rfl
  rw [hseq] at hr ⊢
  rw [← hrequests]
  exact hlog.trans (runSeq_shows hkpke (Prod.ext rfl hr))

/-! ### The path of a word up to a state (45_mlkem_fsm.md R231) -/

/-- The states of a word's path up to one of them. -/
def upTo (op : Instr) (f : Fsm) : List Fsm := (wordPath op).takeWhile (· != f) ++ [f]

/-- The provider requests of the step of a state, for a word of rank k. -/
def stateRequests (op : Instr) (k : Rank) (f : Fsm) : List TraceItem := (stateSeq f op k).flatMap Txn.requests

section
variable {op : Instr}

theorem upTo_firstState (hi : hostIssuable true op = true) :
    firstState op ∈ wordPath op ∧ upTo op (firstState op) = [firstState op] := by
  revert hi
  cases op <;> exact of_decide_eq_true rfl

theorem upTo_idle (hi : hostIssuable true op = true) : upTo op .idle = wordPath op := by
  revert hi
  cases op <;> exact of_decide_eq_true rfl

/-- The successor of a state is the next one on the path. -/
theorem upTo_nextState (op : Instr) :
    ∀ f ∈ wordPath op, ∀ g ∈ nextState f op, g ∈ wordPath op ∧ upTo op g = upTo op f ++ [g] := by
  cases op <;> exact of_decide_eq_true rfl

/-- CHECK is the first state of a path. -/
theorem upTo_check (hf : .check ∈ wordPath op) : upTo op .check = [.check] := by
  revert hf
  cases op <;> exact of_decide_eq_true rfl

/-- FETCH_RND comes right after CHECK. -/
theorem upTo_fetchRnd (hf : .fetchRnd ∈ wordPath op) : upTo op .fetchRnd = [.check, .fetchRnd] := by
  revert hf
  cases op <;> exact of_decide_eq_true rfl

/-- The requests of a word are those of the states on its path. -/
theorem requests_wordPath (hi : hostIssuable true op = true) (k : Rank) :
    (wordPath op).flatMap (stateRequests op k) = wordRequests k op := by
  cases op with
  | keygen a | keygenDet a | encaps a | encapsDet a | decaps a | clear mask => cases k <;> rfl
  | _ => exact absurd hi Bool.false_ne_true

end

/-! ### A block at work on a word, and its trace -/

/-- The block at work on a word of rank k, without an error so far, after d draws were made before it: its trace is that of the
path up to its state, the transactions left aside. -/
structure OnPath (op : Instr) (k : Rank) (d : Nat) (s : State) : Prop where
  busy : BusyOk s
  word : decode s.opw = .ok op
  rank : ∀ f, stateTxns f s.opw = stateSeq f op k
  ecode : s.ecode = .none
  path : s.fsm ∈ wordPath op
  states : tracedStates s.trace = upTo op s.fsm
  requests : tracedRequests s.trace ++ s.todo.flatMap Txn.requests = (upTo op s.fsm).flatMap (stateRequests op k)
  draws : s.draws = d + (tracedRequests s.trace).count .draw

/-- A completed word's trace (45_mlkem_fsm.md R231, R245). -/
structure Ended (op : Instr) (k : Rank) (d : Nat) (t : State) : Prop where
  states : tracedStates t.trace = if t.status.err = .none then wordPath op else errorPath t.status.err
  requests : t.status.err = .none → tracedRequests t.trace = wordRequests k op
  length : t.status.err = .length → tracedRequests t.trace = []
  rng : t.status.err = .rng → ∃ n, tracedRequests t.trace = List.replicate n .draw ∧ t.draws = d + n

section
variable {P : Provider} {op : Instr} {k : Rank} {d : Nat} {s u : State} {t : Txn} {ts : List Txn}

/-- A ready block that takes a word is at work on it. -/
theorem State.Ready.onPath (hs : s.Ready) (hw : op.wellFormed = true) (hi : hostIssuable true op = true)
    (hk : (rankOfArg op.arg).getD .k2 = k) : OnPath op k s.draws (s.take op) := by
  have hword := decode_encode_of_hostIssuable hw hi
  have hrank (f : Fsm) : stateTxns f (encode op) = stateSeq f op k := by simp only [stateTxns, hword, hk]
  obtain ⟨hpath, hupTo⟩ := upTo_firstState hi
  exact
    { busy := IdleOk.take ⟨hs.fsm, hs.busy, hs.todo, hs.opw, hs.ecode, hs.work⟩ hw hi
      word := hword
      rank := hrank
      ecode := rfl
      path := hpath
      states := hupTo.symm
      requests := by
        change [] ++ (stateTxns (firstState op) (encode op)).flatMap Txn.requests = (upTo op (firstState op)).flatMap _
        rw [hrank, hupTo, List.flatMap_singleton]
        rfl
      draws := rfl }

/-- A transaction that does not end the word, made: the block is at work in its state with what is left, or in the next state of
the path. -/
theorem OnPath.advance (h : OnPath op k d s) (ht : s.todo = t :: ts) (hu : SameControl (s.setTodo ts) u)
    (hshow : Shows t.requests (s.setTodo ts) u) (hend : s.fsm ≠ .wipe ∧ s.fsm ≠ .clr) : OnPath op k d u.advance := by
  have hbusy := h.busy.advance hu (fun x hx => h.busy.belongs x (ht ▸ List.mem_cons_of_mem t hx)) hend
  have hstates : tracedStates u.trace = upTo op s.fsm := hshow.states.trans h.states
  have hrequests : tracedRequests u.trace ++ ts.flatMap Txn.requests = (upTo op s.fsm).flatMap (stateRequests op k) := by
    rw [← h.requests, ht, hshow.requests, List.flatMap_cons, List.append_assoc]
    rfl
  have hdraws : u.draws = d + (tracedRequests u.trace).count .draw := by
    rw [hshow.draws, hshow.requests, List.count_append, ← Nat.add_assoc]
    exact congrArg (· + _) h.draws
  have hfsm : u.fsm = s.fsm := hu.fsm
  have hopw : u.opw = s.opw := hu.opw
  have htodo : u.todo = ts := hu.todo
  rcases u.advance_cases with hsame | ⟨op', g, hnil, hd, hnext, hgoto⟩
  · rw [hsame] at hbusy ⊢
    exact
      { busy := hbusy
        word := hopw ▸ h.word
        rank := hopw ▸ h.rank
        ecode := hu.ecode.trans h.ecode
        path := hfsm ▸ h.path
        states := hfsm ▸ hstates
        requests := hfsm ▸ htodo ▸ hrequests
        draws := hdraws }
  · obtain rfl : op = op' := Except.ok.inj (h.word.symm.trans (hopw ▸ hd))
    obtain ⟨hpath, hupTo⟩ := upTo_nextState op s.fsm h.path g (hfsm ▸ hnext)
    obtain rfl : ts = [] := htodo.symm.trans hnil
    rw [hgoto] at hbusy ⊢
    exact
      { busy := hbusy
        word := hopw ▸ h.word
        rank := hopw ▸ h.rank
        ecode := hu.ecode.trans h.ecode
        path := hpath
        states := by
          change tracedStates (.state g :: u.trace) = upTo op g
          rw [tracedStates_state, hstates, hupTo]
        requests := by
          change tracedRequests (.state g :: u.trace) ++ (stateTxns g u.opw).flatMap _ = (upTo op g).flatMap _
          rw [tracedRequests_state, hopw, h.rank, hupTo, List.flatMap_append, ← hrequests, List.flatMap_singleton]
          simp [stateRequests]
        draws := by
          change u.draws = d + (tracedRequests (.state g :: u.trace)).count .draw
          rw [tracedRequests_state, hdraws] }

/-- The two transactions that end a word, where no error came before. -/
theorem doTxn_of_ends (he : t.ends = true) (hecode : s.ecode = .none) (hd : doTxn P t s = .done u) :
    u.status.err = .none ∧ u.trace = .state .idle :: s.trace := by
  obtain ⟨op, rfl⟩ | ⟨mask, rfl⟩ := Txn.ends_cases he <;> obtain rfl := TxnResult.done.inj hd
  · exact ⟨hecode, rfl⟩
  · exact ⟨rfl, rfl⟩

/-- In WIPE and CLR no request is left to make, and IDLE comes next. -/
theorem OnPath.of_end (h : OnPath op k d s) (hend : s.fsm = .wipe ∨ s.fsm = .clr) :
    nextState s.fsm op = some .idle ∧ s.todo.flatMap Txn.requests = [] := by
  refine ⟨by rcases hend with hf | hf <;> rw [hf] <;> rfl, List.flatMap_eq_nil_iff.2 fun x hx => ?_⟩
  obtain ⟨op, rfl⟩ | ⟨mask, rfl⟩ := Txn.ends_cases (ends_of_belongs hend (h.busy.belongs x hx)) <;> rfl

/-- WIPE and CLR, without an error before them, complete the word. -/
theorem OnPath.ended_of_ends (h : OnPath op k d s) (hi : hostIssuable true op = true) (ht : s.todo = t :: ts)
    (he : t.ends = true) (hd : doTxn P t (s.setTodo ts) = .done u) : Ended op k d u := by
  have hend : s.fsm = .wipe ∨ s.fsm = .clr := by
    have hhead := h.busy.belongs t (ht ▸ List.mem_cons_self)
    obtain ⟨op, rfl⟩ | ⟨mask, rfl⟩ := Txn.ends_cases he
    · exact .inl (eq_of_beq hhead)
    · exact .inr (eq_of_beq hhead)
  obtain ⟨hnext, hleft⟩ := h.of_end hend
  obtain ⟨herr, htrace⟩ := doTxn_of_ends he (s := s.setTodo ts) h.ecode hd
  have hupTo : wordPath op = upTo op s.fsm ++ [.idle] := by
    rw [← (upTo_nextState op s.fsm h.path .idle hnext).2, upTo_idle hi]
  have hrequests := h.requests
  rw [hleft, List.append_nil] at hrequests
  exact
    { states := by
        rw [htrace, tracedStates_state, if_pos herr, hupTo]
        exact congrArg (· ++ _) h.states
      requests := fun _ => by
        rw [htrace, tracedRequests_state, ← requests_wordPath hi, hupTo, List.flatMap_append, ← hrequests]
        exact (List.append_nil _).symm
      length := fun hl => nomatch herr.symm.trans hl
      rng := fun hl => nomatch herr.symm.trans hl }

theorem tracedStates_failed (e : Err) : tracedStates (s.failed op e).trace = tracedStates s.trace ++ [.fail, .wipe, .idle] :=
  tracedStates_append [.state .idle, .state .wipe, .state .fail] s.trace

theorem tracedRequests_failed (e : Err) : tracedRequests (s.failed op e).trace = tracedRequests s.trace :=
  (tracedRequests_append [.state .idle, .state .wipe, .state .fail] s.trace).trans (List.append_nil _)

/-- CHECK that fails leads to an ERR_LENGTH completion (60_exceptions.md R278). -/
theorem OnPath.ended_of_length (h : OnPath op k d s) (hf : s.fsm = .check) :
    Ended op k d ((s.setTodo ts).clearOutputs.failed op .length) := by
  obtain ⟨-, -, -, -, hpath, hstates, hrequests, -⟩ := h
  rw [hf] at hpath
  rw [hf, upTo_check hpath] at hstates hrequests
  exact
    { states := (tracedStates_failed _).trans (congrArg (· ++ _) hstates)
      requests := nofun
      length := fun _ => (tracedRequests_failed _).trans (List.append_eq_nil_iff.1 hrequests).1
      rng := nofun }

/-- Up to the end of FETCH_RND a word only draws. -/
theorem requests_fetchRnd (op : Instr) (k : Rank) :
    [.check, .fetchRnd].flatMap (stateRequests op k) = List.replicate (drawCount op) .draw := by
  have hfetch : stateRequests op k .fetchRnd = (List.range (drawCount op)).map fun _ => .draw :=
    (List.flatMap_map _ _ _).trans List.map_eq_flatMap.symm
  have hpath : [.check, .fetchRnd].flatMap (stateRequests op k) = stateRequests op k .fetchRnd ++ [] := rfl
  rw [hpath, hfetch, List.append_nil, List.map_const', List.length_range]

/-- A draw that fails leads to an ERR_RNG completion (60_exceptions.md R278). -/
theorem OnPath.ended_of_rng (h : OnPath op k d s) (hf : s.fsm = .fetchRnd) :
    Ended op k d ((s.setTodo ts).drawn.failed op .rng) := by
  obtain ⟨-, -, -, -, hpath, hstates, hrequests, hdraws⟩ := h
  have hshow := Shows.of_drawn (s.setTodo ts)
  rw [hf] at hpath
  rw [hf, upTo_fetchRnd hpath] at hstates hrequests
  have hdrawn : tracedRequests s.trace = List.replicate (tracedRequests s.trace).length .draw :=
    (List.append_eq_replicate_iff.1 (hrequests.trans (requests_fetchRnd op k))).2.1
  generalize (tracedRequests s.trace).length = n at hdrawn
  rw [hdrawn, List.count_replicate_self] at hdraws
  exact
    { states := (tracedStates_failed _).trans (congrArg (· ++ _) (hshow.states.trans hstates))
      requests := nofun
      length := nofun
      rng := fun _ => by
        refine ⟨n + 1, (tracedRequests_failed _).trans ?_, hshow.draws.trans (congrArg (· + 1) hdraws)⟩
        rw [hshow.requests, List.replicate_succ', ← hdrawn]
        rfl }

end

/-! ### A turn that completes a word -/

section
variable {P : Provider} {op : Instr} {k : Rank} {d n : Nat} {s u : State}

/-- Once no transaction is left, a longer turn does no more. -/
theorem settle_add_of_todo_nil (m : Nat) (h : (settle P n s).todo = []) : settle P (n + m) s = settle P n s := by
  induction n generalizing s with
  | zero => exact settle_of_todo_nil P _ s h
  | succ n ih =>
    rw [Nat.add_right_comm]
    cases hb : blockStep P s with
    | moved u =>
      rw [settle_succ_of_moved hb, settle_succ_of_moved hb] at *
      exact ih h
    | rest u => rw [settle_succ_of_rest hb, settle_succ_of_rest hb]

/-- A turn that completes a word after an error has made FAIL and WIPE. -/
theorem OnPath.settle_raiseError (h : OnPath op k d s) (hclr : s.fsm ≠ .clr) (hs : u.status = s.status)
    (hw : u.opw = s.opw) {e : Err} (hidle : (settle P n (u.raiseError e)).status.busy = false) :
    settle P n (u.raiseError e) = u.failed op e := by
  have hsequencer := SequencerOk.settle (.inr (h.busy.raiseError hclr hs hw e)) P n
  rw [← settle_add_of_todo_nil 2 (hsequencer.idle hidle).todo]
  exact Machine.settle_raiseError (hw ▸ h.word) e n

/-- A turn that completes a word leaves its trace. -/
theorem OnPath.ended_settle (h : OnPath op k d s) (hi : hostIssuable true op = true)
    (hidle : (settle P n s).status.busy = false) : Ended op k d (settle P n s) := by
  induction n generalizing s with
  | zero => exact nomatch (congrArg Status.busy h.busy.status).symm.trans hidle
  | succ n ih =>
    rcases blockStep_cases P s with ⟨ht, -⟩ | ⟨w, ts, ht, hr, hb⟩ | ⟨w, ts, x, xs, ht, -, hb⟩ | ⟨t, ts, u, ht, hd, hb⟩ |
      ⟨ts, ht, hb⟩ | ⟨op', ts, ht, hb⟩ | ⟨op', i, ts, ht, hb⟩
    -- nothing to do
    · exact absurd ht h.busy.todo
    all_goals
      have hhead := h.busy.belongs _ (ht ▸ List.mem_cons_self)
    -- a word of K-PKE, finished
    · obtain ⟨hstate, hword⟩ := Bool.and_eq_true_iff.1 hhead
      rw [settle_succ_of_moved hb] at hidle ⊢
      exact ih (h.advance ht (opTxn_control P w _) (opTxn_shows hword hr) (ends_of_kpkeState hstate)) hidle
    -- a word of K-PKE, unfinished
    · rw [settle_succ_of_rest hb] at hidle
      have hstatus : (opTxn P w (s.setTodo ts)).1.status = statusTaken :=
        (opTxn_control P w (s.setTodo ts)).status.trans h.busy.status
      exact nomatch (congrArg Status.busy hstatus).symm.trans hidle
    -- any other transaction, finished
    · rw [settle_succ_of_moved hb] at hidle ⊢
      cases he : t.ends with
      | true =>
        have hu := h.busy.ends ht he hd
        rw [State.advance_idle hu.fsm, settle_of_todo_nil P n u hu.todo]
        exact h.ended_of_ends hi ht he hd
      | false =>
        have hcontrol := doTxn_control P t (s.setTodo ts) he
        have hshow := doTxn_shows P (s.setTodo ts) he (by rintro w rfl; cases hd)
        rw [hd] at hcontrol hshow
        exact ih (h.advance ht hcontrol hshow (not_end_of_belongs he hhead)) hidle
    -- the sampler's loop, unfinished
    · rw [settle_succ_of_rest hb] at hidle
      exact nomatch (congrArg Status.busy h.busy.status).symm.trans hidle
    -- CHECK raises ERR_LENGTH
    · rw [settle_succ_of_moved hb] at hidle ⊢
      rw [h.settle_raiseError (u := (s.setTodo ts).clearOutputs) (not_end_of_belongs rfl hhead).2 rfl rfl hidle]
      exact h.ended_of_length (eq_of_beq hhead)
    -- a draw raises ERR_RNG
    · rw [settle_succ_of_moved hb] at hidle ⊢
      rw [h.settle_raiseError (u := (s.setTodo ts).drawn) (not_end_of_belongs rfl hhead).2 rfl rfl hidle]
      exact h.ended_of_rng (eq_of_beq hhead)

end

/-- A word that a ready block completes leaves its trace, whatever the turn allows. -/
theorem State.Ready.ended {i : Instr} {k : Rank} {s t : State} (hs : s.Ready) (hi : hostIssuable true i = true)
    (hk : (rankOfArg i.arg).getD .k2 = k) (he : exec i s = .next t) (hidle : t.status.busy = false) :
    Ended i k s.draws t := by
  obtain ⟨hw, -⟩ := exec_next_cases he
  obtain rfl := Host.Outcome.next.inj ((hs.exec_word hw hi).symm.trans he)
  exact (hs.onPath hw hi hk).ended_settle hi hidle

/-- Settles O56: the states in the trace are those of the path up to the state the block is in. -/
theorem pathTable : Obligations.PathTable := fun _ _ _ hs _ _ hi he hidle => (hs.ended hi rfl he hidle).states

/-- Settles O57: the requests in the trace are those of the path; an error comes before any request but a draw. -/
theorem requestOrder : Obligations.RequestOrder := fun i k s t hs _ hi hk he hidle => by
  have hended := hs.ended hi rfl he hidle
  refine ⟨fun herr => (hended.requests herr).trans ?_, hended.length, hended.rng⟩
  rcases hk with hk | ⟨mask, rfl⟩
  · rw [hk, rankOfArg_rankArg, Option.getD_some]
  · rfl

end Sys2Proof.Machine
end
